-- ==== Sys2Proof/Word.lean ====
section
/-! DEFINITION. The words of the FD340 and the three-phase triple that its per-phase items are held in
(spec 00_scope.md, "Conventions": phase order A, B, C; "Time and units": the widths). -/

namespace Sys2Proof

/-- One byte of the message link. -/
abbrev Byte := BitVec 8

/-- A 16-bit field: a shape point, a current code, a serial, a CRC register. -/
abbrev Half := BitVec 16

/-- A 32-bit field: a phase in units of 1/2^32 turn, a duration value, a setup value. -/
abbrev Word := BitVec 32

/-- A 64-bit field: a sample index. -/
abbrev Long := BitVec 64

/-- The three output phases. -/
inductive Phase where
  | a
  | b
  | c
deriving DecidableEq, Repr

/-- One item for each phase, in the order A, B, C. -/
structure PerPhase (α : Type) where
  a : α
  b : α
  c : α
deriving DecidableEq, Repr

/-- The item of one phase. -/
def PerPhase.get {α : Type} (t : PerPhase α) : Phase → α
  | .a => t.a
  | .b => t.b
  | .c => t.c

/-- The triple with one phase's item replaced. -/
def PerPhase.set {α : Type} (t : PerPhase α) (p : Phase) (x : α) : PerPhase α :=
  match p with
  | .a => { t with a := x }
  | .b => { t with b := x }
  | .c => { t with c := x }

/-- The same item on each phase. -/
def PerPhase.same {α : Type} (x : α) : PerPhase α := { a := x, b := x, c := x }

/-- A function applied to each phase's item. -/
def PerPhase.map {α β : Type} (f : α → β) (t : PerPhase α) : PerPhase β :=
  { a := f t.a, b := f t.b, c := f t.c }

/-- A function of two items applied phase by phase. -/
def PerPhase.map2 {α β γ : Type} (f : α → β → γ) (t : PerPhase α) (u : PerPhase β) : PerPhase γ :=
  { a := f t.a u.a, b := f t.b u.b, c := f t.c u.c }

/-- A function of three items applied phase by phase. -/
def PerPhase.map3 {α β γ δ : Type} (f : α → β → γ → δ) (t : PerPhase α) (u : PerPhase β)
    (v : PerPhase γ) : PerPhase δ :=
  { a := f t.a u.a v.a, b := f t.b u.b v.b, c := f t.c u.c v.c }

/-- The three items in the order A, B, C. -/
def PerPhase.toList {α : Type} (t : PerPhase α) : List α := [t.a, t.b, t.c]

/-- Whether any phase's item is set. -/
def PerPhase.any (t : PerPhase Bool) : Bool := t.a || t.b || t.c

/-- Whether every phase's item is set. -/
def PerPhase.every (t : PerPhase Bool) : Bool := t.a && t.b && t.c

end Sys2Proof
end

