-- ==== Sys2Proof/Config.lean ====
section
/-! DEFINITION. What the part fixes (capacities, codes of the link) and the two free values of the model: the
check engine's chosen amount, and the order of own moments of the part that fall together. -/

namespace Sys2Proof.Config

/-- The check engine's choice for its `n`-th request, before it is brought into 32 to 256 (R41: "The choice is
the engine's, made afresh for each request"). A free value: it has no body, so nothing can be proved of it.
Log entry 1. -/
opaque engineChoice : Nat → Nat

/-- Which of several own moments that fall together is taken first, the `n`-th time the queue of commands does
not say (R112, R132, R145: "either may be taken first"). A free value: it has no body. Log entry 2. -/
opaque raceChoice : Nat → Nat

/-- The amount the check engine chooses for its `n`-th request: 32 to 256, otherwise free (R41). -/
def engineAmount (n : Nat) : Nat := 32 + engineChoice n % 225

/-- The first byte of a request frame (R166). -/
def requestSync : Byte := 0x5A#8

/-- The first byte of a reply frame (spec 09, "Frames"). -/
def replySync : Byte := 0xA5#8

/-- The largest payload of a request frame, in bytes (R168). -/
def maxPayload : Nat := 1024

/-- Points of a shape (spec 02, section 2.1). -/
def pointsPerShape : Nat := 1024

/-- The most cues the queue holds (R86). -/
def cueCapacity : Nat := 256

/-- The most records the result queue holds (R156). -/
def resultCapacity : Nat := 64

/-- The greatest depth of a phrase (R66). -/
def maxDepth : Nat := 32

/-- Unity limiter gain (R138, R139). -/
def unityGain : Nat := 32768

/-- Accesses the shape memory serves in the period of each sample (R38). -/
def accessesPerSample : Nat := 32

/-- Accesses left to link-side work in every sample period, whatever the synthesizer reads (R38). -/
def leftoverAccesses : Nat := 20

end Sys2Proof.Config
end

