-- ==== Sys2Proof/Syntax.lean ====
section
/-! DEFINITION. The commands of the FD340: one constructor of `Instr` for each row of spec/opcode_table.json,
with the operands the spec gives the row. A request's operands are the fields its frame carries
(spec 09_message_link.md, section 9.6), its tag first. -/

namespace Sys2Proof

/-- The seven ramps of the synthesizer (spec 01, section 1.8). -/
inductive RampId where
  | frequency
  | primary (p : Phase)
  | overlay (p : Phase)
deriving DecidableEq, Repr

/-- One phase record of a template payload as the link carries it (spec 09, "Template payload"). -/
structure PhaseWire where
  amplitude    : Half
  offset       : Half
  slot         : Byte
  overlaySlot  : Byte
  harmonic     : Byte
  overlayAmp   : Half
  overlayPhase : Half
deriving DecidableEq, Repr

/-- A template payload as the link carries it (spec 09, "Template payload"). -/
structure TemplateWire where
  index      : Byte
  startKind  : Byte
  startAngle : Half
  durKind    : Byte
  durValue   : Word
  levelRamp  : Half
  frequency  : Half
  freqRamp   : Half
  phases     : PerPhase PhaseWire
deriving DecidableEq, Repr

/-- One cue of a CUE_ADD as the link carries it (spec 09, "Cue"). The two override flags are the presence of
the two optional fields; the other flag bits are not read (R89). -/
structure CueWire where
  kind     : Byte
  index    : Byte
  rep      : Byte
  duration : Option (Byte × Word)
  start    : Option (Byte × Half)
deriving DecidableEq, Repr

/-- The commands of the block, one constructor for each row of spec/opcode_table.json. -/
inductive Instr where
  /-- POWER_ON (R175): power-on starts a full reset. -/
  | powerOn
  /-- RESET_N (R175): assertion of RESET_N starts a full reset. -/
  | resetN
  /-- FULL_RESET_COMPLETE (R181): completion of a full reset, with the levels of the two rate straps (R165). -/
  | fullResetComplete (strap2 strap1 : Bool)
  /-- SAMPLE (R1): one sample, with TRIG's level and the three current codes that arrive with it. -/
  | sample (trig : Bool) (iA iB iC : Half)
  /-- RAMP_COMPLETE (R18): the named ramp's progress reaches its length. -/
  | rampComplete (ramp : RampId)
  /-- QUALIFIED_EDGE (R110): a qualified change of TRIG takes place. -/
  | qualifiedEdge
  /-- STEP_START (R113): the staged step starts before its first sample. -/
  | stepStart
  /-- STEP_END (R117): a closed step ends after its last sample. -/
  | stepEnd
  /-- END_MARKER_HANDOVER (R118): an end marker is taken behind an open step. -/
  | endMarkerHandover
  /-- TRIGGER_TIMEOUT (R112): the trigger timeout expires. -/
  | triggerTimeout
  /-- TRIP (R144): the trip raised at the last sample is taken. -/
  | trip
  /-- STOP_RAMP_COMPLETE (R123): the stop ramp is complete and the run enters OFF. -/
  | stopRampComplete
  /-- BYTE_RECEIVED (R166, R167): a byte of the link, with or without a framing error. -/
  | byteReceived (byte : Byte) (framingError : Bool)
  /-- GAP_TIMEOUT (R167): more than 2 ms pass without a byte of the frame in assembly. -/
  | gapTimeout
  /-- BADFRAME (R169): a complete frame whose CRC bytes differ from the computed CRC by `crcError`. -/
  | badframe (kind tag : Byte) (payload : List Byte) (crcError : Half)
  /-- UNKNOWN_KIND (R170): a frame with a correct CRC and a kind the kind table does not list. -/
  | unknownKind (kind tag : Byte) (payload : List Byte)
  /-- REPLY_SENT (R171): the last byte of a reply has been sent. -/
  | replySent
  /-- IDENTIFY (R177). -/
  | identify (tag : Byte)
  /-- STATUS (R178). -/
  | status (tag : Byte)
  /-- RESET (R176). -/
  | reset (tag : Byte)
  /-- SETUP_WRITE (R187, R188): pairs of parameter id and value. -/
  | setupWrite (tag : Byte) (pairs : List (Byte × Word))
  /-- SETUP_READ (R190): parameter ids. -/
  | setupRead (tag : Byte) (ids : List Byte)
  /-- NOTICE_READ (R185). -/
  | noticeRead (tag : Byte)
  /-- NOTICE_CLEAR (R183): a flag set. -/
  | noticeClear (tag : Byte) (flagSet : Half)
  /-- NOTICE_MASK (R184): a mask set and the enable byte. -/
  | noticeMask (tag : Byte) (masks : Half) (enable : Byte)
  /-- SHAPE_OPEN (R32). -/
  | shapeOpen (tag slot : Byte)
  /-- SHAPE_APPEND (R33). -/
  | shapeAppend (tag slot : Byte) (points : List Half)
  /-- SHAPE_APPEND_COMPLETE (R34). -/
  | shapeAppendComplete
  /-- SHAPE_ERASE (R35). -/
  | shapeErase (tag slot : Byte)
  /-- SHAPE_INFO (R36). -/
  | shapeInfo (tag slot : Byte)
  /-- SHAPE_SUM (R40, R43). -/
  | shapeSum (tag slot gen : Byte) (start count crc : Half)
  /-- SHAPE_SUM_COMPLETE (R43). -/
  | shapeSumComplete
  /-- SHAPE_COMPARE (R40, R44). -/
  | shapeCompare (tag slot gen : Byte) (start count pad : Half) (points : List Half)
  /-- SHAPE_COMPARE_COMPLETE (R45). -/
  | shapeCompareComplete
  /-- TEMPLATE_DEFINE (R51, R55). -/
  | templateDefine (tag : Byte) (template : TemplateWire)
  /-- TEMPLATE_DELETE (R57). -/
  | templateDelete (tag index : Byte)
  /-- TEMPLATE_READ (R58). -/
  | templateRead (tag index : Byte)
  /-- PHRASE_DEFINE (R67): index, predecessor (255 when absent) and template. -/
  | phraseDefine (tag index pred template : Byte)
  /-- PHRASE_DELETE (R70). -/
  | phraseDelete (tag index : Byte)
  /-- PHRASE_READ (R71). -/
  | phraseRead (tag index : Byte)
  /-- CUE_ADD (R90, R91). -/
  | cueAdd (tag : Byte) (cues : List CueWire)
  /-- CUE_REWIND (R99). -/
  | cueRewind (tag : Byte)
  /-- RUN_CLEAR (R101). -/
  | runClear (tag : Byte)
  /-- RUN_START (R105, R122). -/
  | runStart (tag : Byte)
  /-- RUN_PAUSE (R124). -/
  | runPause (tag : Byte)
  /-- RUN_RESUME (R126). -/
  | runResume (tag : Byte)
  /-- RUN_FORCE whose considered action is DISABLE (R127, R128); the lower actions of the set beside it. -/
  | runForceDisable (tag : Byte) (abortToo skipToo : Bool)
  /-- RUN_FORCE whose considered action is ABORT (R127, R129); whether SKIP is in the set as well. -/
  | runForceAbort (tag : Byte) (skipToo : Bool)
  /-- RUN_FORCE whose considered action is SKIP (R127, R130). -/
  | runForceSkip (tag : Byte)
  /-- FAULT_CLEAR (R133, R148). -/
  | faultClear (tag : Byte)
  /-- OUTPUT_ENABLE (R104). -/
  | outputEnable (tag : Byte)
  /-- RESULT_READ (R160): the requested count. -/
  | resultRead (tag count : Byte)
deriving DecidableEq, Repr

end Sys2Proof
end

