-- ==== Sys2Proof/Decode.lean ====
section
/-! DEFINITION. The byte layouts of the requests (spec 09_message_link.md, section 9.6), read and written: byte
order, the kind table, the payload of each request, and reading a payload back into a command. All multi-byte
fields are little-endian (R179). The opcode table gives no row any bits, so `decodeTableWord` answers none. -/

namespace Sys2Proof

/-! ## Byte order -/

/-- A 16-bit field as two bytes, low byte first. -/
def le16 (h : Half) : List Byte := [h.setWidth 8, (h >>> 8).setWidth 8]

/-- A 32-bit field as four bytes, low byte first. -/
def le32 (w : Word) : List Byte :=
  [w.setWidth 8, (w >>> 8).setWidth 8, (w >>> 16).setWidth 8, (w >>> 24).setWidth 8]

/-- A 64-bit field as eight bytes, low byte first. -/
def le64 (l : Long) : List Byte :=
  le32 (l.setWidth 32) ++ le32 ((l >>> 32).setWidth 32)

/-- The 16-bit field that two bytes hold, the low one first. -/
def half (lo hi : Byte) : Half := hi.setWidth 16 <<< 8 ||| lo.setWidth 16

/-- The 32-bit field that four bytes hold, the lowest first. -/
def word (b0 b1 b2 b3 : Byte) : Word :=
  (half b2 b3).setWidth 32 <<< 16 ||| (half b0 b1).setWidth 32

/-! ## The kind table -/

/-- The thirty request kinds of the kind table (spec 09, "Kinds and payloads"). -/
inductive Kind where
  | identify | status | reset | setupWrite | setupRead | noticeRead | noticeClear | noticeMask
  | shapeOpen | shapeAppend | shapeErase | shapeInfo | shapeSum | shapeCompare
  | templateDefine | templateDelete | templateRead
  | phraseDefine | phraseDelete | phraseRead
  | cueAdd | cueRewind | runClear
  | runStart | runPause | runResume | runForce | faultClear | outputEnable | resultRead
deriving DecidableEq, Repr

/-- The code of a kind (spec 09, "Kinds and payloads"). -/
def Kind.code : Kind → Byte
  | .identify => 0x01#8 | .status => 0x02#8 | .reset => 0x03#8
  | .setupWrite => 0x04#8 | .setupRead => 0x05#8
  | .noticeRead => 0x06#8 | .noticeClear => 0x07#8 | .noticeMask => 0x08#8
  | .shapeOpen => 0x10#8 | .shapeAppend => 0x11#8 | .shapeErase => 0x12#8
  | .shapeInfo => 0x13#8 | .shapeSum => 0x14#8 | .shapeCompare => 0x15#8
  | .templateDefine => 0x20#8 | .templateDelete => 0x21#8 | .templateRead => 0x22#8
  | .phraseDefine => 0x28#8 | .phraseDelete => 0x29#8 | .phraseRead => 0x2A#8
  | .cueAdd => 0x30#8 | .cueRewind => 0x31#8 | .runClear => 0x32#8
  | .runStart => 0x38#8 | .runPause => 0x39#8 | .runResume => 0x3A#8
  | .runForce => 0x3B#8 | .faultClear => 0x3C#8 | .outputEnable => 0x3D#8
  | .resultRead => 0x40#8

/-- Every kind of the kind table, in its order. -/
def Kind.all : List Kind :=
  [.identify, .status, .reset, .setupWrite, .setupRead, .noticeRead, .noticeClear, .noticeMask,
   .shapeOpen, .shapeAppend, .shapeErase, .shapeInfo, .shapeSum, .shapeCompare,
   .templateDefine, .templateDelete, .templateRead, .phraseDefine, .phraseDelete, .phraseRead,
   .cueAdd, .cueRewind, .runClear, .runStart, .runPause, .runResume, .runForce, .faultClear,
   .outputEnable, .resultRead]

/-- The kind a code names, none where the kind table does not list it (R170). -/
def Kind.ofCode (code : Byte) : Option Kind := Kind.all.find? fun k => k.code == code

/-! ## Writing payloads -/

/-- The 11 bytes of a phase record (spec 09, "Template payload"). -/
def phaseBytes (p : PhaseWire) : List Byte :=
  le16 p.amplitude ++ le16 p.offset ++ [p.slot, p.overlaySlot, p.harmonic]
    ++ le16 p.overlayAmp ++ le16 p.overlayPhase

/-- The 48 bytes of a template payload (spec 09, "Template payload"). -/
def templateBytes (t : TemplateWire) : List Byte :=
  [t.index, t.startKind] ++ le16 t.startAngle ++ [t.durKind] ++ le32 t.durValue
    ++ le16 t.levelRamp ++ le16 t.frequency ++ le16 t.freqRamp
    ++ phaseBytes t.phases.a ++ phaseBytes t.phases.b ++ phaseBytes t.phases.c

/-- The flags byte of a cue: bit 0 the duration override, bit 1 the start override (spec 09, "Cue"). -/
def cueFlags (c : CueWire) : Byte :=
  (if c.duration.isSome then 1#8 else 0#8) ||| (if c.start.isSome then 2#8 else 0#8)

/-- The 4, 7, 9 or 12 bytes of a cue, the duration override before the start override (spec 09, "Cue"). -/
def cueBytes (c : CueWire) : List Byte :=
  [c.kind, c.index, c.rep, cueFlags c]
    ++ (match c.duration with
        | none => []
        | some d => d.1 :: le32 d.2)
    ++ (match c.start with
        | none => []
        | some t => t.1 :: le16 t.2)

/-- The action set of a RUN_FORCE: bit 0 DISABLE, bit 1 ABORT, bit 2 SKIP (spec 09, "Kinds and payloads"). -/
def actionSet (disable abort skip : Bool) : Byte :=
  (if disable then 1#8 else 0#8) ||| (if abort then 2#8 else 0#8) ||| (if skip then 4#8 else 0#8)

/-- The kind, tag and payload of the request frame a command stands for, none for a command that is not a
request of the kind table. -/
def Instr.request? : Instr → Option (Kind × Byte × List Byte)
  | .identify tag => some (.identify, tag, [])
  | .status tag => some (.status, tag, [])
  | .reset tag => some (.reset, tag, [])
  | .setupWrite tag pairs => some (.setupWrite, tag, pairs.flatMap fun p => p.1 :: le32 p.2)
  | .setupRead tag ids => some (.setupRead, tag, ids)
  | .noticeRead tag => some (.noticeRead, tag, [])
  | .noticeClear tag flagSet => some (.noticeClear, tag, le16 flagSet)
  | .noticeMask tag masks enable => some (.noticeMask, tag, le16 masks ++ [enable])
  | .shapeOpen tag slot => some (.shapeOpen, tag, [slot])
  | .shapeAppend tag slot points => some (.shapeAppend, tag, slot :: points.flatMap le16)
  | .shapeErase tag slot => some (.shapeErase, tag, [slot])
  | .shapeInfo tag slot => some (.shapeInfo, tag, [slot])
  | .shapeSum tag slot gen start count crc =>
      some (.shapeSum, tag, [slot, gen] ++ le16 start ++ le16 count ++ le16 crc)
  | .shapeCompare tag slot gen start count pad points =>
      some (.shapeCompare, tag, [slot, gen] ++ le16 start ++ le16 count ++ le16 pad ++ points.flatMap le16)
  | .templateDefine tag t => some (.templateDefine, tag, templateBytes t)
  | .templateDelete tag index => some (.templateDelete, tag, [index])
  | .templateRead tag index => some (.templateRead, tag, [index])
  | .phraseDefine tag index pred template => some (.phraseDefine, tag, [index, pred, template])
  | .phraseDelete tag index => some (.phraseDelete, tag, [index])
  | .phraseRead tag index => some (.phraseRead, tag, [index])
  | .cueAdd tag cues => some (.cueAdd, tag, cues.flatMap cueBytes)
  | .cueRewind tag => some (.cueRewind, tag, [])
  | .runClear tag => some (.runClear, tag, [])
  | .runStart tag => some (.runStart, tag, [])
  | .runPause tag => some (.runPause, tag, [])
  | .runResume tag => some (.runResume, tag, [])
  | .runForceDisable tag abortToo skipToo => some (.runForce, tag, [actionSet true abortToo skipToo])
  | .runForceAbort tag skipToo => some (.runForce, tag, [actionSet false true skipToo])
  | .runForceSkip tag => some (.runForce, tag, [actionSet false false true])
  | .faultClear tag => some (.faultClear, tag, [])
  | .outputEnable tag => some (.outputEnable, tag, [])
  | .resultRead tag count => some (.resultRead, tag, [count])
  | .powerOn => none
  | .resetN => none
  | .fullResetComplete _ _ => none
  | .sample _ _ _ _ => none
  | .rampComplete _ => none
  | .qualifiedEdge => none
  | .stepStart => none
  | .stepEnd => none
  | .endMarkerHandover => none
  | .triggerTimeout => none
  | .trip => none
  | .stopRampComplete => none
  | .byteReceived _ _ => none
  | .gapTimeout => none
  | .badframe _ _ _ _ => none
  | .unknownKind _ _ _ => none
  | .replySent => none
  | .shapeAppendComplete => none
  | .shapeSumComplete => none
  | .shapeCompareComplete => none

/-- Whether a request carries a number of units the kind table allows it (R170; R33, R44, R89, R187, R190). Every
other request's payload has one length, which its operands always fill. -/
def Instr.lengthOk : Instr → Bool
  | .setupWrite _ pairs => 1 ≤ pairs.length && pairs.length ≤ 32
  | .setupRead _ ids => 1 ≤ ids.length && ids.length ≤ 32
  | .shapeAppend _ _ points => 1 ≤ points.length && points.length ≤ 511
  | .shapeCompare _ _ _ _ _ _ points => points.length ≤ 256
  | .cueAdd _ cues => 1 ≤ cues.length && cues.length ≤ 32
  | _ => true

/-! ## Reading payloads -/

/-- Setup pairs of five bytes each, none where the payload is not a whole number of them (R187). -/
def readPairs : List Byte → Option (List (Byte × Word))
  | [] => some []
  | i :: b0 :: b1 :: b2 :: b3 :: rest => (readPairs rest).map fun ps => (i, word b0 b1 b2 b3) :: ps
  | _ => none

/-- Points of two bytes each, none where the payload holds half a point (R33). -/
def readPoints : List Byte → Option (List Half)
  | [] => some []
  | lo :: hi :: rest => (readPoints rest).map fun ps => half lo hi :: ps
  | _ => none

/-- The override fields that a cue's flags declare, and the bytes after them (spec 09, "Cue"), none where the
cue declares more bytes than remain (R170). -/
def readOverrides (flags : Byte) (rest : List Byte) :
    Option (Option (Byte × Word) × Option (Byte × Half) × List Byte) :=
  let start (rest : List Byte) : Option (Option (Byte × Half) × List Byte) :=
    if flags.getLsbD 1 then
      match rest with
      | k :: lo :: hi :: rest' => some (some (k, half lo hi), rest')
      | _ => none
    else some (none, rest)
  if flags.getLsbD 0 then
    match rest with
    | k :: b0 :: b1 :: b2 :: b3 :: rest' =>
        (start rest').map fun r => (some (k, word b0 b1 b2 b3), r.1, r.2)
    | _ => none
  else (start rest).map fun r => (none, r.1, r.2)

/-- Cues by the lengths their flags declare, none where the payload does not divide exactly into whole cues
(R89). `fuel` bounds the cues read; the payload's length is enough. -/
def readCues : Nat → List Byte → Option (List CueWire)
  | _, [] => some []
  | 0, _ :: _ => none
  | fuel + 1, kind :: index :: rep :: flags :: rest =>
      match readOverrides flags rest with
      | none => none
      | some (duration, start, rest') =>
          (readCues fuel rest').map fun cs =>
            { kind := kind, index := index, rep := rep, duration := duration, start := start } :: cs
  | _ + 1, _ => none

/-- A phase record of eleven bytes and the bytes after it (spec 09, "Template payload"). -/
def readPhase : List Byte → Option (PhaseWire × List Byte)
  | a0 :: a1 :: o0 :: o1 :: slot :: ov :: harmonic :: x0 :: x1 :: y0 :: y1 :: rest =>
      some ({ amplitude := half a0 a1, offset := half o0 o1, slot := slot, overlaySlot := ov,
              harmonic := harmonic, overlayAmp := half x0 x1, overlayPhase := half y0 y1 }, rest)
  | _ => none

/-- Three phase records that fill the bytes exactly. -/
def readPhases (bytes : List Byte) : Option (PerPhase PhaseWire) :=
  match readPhase bytes with
  | none => none
  | some (a, bytesB) =>
    match readPhase bytesB with
    | none => none
    | some (b, bytesC) =>
      match readPhase bytesC with
      | some (c, []) => some { a := a, b := b, c := c }
      | _ => none

/-- A template payload of 48 bytes (spec 09, "Template payload"). -/
def readTemplate : List Byte → Option TemplateWire
  | index :: sk :: a0 :: a1 :: dk :: v0 :: v1 :: v2 :: v3 :: l0 :: l1 :: f0 :: f1 :: r0 :: r1 :: rest =>
      (readPhases rest).map fun phases =>
        { index := index, startKind := sk, startAngle := half a0 a1, durKind := dk,
          durValue := word v0 v1 v2 v3, levelRamp := half l0 l1, frequency := half f0 f1,
          freqRamp := half r0 r1, phases := phases }
  | _ => none

/-- What a complete frame with a correct CRC and a listed kind carries. -/
inductive Parsed where
  /-- A request for its owning block. -/
  | request (i : Instr)
  /-- A RUN_FORCE whose set names no action (R127). -/
  | emptyForce
  /-- A payload whose length or units the kind does not allow (R170). -/
  | badLength
deriving DecidableEq, Repr

/-- A request whose units have been read: REFUSED, LENGTH where there are too few or too many (R170). -/
def Parsed.ofUnits {α : Type} (make : α → Instr) : Option α → Parsed
  | none => .badLength
  | some x => if (make x).lengthOk then .request (make x) else .badLength

/-- A RUN_FORCE by the highest action of its set (R127); the set's other bits are not read. -/
def Parsed.ofActionSet (tag set : Byte) : Parsed :=
  if set.getLsbD 0 then .request (.runForceDisable tag (set.getLsbD 1) (set.getLsbD 2))
  else if set.getLsbD 1 then .request (.runForceAbort tag (set.getLsbD 2))
  else if set.getLsbD 2 then .request (.runForceSkip tag)
  else .emptyForce

/-- A request without a payload. -/
def Parsed.ofNone (i : Instr) : List Byte → Parsed
  | [] => .request i
  | _ => .badLength

/-- A request with a payload of one byte. -/
def Parsed.ofOne (make : Byte → Parsed) : List Byte → Parsed
  | [a] => make a
  | _ => .badLength

/-- A request with a payload of two bytes. -/
def Parsed.ofTwo (make : Byte → Byte → Instr) : List Byte → Parsed
  | [a, b] => .request (make a b)
  | _ => .badLength

/-- A request with a payload of three bytes. -/
def Parsed.ofThree (make : Byte → Byte → Byte → Instr) : List Byte → Parsed
  | [a, b, c] => .request (make a b c)
  | _ => .badLength

/-- A SHAPE_APPEND: the slot, then points (spec 09, "Kinds and payloads"). -/
def Parsed.ofAppend (tag : Byte) : List Byte → Parsed
  | slot :: bytes => Parsed.ofUnits (Instr.shapeAppend tag slot) (readPoints bytes)
  | [] => .badLength

/-- A SHAPE_SUM: slot, generation, start, count and CRC (spec 09, "Kinds and payloads"). -/
def Parsed.ofSum (tag : Byte) : List Byte → Parsed
  | [slot, gen, s0, s1, n0, n1, c0, c1] =>
      .request (.shapeSum tag slot gen (half s0 s1) (half n0 n1) (half c0 c1))
  | _ => .badLength

/-- A SHAPE_COMPARE: slot, generation, start, region count and pad, then points (spec 09, "Kinds and payloads"). -/
def Parsed.ofCompare (tag : Byte) : List Byte → Parsed
  | slot :: gen :: s0 :: s1 :: n0 :: n1 :: p0 :: p1 :: bytes =>
      Parsed.ofUnits (Instr.shapeCompare tag slot gen (half s0 s1) (half n0 n1) (half p0 p1))
        (readPoints bytes)
  | _ => .badLength

/-- What a frame of a listed kind carries (R170; spec 09, "Kinds and payloads"). -/
def parseRequest (kind : Kind) (tag : Byte) (payload : List Byte) : Parsed :=
  match kind with
  | .identify => Parsed.ofNone (.identify tag) payload
  | .status => Parsed.ofNone (.status tag) payload
  | .reset => Parsed.ofNone (.reset tag) payload
  | .setupWrite => Parsed.ofUnits (Instr.setupWrite tag) (readPairs payload)
  | .setupRead => Parsed.ofUnits (Instr.setupRead tag) (some payload)
  | .noticeRead => Parsed.ofNone (.noticeRead tag) payload
  | .noticeClear => Parsed.ofTwo (fun lo hi => .noticeClear tag (half lo hi)) payload
  | .noticeMask => Parsed.ofThree (fun lo hi enable => .noticeMask tag (half lo hi) enable) payload
  | .shapeOpen => Parsed.ofOne (fun slot => .request (.shapeOpen tag slot)) payload
  | .shapeAppend => Parsed.ofAppend tag payload
  | .shapeErase => Parsed.ofOne (fun slot => .request (.shapeErase tag slot)) payload
  | .shapeInfo => Parsed.ofOne (fun slot => .request (.shapeInfo tag slot)) payload
  | .shapeSum => Parsed.ofSum tag payload
  | .shapeCompare => Parsed.ofCompare tag payload
  | .templateDefine => Parsed.ofUnits (Instr.templateDefine tag) (readTemplate payload)
  | .templateDelete => Parsed.ofOne (fun index => .request (.templateDelete tag index)) payload
  | .templateRead => Parsed.ofOne (fun index => .request (.templateRead tag index)) payload
  | .phraseDefine => Parsed.ofThree (Instr.phraseDefine tag) payload
  | .phraseDelete => Parsed.ofOne (fun index => .request (.phraseDelete tag index)) payload
  | .phraseRead => Parsed.ofOne (fun index => .request (.phraseRead tag index)) payload
  | .cueAdd => Parsed.ofUnits (Instr.cueAdd tag) (readCues payload.length payload)
  | .cueRewind => Parsed.ofNone (.cueRewind tag) payload
  | .runClear => Parsed.ofNone (.runClear tag) payload
  | .runStart => Parsed.ofNone (.runStart tag) payload
  | .runPause => Parsed.ofNone (.runPause tag) payload
  | .runResume => Parsed.ofNone (.runResume tag) payload
  | .runForce => Parsed.ofOne (Parsed.ofActionSet tag) payload
  | .faultClear => Parsed.ofNone (.faultClear tag) payload
  | .outputEnable => Parsed.ofNone (.outputEnable tag) payload
  | .resultRead => Parsed.ofOne (fun count => .request (.resultRead tag count)) payload

/-! ## The opcode table -/

/-- The command that a word spells by the table's bits: no row of spec/opcode_table.json has any, so none. -/
def decodeTableWord (nbits w : Nat) : Option Instr :=
  match nbits, w with
  | _, _ => none

end Sys2Proof
end

