-- ==== Sys2Proof/Machine/State.lean ====
section
/-! DEFINITION. The state of the FD340, block by block, as plain data; the ways a step can stop; and the state
right after a full reset. Where a table of the spec lists an item, the field's docstring names the rule. -/

namespace Sys2Proof.Machine

/-! ## Waveform synthesizer (spec 01) -/

/-- A running ramp (R18): its start value, target, length and progress. An idle ramp is `none`. -/
structure Ramp where
  startValue : Nat
  target     : Nat
  length     : Nat
  progress   : Nat
deriving DecidableEq, Repr

/-- A present overlay (R11, R12): slot, harmonic number and overlay phase in phase units. -/
structure Overlay where
  slot     : Nat
  harmonic : Nat
  shift    : Word
deriving DecidableEq, Repr

/-- What the synthesizer holds for one phase (spec 01, "State held by the synthesizer"). -/
structure SynthPhase where
  /-- Phase offset, phase units (R8). -/
  offset      : Word
  /-- Primary slot (R10). -/
  slot        : Nat
  /-- Present primary amplitude (R13). -/
  primary     : Nat
  primaryRamp : Option Ramp
  /-- The overlay, absent or present (R12). -/
  overlay     : Option Overlay
  /-- Present overlay amplitude (R13). -/
  overlayAmp  : Nat
  overlayRamp : Option Ramp
deriving DecidableEq, Repr

/-- The waveform synthesizer (R2). -/
structure Synth where
  /-- The reference phase (R4). -/
  theta       : Word
  /-- The present tuning word (R4). -/
  tuning      : Nat
  freqRamp    : Option Ramp
  phases      : PerPhase SynthPhase
  /-- The sample index: the most recent sample produced (R1). -/
  sampleIndex : Long
deriving DecidableEq, Repr

/-- The lines of the signal side, as they stand for the most recent sample (R16, R17, R113, R137). -/
structure Ports where
  /-- The three output codes of the converter port. -/
  codes    : PerPhase Int
  zx       : Bool
  stepmark : Bool
  outen    : Bool
deriving DecidableEq, Repr

/-! ## Shape store (spec 02) -/

/-- The state of a slot (R26). -/
inductive SlotState where
  | empty
  | filling
  | loaded
deriving DecidableEq, Repr

/-- A slot's record (spec 02, section 2.1). `points` holds the appended points; every point beyond them is 0,
and the fill cursor is their number (R26). Slot 0's points are hard-wired (R27): its list stays empty and the
store's one read answers the fixed sine. -/
structure Slot where
  state    : SlotState
  points   : List Half
  gen      : Byte
  refcount : Nat
deriving DecidableEq, Repr

/-- The link-side work in progress that passes through the arbiter (R38): an append, a sum or a compare, whose
checks have passed and whose reply is not formed yet. -/
inductive ShapeWork where
  | append (slot : Nat) (points : List Half)
  | sum (slot start count : Nat) (crc : Half)
  | compare (slot start count : Nat) (pad : Half) (points : List Half)
deriving DecidableEq, Repr

/-- Work in progress with the accesses the arbiter has left it so far and the samples produced since it was
taken (R38). -/
structure ShapeJob where
  work    : ShapeWork
  served  : Nat
  periods : Nat
deriving DecidableEq, Repr

/-- The shape store: sixteen slots, the link-side work in progress, and the accesses of the present sample's period
that neither the synthesizer nor completed link-side work has taken (R38). -/
structure Store where
  slots : Vector Slot 16
  job   : Option ShapeJob
  spare : Nat
deriving DecidableEq, Repr

/-! ## Template library (spec 03) -/

/-- A start condition (R49): the angle, in tenths, is present for two kinds only. -/
inductive StartCond where
  | follow
  | angle (tenths : Nat)
  | trigger
  | triggerAngle (tenths : Nat)
deriving DecidableEq, Repr

/-- A duration (R50): a value of 0 in either kind is an open step. -/
inductive Duration where
  | samples (value : Nat)
  | degrees (tenths : Nat)
deriving DecidableEq, Repr

/-- A stored overlay of a phase record (R54), in the link's units. -/
structure OverlayRecord where
  slot      : Nat
  harmonic  : Nat
  amplitude : Nat
  phase     : Nat
deriving DecidableEq, Repr

/-- A stored phase record (R53). -/
structure PhaseRecord where
  amplitude : Nat
  offset    : Nat
  slot      : Nat
  overlay   : Option OverlayRecord
deriving DecidableEq, Repr

/-- A template's stored fields (spec 03, section 3.1). -/
structure Template where
  start     : StartCond
  duration  : Duration
  levelRamp : Nat
  frequency : Nat
  freqRamp  : Nat
  phases    : PerPhase PhaseRecord
deriving DecidableEq, Repr

/-- A defined entry of the library: its template and its refcount (R48, R59). An undefined entry is `none`. -/
structure TemplateEntry where
  template : Template
  refcount : Nat
deriving DecidableEq, Repr

/-! ## Phrase dictionary, cue queue and expander (spec 04, spec 05) -/

/-- A DEFINED entry of the dictionary (R65). A FREE entry is `none`. -/
structure PhraseEntry where
  pred     : Option Nat
  template : Nat
  depth    : Nat
  refcount : Nat
deriving DecidableEq, Repr

/-- The option of an END cue and of its end marker (R79). -/
inductive EndOption where
  | off
  | hold
deriving DecidableEq, Repr

/-- What a cue stands for (R84, R85). -/
inductive CueBody where
  | template (index rep : Nat) (duration : Option Duration) (start : Option StartCond)
  | phrase (index rep : Nat)
  | endRun (option : EndOption)
deriving DecidableEq, Repr

/-- The status of a cue (R84). -/
inductive CueStatus where
  | pending
  | expanding
  | spent
deriving DecidableEq, Repr

/-- A held cue (R84). -/
structure Cue where
  body   : CueBody
  serial : Half
  status : CueStatus
deriving DecidableEq, Repr

/-- The cue queue (spec 05, section 5.2). The pending and held counts are views of the list (R86). -/
structure CueQueue where
  cues       : List Cue
  nextSerial : Half
  trial      : Byte
deriving DecidableEq, Repr

/-- A step's source: cue serial, repetition, element and template index (R62). -/
structure Source where
  serial   : Half
  rep      : Nat
  element  : Nat
  template : Nat
deriving DecidableEq, Repr

/-- A step: the copy of a template made at staging, with its source (R62). -/
structure StepCopy where
  content : Template
  source  : Source
deriving DecidableEq, Repr

/-- The staging slot (R80): empty, a step, or an end marker. -/
inductive Staged where
  | empty
  | step (copy : StepCopy)
  | marker (option : EndOption)
deriving DecidableEq, Repr

/-- The expansion context while a cue is EXPANDING (R74): the cue's serial and body, the repetition in progress
and the element that the next staging yields. -/
structure Context where
  serial  : Half
  body    : CueBody
  rep     : Nat
  element : Nat
deriving DecidableEq, Repr

/-- The expander (spec 04, section 4.5). The head of `stack` is its top. -/
structure Expander where
  context : Option Context
  stack   : List Nat
  slot    : Staged
deriving DecidableEq, Repr

/-! ## Run sequencer (spec 06) -/

/-- The ten run states (R103). -/
inductive RunState where
  | off | armed | active | waiting | starved | paused | parked | stopping | fault | disabled
deriving DecidableEq, Repr

/-- The state a pause was taken from (R103, R124). -/
inductive Remembered where
  | active
  | waiting
  | starved
deriving DecidableEq, Repr

/-- The phase of the staged step's start evaluation (spec 06, section 6.3). -/
inductive StartPhase where
  | none
  | held
  | due
  | edge
  | crossing
deriving DecidableEq, Repr

/-- The per-phase fields of the active step record: peak current, minimum gain and clip flag (R114). -/
structure Capture where
  peak    : Nat
  minGain : Nat
  clip    : Bool
deriving DecidableEq, Repr

/-- The active step record (R114). `begun` says whether the step's first sample has been produced. -/
structure ActiveStep where
  copy        : StepCopy
  startSample : Long
  startAngle  : Nat
  elapsed     : Nat
  travel      : Nat
  capture     : PerPhase Capture
  begun       : Bool
deriving DecidableEq, Repr

/-- The trigger debounce (R110): settled level, run count and the sample-1 flag (R103). -/
structure Debounce where
  settled  : Bool
  runCount : Nat
  first    : Bool
deriving DecidableEq, Repr

/-- The run sequencer (R103). -/
structure Sequencer where
  run          : RunState
  remembered   : Option Remembered
  active       : Option ActiveStep
  startPhase   : StartPhase
  target       : Word
  timeoutCount : Nat
  debounce     : Debounce
deriving DecidableEq, Repr

/-! ## Load monitor, result queue, notice unit (spec 07, spec 08, spec 10) -/

/-- The fault record (R147): the tripped phases and the trip sample. -/
structure FaultRecord where
  phases : PerPhase Bool
  sample : Long
deriving DecidableEq, Repr

/-- The load monitor (spec 07, section 7.1). -/
structure Monitor where
  gains    : PerPhase Nat
  counters : PerPhase Nat
  fault    : Option FaultRecord
deriving DecidableEq, Repr

/-- The reasons a step's record can carry (R155). -/
inductive EndReason where
  | complete | handedOver | skipped | aborted | tripped | disabled | timedOut
deriving DecidableEq, Repr

/-- A result record as the run sequencer hands it (R153, R154): all but the serial and the gap. -/
structure ResultBody where
  source    : Source
  trial     : Byte
  reason    : EndReason
  /-- Start sample and start angle, absent for TIMED_OUT. -/
  start     : Option (Long × Nat)
  endSample : Long
  capture   : PerPhase Capture
deriving DecidableEq, Repr

/-- A stored result record (R157). -/
structure ResultRecord where
  serial : Half
  body   : ResultBody
  gap    : Option Nat
deriving DecidableEq, Repr

/-- The result queue (spec 08, section 8.2), oldest record first. -/
structure ResultQueue where
  records    : List ResultRecord
  nextSerial : Half
  pendingGap : Nat
deriving DecidableEq, Repr

/-- The notice unit (R180): flags and masks by bit number (spec 10, section 10.1), bit 15 unused. -/
structure Notices where
  flags  : Half
  masks  : Half
  enable : Bool
deriving DecidableEq, Repr

/-! ## Setup table (spec 10, section 10.4) -/

/-- TRIG_EDGE (R110). -/
inductive TrigEdge where
  | rising
  | falling
  | both
deriving DecidableEq, Repr

/-- QUEUE_MODE (R95). -/
inductive QueueMode where
  | stream
  | retain
deriving DecidableEq, Repr

/-- The twenty-one run-wide parameters (R186). -/
structure Setup where
  nomFreq       : Nat
  nomPeak       : Nat
  stopRamp      : Nat
  limitLevel    : PerPhase Nat
  attack        : Nat
  release       : Nat
  gainFloor     : Nat
  tripLevel     : PerPhase Nat
  tripSamples   : Nat
  captureWindow : Nat
  trigEdge      : TrigEdge
  trigDebounce  : Nat
  trigTimeout   : Nat
  queueMode     : QueueMode
  lowWater      : Nat
  highWater     : Nat
  resultNotify  : Nat
deriving DecidableEq, Repr

/-! ## Message link (spec 09) -/

/-- The receiver's states (R166). -/
inductive RxState where
  | hunt
  | header
  | payload
  | check
deriving DecidableEq, Repr

/-- The receiver: the frame in assembly, the gap timer and the overrun mark (R166, R167, R172). `header` holds
the kind, tag and length bytes received so far, `check` the first CRC byte. -/
structure Receiver where
  state      : RxState
  header     : List Byte
  payload    : List Byte
  check      : List Byte
  gapRunning : Bool
  marked     : Bool
deriving DecidableEq, Repr

/-- The outcomes of a reply (R174). -/
inductive ReplyOutcome where
  | done
  | partly
  | refused
  | unknown
  | badframe
deriving DecidableEq, Repr

/-- The details of a reply (R174). -/
inductive Detail where
  | none | clamped | truncated | state | inUse | notReady | range | order | depth | empty | full
  | mode | stale | length | readOnly | badCue | more
deriving DecidableEq, Repr

/-- A reply as formed (R173): kind and tag of the request, outcome, detail and payload. -/
structure Reply where
  kind    : Byte
  tag     : Byte
  outcome : ReplyOutcome
  detail  : Detail
  payload : List Byte
deriving DecidableEq, Repr

/-- The link interface (spec 09): READY, the full reset in progress, the rate (R165), the receiver, the request
in progress with its kind and tag (R171), and its reply once formed (R173). -/
structure Link where
  ready      : Bool
  inReset    : Bool
  baud       : Nat
  rx         : Receiver
  inProgress : Option (Byte × Byte)
  reply      : Option Reply
deriving DecidableEq, Repr

/-! ## The model's own -/

/-- A qualified change of TRIG at the most recent sample (R110): whether it counts as an edge, and whether that
sample was evaluated with the staged step in EDGE (R111). -/
structure EdgeMoment where
  counted   : Bool
  evaluated : Bool
deriving DecidableEq, Repr

/-- The model's own fields, not the spec's: the part's own moments that have fallen at the most recent sample
and have not been taken yet, and the counters the free values are drawn by (log entries 1, 2, 3). -/
structure Moments where
  /-- A qualified change waiting to be taken (R110, R111). -/
  edge    : Option EdgeMoment
  /-- The trigger timeout count has reached its limit (R112). -/
  timeout : Bool
  /-- The phases that tripped at the most recent sample (R144). -/
  trip    : Option (PerPhase Bool)
  /-- How many amounts the check engine has chosen, one for each request that has passed its checks (R41). -/
  engine  : Nat
  /-- How many orders have been chosen for moments that fall together. -/
  races   : Nat
deriving DecidableEq, Repr

/-! ## The machine -/

/-- The state of the FD340, with the commands that wait for it, first in first out. -/
structure State where
  synth    : Synth
  ports    : Ports
  store    : Store
  library  : Vector (Option TemplateEntry) 64
  phrases  : Vector (Option PhraseEntry) 128
  queue    : CueQueue
  expander : Expander
  seq      : Sequencer
  monitor  : Monitor
  results  : ResultQueue
  notices  : Notices
  setup    : Setup
  link     : Link
  moments  : Moments
  pending  : List Instr
deriving DecidableEq, Repr

/-- The reasons the block stops with a fault: none. The spec gives the FD340 no behaviour that ends its
operation (a trip is the run state FAULT, not the end of the machine), so nobody raises one; safe. -/
inductive Fault
deriving DecidableEq, Repr

/-- The reasons a step can be refused. -/
inductive Refusal where
  /-- A command without a meaning yet, raised by `exec` alone, by its row's mnemonic; safe. Every command has
  its meaning, so nothing raises it. -/
  | notModelled (mnemonic : String)
deriving DecidableEq, Repr

/-! ## After a full reset -/

/-- A phase of the synthesizer after a full reset, with its offset (R2). -/
def SynthPhase.idle (offset : Word) : SynthPhase :=
  { offset := offset, slot := 0, primary := 0, primaryRamp := none, overlay := none, overlayAmp := 0,
    overlayRamp := none }

/-- The synthesizer after a full reset (R2). -/
def Synth.reset : Synth :=
  { theta := 0#32, tuning := 2147484, freqRamp := none,
    phases := { a := SynthPhase.idle 0#32, b := SynthPhase.idle 2863311531#32,
                c := SynthPhase.idle 1431655765#32 },
    sampleIndex := 0#64 }

/-- The lines during and after a full reset (R1, R113, R137). -/
def Ports.reset : Ports :=
  { codes := PerPhase.same 0, zx := false, stepmark := false, outen := false }

/-- An EMPTY slot (R28). -/
def Slot.reset : Slot := { state := .empty, points := [], gen := 0#8, refcount := 0 }

/-- Slot 0 after a full reset: LOADED, generation 0 (R27, R28). -/
def Slot.sine : Slot := { Slot.reset with state := .loaded }

/-- The shape store after a full reset (R28). DESIGN CHOICE, log entry 32: before sample 1 there is no sample's period,
and so no access for link-side work (R38). -/
def Store.reset : Store :=
  { slots := (Vector.replicate 16 Slot.reset).setIfInBounds 0 Slot.sine, job := none, spare := 0 }

/-- The cue queue after a full reset (R87). -/
def CueQueue.reset : CueQueue := { cues := [], nextSerial := 0#16, trial := 0#8 }

/-- The expander after a full reset (R74). -/
def Expander.reset : Expander := { context := none, stack := [], slot := .empty }

/-- The run sequencer after a full reset (R103). -/
def Sequencer.reset : Sequencer :=
  { run := .disabled, remembered := none, active := none, startPhase := .none, target := 0#32,
    timeoutCount := 0, debounce := { settled := false, runCount := 0, first := true } }

/-- The load monitor after a full reset (R136). -/
def Monitor.reset : Monitor :=
  { gains := PerPhase.same Config.unityGain, counters := PerPhase.same 0, fault := none }

/-- The result queue after a full reset and after RUN_CLEAR (R156, R164). -/
def ResultQueue.reset : ResultQueue := { records := [], nextSerial := 0#16, pendingGap := 0 }

/-- The notice unit while a full reset is in progress (R181): RESTARTED latches at its completion. -/
def Notices.reset : Notices := { flags := 0#16, masks := 0#16, enable := false }

/-- The setup table after a full reset (spec 10, section 10.4). -/
def Setup.reset : Setup :=
  { nomFreq := 5000, nomPeak := 16384, stopRamp := 2000, limitLevel := PerPhase.same 32767,
    attack := 512, release := 16, gainFloor := 8192, tripLevel := PerPhase.same 32767,
    tripSamples := 100, captureWindow := 10000, trigEdge := .rising, trigDebounce := 5,
    trigTimeout := 0, queueMode := .stream, lowWater := 16, highWater := 240, resultNotify := 1 }

/-- The receiver in HUNT with no frame in assembly (R166). -/
def Receiver.idle : Receiver :=
  { state := .hunt, header := [], payload := [], check := [], gapRunning := false, marked := false }

/-- The link interface while a full reset is in progress (R171, R175): READY low, nothing in progress. The rate
holds until the reset completes (R165). -/
def Link.resetting (baud : Nat) : Link :=
  { ready := false, inReset := true, baud := baud, rx := Receiver.idle, inProgress := none, reply := none }

/-- No own moment waiting; the two counters of the free values are given. -/
def Moments.clear (engine races : Nat) : Moments :=
  { edge := none, timeout := false, trip := none, engine := engine, races := races }

/-- The machine right after a full reset has completed, with both rate straps low (R165), RESTARTED latched
(R181) and READY high (R171). The strap levels are a DESIGN CHOICE, log entry 4. -/
def State.reset : State :=
  { synth := Synth.reset, ports := Ports.reset, store := Store.reset,
    library := Vector.replicate 64 none, phrases := Vector.replicate 128 none,
    queue := CueQueue.reset, expander := Expander.reset, seq := Sequencer.reset,
    monitor := Monitor.reset, results := ResultQueue.reset,
    notices := { Notices.reset with flags := 1#16 }, setup := Setup.reset,
    link := { Link.resetting 115200 with ready := true, inReset := false },
    moments := Moments.clear 0 0, pending := [] }

end Sys2Proof.Machine
end

