-- ==== Sys2Proof/Machine/Operands.lean ====
section
/-! DEFINITION. The arithmetic of the FD340: conversions of frequencies and angles, ramps, the shape lookup and
the fixed sine, the scaling to a code, the CRC, limiter and trip updates, and the clamping of carried values. -/

namespace Sys2Proof.Machine

/-! ## Frequencies and angles (R3, R6, R7, R116) -/

/-- The tuning word of a frequency in centihertz, by round half up (R3). -/
def tuningOf (centihertz : Nat) : Nat := (5000000 + 2 ^ 32 * centihertz) / 10000000

/-- The phase units of an angle in tenths, by round half up (R6). -/
def phaseOf (tenths : Nat) : Word := BitVec.ofNat 32 ((1800 + 2 ^ 32 * tenths) / 3600)

/-- The angle in tenths that a phase is reported as, by floor (R7). -/
def angleOf (theta : Word) : Nat := 3600 * theta.toNat / 2 ^ 32

/-- The travel distance in phase units of a DEGREES duration (R116). -/
def travelDistance (tenths : Nat) : Nat := 2 ^ 32 * tenths / 3600

/-- The crossing test of R109: the target lies after the phase before the sample and no later than `prospect`. -/
def crosses (prospect target : Word) (tuning : Nat) : Bool := (prospect - target).toNat < tuning

/-! ## Ramps (R18) -/

/-- The value of a ramp after `m` ramp samples, `m` below its length: truncation toward zero (R18). -/
def Ramp.valueAt (r : Ramp) (m : Nat) : Nat :=
  ((r.startValue : Int) + (((r.target : Int) - (r.startValue : Int)) * (m : Int)).tdiv (r.length : Int)).toNat

/-- One ramp sample of a present value and its ramp (R18): the progress increases by 1, and the value follows, at
the target once the progress has reached the length. An idle ramp leaves the value. A ramp that has reached its
length becomes idle at the moment after the sample (`Ramp.reached`, log entry 6). -/
def rampSample (value : Nat) : Option Ramp → Nat × Option Ramp
  | none => (value, none)
  | some r =>
    let moved : Ramp := { r with progress := r.progress + 1 }
    (if r.progress + 1 < r.length then r.valueAt (r.progress + 1) else r.target, some moved)

/-- Whether a ramp has reached its length at the ramp sample it took last (R18). -/
def Ramp.reached (r : Ramp) : Bool := 1 ≤ r.progress && r.length ≤ r.progress

/-- Whether an optional ramp has reached its length. -/
def rampReached : Option Ramp → Bool
  | none => false
  | some r => r.reached

/-- The completion of a ramp: the present value becomes the target and the ramp becomes idle (R18). A ramp that
has not reached its length, or is idle, is left. -/
def rampCompleted (value : Nat) : Option Ramp → Nat × Option Ramp
  | none => (value, none)
  | some r => if r.reached then (r.target, none) else (value, some r)

/-- A ramp set running from a present value (R19, R22). -/
def Ramp.toward (value target length : Nat) : Ramp :=
  { startValue := value, target := target, length := length, progress := 0 }

/-! ## The fixed sine and the shape lookup (R9, R27) -/

/-- 32,767 × sin(2πk / 1,024) rounded half away from zero, for k from 0 to 256: the first quarter of slot 0's
shape (R27). -/
def sineQuarter : List Nat :=
  [0, 201, 402, 603, 804, 1005, 1206, 1407, 1608, 1809, 2009, 2210, 2410, 2611, 2811, 3012,
   3212, 3412, 3612, 3811, 4011, 4210, 4410, 4609, 4808, 5007, 5205, 5404, 5602, 5800, 5998, 6195,
   6393, 6590, 6786, 6983, 7179, 7375, 7571, 7767, 7962, 8157, 8351, 8545, 8739, 8933, 9126, 9319,
   9512, 9704, 9896, 10087, 10278, 10469, 10659, 10849, 11039, 11228, 11417, 11605, 11793, 11980, 12167, 12353]
  ++
  [12539, 12725, 12910, 13094, 13279, 13462, 13645, 13828, 14010, 14191, 14372, 14553, 14732, 14912, 15090, 15269,
   15446, 15623, 15800, 15976, 16151, 16325, 16499, 16673, 16846, 17018, 17189, 17360, 17530, 17700, 17869, 18037,
   18204, 18371, 18537, 18703, 18868, 19032, 19195, 19357, 19519, 19680, 19841, 20000, 20159, 20317, 20475, 20631,
   20787, 20942, 21096, 21250, 21403, 21554, 21705, 21856, 22005, 22154, 22301, 22448, 22594, 22739, 22884, 23027]
  ++
  [23170, 23311, 23452, 23592, 23731, 23870, 24007, 24143, 24279, 24413, 24547, 24680, 24811, 24942, 25072, 25201,
   25329, 25456, 25582, 25708, 25832, 25955, 26077, 26198, 26319, 26438, 26556, 26674, 26790, 26905, 27019, 27133,
   27245, 27356, 27466, 27575, 27683, 27790, 27896, 28001, 28105, 28208, 28310, 28411, 28510, 28609, 28706, 28803,
   28898, 28992, 29085, 29177, 29268, 29358, 29447, 29534, 29621, 29706, 29791, 29874, 29956, 30037, 30117, 30195]
  ++
  [30273, 30349, 30424, 30498, 30571, 30643, 30714, 30783, 30852, 30919, 30985, 31050, 31113, 31176, 31237, 31297,
   31356, 31414, 31470, 31526, 31580, 31633, 31685, 31736, 31785, 31833, 31880, 31926, 31971, 32014, 32057, 32098,
   32137, 32176, 32213, 32250, 32285, 32318, 32351, 32382, 32412, 32441, 32469, 32495, 32521, 32545, 32567, 32589,
   32609, 32628, 32646, 32663, 32678, 32692, 32705, 32717, 32728, 32737, 32745, 32752, 32757, 32761, 32765, 32766]
  ++
  [32767]

/-- Point k of slot 0 (R27): even about point 256, odd about point 512. -/
def sinePoint (k : Nat) : Int :=
  if k ≤ 256 then (sineQuarter.getD k 0 : Int)
  else if k ≤ 512 then (sineQuarter.getD (512 - k) 0 : Int)
  else if k ≤ 768 then -(sineQuarter.getD (k - 512) 0 : Int)
  else -(sineQuarter.getD (1024 - k) 0 : Int)

/-- Point k of a slot (R26, R27): the fixed sine for slot 0; elsewhere the appended points, and 0 beyond the fill
cursor. A slot number above 15 names no slot and reads 0; no state reached from reset holds one. -/
def Store.point (store : Store) (slot k : Nat) : Int :=
  if slot = 0 then sinePoint k
  else match store.slots[slot]? with
    | some s => (s.points.getD k 0#16).toInt
    | none => 0

/-- The lookup of a phase in a slot: linear interpolation, rounded toward minus infinity (R9). -/
def Store.lookup (store : Store) (slot : Nat) (theta : Word) : Int :=
  let i : Nat := theta.toNat / 2 ^ 22
  let fraction : Nat := theta.toNat / 2 ^ 14 % 256
  let p := store.point slot i
  let q := store.point slot ((i + 1) % 1024)
  p + ((q - p) * (fraction : Int)) / 256

/-! ## From sum to code (R11, R13, R14, R15) -/

/-- The denominator of the scaling: 32,767 × 10,000 × 32,768 (R14). -/
def codeDenominator : Nat := 32767 * 10000 * 32768

/-- The scaled code, rounded half away from zero (R14). -/
def scaleCode (sum : Int) (gain peak : Nat) : Int :=
  let x := sum * (gain : Int) * (peak : Int)
  let magnitude : Int := ((codeDenominator + 2 * x.natAbs) / (2 * codeDenominator) : Nat)
  if x < 0 then -magnitude else magnitude

/-- The code range of the converter port (R15). -/
def saturate (code : Int) : Int := max (-32768) (min 32767 code)

/-- Whether saturation changes a code, so that the sample is clipped on its phase (R15). -/
def clips (code : Int) : Bool := code < -32768 || 32767 < code

/-- The output phase of a phase (R8). -/
def SynthPhase.outputPhase (p : SynthPhase) (theta : Word) : Word := theta + p.offset

/-- The overlay phase: the harmonic of the output phase, shifted, modulo 2^32 (R11). -/
def Overlay.phaseAt (o : Overlay) (output : Word) : Word := BitVec.ofNat 32 o.harmonic * output + o.shift

/-- The weighted sum of a phase's two lookups; an absent overlay contributes 0 (R11, R13). -/
def SynthPhase.sum (p : SynthPhase) (store : Store) (theta : Word) : Int :=
  store.lookup p.slot (p.outputPhase theta) * (p.primary : Int)
    + match p.overlay with
      | none => 0
      | some o => store.lookup o.slot (o.phaseAt (p.outputPhase theta)) * (p.overlayAmp : Int)

/-- The point reads the synthesizer makes for one sample: two per lookup (R10, R38). -/
def Synth.reads (y : Synth) : Nat :=
  let overlay (p : SynthPhase) : Nat := if p.overlay.isSome then 2 else 0
  6 + overlay y.phases.a + overlay y.phases.b + overlay y.phases.c

/-! ## The CRC (R42) -/

/-- One shift of the CRC register (R42). -/
def crcShift (crc : Half) : Half := if crc.msb then (crc <<< 1) ^^^ 0x1021#16 else crc <<< 1

/-- One byte into the CRC register: exclusive-or into the upper eight bits, then eight shifts (R42). -/
def crcByte (crc : Half) (byte : Byte) : Half :=
  crcShift (crcShift (crcShift (crcShift (crcShift (crcShift (crcShift (crcShift
    (crc ^^^ (byte.setWidth 16 <<< 8)))))))))

/-- The CRC over bytes from a running value (R42, R169). -/
def crcBytes (crc : Half) (bytes : List Byte) : Half := bytes.foldl crcByte crc

/-- One point into the CRC register: its low byte, then its high byte (R42). -/
def crcPoint (crc point : Half) : Half :=
  crcByte (crcByte crc (point.setWidth 8)) ((point >>> 8).setWidth 8)

/-- The value from which a new CRC starts (R42, R169). -/
def crcStart : Half := 0xFFFF#16

/-! ## Limiter and trip (R135, R139, R143) -/

/-- The magnitude of a current code: 32,768 for the code −32,768 (R135). -/
def magnitude (code : Half) : Nat := code.toInt.natAbs

/-- A limiter gain after a processed current sample (R139). -/
def limiterGain (setup : Setup) (level gain current : Nat) : Nat :=
  if level < current then max setup.gainFloor (gain - setup.attack)
  else min Config.unityGain (gain + setup.release)

/-- A trip counter after a processed current sample (R143). -/
def tripCount (level count current : Nat) : Nat := if level ≤ current then count + 1 else 0

/-! ## Clamping and durations (R50, R52, R53, R54, R115, R116, R188) -/

/-- A carried value brought into a range (R188). -/
def clampTo (lo hi value : Nat) : Nat := max lo (min hi value)

/-- The largest DEGREES duration, in tenths (R50). -/
def maxDegrees : Nat := 3600000

/-- The largest elapsed count (R115). -/
def maxElapsed : Nat := 4294967295

/-- The value of a duration, whatever its kind. -/
def Duration.value : Duration → Nat
  | .samples v => v
  | .degrees v => v

/-- Whether a duration makes its step open (R50, R118). -/
def Duration.isOpen (d : Duration) : Bool := d.value = 0

/-- Whether a closed duration is met by an elapsed count and a travel counter (R115, R116). -/
def Duration.met (d : Duration) (elapsed travel : Nat) : Bool :=
  !d.isOpen &&
    match d with
    | .samples v => v ≤ elapsed
    | .degrees v => travelDistance v ≤ travel

/-- The stored duration of a carried kind and value, none for an unknown kind (R50, R85). -/
def durationOf (kind : Byte) (value : Word) : Option Duration :=
  if kind = 0#8 then some (.samples value.toNat)
  else if kind = 1#8 then some (.degrees (min maxDegrees value.toNat))
  else none

/-- Whether a carried duration is stored clamped (R50, R85). -/
def durationClamped (kind : Byte) (value : Word) : Bool := kind = 1#8 && maxDegrees < value.toNat

/-- The stored start condition of a carried kind and angle, none for an unknown kind (R49, R85): the angle is
reduced modulo 3,600, and absent for FOLLOW and TRIGGER. -/
def startOf (kind : Byte) (angle : Half) : Option StartCond :=
  if kind = 0#8 then some .follow
  else if kind = 1#8 then some (.angle (angle.toNat % 3600))
  else if kind = 2#8 then some .trigger
  else if kind = 3#8 then some (.triggerAngle (angle.toNat % 3600))
  else none

/-- The phase in which a start evaluation begins (R107). -/
def StartCond.initialPhase : StartCond → StartPhase
  | .follow => .due
  | .angle _ => .crossing
  | .trigger => .edge
  | .triggerAngle _ => .edge

/-- The target angle in phase units that a start condition sets, none for FOLLOW and TRIGGER (R107). -/
def StartCond.target? : StartCond → Option Word
  | .follow => none
  | .angle t => some (phaseOf t)
  | .trigger => none
  | .triggerAngle t => some (phaseOf t)

/-! ## Slots named by a template (R30, R53) -/

/-- Whether a phase record names a slot (R30). -/
def PhaseRecord.names (p : PhaseRecord) (slot : Nat) : Bool :=
  p.slot = slot ||
    match p.overlay with
    | some o => o.slot = slot
    | none => false

/-- Whether a template names a slot: as a primary slot or as the slot of a present overlay (R30). -/
def Template.names (t : Template) (slot : Nat) : Bool :=
  t.phases.a.names slot || t.phases.b.names slot || t.phases.c.names slot

/-! ## Run states (R16, R18, R107, R137) -/

/-- Whether OUTEN is high and the codes are computed in a run state (R16, R137). -/
def RunState.driven : RunState → Bool
  | .active | .waiting | .starved | .paused | .parked | .stopping => true
  | .off | .armed | .fault | .disabled => false

/-- Whether ramps advance in a run state (R18). -/
def RunState.ramps : RunState → Bool
  | .active | .waiting | .starved | .parked | .stopping => true
  | .off | .armed | .paused | .fault | .disabled => false

/-- Whether a staged step can be evaluated in a run state (R107). -/
def RunState.evaluates : RunState → Bool
  | .armed | .waiting | .active => true
  | .off | .starved | .paused | .parked | .stopping | .fault | .disabled => false

/-- Whether the expander stages in a run state (R75). -/
def RunState.stages : RunState → Bool
  | .armed | .active | .waiting | .starved | .paused | .parked => true
  | .off | .stopping | .fault | .disabled => false

/-- The run state a pause was taken from (R124). -/
def Remembered.run : Remembered → RunState
  | .active => .active
  | .waiting => .waiting
  | .starved => .starved

end Sys2Proof.Machine
end

