-- ==== Sys2Proof/Machine/Flags.lean ====
section
/-! DEFINITION. The notice flags: latching, clearing, the NOTICE line, and the water-mark comparisons that latch
two of them (spec 10, sections 10.1 to 10.3; spec 05, section 5.5). -/

namespace Sys2Proof.Machine

/-- The fifteen notice flags (spec 10, section 10.1). -/
inductive Notice where
  | restarted | stepBegun | runEnded | lowWater | highWater | starved | limiting | clipped | tripped
  | strayTrigger | triggerTimeout | resultsReady | resultsDropped | linkError | linkOverrun
deriving DecidableEq, Repr

/-- The bit number of a flag (spec 10, section 10.1). -/
def Notice.bit : Notice → Nat
  | .restarted => 0 | .stepBegun => 1 | .runEnded => 2 | .lowWater => 3 | .highWater => 4
  | .starved => 5 | .limiting => 6 | .clipped => 7 | .tripped => 8 | .strayTrigger => 9
  | .triggerTimeout => 10 | .resultsReady => 11 | .resultsDropped => 12 | .linkError => 13
  | .linkOverrun => 14

/-- Whether a flag is latched. -/
def State.latched (n : Notice) (s : State) : Bool := s.notices.flags.getLsbD n.bit

/-- A flag latches; one already latched stays latched (R180). -/
def State.latch (n : Notice) (s : State) : State :=
  { s with notices := { s.notices with flags := s.notices.flags ||| (1#16 <<< n.bit) } }

/-- A flag latches where its cause has come. -/
def State.latchIf (cause : Bool) (n : Notice) (s : State) : State := if cause then s.latch n else s

/-- The NOTICE line: high while the enable is on and an unmasked flag is latched (R182). -/
def State.noticeLine (s : State) : Bool :=
  s.notices.enable && (s.notices.flags &&& ~~~ s.notices.masks) != 0#16

/-- The bits of a 16-bit flag set that are read: bit 15 is not (R183, R184). -/
def readFlags (set : Half) : Half := set &&& 0x7FFF#16

/-- The flags a NOTICE_CLEAR leaves (R183). -/
def Notices.clear (n : Notices) (set : Half) : Notices := { n with flags := n.flags &&& ~~~ (readFlags set) }

/-- Whether a count falls from above a level to at or below it (R96). -/
def fallsTo (level before after : Nat) : Bool := level < before && after ≤ level

/-- Whether a count rises from below a level to at or above it (R97, R162). -/
def risesTo (level before after : Nat) : Bool := before < level && level ≤ after

end Sys2Proof.Machine
end

