-- ==== Sys2Proof/Machine/Layouts.lean ====
section
/-! DEFINITION. The codes and byte layouts of replies (spec 09_message_link.md, sections 9.3 and 9.6). -/

namespace Sys2Proof.Machine

/-- A count as a one-byte field. -/
def byteOf (n : Nat) : Byte := BitVec.ofNat 8 n

/-- A count as a two-byte field. -/
def bytes2 (n : Nat) : List Byte := le16 (BitVec.ofNat 16 n)

/-- A count as a four-byte field. -/
def bytes4 (n : Nat) : List Byte := le32 (BitVec.ofNat 32 n)

/-- A flag as bit `n` of a flags byte. -/
def flagBit (flag : Bool) (n : Nat) : Byte := if flag then 1#8 <<< n else 0#8

/-! ## Codes (R174; spec 09, "Codes used in payloads") -/

/-- The outcome codes (R174). -/
def ReplyOutcome.code : ReplyOutcome → Byte
  | .done => 0#8 | .partly => 1#8 | .refused => 2#8 | .unknown => 3#8 | .badframe => 4#8

/-- The detail codes (R174). -/
def Detail.code : Detail → Byte
  | .none => 0#8 | .clamped => 1#8 | .truncated => 2#8 | .state => 3#8 | .inUse => 4#8
  | .notReady => 5#8 | .range => 6#8 | .order => 7#8 | .depth => 8#8 | .empty => 9#8
  | .full => 10#8 | .mode => 11#8 | .stale => 12#8 | .length => 13#8 | .readOnly => 14#8
  | .badCue => 15#8 | .more => 16#8

/-- The run state codes. -/
def RunState.code : RunState → Byte
  | .off => 0#8 | .armed => 1#8 | .active => 2#8 | .waiting => 3#8 | .starved => 4#8
  | .paused => 5#8 | .parked => 6#8 | .stopping => 7#8 | .fault => 8#8 | .disabled => 9#8

/-- The slot state codes. -/
def SlotState.code : SlotState → Byte
  | .empty => 0#8 | .filling => 1#8 | .loaded => 2#8

/-- The staged item codes. -/
def Staged.code : Staged → Byte
  | .empty => 0#8 | .step _ => 1#8 | .marker .off => 2#8 | .marker .hold => 3#8

/-- The start phase codes. -/
def StartPhase.code : StartPhase → Byte
  | .none => 0#8 | .held => 1#8 | .due => 2#8 | .edge => 3#8 | .crossing => 4#8

/-- The end reason codes. -/
def EndReason.code : EndReason → Byte
  | .complete => 0#8 | .handedOver => 1#8 | .skipped => 2#8 | .aborted => 3#8 | .tripped => 4#8
  | .disabled => 5#8 | .timedOut => 6#8

/-- The start kind codes. -/
def StartCond.code : StartCond → Byte
  | .follow => 0#8 | .angle _ => 1#8 | .trigger => 2#8 | .triggerAngle _ => 3#8

/-- The start angle as reported: 0 where it is absent (R49, R58). -/
def StartCond.tenths : StartCond → Nat
  | .follow => 0 | .angle t => t | .trigger => 0 | .triggerAngle t => t

/-- The duration kind codes. -/
def Duration.code : Duration → Byte
  | .samples _ => 0#8 | .degrees _ => 1#8

/-! ## Blocks of bytes -/

/-- A stored phase record as TEMPLATE_READ returns it: 255, 0, 0 and 0 for an absent overlay (R54, R58). -/
def PhaseRecord.wire (p : PhaseRecord) : PhaseWire :=
  { amplitude := BitVec.ofNat 16 p.amplitude, offset := BitVec.ofNat 16 p.offset, slot := byteOf p.slot,
    overlaySlot := match p.overlay with
      | some o => byteOf o.slot
      | none => 255#8,
    harmonic := match p.overlay with
      | some o => byteOf o.harmonic
      | none => 0#8,
    overlayAmp := match p.overlay with
      | some o => BitVec.ofNat 16 o.amplitude
      | none => 0#16,
    overlayPhase := match p.overlay with
      | some o => BitVec.ofNat 16 o.phase
      | none => 0#16 }

/-- A stored template as TEMPLATE_READ returns it (R58). -/
def Template.wire (t : Template) (index : Byte) : TemplateWire :=
  { index := index, startKind := t.start.code, startAngle := BitVec.ofNat 16 t.start.tenths,
    durKind := t.duration.code, durValue := BitVec.ofNat 32 t.duration.value,
    levelRamp := BitVec.ofNat 16 t.levelRamp, frequency := BitVec.ofNat 16 t.frequency,
    freqRamp := BitVec.ofNat 16 t.freqRamp, phases := t.phases.map PhaseRecord.wire }

/-- The peak current and minimum gain of one phase (spec 09, "Result record"). -/
def Capture.bytes (c : Capture) : List Byte := bytes2 c.peak ++ bytes2 c.minGain

/-- A result record of 30, 32, 40 or 42 bytes (spec 09, "Result record"; R179). -/
def ResultRecord.bytes (r : ResultRecord) : List Byte :=
  le16 r.serial ++ le16 r.body.source.serial
    ++ [byteOf r.body.source.rep, byteOf r.body.source.element, byteOf r.body.source.template,
        r.body.trial, r.body.reason.code,
        flagBit r.body.start.isSome 0 ||| flagBit r.gap.isSome 1 ||| flagBit r.body.capture.a.clip 2
          ||| flagBit r.body.capture.b.clip 3 ||| flagBit r.body.capture.c.clip 4]
    ++ (match r.body.start with
        | some st => le64 st.1 ++ bytes2 st.2
        | none => [])
    ++ le64 r.body.endSample
    ++ r.body.capture.a.bytes ++ r.body.capture.b.bytes ++ r.body.capture.c.bytes
    ++ (match r.gap with
        | some g => bytes2 g
        | none => [])

/-- The number of cues held that are PENDING or EXPANDING (R86). -/
def pendingCount (cues : List Cue) : Nat := cues.countP fun c => c.status != .spent

/-- The number of SPENT cues held (R86). -/
def spentCount (cues : List Cue) : Nat := cues.countP fun c => c.status == .spent

/-- The source, start sample, start angle and elapsed count of the active step: 0 where there is none (R178). -/
def activeBytes : Option ActiveStep → List Byte
  | some a =>
      le16 a.copy.source.serial
        ++ [byteOf a.copy.source.rep, byteOf a.copy.source.element, byteOf a.copy.source.template]
        ++ le64 a.startSample ++ bytes2 a.startAngle ++ bytes4 a.elapsed
  | none => List.replicate 19 0#8

/-- The present amplitudes and limiter gain of one phase; 0 for an absent overlay (R25, R178). -/
def levelBytes (p : SynthPhase) (gain : Nat) : List Byte :=
  bytes2 p.primary ++ bytes2 (if p.overlay.isSome then p.overlayAmp else 0) ++ bytes2 gain

/-- The fault record as STATUS reports it: in FAULT only (R134). -/
def State.reportedFault (s : State) : Option FaultRecord :=
  if s.seq.run = .fault then s.monitor.fault else none

/-- The flags byte of the status block (spec 09, "Status block"). -/
def State.statusFlags (s : State) : Byte :=
  flagBit s.seq.active.isSome 0 |||
    match s.reportedFault with
    | some f => flagBit true 1 ||| flagBit f.phases.a 2 ||| flagBit f.phases.b 3 ||| flagBit f.phases.c 4
    | none => 0#8

/-- The remembered state's code: FF hex outside PAUSED (R134, R178). -/
def State.rememberedCode (s : State) : Byte :=
  match s.seq.run, s.seq.remembered with
  | .paused, some r => r.run.code
  | _, _ => 0xFF#8

/-- The 76 bytes of the status block (spec 09, "Status block"; R25, R86, R134, R178). DESIGN CHOICE, log entry 29: the
synthesizer's values are the present ones of this moment (R178), also where one was set since the last sample (R25). -/
def State.statusBlock (s : State) : List Byte :=
  [s.seq.run.code, s.rememberedCode, s.expander.slot.code, s.seq.startPhase.code]
    ++ bytes4 s.seq.timeoutCount
    ++ bytes2 (pendingCount s.queue.cues) ++ bytes2 (spentCount s.queue.cues)
    ++ [s.queue.trial] ++ le16 s.queue.nextSerial
    ++ [byteOf s.results.records.length, s.statusFlags]
    ++ activeBytes s.seq.active
    ++ le64 s.synth.sampleIndex ++ bytes2 (angleOf s.synth.theta) ++ bytes4 s.synth.tuning
    ++ levelBytes s.synth.phases.a s.monitor.gains.a
    ++ levelBytes s.synth.phases.b s.monitor.gains.b
    ++ levelBytes s.synth.phases.c s.monitor.gains.c
    ++ (match s.reportedFault with
        | some f => le64 f.sample
        | none => le64 0#64)

/-- The 11 bytes that IDENTIFY returns (R177). -/
def identityBlock : List Byte :=
  le16 0x0C61#16 ++ le16 0x0154#16 ++ [1#8, 16#8, 64#8, 128#8] ++ le16 256#16 ++ [64#8]

/-- A request frame's bytes (spec 09, "Frames"), its CRC bytes differing from the computed CRC by `crcError`. -/
def frameBytes (kind tag : Byte) (payload : List Byte) (crcError : Half) : List Byte :=
  let body := [kind, tag] ++ bytes2 payload.length ++ payload
  [Config.requestSync] ++ body ++ le16 (crcBytes crcStart body ^^^ crcError)

/-- A reply frame's bytes (spec 09, "Frames"; R174). -/
def Reply.bytes (r : Reply) : List Byte :=
  let body := [r.kind + 0x80#8, r.tag, r.outcome.code, r.detail.code] ++ bytes2 r.payload.length ++ r.payload
  [Config.replySync] ++ body ++ le16 (crcBytes crcStart body)

end Sys2Proof.Machine
end

