-- ==== Sys2Proof/Machine/Ops.lean ====
section
/-! DEFINITION. The operations that several commands share: handing a record to the result queue, changing the
cue queue and its refcounts, the expander's stagings, the entries to run states, end markers, ends and early
leaves, replies, and the start of a full reset. Each is written once, from the rule its docstring names. -/

namespace Sys2Proof.Machine

/-! ## The result queue (R157, R158) -/

/-- A record is handed: stored at the back with the next serial and any pending gap, or dropped and counted when
the queue is full (R157, R158, R162, R163). -/
def State.handResult (body : ResultBody) (s : State) : State :=
  let count := s.results.records.length
  if count < Config.resultCapacity then
    State.latchIf (risesTo s.setup.resultNotify count (count + 1)) .resultsReady
      { s with results :=
        { records := s.results.records ++
            [{ serial := s.results.nextSerial, body := body,
               gap := if 0 < s.results.pendingGap then some s.results.pendingGap else none }],
          nextSerial := s.results.nextSerial + 1#16, pendingGap := 0 } }
  else
    State.latch .resultsDropped
      { s with results := { s.results with pendingGap := min 65535 (s.results.pendingGap + 1) } }

/-- The result record of an active step (R153). -/
def ActiveStep.result (a : ActiveStep) (trial : Byte) (reason : EndReason) (endSample : Long) : ResultBody :=
  { source := a.copy.source, trial := trial, reason := reason, start := some (a.startSample, a.startAngle),
    endSample := endSample, capture := a.capture }

/-- The initial capture fields: peak 0, minimum gain 32,768, clip flags clear (R113). -/
def freshCapture : PerPhase Capture :=
  PerPhase.same { peak := 0, minGain := Config.unityGain, clip := false }

/-- The TIMED_OUT record of a staged step that never started (R154). -/
def StepCopy.timedOut (copy : StepCopy) (trial : Byte) (endSample : Long) : ResultBody :=
  { source := copy.source, trial := trial, reason := .timedOut, start := none, endSample := endSample,
    capture := freshCapture }

/-- The active step, if there is one, ends with the sample last produced, and its record is handed (R114, R153). -/
def State.endActive (reason : EndReason) (s : State) : State :=
  match s.seq.active with
  | none => s
  | some a =>
    State.handResult (a.result s.queue.trial reason s.synth.sampleIndex)
      { s with seq := { s.seq with active := none } }

/-! ## Library and dictionary entries (R59, R72) -/

/-- The defined entry of a template index, none when it is undefined or there is no such index. -/
def State.template? (s : State) (index : Nat) : Option TemplateEntry := s.library[index]?.join

/-- The DEFINED entry of a phrase index, none when it is FREE or there is no such index. -/
def State.phrase? (s : State) (index : Nat) : Option PhraseEntry := s.phrases[index]?.join

/-- A change of a defined template's refcount (R60). -/
def State.countTemplate (change : Nat → Nat) (index : Nat) (s : State) : State :=
  match s.template? index with
  | none => s
  | some e =>
    { s with library := s.library.setIfInBounds index (some { e with refcount := change e.refcount }) }

/-- A change of a DEFINED phrase's refcount (R72). -/
def State.countPhrase (change : Nat → Nat) (index : Nat) (s : State) : State :=
  match s.phrase? index with
  | none => s
  | some e =>
    { s with phrases := s.phrases.setIfInBounds index (some { e with refcount := change e.refcount }) }

/-- A change of the refcount that a cue keeps: its template's or its phrase's; an END cue keeps none (R102). -/
def State.countCue (change : Nat → Nat) (body : CueBody) (s : State) : State :=
  match body with
  | .template index _ _ _ => s.countTemplate change index
  | .phrase index _ => s.countPhrase change index
  | .endRun _ => s

/-- A count raised by one. -/
def up (n : Nat) : Nat := n + 1

/-- A count lowered by one. -/
def down (n : Nat) : Nat := n - 1

/-! ## The cue queue (R86, R88, R93, R94, R96, R97) -/

/-- The cues of the queue change, and the two water marks are judged on the counts before and after (R96, R97). -/
def State.setCues (cues : List Cue) (s : State) : State :=
  State.latchIf (risesTo s.setup.highWater s.queue.cues.length cues.length) .highWater
    (State.latchIf (fallsTo s.setup.lowWater (pendingCount s.queue.cues) (pendingCount cues)) .lowWater
      { s with queue := { s.queue with cues := cues } })

/-- The oldest cue that is not SPENT (R76). -/
def oldestLive (cues : List Cue) : Option Cue := cues.find? fun c => c.status != .spent

/-- The cues with the oldest one not SPENT given a status. -/
def markLive (status : CueStatus) : List Cue → List Cue
  | [] => []
  | c :: cs => if c.status = .spent then c :: markLive status cs else { c with status := status } :: cs

/-- The cues without the oldest one not SPENT. -/
def dropLive : List Cue → List Cue
  | [] => []
  | c :: cs => if c.status = .spent then c :: dropLive cs else cs

/-- The oldest cue not SPENT becomes EXPANDING, or stays so (R88). -/
def State.expandLive (s : State) : State := s.setCues (markLive .expanding s.queue.cues)

/-- The oldest cue not SPENT becomes SPENT: in STREAM mode it leaves and releases its refcount, in RETAIN mode it
stays (R88, R93, R94). -/
def State.spendLive (s : State) : State :=
  match oldestLive s.queue.cues with
  | none => s
  | some c =>
    match s.setup.queueMode with
    | .stream => (s.setCues (dropLive s.queue.cues)).countCue down c.body
    | .retain => s.setCues (markLive .spent s.queue.cues)

/-! ## The expander (R75 to R82) -/

/-- The template indices along a phrase's chain, root first (R66, R78). `fuel` bounds the chain; a predecessor's
index is lower than its phrase's, so 128 is enough. -/
def walkChain (phrases : Vector (Option PhraseEntry) 128) : Nat → Nat → List Nat → List Nat
  | 0, _, found => found
  | fuel + 1, index, found =>
    match phrases[index]?.join with
    | none => found
    | some p =>
      match p.pred with
      | none => p.template :: found
      | some q => walkChain phrases fuel q (p.template :: found)

/-- A phrase's expansion (R66). -/
def State.expansion (s : State) (index : Nat) : List Nat := walkChain s.phrases 128 index []

/-- A template with a cue's overrides in place of its own fields (R62, R77). -/
def Template.withOverrides (t : Template) (duration : Option Duration) (start : Option StartCond) : Template :=
  { t with duration := duration.getD t.duration, start := start.getD t.start }

/-- The staging slot is filled with a step, whose phase is HELD (R107). -/
def State.stageStep (copy : StepCopy) (s : State) : State :=
  { s with expander := { s.expander with slot := .step copy },
           seq := { s.seq with startPhase := .held, timeoutCount := 0 },
           moments := { s.moments with timeout := false } }

/-- The staging slot is filled with an end marker, whose phase is NONE (R79, R107). -/
def State.stageMarker (option : EndOption) (s : State) : State :=
  { s with expander := { s.expander with slot := .marker option },
           seq := { s.seq with startPhase := .none, timeoutCount := 0 },
           moments := { s.moments with timeout := false } }

/-- The staging slot is emptied (R80): the phase returns to NONE (R107). -/
def State.clearSlot (s : State) : State :=
  { s with expander := { s.expander with slot := .empty },
           seq := { s.seq with startPhase := .none, timeoutCount := 0 },
           moments := { s.moments with timeout := false } }

/-- The context and the stack after a staging. -/
def State.setContext (context : Option Context) (stack : List Nat) (s : State) : State :=
  { s with expander := { s.expander with context := context, stack := stack } }

/-- The end of a repetition: the next one begins, or after the last the cue is SPENT and the context idle (R77,
R78). -/
def State.endRepetition (context : Context) (rep : Nat) (s : State) : State :=
  if context.rep + 1 < rep then
    (s.setContext (some { context with rep := context.rep + 1, element := 0 }) []).expandLive
  else (s.setContext none []).spendLive

/-- The next element of an EXPANDING cue is staged (R77, R78). A template that is undefined stages nothing; the
refcounts rule it out (R61). -/
def State.stageElement (context : Context) (s : State) : State :=
  match context.body with
  | .template index rep duration start =>
    match s.template? index with
    | none => s
    | some e =>
      (s.stageStep { content := e.template.withOverrides duration start,
                     source := { serial := context.serial, rep := context.rep, element := 0,
                                 template := index } }).endRepetition context rep
  | .phrase index rep =>
    match (if s.expander.stack.isEmpty && context.element == 0 then s.expansion index
           else s.expander.stack) with
    | [] => s
    | t :: rest =>
      match s.template? t with
      | none => s
      | some e =>
        let staged := s.stageStep { content := e.template,
                                    source := { serial := context.serial, rep := context.rep,
                                                element := context.element, template := t } }
        if rest.isEmpty then staged.endRepetition context rep
        else (staged.setContext (some { context with element := context.element + 1 }) rest).expandLive
  | .endRun _ => s

/-- One staging, where the run state allows it, the slot is empty and a cue is EXPANDING or PENDING (R75, R76). -/
def State.fillSlot (s : State) : State :=
  if s.seq.run.stages && s.expander.slot == .empty then
    match s.expander.context with
    | some context => s.stageElement context
    | none =>
      match oldestLive s.queue.cues with
      | none => s
      | some c =>
        match c.body with
        | .endRun option => (s.stageMarker option).spendLive
        | .template _ _ _ _ => s.stageElement { serial := c.serial, body := c.body, rep := 0, element := 0 }
        | .phrase _ _ => s.stageElement { serial := c.serial, body := c.body, rep := 0, element := 0 }
  else s

/-- The expander is reset: the staged item discarded, the stack emptied, the context idle (R82). -/
def State.resetExpander (s : State) : State := s.clearSlot.setContext none []

/-- What an early leave does to the expander: the staged item is discarded, the EXPANDING cue becomes SPENT, the
stack is emptied and the context made idle (R81). -/
def State.discardExpansion (s : State) : State :=
  match s.expander.context with
  | none => s.resetExpander
  | some _ => s.resetExpander.spendLive

/-! ## Entries to run states (R22, R23, R121, R123, R138) -/

/-- A phase's levels at the entry to OFF, FAULT or DISABLED; offset and slot stay (R23). -/
def SynthPhase.quiet (p : SynthPhase) : SynthPhase :=
  { p with primary := 0, primaryRamp := none, overlay := none, overlayAmp := 0, overlayRamp := none }

/-- The synthesizer at the entry to OFF, FAULT or DISABLED (R23). -/
def Synth.quiet (y : Synth) (nomFreq : Nat) : Synth :=
  { y with tuning := tuningOf nomFreq, freqRamp := none, phases := y.phases.map SynthPhase.quiet }

/-- The limiter gains and trip counters at the entry to OFF, FAULT or DISABLED (R138). -/
def Monitor.rest (m : Monitor) : Monitor :=
  { m with gains := PerPhase.same Config.unityGain, counters := PerPhase.same 0 }

/-- The run enters OFF, FAULT or DISABLED: R23 for the synthesizer, R138 for the load monitor. A trip not taken
by then is not raised any more (R145). -/
def State.enterIdle (run : RunState) (s : State) : State :=
  { s with synth := s.synth.quiet s.setup.nomFreq,
           seq := { s.seq with run := run, remembered := none },
           monitor := s.monitor.rest,
           moments := { s.moments with trip := none } }

/-- A phase's levels at the entry to STOPPING (R22): ramps to 0 over STOP_RAMP, or 0 at once. -/
def SynthPhase.stop (length : Nat) (p : SynthPhase) : SynthPhase :=
  if length = 0 then
    { p with primary := 0, primaryRamp := none, overlayAmp := 0, overlayRamp := none }
  else
    { p with primaryRamp := some (Ramp.toward p.primary 0 length),
             overlayRamp := some (Ramp.toward p.overlayAmp 0 length) }

/-- The run enters STOPPING with its stop ramp (R22, R123). -/
def State.enterStopping (s : State) : State :=
  { s with synth := { s.synth with phases := s.synth.phases.map (SynthPhase.stop s.setup.stopRamp) },
           seq := { s.seq with run := .stopping, remembered := none } }

/-- The run enters a state within a run that has no entry action of its own. -/
def State.enterRun (run : RunState) (s : State) : State :=
  { s with seq := { s.seq with run := run, remembered := none } }

/-- An end marker is taken (R121): in ARMED the run ends in OFF; else HOLD enters PARKED, where the next item is
staged, and OFF enters STOPPING. -/
def State.takeMarker (option : EndOption) (s : State) : State :=
  if s.seq.run = .armed then (s.clearSlot.enterIdle .off).latch .runEnded
  else match option with
    | .hold => ((s.clearSlot.enterRun .parked).latch .runEnded).fillSlot
    | .off => s.clearSlot.enterStopping

/-- The moments at the start of an evaluation: no expiry waits, and a step whose phase becomes EDGE waits for an
edge that qualifies after it, so one already waiting to be taken is not for it (R111, R112). -/
def Moments.fresh (m : Moments) : Moments :=
  { m with edge := m.edge.map fun e => { e with evaluated := false }, timeout := false }

/-- The staged step leaves HELD: its phase becomes its initial phase, with its target angle and a timeout count
of 0 (R107, R112). -/
def State.beginEvaluation (copy : StepCopy) (s : State) : State :=
  { s with seq := { s.seq with startPhase := copy.content.start.initialPhase,
                               target := copy.content.start.target?.getD s.seq.target,
                               timeoutCount := 0 },
           moments := s.moments.fresh }

/-- Whether the active step is open and has produced its first sample (R107, R118). -/
def Sequencer.openBegun (q : Sequencer) : Bool :=
  match q.active with
  | none => false
  | some a => a.copy.content.duration.isOpen && a.begun

/-- What the run does with an item at its staging (R106, R107, R120, R121): a step staged in ARMED, or behind an open
step whose first sample has been produced, leaves HELD; one staged in STARVED enters WAITING; an end marker
staged in ARMED, WAITING or STARVED is taken at once (R79, R121). -/
def State.actOnStaged (s : State) : State :=
  match s.expander.slot with
  | .empty => s
  | .step copy =>
    match s.seq.run with
    | .armed => s.beginEvaluation copy
    | .starved => (s.enterRun .waiting).beginEvaluation copy
    | .active => if s.seq.openBegun then s.beginEvaluation copy else s
    | .paused => if s.seq.openBegun then s.beginEvaluation copy else s
    | .off => s
    | .waiting => s
    | .parked => s
    | .stopping => s
    | .fault => s
    | .disabled => s
  | .marker option =>
    match s.seq.run with
    | .armed => s.takeMarker option
    | .starved => s.takeMarker option
    | .waiting => s.takeMarker option
    | .off => s
    | .active => s
    | .paused => s
    | .parked => s
    | .stopping => s
    | .fault => s
    | .disabled => s

/-- A staging event: the empty slot is filled where R75 allows, and the run acts on what was staged. -/
def State.stage (s : State) : State :=
  if s.expander.slot = .empty then s.fillSlot.actOnStaged else s

/-- What follows the end of a step, by the staging slot (R117): a FOLLOW step is DUE and the run stays ACTIVE;
another step waits in WAITING; an end marker is taken; nothing staged is STARVED. -/
def State.afterEnd (s : State) : State :=
  match s.expander.slot with
  | .step copy =>
    if copy.content.start = .follow then s.beginEvaluation copy
    else (s.enterRun .waiting).beginEvaluation copy
  | .marker option => s.takeMarker option
  | .empty => (s.enterRun .starved).latch .starved

/-- The run enters STOPPING, or OFF, FAULT or DISABLED. -/
def State.enterEnd (run : RunState) (s : State) : State :=
  if run = .stopping then s.enterStopping else s.enterIdle run

/-- The TIMED_OUT record of the staged step is handed (R112, R154). -/
def State.handTimedOut (s : State) : State :=
  match s.expander.slot with
  | .step copy => s.handResult (copy.timedOut s.queue.trial s.synth.sampleIndex)
  | .empty => s
  | .marker _ => s

/-- A run is left early (R131): the active step ends with the reason, the expander is discarded, and the run
enters its new state. -/
def State.leaveEarly (reason : EndReason) (run : RunState) (s : State) : State :=
  ((s.endActive reason).discardExpansion).enterEnd run

/-- A run is left early by a trigger timeout (R131): the active step's record goes first, then the TIMED_OUT
record of the staged step. -/
def State.leaveTimedOut (run : RunState) (s : State) : State :=
  ((s.endActive .aborted).handTimedOut.discardExpansion).enterEnd run

/-! ## Replies (R173, R174) -/

/-- The reply of the request in progress is formed (R173). -/
def State.answer (outcome : ReplyOutcome) (detail : Detail) (payload : List Byte) (s : State) : State :=
  match s.link.inProgress with
  | none => s
  | some (kind, tag) =>
    let reply : Reply :=
      { kind := kind, tag := tag, outcome := outcome, detail := detail, payload := payload }
    { s with link := { s.link with reply := some reply } }

/-- A request carried out in full. -/
def State.done (detail : Detail) (payload : List Byte) (s : State) : State := s.answer .done detail payload

/-- A request refused, with an empty payload (R174). -/
def State.refuse (detail : Detail) (s : State) : State := s.answer .refused detail []

/-! ## Full resets (R175) -/

/-- A full reset begins: every block takes its reset state, the link abandons what it had in hand, and nothing is
produced or received until the reset completes (R1, R175, R181). The commands that wait, the rate (R165) and the
counters of the free values are kept. -/
def State.beginReset (s : State) : State :=
  { State.reset with
    notices := Notices.reset, link := Link.resetting s.link.baud,
    moments := Moments.clear s.moments.engine s.moments.races, pending := s.pending }

end Sys2Proof.Machine
end

