-- ==== Sys2Proof/Machine/Cues.lean ====
section
/-! DEFINITION. The cue queue's requests (spec 05): CUE_ADD, CUE_REWIND, RUN_CLEAR. -/

namespace Sys2Proof.Machine

/-- The repeat of a TEMPLATE or PHRASE cue: 0 is stored as 1 (R84). -/
def storedRepeat (rep : Byte) : Nat := if rep = 0#8 then 1 else rep.toNat

/-- Whether an optional override has an unknown kind (R90, check 4). -/
def badOverride (w : CueWire) : Bool :=
  (match w.duration with
   | some d => (durationOf d.1 d.2).isNone
   | none => false) ||
  (match w.start with
   | some t => (startOf t.1 t.2).isNone
   | none => false)

/-- Whether an override of a cue is stored clamped (R85, R91). -/
def overrideClamped (w : CueWire) : Bool :=
  match w.duration with
  | some d => durationClamped d.1 d.2
  | none => false

/-- The checks of one carried cue in their order, against the cues held so far (R90): the body it is stored
with, or the detail of its first failure. -/
def State.checkCue (s : State) (held : Nat) (w : CueWire) : Except Detail CueBody :=
  let overridden := w.duration.isSome || w.start.isSome
  let full (body : CueBody) : Except Detail CueBody :=
    if Config.cueCapacity ≤ held then .error .full else .ok body
  if w.kind = 0#8 then
    if 63 < w.index.toNat then .error .badCue
    else if badOverride w then .error .badCue
    else if (s.template? w.index.toNat).isNone then .error .notReady
    else full (.template w.index.toNat (storedRepeat w.rep) (w.duration.bind fun d => durationOf d.1 d.2)
      (w.start.bind fun t => startOf t.1 t.2))
  else if w.kind = 1#8 then
    if 127 < w.index.toNat then .error .badCue
    else if overridden then .error .badCue
    else if (s.phrase? w.index.toNat).isNone then .error .notReady
    else full (.phrase w.index.toNat (storedRepeat w.rep))
  else if w.kind = 2#8 then
    if 1 < w.index.toNat then .error .badCue
    else if overridden then .error .badCue
    else full (.endRun (if w.index = 0#8 then .off else .hold))
  else .error .badCue

/-- The accepted cues of a request with their clamps, and the detail of the first failure (R90, R91). -/
def State.acceptCues (s : State) : Nat → List CueWire → List (CueBody × Bool) × Option Detail
  | _, [] => ([], none)
  | held, w :: ws =>
    match s.checkCue held w with
    | .error detail => ([], some detail)
    | .ok body =>
      let r := s.acceptCues (held + 1) ws
      ((body, overrideClamped w) :: r.1, r.2)

/-- Accepted cues as they join the queue: PENDING, with consecutive serials (R87, R91). -/
def numberCues : Half → List CueBody → List Cue
  | _, [] => []
  | serial, b :: bs => { body := b, serial := serial, status := .pending } :: numberCues (serial + 1#16) bs

/-- The refcounts that accepted cues raise, or leaving cues release (R102). -/
def State.countCues (change : Nat → Nat) (bodies : List CueBody) (s : State) : State :=
  bodies.foldl (fun s b => s.countCue change b) s

/-- The accepted cues join the back of the queue, with their serials, counts and refcounts, and a staging follows
where it can (R91, R92, R98). -/
def State.joinCues (bodies : List CueBody) (s : State) : State :=
  let joined := s.setCues (s.queue.cues ++ numberCues s.queue.nextSerial bodies)
  let counted := joined.countCues up bodies
  State.stage { counted with queue :=
    { counted.queue with nextSerial := counted.queue.nextSerial + BitVec.ofNat 16 bodies.length } }

/-- The reply payload of a CUE_ADD: accepted count, first serial, pending and held counts (R92). -/
def State.cueAddPayload (accepted : Nat) (first : Half) (s : State) : List Byte :=
  [byteOf accepted] ++ le16 first ++ bytes2 (pendingCount s.queue.cues) ++ bytes2 s.queue.cues.length

/-- CUE_ADD (R90, R91, R92). -/
def State.takeCueAdd (cues : List CueWire) (s : State) : State :=
  let r := s.acceptCues s.queue.cues.length cues
  let first := s.queue.nextSerial
  let count := r.1.length
  if r.1.isEmpty then
    s.answer .refused (r.2.getD .none) (s.cueAddPayload 0 first)
  else
    let joined := s.joinCues (r.1.map Prod.fst)
    match r.2 with
    | some detail => joined.answer .partly detail (joined.cueAddPayload count first)
    | none =>
      joined.done (if r.1.any Prod.snd then .clamped else .none) (joined.cueAddPayload count first)

/-- CUE_REWIND (R99, R82, R100). -/
def State.takeCueRewind (s : State) : State :=
  if s.seq.run ≠ .off ∧ s.seq.run ≠ .parked then s.refuse .state
  else if s.setup.queueMode = .stream then s.refuse .mode
  else
    let fresh := s.resetExpander.setCues (s.queue.cues.map fun c => { c with status := .pending })
    let rewound := State.stage
      { fresh with queue := { fresh.queue with trial := fresh.queue.trial + 1#8 } }
    rewound.done .none ([rewound.queue.trial] ++ bytes2 (pendingCount rewound.queue.cues))

/-- RUN_CLEAR (R101, R164). -/
def State.takeRunClear (s : State) : State :=
  if s.seq.run = .off ∨ s.seq.run = .fault ∨ s.seq.run = .disabled then
    let emptied := (s.resetExpander.setCues []).countCues down (s.queue.cues.map Cue.body)
    State.done .none []
      { emptied with queue := CueQueue.reset, results := ResultQueue.reset }
  else s.refuse .state

end Sys2Proof.Machine
end

