-- ==== Sys2Proof/Machine/Identity.lean ====
section
/-! DEFINITION. The requests the link interface answers of itself (spec 09, sections 9.4 and 9.5): IDENTIFY,
STATUS, RESET. -/

namespace Sys2Proof.Machine

/-- IDENTIFY (R177): the fixed codes and capacities. -/
def State.takeIdentify (s : State) : State := s.done .none identityBlock

/-- STATUS (R178): the status block of this moment. -/
def State.takeStatus (s : State) : State := s.done .none s.statusBlock

/-- RESET (R176): the reply is sent first; the full reset takes effect when its last byte has been sent. -/
def State.takeReset (s : State) : State := s.done .none []

end Sys2Proof.Machine
end

