-- ==== Sys2Proof/Machine/Notices.lean ====
section
/-! DEFINITION. The notice unit's requests (spec 10, section 10.3): NOTICE_READ, NOTICE_CLEAR, NOTICE_MASK. -/

namespace Sys2Proof.Machine

/-- NOTICE_READ (R185): flags, masks and enable. -/
def State.takeNoticeRead (s : State) : State :=
  s.done .none (le16 s.notices.flags ++ le16 s.notices.masks ++ [if s.notices.enable then 1#8 else 0#8])

/-- NOTICE_CLEAR (R183): the named flags are cleared; the reply carries those that stand after. -/
def State.takeNoticeClear (flagSet : Half) (s : State) : State :=
  State.done .none (le16 (s.notices.clear flagSet).flags) { s with notices := s.notices.clear flagSet }

/-- NOTICE_MASK (R184): every mask and the enable are replaced. -/
def State.takeNoticeMask (masks : Half) (enable : Byte) (s : State) : State :=
  if 1 < enable.toNat then s.refuse .range
  else State.done .none []
    { s with notices := { s.notices with masks := readFlags masks, enable := enable == 1#8 } }

end Sys2Proof.Machine
end

