-- ==== Sys2Proof/Machine/Phrases.lean ====
section
/-! DEFINITION. The phrase dictionary's requests (spec 04): PHRASE_DEFINE, PHRASE_DELETE, PHRASE_READ. -/

namespace Sys2Proof.Machine

/-- The carried predecessor: 255 is absent (R67). -/
def carriedPred (pred : Byte) : Option Nat := if pred = 255#8 then none else some pred.toNat

/-- The refcount of an optional place changes; an absent side moves nothing (R69, R70). -/
def countAt (count : Nat → State → State) (place : Option Nat) (s : State) : State :=
  match place with
  | none => s
  | some index => count index s

/-- A reference moves from one place to another; when the two are the same, neither moves (R69). -/
def moveCount (count : (Nat → Nat) → Nat → State → State) (old new : Option Nat) (s : State) : State :=
  if old = new then s else countAt (count up) new (countAt (count down) old s)

/-- The depth of a phrase with a predecessor entry, or of a root (R68). -/
def depthOver (pred : Option PhraseEntry) : Nat := (pred.map PhraseEntry.depth).getD 0 + 1

/-- PHRASE_DEFINE (R67, R68, R69), the checks in their order. -/
def State.takePhraseDefine (index pred template : Byte) (s : State) : State :=
  let q := carriedPred pred
  let predEntry := q.bind s.phrase?
  let old := s.phrase? index.toNat
  if 127 < index.toNat then s.refuse .range
  else if 128 ≤ pred.toNat && pred.toNat ≤ 254 then s.refuse .range
  else if 63 < template.toNat then s.refuse .range
  else if q.isSome && index.toNat ≤ pred.toNat then s.refuse .order
  else if 0 < (old.map PhraseEntry.refcount).getD 0 then s.refuse .inUse
  else if q.isSome && predEntry.isNone then s.refuse .notReady
  else if (s.template? template.toNat).isNone then s.refuse .notReady
  else if (predEntry.map PhraseEntry.depth).getD 0 = Config.maxDepth then s.refuse .depth
  else
    let moved := moveCount State.countPhrase (old.bind PhraseEntry.pred) q
      (moveCount State.countTemplate (old.map PhraseEntry.template) (some template.toNat) s)
    let entry : PhraseEntry :=
      { pred := q, template := template.toNat, depth := depthOver predEntry, refcount := 0 }
    State.done .none [index, if old.isSome then 1#8 else 0#8, byteOf entry.depth]
      { moved with phrases := moved.phrases.setIfInBounds index.toNat (some entry) }

/-- PHRASE_DELETE (R70). -/
def State.takePhraseDelete (index : Byte) (s : State) : State :=
  if 127 < index.toNat then s.refuse .range
  else match s.phrase? index.toNat with
  | none => s.refuse .notReady
  | some e =>
    if 0 < e.refcount then s.refuse .inUse
    else
      let moved := countAt (State.countPhrase down) e.pred (s.countTemplate down e.template)
      State.done .none [index] { moved with phrases := moved.phrases.setIfInBounds index.toNat none }

/-- PHRASE_READ (R71). -/
def State.takePhraseRead (index : Byte) (s : State) : State :=
  if 127 < index.toNat then s.refuse .range
  else match s.phrase? index.toNat with
  | none => s.refuse .notReady
  | some e =>
    s.done .none ([index, (match e.pred with
                           | some q => byteOf q
                           | none => 255#8), byteOf e.template, byteOf e.depth]
      ++ bytes2 e.refcount ++ (s.expansion index.toNat).map byteOf)

end Sys2Proof.Machine
end

