-- ==== Sys2Proof/Machine/Results.lean ====
section
/-! DEFINITION. The result queue's request RESULT_READ (spec 08). -/

namespace Sys2Proof.Machine

/-- RESULT_READ (R160): up to 8 records leave from the front and are returned. -/
def State.takeResultRead (count : Byte) (s : State) : State :=
  if count.toNat = 0 ∨ 8 < count.toNat then s.refuse .range
  else
    let read := s.results.records.take count.toNat
    let left := s.results.records.drop count.toNat
    State.done .none
      ([byteOf read.length, byteOf left.length] ++ bytes2 s.results.pendingGap ++ le16 s.results.nextSerial
        ++ read.flatMap ResultRecord.bytes)
      { s with results := { s.results with records := left } }

end Sys2Proof.Machine
end

