-- ==== Sys2Proof/Machine/Runs.lean ====
section
/-! DEFINITION. The run sequencer's requests (spec 06): RUN_START, RUN_PAUSE, RUN_RESUME, the three actions of
RUN_FORCE, FAULT_CLEAR and OUTPUT_ENABLE. -/

namespace Sys2Proof.Machine

/-- A reply DONE, NONE that carries the run state as it now stands (spec 09, "Kinds and payloads"). -/
def State.doneWithState (s : State) : State := s.done .none [s.seq.run.code]

/-! ## Starting (R105, R106, R122) -/

/-- RUN_START in OFF: the run enters ARMED and the first item is staged (R105). -/
def State.armRun (s : State) : State := (s.enterRun .armed).stage

/-- RUN_START in PARKED with an item staged: the run enters WAITING and acts on the item (R122). -/
def State.leaveParked (s : State) : State :=
  match s.expander.slot with
  | .empty => s
  | .step copy => (s.enterRun .waiting).beginEvaluation copy
  | .marker option => (s.enterRun .waiting).takeMarker option

/-- RUN_START (R105, R122). -/
def State.takeRunStart (s : State) : State :=
  match s.seq.run with
  | .off => if pendingCount s.queue.cues = 0 then s.refuse .empty else s.armRun.doneWithState
  | .parked => if s.expander.slot = .empty then s.refuse .empty else s.leaveParked.doneWithState
  | .armed => s.refuse .state
  | .active => s.refuse .state
  | .waiting => s.refuse .state
  | .starved => s.refuse .state
  | .paused => s.refuse .state
  | .stopping => s.refuse .state
  | .fault => s.refuse .state
  | .disabled => s.refuse .state

/-! ## Pausing (R124, R126) -/

/-- The state a pause remembers, none where a pause is refused (R124). -/
def RunState.pausable : RunState → Option Remembered
  | .active => some .active
  | .waiting => some .waiting
  | .starved => some .starved
  | .off => none
  | .armed => none
  | .paused => none
  | .parked => none
  | .stopping => none
  | .fault => none
  | .disabled => none

/-- RUN_PAUSE (R124): all else is kept as it stands. -/
def State.takeRunPause (s : State) : State :=
  match s.seq.run.pausable with
  | none => s.refuse .state
  | some r =>
    State.done .none [r.run.code] { s with seq := { s.seq with run := .paused, remembered := some r } }

/-- Whether the active step is closed and its duration is met (R115, R116, R117). -/
def Sequencer.closedMet (q : Sequencer) : Bool :=
  match q.active with
  | none => false
  | some a => a.copy.content.duration.met a.elapsed a.travel

/-- The end of the active step after its last sample (R117). -/
def State.completeStep (s : State) : State := (s.endActive .complete).afterEnd

/-- The expiry of the trigger timeout (R112): the run is left early, to OFF from ARMED with RUN_ENDED, else to
STOPPING. -/
def State.expire (s : State) : State :=
  if s.seq.run = .armed then ((s.latch .triggerTimeout).leaveTimedOut .off).latch .runEnded
  else (s.latch .triggerTimeout).leaveTimedOut .stopping

/-- A step staged HELD behind an open step whose first sample has been produced leaves HELD (R107). -/
def State.releaseHeld (s : State) : State :=
  if s.seq.run = .active && s.seq.openBegun && s.seq.startPhase == .held then
    match s.expander.slot with
    | .step copy => s.beginEvaluation copy
    | .empty => s
    | .marker _ => s
  else s

/-- What is taken at the moment of a resume, in the remembered state (R126): the end of a closed step whose
duration is met, an expiry kept through the pause, an item staged in STARVED. DESIGN CHOICE, log entry 27: an expiry
kept through the pause is taken whatever TRIG_TIMEOUT has become in it. DESIGN CHOICE, log entry 31: a kept end or
expiry is taken here also where a trip of the last sample is still to be taken (R145). -/
def State.afterResume (s : State) : State :=
  if s.seq.run = .active && s.seq.closedMet then s.completeStep
  else if s.moments.timeout then s.expire
  else if s.seq.run = .starved then s.actOnStaged
  else s.releaseHeld

/-- The remembered state of a pause (R126); PAUSED always holds one. -/
def Sequencer.resumed (q : Sequencer) : RunState :=
  match q.remembered with
  | some r => r.run
  | none => q.run

/-- RUN_RESUME (R126). -/
def State.takeRunResume (s : State) : State :=
  if s.seq.run = .paused then (s.enterRun s.seq.resumed).afterResume.doneWithState else s.refuse .state

/-! ## Forced actions (R127 to R130) -/

/-- The actions of RUN_FORCE (R127). -/
inductive Action where
  | disable
  | abort
  | skip
deriving DecidableEq, Repr

/-- The codes of the action considered (spec 09, "Kinds and payloads"). -/
def Action.code : Action → Byte
  | .disable => 0#8
  | .abort => 1#8
  | .skip => 2#8

/-- Whether an action is valid in a run state (R128, R129, R130). -/
def Action.valid : Action → RunState → Bool
  | .disable, _ => true
  | .abort, r =>
    match r with
    | .armed | .active | .waiting | .starved | .paused | .parked | .stopping => true
    | .off | .fault | .disabled => false
  | .skip, r =>
    match r with
    | .active | .waiting => true
    | .off | .armed | .starved | .paused | .parked | .stopping | .fault | .disabled => false

/-- A forced disable (R128, R148). -/
def State.forceDisable (s : State) : State :=
  match s.seq.run with
  | .disabled => s
  | .off => s.enterIdle .disabled
  | .stopping => s.enterIdle .disabled
  | .fault => State.enterIdle .disabled { s with monitor := { s.monitor with fault := none } }
  | .armed => s.leaveEarly .disabled .disabled
  | .active => s.leaveEarly .disabled .disabled
  | .waiting => s.leaveEarly .disabled .disabled
  | .starved => s.leaveEarly .disabled .disabled
  | .paused => s.leaveEarly .disabled .disabled
  | .parked => s.leaveEarly .disabled .disabled

/-- A forced abort in a state where it is valid (R129). -/
def State.forceAbort (s : State) : State :=
  match s.seq.run with
  | .armed => (s.leaveEarly .aborted .off).latch .runEnded
  | .active => s.leaveEarly .aborted .stopping
  | .waiting => s.leaveEarly .aborted .stopping
  | .starved => s.leaveEarly .aborted .stopping
  | .paused => s.leaveEarly .aborted .stopping
  | .parked => s.leaveEarly .aborted .stopping
  | .stopping => s
  | .off => s
  | .fault => s
  | .disabled => s

/-- Whether the staging slot holds a step that has left HELD (R107). -/
def State.stagedReleased (s : State) : Bool :=
  match s.expander.slot with
  | .step _ => s.seq.startPhase != .held
  | .empty => false
  | .marker _ => false

/-- A forced skip in ACTIVE (R130): the step ends SKIPPED. A step staged behind an open one keeps its phase and
count, and waits for it in WAITING unless it is DUE; otherwise the slot is treated as after an end. Where the
active step has ended and its DUE successor has not started, there is nothing to end (R132). -/
def State.skipActive (s : State) : State :=
  match s.seq.active with
  | none => s
  | some a =>
    if a.copy.content.duration.isOpen && s.stagedReleased then
      if s.seq.startPhase = .due then s.endActive .skipped else (s.endActive .skipped).enterRun .waiting
    else (s.endActive .skipped).afterEnd

/-- A forced skip in WAITING (R130): the staged step is DUE, whatever its phase, and its timeout stops. -/
def State.skipWaiting (s : State) : State :=
  { s with seq := { s.seq with startPhase := .due }, moments := { s.moments with timeout := false } }

/-- A forced skip in a state where it is valid (R130). -/
def State.forceSkip (s : State) : State := if s.seq.run = .active then s.skipActive else s.skipWaiting

/-- The reply payload of RUN_FORCE: the action considered and the run state (R127; spec 09, 9.6). -/
def State.forcePayload (action : Action) (s : State) : List Byte := [action.code, s.seq.run.code]

/-- RUN_FORCE with the action considered (R127): taken where valid, else refused STATE; either reply names it. -/
def State.takeForce (action : Action) (s : State) : State :=
  if action.valid s.seq.run then
    let taken := match action with
      | .disable => s.forceDisable
      | .abort => s.forceAbort
      | .skip => s.forceSkip
    taken.done .none (taken.forcePayload action)
  else s.answer .refused .state (s.forcePayload action)

/-! ## FAULT and DISABLED (R104, R133, R148) -/

/-- FAULT_CLEAR (R133, R148). -/
def State.takeFaultClear (s : State) : State :=
  if s.seq.run = .fault then
    (State.enterIdle .off { s with monitor := { s.monitor with fault := none } }).doneWithState
  else s.refuse .state

/-- OUTPUT_ENABLE (R104). -/
def State.takeOutputEnable (s : State) : State :=
  if s.seq.run = .disabled then (s.enterIdle .off).doneWithState else s.refuse .state

end Sys2Proof.Machine
end

