-- ==== Sys2Proof/Machine/Setup.lean ====
section
/-! DEFINITION. The setup table and its requests (spec 10, sections 10.4 and 10.5): SETUP_WRITE, SETUP_READ. -/

namespace Sys2Proof.Machine

/-- The twenty-one parameters (spec 10, section 10.4). -/
inductive Param where
  | nomFreq | nomPeak | stopRamp | limitLevel (p : Phase) | attack | release | gainFloor
  | tripLevel (p : Phase) | tripSamples | captureWindow | trigEdge | trigDebounce | trigTimeout
  | queueMode | lowWater | highWater | resultNotify
deriving DecidableEq, Repr

/-- The parameter ids (spec 10, section 10.4). -/
def Param.id : Param → Byte
  | .nomFreq => 0x01#8 | .nomPeak => 0x02#8 | .stopRamp => 0x03#8
  | .limitLevel .a => 0x10#8 | .limitLevel .b => 0x11#8 | .limitLevel .c => 0x12#8
  | .attack => 0x13#8 | .release => 0x14#8 | .gainFloor => 0x15#8
  | .tripLevel .a => 0x18#8 | .tripLevel .b => 0x19#8 | .tripLevel .c => 0x1A#8
  | .tripSamples => 0x1B#8 | .captureWindow => 0x1C#8
  | .trigEdge => 0x20#8 | .trigDebounce => 0x21#8 | .trigTimeout => 0x22#8
  | .queueMode => 0x28#8 | .lowWater => 0x29#8 | .highWater => 0x2A#8 | .resultNotify => 0x2B#8

/-- Every parameter, in the table's order. -/
def Param.all : List Param :=
  [.nomFreq, .nomPeak, .stopRamp, .limitLevel .a, .limitLevel .b, .limitLevel .c, .attack, .release,
   .gainFloor, .tripLevel .a, .tripLevel .b, .tripLevel .c, .tripSamples, .captureWindow, .trigEdge,
   .trigDebounce, .trigTimeout, .queueMode, .lowWater, .highWater, .resultNotify]

/-- The parameter an id names, none where the table has none (R187, R190). -/
def Param.ofId (i : Byte) : Option Param := Param.all.find? fun p => p.id == i

/-- The range of a parameter, lowest and highest value; for the two enumerated ones, their codes (spec 10,
section 10.4). -/
def Param.range : Param → Nat × Nat
  | .nomFreq => (4000, 45000) | .nomPeak => (1, 32767) | .stopRamp => (0, 65535)
  | .limitLevel _ => (0, 32767) | .attack => (1, 32768) | .release => (1, 32768)
  | .gainFloor => (0, 32768) | .tripLevel _ => (0, 32767) | .tripSamples => (1, 65535)
  | .captureWindow => (0, 65535) | .trigEdge => (0, 2) | .trigDebounce => (0, 255)
  | .trigTimeout => (0, 65535) | .queueMode => (0, 1) | .lowWater => (0, 255)
  | .highWater => (1, 256) | .resultNotify => (1, 64)

/-- Whether a parameter is enumerated: a value that is not one of its codes is refused, not clamped (R187). -/
def Param.enumerated : Param → Bool
  | .trigEdge => true
  | .queueMode => true
  | .nomFreq => false | .nomPeak => false | .stopRamp => false | .limitLevel _ => false
  | .attack => false | .release => false | .gainFloor => false | .tripLevel _ => false
  | .tripSamples => false | .captureWindow => false | .trigDebounce => false | .trigTimeout => false
  | .lowWater => false | .highWater => false | .resultNotify => false

/-- The codes of TRIG_EDGE (spec 10, section 10.4). -/
def TrigEdge.code : TrigEdge → Nat
  | .rising => 0
  | .falling => 1
  | .both => 2

/-- The codes of QUEUE_MODE (spec 10, section 10.4). -/
def QueueMode.code : QueueMode → Nat
  | .stream => 0
  | .retain => 1

/-- The value stored for a parameter, an enumerated one by its code (R190). -/
def Setup.get (t : Setup) : Param → Nat
  | .nomFreq => t.nomFreq
  | .nomPeak => t.nomPeak
  | .stopRamp => t.stopRamp
  | .limitLevel p => t.limitLevel.get p
  | .attack => t.attack
  | .release => t.release
  | .gainFloor => t.gainFloor
  | .tripLevel p => t.tripLevel.get p
  | .tripSamples => t.tripSamples
  | .captureWindow => t.captureWindow
  | .trigEdge => t.trigEdge.code
  | .trigDebounce => t.trigDebounce
  | .trigTimeout => t.trigTimeout
  | .queueMode => t.queueMode.code
  | .lowWater => t.lowWater
  | .highWater => t.highWater
  | .resultNotify => t.resultNotify

/-- The table with one parameter's value replaced, an enumerated one's by its code. -/
def Setup.put (t : Setup) (p : Param) (v : Nat) : Setup :=
  match p with
  | .nomFreq => { t with nomFreq := v }
  | .nomPeak => { t with nomPeak := v }
  | .stopRamp => { t with stopRamp := v }
  | .limitLevel q => { t with limitLevel := t.limitLevel.set q v }
  | .attack => { t with attack := v }
  | .release => { t with release := v }
  | .gainFloor => { t with gainFloor := v }
  | .tripLevel q => { t with tripLevel := t.tripLevel.set q v }
  | .tripSamples => { t with tripSamples := v }
  | .captureWindow => { t with captureWindow := v }
  | .trigEdge => { t with trigEdge := if v = 0 then .rising else if v = 1 then .falling else .both }
  | .trigDebounce => { t with trigDebounce := v }
  | .trigTimeout => { t with trigTimeout := v }
  | .queueMode => { t with queueMode := if v = 0 then .stream else .retain }
  | .lowWater => { t with lowWater := v }
  | .highWater => { t with highWater := v }
  | .resultNotify => { t with resultNotify := v }

/-- Whether a pair passes the range pass: its id is listed, and an enumerated value is one of the codes (R187). -/
def pairInRange (pair : Byte × Word) : Bool :=
  match Param.ofId pair.1 with
  | none => false
  | some p => !p.enumerated || pair.2.toNat ≤ p.range.2

/-- Whether the run state is one in which NOM_PEAK and the present tuning word can be set (R24, R187). -/
def RunState.quiet : RunState → Bool
  | .off | .fault | .disabled => true
  | .armed | .active | .waiting | .starved | .paused | .parked | .stopping => false

/-- Whether a pair passes the state pass (R187, R95). -/
def State.pairInState (s : State) (pair : Byte × Word) : Bool :=
  match Param.ofId pair.1 with
  | some .nomPeak => s.seq.run.quiet
  | some .queueMode => s.seq.run == .off && s.queue.cues.isEmpty
  | _ => true

/-- The table after one pair: the value stored is brought into the parameter's range (R188). -/
def Setup.write (t : Setup) (pair : Byte × Word) : Setup :=
  match Param.ofId pair.1 with
  | none => t
  | some p => t.put p (clampTo p.range.1 p.range.2 pair.2.toNat)

/-- Whether a pair's value is stored clamped (R188). -/
def pairClamped (pair : Byte × Word) : Bool :=
  match Param.ofId pair.1 with
  | none => false
  | some p => pair.2.toNat < p.range.1 || p.range.2 < pair.2.toNat

/-- Whether the pairs write a parameter. -/
def writes (p : Param) (pairs : List (Byte × Word)) : Bool := pairs.any fun pair => Param.ofId pair.1 == some p

/-- What the values written move at once: NOM_FREQ the present tuning word in OFF, FAULT or DISABLED (R24), and
GAIN_FLOOR the gains below it (R142). The blocks see the values of one request together (R188). -/
def State.applySetup (pairs : List (Byte × Word)) (s : State) : State :=
  { s with
    synth :=
      if writes .nomFreq pairs && s.seq.run.quiet then
        { s.synth with tuning := tuningOf s.setup.nomFreq, freqRamp := none }
      else s.synth,
    monitor :=
      if writes .gainFloor pairs then
        { s.monitor with gains := s.monitor.gains.map (max s.setup.gainFloor) }
      else s.monitor }

/-- SETUP_WRITE (R187, R188). -/
def State.takeSetupWrite (pairs : List (Byte × Word)) (s : State) : State :=
  if !pairs.all pairInRange then s.refuse .range
  else if !pairs.all s.pairInState then s.refuse .state
  else
    (State.applySetup pairs { s with setup := pairs.foldl Setup.write s.setup }).done
      (if pairs.any pairClamped then .clamped else .none) []

/-- The pair that SETUP_READ returns for an id (R190). -/
def Setup.pairBytes (t : Setup) (i : Byte) : List Byte :=
  i :: bytes4 ((Param.ofId i).elim 0 t.get)

/-- SETUP_READ (R190). -/
def State.takeSetupRead (ids : List Byte) (s : State) : State :=
  if ids.all fun i => (Param.ofId i).isSome then s.done .none (ids.flatMap s.setup.pairBytes)
  else s.refuse .range

end Sys2Proof.Machine
end

