-- ==== Sys2Proof/Machine/Shapes.lean ====
section
/-! DEFINITION. The shape store's requests and completions (spec 02): SHAPE_OPEN, SHAPE_APPEND, SHAPE_ERASE,
SHAPE_INFO, SHAPE_SUM, SHAPE_COMPARE, the arbiter's account of link-side work, and the check engine. -/

namespace Sys2Proof.Machine

/-! ## Slots -/

/-- The fill cursor of a slot: 1,024 for slot 0, else the number of appended points (R26, R27). -/
def Store.cursor (store : Store) (slot : Nat) : Nat :=
  if slot = 0 then Config.pointsPerShape
  else match store.slots[slot]? with
    | some s => s.points.length
    | none => 0

/-- A slot's record replaced. -/
def State.setSlot (index : Nat) (slot : Slot) (s : State) : State :=
  { s with store := { s.store with slots := s.store.slots.setIfInBounds index slot } }

/-- Whether the active step record exists and its copy names a slot (R31, R36). -/
def State.activeNames (s : State) (slot : Nat) : Bool :=
  match s.seq.active with
  | some a => a.copy.content.names slot
  | none => false

/-- Whether the staging slot holds a step that names a slot; an end marker names none (R31, R36). -/
def State.stagedNames (s : State) (slot : Nat) : Bool :=
  match s.expander.slot with
  | .step copy => copy.content.names slot
  | .empty => false
  | .marker _ => false

/-- Whether a slot with this refcount is held (R31). -/
def State.held (s : State) (slot refcount : Nat) : Bool :=
  0 < refcount || s.activeNames slot || s.stagedNames slot

/-! ## SHAPE_OPEN and SHAPE_ERASE (R29, R32, R35) -/

/-- A slot cleared into a state: points 0, cursor 0, generation advanced (R29, R32, R35). -/
def Slot.cleared (slot : Slot) (state : SlotState) : Slot :=
  { slot with state := state, points := [], gen := slot.gen + 1#8 }

/-- The checks that SHAPE_OPEN and SHAPE_ERASE share, in their order, and the clearing (R32, R35). -/
def State.clearShape (state : SlotState) (slot : Byte) (s : State) : State :=
  match s.store.slots[slot.toNat]? with
  | none => s.refuse .range
  | some record =>
    if slot = 0#8 then s.refuse .readOnly
    else if s.held slot.toNat record.refcount then s.refuse .inUse
    else (s.setSlot slot.toNat (record.cleared state)).done .none [slot, record.gen + 1#8]

/-- SHAPE_OPEN (R32). -/
def State.takeShapeOpen (slot : Byte) (s : State) : State := s.clearShape .filling slot

/-- SHAPE_ERASE (R35). -/
def State.takeShapeErase (slot : Byte) (s : State) : State := s.clearShape .empty slot

/-- SHAPE_INFO (R36). -/
def State.takeShapeInfo (slot : Byte) (s : State) : State :=
  match s.store.slots[slot.toNat]? with
  | none => s.refuse .range
  | some record =>
    s.done .none ([slot, record.state.code] ++ bytes2 (s.store.cursor slot.toNat)
      ++ [record.gen, byteOf record.refcount,
          flagBit (s.activeNames slot.toNat) 0 ||| flagBit (s.stagedNames slot.toNat) 1])

/-! ## The arbiter (R38) -/

/-- The accesses the arbiter leaves to link-side work in the period of a sample (R38). -/
def Synth.leftover (y : Synth) : Nat := Config.accessesPerSample - y.reads

/-- Link-side work begins; what is left of the present sample's period may already serve it (R38). -/
def State.beginWork (work : ShapeWork) (s : State) : State :=
  { s with store := { s.store with job := some { work := work, served := s.store.spare, periods := 0 } } }

/-- The points an append accepts at a cursor (R34). -/
def acceptedCount (cursor points : Nat) : Nat := min points (Config.pointsPerShape - cursor)

/-- The items a sum or compare has to process: points, or pairs of the padded sequences (R41, R44). -/
def ShapeWork.items : ShapeWork → Nat
  | .append _ points => points.length
  | .sum _ _ count _ => count
  | .compare _ _ count _ points => max count points.length

/-- The items the engine processes of those that remain, by the `n`-th amount it has chosen: all of 32 or fewer, else no more
than its chosen amount (R41). -/
def engineItems (n remaining : Nat) : Nat :=
  if remaining ≤ 32 then remaining else min (Config.engineAmount n) remaining

/-- A point of a slot as the check engine reads it: its 16 bits (R42, R44). -/
def Store.pointBits (store : Store) (slot k : Nat) : Half := BitVec.ofInt 16 (store.point slot k)

/-- The stored value of pair `j`: the region's point, and the pad beyond the region (R44). -/
def Store.storedValue (store : Store) (slot start count : Nat) (pad : Half) (j : Nat) : Half :=
  if j < count then store.pointBits slot (start + j) else pad

/-- The offset of the first unequal pair among the first `n` (R45). -/
def firstDifference (stored controller : Nat → Half) : Nat → Option Nat
  | 0 => none
  | n + 1 =>
    match firstDifference stored controller n with
    | some j => some j
    | none => if stored n = controller n then none else some n

/-- The pairs that the engine examines of the first `n`: it stops at the first unequal one (R45). -/
def pairsExamined (stored controller : Nat → Half) (n : Nat) : Nat :=
  match firstDifference stored controller n with
  | some j => j + 1
  | none => n

/-- The accesses that the work needs: one for each point written or read (R38). A compare reads the points of the pairs
it examines, and the pad of a pair beyond the region takes no access (R44, R45). -/
def State.workAccesses (s : State) (work : ShapeWork) : Nat :=
  match work with
  | .append slot points => acceptedCount (s.store.cursor slot) points.length
  | .sum _ _ count _ => engineItems s.moments.engine count
  | .compare slot start count pad points =>
      min (pairsExamined (s.store.storedValue slot start count pad) (points.getD · pad)
        (engineItems s.moments.engine work.items)) count

/-- Whether the arbiter can have served the work in progress (R38: 32 accesses in the period of each sample). -/
def State.workServed (s : State) : Bool :=
  match s.store.job with
  | none => false
  | some job => s.workAccesses job.work ≤ job.served

/-- The sample periods within which work completes: its points or items by 20, rounded up (R38). -/
def State.workPeriods (s : State) (work : ShapeWork) : Nat :=
  match work with
  | .append _ points => (points.length + (Config.leftoverAccesses - 1)) / Config.leftoverAccesses
  | .sum _ _ _ _ => (s.workAccesses work + (Config.leftoverAccesses - 1)) / Config.leftoverAccesses
  | .compare _ _ _ _ _ => (s.workAccesses work + (Config.leftoverAccesses - 1)) / Config.leftoverAccesses

/-- Whether the work in progress has used the sample periods within which it completes (R38). -/
def State.workOverdue (s : State) : Bool :=
  match s.store.job with
  | none => false
  | some job => s.workPeriods job.work ≤ job.periods

/-- One more sample period of work in progress, with the accesses it leaves over (R38). -/
def ShapeJob.serve (accesses : Nat) (job : ShapeJob) : ShapeJob :=
  { job with served := job.served + accesses, periods := job.periods + 1 }

/-- The arbiter's part of a sample: what the synthesizer's reads for it leave of its period is for link-side work, and
goes to the work in progress (R38). -/
def State.serveWork (s : State) : State :=
  { s with store := { s.store with job := s.store.job.map (ShapeJob.serve s.synth.leftover),
                                   spare := s.synth.leftover } }

/-- What the work in progress, once over, leaves of the present period for the next request: all that earlier periods
and its own need do not take (R38: 32 accesses in a period, one request at a time). -/
def State.spareAfterWork (s : State) : Nat :=
  match s.store.job with
  | none => s.store.spare
  | some job => min s.store.spare (job.served - s.workAccesses job.work)

/-- The work in progress is over. -/
def State.endWork (s : State) : State :=
  { s with store := { s.store with job := none, spare := s.spareAfterWork } }

/-! ## SHAPE_APPEND (R33, R34) -/

/-- SHAPE_APPEND: the checks, and the start of its writes (R33). -/
def State.takeShapeAppend (slot : Byte) (points : List Half) (s : State) : State :=
  match s.store.slots[slot.toNat]? with
  | none => s.refuse .range
  | some record =>
    if slot = 0#8 then s.refuse .readOnly
    else if record.state = .filling then s.beginWork (.append slot.toNat points)
    else s.refuse .notReady

/-- A slot with points appended: those accepted join it, and a full slot is LOADED (R34). -/
def Slot.appended (slot : Slot) (points : List Half) : Slot :=
  let all := slot.points ++ points.take (acceptedCount slot.points.length points.length)
  { slot with points := all, state := if all.length = Config.pointsPerShape then .loaded else slot.state }

/-- The completion of an append: its points, the cursor and any change to LOADED together, and the reply (R34). The
checks of R33 leave no append on a slot that does not exist. -/
def State.completeAppend (slot : Nat) (points : List Half) (s : State) : State :=
  match s.store.slots[slot]? with
  | none => s.endWork.refuse .range
  | some record =>
    let accepted := acceptedCount record.points.length points.length
    (s.endWork.setSlot slot (record.appended points)).done
      (if accepted = points.length then .none else .truncated)
      ([byteOf slot] ++ bytes2 accepted ++ bytes2 (record.points.length + accepted))

/-! ## The check engine (R40 to R47) -/

/-- The checks that SHAPE_SUM and SHAPE_COMPARE share, in their order (R40). -/
def State.checkRegion (slot gen : Byte) (start count : Half) (s : State) : Option Detail :=
  match s.store.slots[slot.toNat]? with
  | none => some .range
  | some record =>
    if record.state ≠ .loaded then some .notReady
    else if gen ≠ record.gen then some .stale
    else if Config.pointsPerShape < start.toNat + count.toNat then some .range
    else none

/-- The engine chooses an amount for the request that has passed its checks, afresh for each (R41). -/
def State.chooseAmount (s : State) : State :=
  { s with moments := { s.moments with engine := s.moments.engine + 1 } }

/-- SHAPE_SUM: the checks, and the start of the engine (R40, R43). -/
def State.takeShapeSum (slot gen : Byte) (start count crc : Half) (s : State) : State :=
  match s.checkRegion slot gen start count with
  | some detail => s.refuse detail
  | none => s.chooseAmount.beginWork (.sum slot.toNat start.toNat count.toNat crc)

/-- SHAPE_COMPARE: the checks, and the start of the engine (R40, R44). -/
def State.takeShapeCompare (slot gen : Byte) (start count pad : Half) (points : List Half) (s : State) : State :=
  match s.checkRegion slot gen start count with
  | some detail => s.refuse detail
  | none => s.chooseAmount.beginWork (.compare slot.toNat start.toNat count.toNat pad points)

/-- The CRC over `count` points of a slot from a start index and a running CRC (R42, R43). -/
def Store.sumPoints (store : Store) (slot : Nat) : Nat → Nat → Half → Half
  | _, 0, crc => crc
  | start, count + 1, crc => store.sumPoints slot (start + 1) count (crcPoint crc (store.pointBits slot start))

/-- The completion of a sum (R43). -/
def State.completeSum (slot start count : Nat) (crc : Half) (s : State) : State :=
  let processed := engineItems s.moments.engine count
  let remaining := count - processed
  s.endWork.answer (if remaining = 0 then .done else .partly) (if remaining = 0 then .none else .more)
    (bytes2 processed ++ bytes2 (start + processed) ++ bytes2 remaining
      ++ le16 (s.store.sumPoints slot start processed crc))

/-- The compare block of 13 bytes, after `e` equal pairs (R45, R46; spec 09, "Compare block"). -/
def compareBlock (result : Byte) (offset : Nat) (stored controller : Half)
    (start count points e : Nat) : List Byte :=
  [result] ++ bytes2 offset ++ le16 stored ++ le16 controller ++ bytes2 (start + min e count)
    ++ bytes2 (count - min e count) ++ bytes2 (min e points)

/-- The completion of a compare (R45, R46). -/
def State.completeCompare (slot start count : Nat) (pad : Half) (points : List Half) (s : State) : State :=
  let length := max count points.length
  let examined := engineItems s.moments.engine length
  let stored := s.store.storedValue slot start count pad
  let controller (j : Nat) : Half := points.getD j pad
  let ended := s.endWork
  match firstDifference stored controller examined with
  | some j =>
    ended.done .none
      (compareBlock (if (stored j).toInt < (controller j).toInt then 1#8 else 2#8) j (stored j) (controller j)
        start count points.length j)
  | none =>
    if examined = length then
      ended.done .none (compareBlock 0#8 0 0#16 0#16 start count points.length length)
    else ended.answer .partly .more (compareBlock 3#8 0 0#16 0#16 start count points.length examined)

/-- The work in progress completes, if there is any. -/
def State.completeWork (s : State) : State :=
  match s.store.job with
  | none => s
  | some job =>
    match job.work with
    | .append slot points => s.completeAppend slot points
    | .sum slot start count crc => s.completeSum slot start count crc
    | .compare slot start count pad points => s.completeCompare slot start count pad points

/-! ## The commands that complete link-side work -/

/-- SHAPE_APPEND_COMPLETE (R34): an append in progress that the arbiter can have served completes; without one
nothing takes place. -/
def execShapeAppendComplete (s : State) : Host.Outcome State Fault Refusal :=
  match s.store.job with
  | some { work := .append slot points, .. } =>
      .next (if s.workServed then s.completeAppend slot points else s)
  | _ => .next s

/-- SHAPE_SUM_COMPLETE (R43): a sum in progress that the arbiter can have served completes; without one nothing
takes place. -/
def execShapeSumComplete (s : State) : Host.Outcome State Fault Refusal :=
  match s.store.job with
  | some { work := .sum slot start count crc, .. } =>
      .next (if s.workServed then s.completeSum slot start count crc else s)
  | _ => .next s

/-- SHAPE_COMPARE_COMPLETE (R45): a compare in progress that the arbiter can have served completes; without one
nothing takes place. -/
def execShapeCompareComplete (s : State) : Host.Outcome State Fault Refusal :=
  match s.store.job with
  | some { work := .compare slot start count pad points, .. } =>
      .next (if s.workServed then s.completeCompare slot start count pad points else s)
  | _ => .next s

end Sys2Proof.Machine
end

