-- ==== Sys2Proof/Machine/Templates.lean ====
section
/-! DEFINITION. The template library's requests (spec 03): TEMPLATE_DEFINE, TEMPLATE_DELETE, TEMPLATE_READ. -/

namespace Sys2Proof.Machine

/-- Whether a carried phase record has a present overlay: its overlay slot is not 255 (R54). -/
def hasOverlay (p : PhaseWire) : Bool := p.overlaySlot != 255#8

/-- The structural checks of a carried phase record: primary slot, overlay slot, harmonic (R51, checks 4 to 6). -/
def phaseInRange (p : PhaseWire) : Bool :=
  p.slot.toNat ≤ 15 && (p.overlaySlot.toNat ≤ 15 || p.overlaySlot == 255#8)
    && (!hasOverlay p || (1 ≤ p.harmonic.toNat && p.harmonic.toNat ≤ 50))

/-- The stored phase record of a carried one (R53, R54). -/
def storedPhase (p : PhaseWire) : PhaseRecord :=
  { amplitude := min 15000 p.amplitude.toNat, offset := p.offset.toNat % 3600, slot := p.slot.toNat,
    overlay :=
      if hasOverlay p then
        some { slot := p.overlaySlot.toNat, harmonic := p.harmonic.toNat,
               amplitude := min 3000 p.overlayAmp.toNat, phase := p.overlayPhase.toNat % 3600 }
      else none }

/-- Whether a carried phase record is stored with a clamped value (R53, R54). -/
def phaseClamped (p : PhaseWire) : Bool :=
  15000 < p.amplitude.toNat || (hasOverlay p && 3000 < p.overlayAmp.toNat)

/-- The stored template of a carried one, none where a structural check refuses it (R49 to R54). -/
def storedTemplate (w : TemplateWire) : Option Template :=
  match startOf w.startKind w.startAngle, durationOf w.durKind w.durValue with
  | some start, some duration =>
    if phaseInRange w.phases.a && phaseInRange w.phases.b && phaseInRange w.phases.c then
      some { start := start, duration := duration, levelRamp := w.levelRamp.toNat,
             frequency := clampTo 4000 45000 w.frequency.toNat, freqRamp := w.freqRamp.toNat,
             phases := w.phases.map storedPhase }
    else none
  | _, _ => none

/-- Whether a carried template is stored with a clamped value (R55). -/
def templateClamped (w : TemplateWire) : Bool :=
  durationClamped w.durKind w.durValue || w.frequency.toNat < 4000 || 45000 < w.frequency.toNat
    || phaseClamped w.phases.a || phaseClamped w.phases.b || phaseClamped w.phases.c

/-- Whether every slot a template names is LOADED (R51, check 7). -/
def State.slotsLoaded (s : State) (t : Template) : Bool :=
  (List.range 16).all fun k =>
    !t.names k ||
      match s.store.slots[k]? with
      | some slot => slot.state == .loaded
      | none => false

/-- Whether the template of an entry, if it is defined, names a slot. -/
def namesSlot (t : Option Template) (k : Nat) : Bool :=
  match t with
  | some t => t.names k
  | none => false

/-- Slot refcounts move from the set an entry named to the set it names (R30). -/
def State.moveSlotCounts (old new : Option Template) (s : State) : State :=
  { s with store := { s.store with slots := s.store.slots.mapIdx fun k slot =>
      { slot with refcount :=
          if namesSlot new k && !namesSlot old k then slot.refcount + 1
          else if namesSlot old k && !namesSlot new k then slot.refcount - 1
          else slot.refcount } } }

/-- TEMPLATE_DEFINE (R51, R55, R56). -/
def State.takeTemplateDefine (w : TemplateWire) (s : State) : State :=
  if 63 < w.index.toNat then s.refuse .range
  else match storedTemplate w with
  | none => s.refuse .range
  | some t =>
    if s.slotsLoaded t then
      let old := s.template? w.index.toNat
      let refcount := (old.map TemplateEntry.refcount).getD 0
      let moved := s.moveSlotCounts (old.map TemplateEntry.template) (some t)
      State.done (if templateClamped w then .clamped else .none)
        ([w.index, if old.isSome then 1#8 else 0#8] ++ bytes2 refcount)
        { moved with library :=
            moved.library.setIfInBounds w.index.toNat (some { template := t, refcount := refcount }) }
    else s.refuse .notReady

/-- TEMPLATE_DELETE (R57). -/
def State.takeTemplateDelete (index : Byte) (s : State) : State :=
  if 63 < index.toNat then s.refuse .range
  else match s.template? index.toNat with
  | none => s.refuse .notReady
  | some e =>
    if 0 < e.refcount then s.refuse .inUse
    else
      let moved := s.moveSlotCounts (some e.template) none
      State.done .none [index] { moved with library := moved.library.setIfInBounds index.toNat none }

/-- TEMPLATE_READ (R58). -/
def State.takeTemplateRead (index : Byte) (s : State) : State :=
  if 63 < index.toNat then s.refuse .range
  else match s.template? index.toNat with
  | none => s.refuse .notReady
  | some e => s.done .none (templateBytes (e.template.wire index) ++ bytes2 e.refcount)

end Sys2Proof.Machine
end

