-- ==== Sys2Proof/WellFormed.lean ====
section
/-! DEFINITION. Which commands are well formed: those that can arrive. A request's payload fits its frame
(R168); the row BADFRAME stands for a frame whose CRC is wrong (R169), the row UNKNOWN_KIND for one whose kind
is not listed (R170). A request with too few or too many units is well formed: the part answers it LENGTH. -/

namespace Sys2Proof

/-- Whether a payload fits a request frame (R168). -/
def fitsFrame (payload : List Byte) : Bool := payload.length ≤ Config.maxPayload

/-- Whether a command can arrive as its row describes it. -/
def Instr.wf (i : Instr) : Bool :=
  match i with
  | .badframe _ _ payload crcError => fitsFrame payload && crcError != 0
  | .unknownKind kind _ payload => fitsFrame payload && (Kind.ofCode kind).isNone
  | i =>
    match i.request? with
    | some (_, _, payload) => fitsFrame payload
    | none => true

end Sys2Proof
end

