-- ==== Sys2Proof/Machine/Link.lean ====
section
/-! DEFINITION. The link interface (spec 09): handing a request to its block, taking a frame, the receiver byte by
byte, whole frames, resets, and the end of a reply. -/

namespace Sys2Proof.Machine

/-! ## Handing over (R170) -/

/-- A request is handed to the block that owns its kind (R170). A command that is no request reaches no block. -/
def State.handOver (i : Instr) (s : State) : State :=
  match i with
  | .identify _ => s.takeIdentify
  | .status _ => s.takeStatus
  | .reset _ => s.takeReset
  | .setupWrite _ pairs => s.takeSetupWrite pairs
  | .setupRead _ ids => s.takeSetupRead ids
  | .noticeRead _ => s.takeNoticeRead
  | .noticeClear _ flagSet => s.takeNoticeClear flagSet
  | .noticeMask _ masks enable => s.takeNoticeMask masks enable
  | .shapeOpen _ slot => s.takeShapeOpen slot
  | .shapeAppend _ slot points => s.takeShapeAppend slot points
  | .shapeErase _ slot => s.takeShapeErase slot
  | .shapeInfo _ slot => s.takeShapeInfo slot
  | .shapeSum _ slot gen start count crc => s.takeShapeSum slot gen start count crc
  | .shapeCompare _ slot gen start count pad points => s.takeShapeCompare slot gen start count pad points
  | .templateDefine _ template => s.takeTemplateDefine template
  | .templateDelete _ index => s.takeTemplateDelete index
  | .templateRead _ index => s.takeTemplateRead index
  | .phraseDefine _ index pred template => s.takePhraseDefine index pred template
  | .phraseDelete _ index => s.takePhraseDelete index
  | .phraseRead _ index => s.takePhraseRead index
  | .cueAdd _ cues => s.takeCueAdd cues
  | .cueRewind _ => s.takeCueRewind
  | .runClear _ => s.takeRunClear
  | .runStart _ => s.takeRunStart
  | .runPause _ => s.takeRunPause
  | .runResume _ => s.takeRunResume
  | .runForceDisable _ _ _ => s.takeForce .disable
  | .runForceAbort _ _ => s.takeForce .abort
  | .runForceSkip _ => s.takeForce .skip
  | .faultClear _ => s.takeFaultClear
  | .outputEnable _ => s.takeOutputEnable
  | .resultRead _ count => s.takeResultRead count
  | .powerOn => s
  | .resetN => s
  | .fullResetComplete _ _ => s
  | .sample _ _ _ _ => s
  | .rampComplete _ => s
  | .qualifiedEdge => s
  | .stepStart => s
  | .stepEnd => s
  | .endMarkerHandover => s
  | .triggerTimeout => s
  | .trip => s
  | .stopRampComplete => s
  | .byteReceived _ _ => s
  | .gapTimeout => s
  | .badframe _ _ _ _ => s
  | .unknownKind _ _ _ => s
  | .replySent => s
  | .shapeAppendComplete => s
  | .shapeSumComplete => s
  | .shapeCompareComplete => s

/-! ## Taking a frame (R169, R170, R171, R173) -/

/-- A frame without the overrun mark is complete: READY falls, and its request is in progress (R171). -/
def State.openRequest (kind tag : Byte) (s : State) : State :=
  { s with link := { s.link with ready := false, inProgress := some (kind, tag), reply := none } }

/-- A frame that carries a request with the right units, or too few or too many (R170). -/
def State.takeRequest (i : Instr) (s : State) : State := if i.lengthOk then s.handOver i else s.refuse .length

/-- What the payload of a frame of a listed kind says is done (R127, R170). DESIGN CHOICE, log entry 28: a CUE_ADD
refused LENGTH has an empty payload (R170), no counts (R174). -/
def State.takeParsed (p : Parsed) (s : State) : State :=
  match p with
  | .request i => s.handOver i
  | .emptyForce => s.refuse .range
  | .badLength => s.refuse .length

/-- A complete frame without the overrun mark (R169, R170): its CRC, its kind, its length, then its block. -/
def State.takeFrame (kind tag : Byte) (payload : List Byte) (good : Bool) (s : State) : State :=
  let opened := s.openRequest kind tag
  if good then
    match Kind.ofCode kind with
    | none => opened.answer .unknown .none []
    | some k => opened.takeParsed (parseRequest k tag payload)
  else opened.answer .badframe .none []

/-! ## The receiver (R166, R167, R168, R172) -/

/-- The frame in assembly is discarded with LINK_ERROR (R167, R168). -/
def State.discardFrame (s : State) : State :=
  State.latch .linkError { s with link := { s.link with rx := Receiver.idle } }

/-- A frame begins in HUNT: while READY is low it takes the overrun mark, and LINK_OVERRUN latches (R166, R172). -/
def State.beginFrame (s : State) : State :=
  State.latchIf (!s.link.ready) .linkOverrun
    { s with link := { s.link with
        rx := { Receiver.idle with state := .header, gapRunning := true, marked := !s.link.ready } } }

/-- The receiver's frame in assembly replaced. -/
def State.setRx (rx : Receiver) (s : State) : State := { s with link := { s.link with rx := rx } }

/-- A byte in HEADER (R166, R168). -/
def State.headerByte (byte : Byte) (s : State) : State :=
  let rx := s.link.rx
  match rx.header with
  | [kind, tag, lo] =>
    let length := (half lo byte).toNat
    if Config.maxPayload < length then s.discardFrame
    else s.setRx { rx with header := [kind, tag, lo, byte], state := if length = 0 then .check else .payload }
  | stored => s.setRx { rx with header := stored ++ [byte] }

/-- The payload length that the frame in assembly declares. -/
def Receiver.declared (rx : Receiver) : Nat :=
  match rx.header with
  | [_, _, lo, hi] => (half lo hi).toNat
  | _ => 0

/-- A byte in PAYLOAD (R166). -/
def State.payloadByte (byte : Byte) (s : State) : State :=
  let rx := s.link.rx
  s.setRx { rx with payload := rx.payload ++ [byte],
                    state := if rx.payload.length + 1 < rx.declared then .payload else .check }

/-- The second CRC byte: the frame is complete, and is discarded without a check when it carries the overrun mark
(R166, R169, R172). -/
def State.completeFrame (lo hi : Byte) (s : State) : State :=
  let rx := s.link.rx
  let idle := s.setRx Receiver.idle
  if rx.marked then idle
  else match rx.header with
    | [kind, tag, _, _] =>
      idle.takeFrame kind tag rx.payload (crcBytes crcStart (rx.header ++ rx.payload) == half lo hi)
    | _ => idle

/-- A byte in CHECK (R166). -/
def State.checkByte (byte : Byte) (s : State) : State :=
  match s.link.rx.check with
  | [] => s.setRx { s.link.rx with check := [byte] }
  | lo :: _ => s.completeFrame lo byte

/-- A byte without a framing error (R166). -/
def State.goodByte (byte : Byte) (s : State) : State :=
  match s.link.rx.state with
  | .hunt => if byte = Config.requestSync then s.beginFrame else s
  | .header => s.headerByte byte
  | .payload => s.payloadByte byte
  | .check => s.checkByte byte

/-- A byte with a framing error: ignored in HUNT, else the frame is discarded (R167). -/
def State.brokenByte (s : State) : State :=
  match s.link.rx.state with
  | .hunt => s
  | .header => s.discardFrame
  | .payload => s.discardFrame
  | .check => s.discardFrame

/-- A byte of the link; while a full reset is in progress it is not received at all (R166). -/
def State.receiveByte (byte : Byte) (framingError : Bool) (s : State) : State :=
  if s.link.inReset then s else if framingError then s.brokenByte else s.goodByte byte

/-- Bytes received one after another, back to back and without a framing error. -/
def State.feed (bytes : List Byte) (s : State) : State := bytes.foldl (fun s b => s.receiveByte b false) s

/-! ## Whole frames -/

/-- A whole frame arrives while the receiver is in HUNT, `taken` what becomes of it when READY is high. When READY
is low it is assembled with the overrun mark and discarded, and LINK_OVERRUN is latched (R172). -/
def State.wholeFrame (taken : State → State) (s : State) : State :=
  if s.link.ready then taken s else s.latch .linkOverrun

/-- Whether a whole frame with this payload finds the receiver in HUNT and passes its length check (R166, R168). -/
def State.frameFits (payload : List Byte) (s : State) : Bool := s.link.rx == Receiver.idle && fitsFrame payload

/-- The frame of a request arrives whole (R166 to R172): its bytes in order, from the sync byte to the second CRC
byte. Where the receiver is in HUNT their effect is stated at once; a frame already in assembly takes them byte by
byte (log entry 12). -/
def State.requestFrame (i : Instr) (s : State) : State :=
  if s.link.inReset then s
  else match i.request? with
    | none => s
    | some (kind, tag, payload) =>
      if s.frameFits payload then s.wholeFrame fun s => (s.openRequest kind.code tag).takeRequest i
      else s.feed (frameBytes kind.code tag payload 0#16)

/-- BADFRAME (R169): a frame arrives whole with a wrong CRC. -/
def execBadframe (kind tag : Byte) (payload : List Byte) (crcError : Half) (s : State) :
    Host.Outcome State Fault Refusal :=
  .next (if s.link.inReset then s
         else if s.frameFits payload && crcError != 0#16 then
           s.wholeFrame fun s => s.takeFrame kind tag payload false
         else s.feed (frameBytes kind tag payload crcError))

/-- UNKNOWN_KIND (R170): a frame arrives whole with a kind that is not listed. -/
def execUnknownKind (kind tag : Byte) (payload : List Byte) (s : State) : Host.Outcome State Fault Refusal :=
  .next (if s.link.inReset then s
         else if s.frameFits payload && (Kind.ofCode kind).isNone then
           s.wholeFrame fun s => s.takeFrame kind tag payload true
         else s.feed (frameBytes kind tag payload 0#16))

/-- BYTE_RECEIVED (R166, R167). -/
def execByteReceived (byte : Byte) (framingError : Bool) (s : State) : Host.Outcome State Fault Refusal :=
  .next (s.receiveByte byte framingError)

/-- GAP_TIMEOUT (R167): only a frame in assembly has a gap to time. -/
def execGapTimeout (s : State) : Host.Outcome State Fault Refusal :=
  .next (if s.link.rx.gapRunning then s.discardFrame else s)

/-! ## The end of a reply, and resets (R165, R171, R175, R176, R181) -/

/-- Whether a reply is that of a RESET carried out, after which a full reset follows (R176). -/
def Reply.resets (r : Reply) : Bool := r.kind == Kind.reset.code && r.outcome == .done

/-- REPLY_SENT (R171): READY rises and the request in progress ends; after a RESET the full reset begins (R176). -/
def execReplySent (s : State) : Host.Outcome State Fault Refusal :=
  match s.link.reply with
  | none => .next s
  | some r =>
    .next (if r.resets then s.beginReset
           else { s with link := { s.link with ready := true, inProgress := none, reply := none } })

/-- POWER_ON (R175). -/
def execPowerOn (s : State) : Host.Outcome State Fault Refusal := .next s.beginReset

/-- RESET_N (R175). -/
def execResetN (s : State) : Host.Outcome State Fault Refusal := .next s.beginReset

/-- The rate that the levels of the second and the first strap select (R165). -/
def strapRate : Bool → Bool → Nat
  | false, false => 115200
  | false, true => 921600
  | true, false => 3000000
  | true, true => 115200

/-- FULL_RESET_COMPLETE (R1, R165, R171, R181): READY rises, the rate straps are read and RESTARTED latches. -/
def execFullResetComplete (strap2 strap1 : Bool) (s : State) : Host.Outcome State Fault Refusal :=
  .next (if s.link.inReset then
           State.latch .restarted
             { s with link := { s.link with ready := true, inReset := false, baud := strapRate strap2 strap1 } }
         else s)

end Sys2Proof.Machine
end

