-- ==== Sys2Proof/Machine/Requests.lean ====
section
/-! DEFINITION. The commands that are requests of the controller (spec 09, "Kinds and payloads"): each is its frame
arriving whole, taken or overrun as `State.requestFrame` says. -/

namespace Sys2Proof.Machine

/-- IDENTIFY (R177). -/
def execIdentify (tag : Byte) (s : State) : Host.Outcome State Fault Refusal :=
  .next (s.requestFrame (.identify tag))

/-- STATUS (R178). -/
def execStatus (tag : Byte) (s : State) : Host.Outcome State Fault Refusal :=
  .next (s.requestFrame (.status tag))

/-- RESET (R176). -/
def execReset (tag : Byte) (s : State) : Host.Outcome State Fault Refusal :=
  .next (s.requestFrame (.reset tag))

/-- SETUP_WRITE (R188). -/
def execSetupWrite (tag : Byte) (pairs : List (Byte × Word)) (s : State) : Host.Outcome State Fault Refusal :=
  .next (s.requestFrame (.setupWrite tag pairs))

/-- SETUP_READ (R190). -/
def execSetupRead (tag : Byte) (ids : List Byte) (s : State) : Host.Outcome State Fault Refusal :=
  .next (s.requestFrame (.setupRead tag ids))

/-- NOTICE_READ (R185). -/
def execNoticeRead (tag : Byte) (s : State) : Host.Outcome State Fault Refusal :=
  .next (s.requestFrame (.noticeRead tag))

/-- NOTICE_CLEAR (R183). -/
def execNoticeClear (tag : Byte) (flagSet : Half) (s : State) : Host.Outcome State Fault Refusal :=
  .next (s.requestFrame (.noticeClear tag flagSet))

/-- NOTICE_MASK (R184). -/
def execNoticeMask (tag : Byte) (masks : Half) (enable : Byte) (s : State) : Host.Outcome State Fault Refusal :=
  .next (s.requestFrame (.noticeMask tag masks enable))

/-- SHAPE_OPEN (R32). -/
def execShapeOpen (tag slot : Byte) (s : State) : Host.Outcome State Fault Refusal :=
  .next (s.requestFrame (.shapeOpen tag slot))

/-- SHAPE_APPEND (R33). -/
def execShapeAppend (tag slot : Byte) (points : List Half) (s : State) : Host.Outcome State Fault Refusal :=
  .next (s.requestFrame (.shapeAppend tag slot points))

/-- SHAPE_ERASE (R35). -/
def execShapeErase (tag slot : Byte) (s : State) : Host.Outcome State Fault Refusal :=
  .next (s.requestFrame (.shapeErase tag slot))

/-- SHAPE_INFO (R36). -/
def execShapeInfo (tag slot : Byte) (s : State) : Host.Outcome State Fault Refusal :=
  .next (s.requestFrame (.shapeInfo tag slot))

/-- SHAPE_SUM (R40). -/
def execShapeSum (tag slot gen : Byte) (start count crc : Half) (s : State) :
    Host.Outcome State Fault Refusal :=
  .next (s.requestFrame (.shapeSum tag slot gen start count crc))

/-- SHAPE_COMPARE (R44). -/
def execShapeCompare (tag slot gen : Byte) (start count pad : Half) (points : List Half) (s : State) :
    Host.Outcome State Fault Refusal :=
  .next (s.requestFrame (.shapeCompare tag slot gen start count pad points))

/-- TEMPLATE_DEFINE (R55). -/
def execTemplateDefine (tag : Byte) (template : TemplateWire) (s : State) : Host.Outcome State Fault Refusal :=
  .next (s.requestFrame (.templateDefine tag template))

/-- TEMPLATE_DELETE (R57). -/
def execTemplateDelete (tag index : Byte) (s : State) : Host.Outcome State Fault Refusal :=
  .next (s.requestFrame (.templateDelete tag index))

/-- TEMPLATE_READ (R58). -/
def execTemplateRead (tag index : Byte) (s : State) : Host.Outcome State Fault Refusal :=
  .next (s.requestFrame (.templateRead tag index))

/-- PHRASE_DEFINE (R67). -/
def execPhraseDefine (tag index pred template : Byte) (s : State) : Host.Outcome State Fault Refusal :=
  .next (s.requestFrame (.phraseDefine tag index pred template))

/-- PHRASE_DELETE (R70). -/
def execPhraseDelete (tag index : Byte) (s : State) : Host.Outcome State Fault Refusal :=
  .next (s.requestFrame (.phraseDelete tag index))

/-- PHRASE_READ (R71). -/
def execPhraseRead (tag index : Byte) (s : State) : Host.Outcome State Fault Refusal :=
  .next (s.requestFrame (.phraseRead tag index))

/-- CUE_ADD (R91). -/
def execCueAdd (tag : Byte) (cues : List CueWire) (s : State) : Host.Outcome State Fault Refusal :=
  .next (s.requestFrame (.cueAdd tag cues))

/-- CUE_REWIND (R99). -/
def execCueRewind (tag : Byte) (s : State) : Host.Outcome State Fault Refusal :=
  .next (s.requestFrame (.cueRewind tag))

/-- RUN_CLEAR (R101). -/
def execRunClear (tag : Byte) (s : State) : Host.Outcome State Fault Refusal :=
  .next (s.requestFrame (.runClear tag))

/-- RUN_START (R105). -/
def execRunStart (tag : Byte) (s : State) : Host.Outcome State Fault Refusal :=
  .next (s.requestFrame (.runStart tag))

/-- RUN_PAUSE (R124). -/
def execRunPause (tag : Byte) (s : State) : Host.Outcome State Fault Refusal :=
  .next (s.requestFrame (.runPause tag))

/-- RUN_RESUME (R126). -/
def execRunResume (tag : Byte) (s : State) : Host.Outcome State Fault Refusal :=
  .next (s.requestFrame (.runResume tag))

/-- RUN_FORCE_DISABLE (R128). -/
def execRunForceDisable (tag : Byte) (abortToo skipToo : Bool) (s : State) : Host.Outcome State Fault Refusal :=
  .next (s.requestFrame (.runForceDisable tag abortToo skipToo))

/-- RUN_FORCE_ABORT (R129). -/
def execRunForceAbort (tag : Byte) (skipToo : Bool) (s : State) : Host.Outcome State Fault Refusal :=
  .next (s.requestFrame (.runForceAbort tag skipToo))

/-- RUN_FORCE_SKIP (R130). -/
def execRunForceSkip (tag : Byte) (s : State) : Host.Outcome State Fault Refusal :=
  .next (s.requestFrame (.runForceSkip tag))

/-- FAULT_CLEAR (R133). -/
def execFaultClear (tag : Byte) (s : State) : Host.Outcome State Fault Refusal :=
  .next (s.requestFrame (.faultClear tag))

/-- OUTPUT_ENABLE (R104). -/
def execOutputEnable (tag : Byte) (s : State) : Host.Outcome State Fault Refusal :=
  .next (s.requestFrame (.outputEnable tag))

/-- RESULT_READ (R160). -/
def execResultRead (tag count : Byte) (s : State) : Host.Outcome State Fault Refusal :=
  .next (s.requestFrame (.resultRead tag count))

end Sys2Proof.Machine
end

