-- ==== Sys2Proof/Machine/Moments.lean ====
section
/-! DEFINITION. The part's own moments between two samples (R88, R112, R117, R132): a ramp that completes, a
qualified change of TRIG, the expiry of the trigger timeout, the end of a step, a trip, the completion of the stop
ramp, a step start and the handover to an end marker; when each is due, what taking it does, and the commands that
take one. A moment that no command has taken is taken at the latest before the next sample (log entry 3). -/

namespace Sys2Proof.Machine

/-! ## A ramp completes (R18) -/

/-- The completion of a phase's primary ramp. -/
def SynthPhase.finishPrimary (p : SynthPhase) : SynthPhase :=
  { p with primary := (rampCompleted p.primary p.primaryRamp).1,
           primaryRamp := (rampCompleted p.primary p.primaryRamp).2 }

/-- The completion of a phase's overlay ramp. -/
def SynthPhase.finishOverlay (p : SynthPhase) : SynthPhase :=
  { p with overlayAmp := (rampCompleted p.overlayAmp p.overlayRamp).1,
           overlayRamp := (rampCompleted p.overlayAmp p.overlayRamp).2 }

/-- The completion of the frequency ramp. -/
def Synth.finishFrequency (y : Synth) : Synth :=
  { y with tuning := (rampCompleted y.tuning y.freqRamp).1, freqRamp := (rampCompleted y.tuning y.freqRamp).2 }

/-- The completion of one ramp, where it has reached its length (R18). -/
def Synth.finishRamp (y : Synth) : RampId → Synth
  | .frequency => y.finishFrequency
  | .primary p => { y with phases := y.phases.set p (y.phases.get p).finishPrimary }
  | .overlay p => { y with phases := y.phases.set p (y.phases.get p).finishOverlay }

/-- The completion of every ramp that has reached its length (R18). -/
def Synth.finishRamps (y : Synth) : Synth :=
  { y.finishFrequency with phases := y.phases.map fun p => p.finishPrimary.finishOverlay }

/-! ## A qualified change of TRIG (R110, R111) -/

/-- A qualified change is waiting to be taken (R110). -/
def State.edgeDue (s : State) : Bool := s.moments.edge.isSome

/-- The edge reaches a step in EDGE (R111): the timeout stops, and the step is DUE, or CROSSING when it has an
angle. -/
def State.takeEdge (s : State) : State :=
  let phase : StartPhase :=
    match s.expander.slot with
    | .step copy => if copy.content.start.target?.isSome then .crossing else .due
    | .empty => .due
    | .marker _ => .due
  { s with seq := { s.seq with startPhase := phase, timeoutCount := 0 },
           moments := { s.moments with timeout := false } }

/-- The qualified change takes place (R110): the settled level changes; a counted edge is taken by a step in EDGE
or is stray (R111). -/
def State.qualify (s : State) : State :=
  match s.moments.edge with
  | none => s
  | some e =>
    let settled : Debounce := { s.seq.debounce with settled := !s.seq.debounce.settled, runCount := 0 }
    let s' : State :=
      { s with seq := { s.seq with debounce := settled }, moments := { s.moments with edge := none } }
    if e.counted then
      if e.evaluated && s.seq.startPhase == .edge then s'.takeEdge else s'.latch .strayTrigger
    else s'

/-! ## The trigger timeout (R112) -/

/-- The expiry is waiting to be taken: not in PAUSED, where it waits for the resume (R112). -/
def State.timeoutDue (s : State) : Bool := s.moments.timeout && s.seq.run != .paused

/-! ## The end of a step (R117) -/

/-- The active step is closed and met, and its end is waiting to be taken: not in PAUSED (R117, R126). -/
def State.stepEndDue (s : State) : Bool := s.seq.run == .active && s.seq.closedMet

/-! ## A trip (R133, R144) -/

/-- A trip is waiting to be taken (R144). -/
def State.tripDue (s : State) : Bool := s.moments.trip.isSome

/-- The trip is taken (R144): the fault record, TRIPPED, and the run left early to FAULT. -/
def State.takeTrip (s : State) : State :=
  match s.moments.trip with
  | none => s
  | some phases =>
    let record : FaultRecord := { phases := phases, sample := s.synth.sampleIndex }
    State.leaveEarly .tripped .fault
      (State.latch .tripped { s with monitor := { s.monitor with fault := some record } })

/-! ## The stop ramp (R22, R123) -/

/-- Whether an amplitude ramp has come to its end. -/
def rampOver : Option Ramp → Bool
  | none => true
  | some r => r.reached

/-- Whether both amplitude ramps of a phase have come to their end. -/
def SynthPhase.rampsOver (p : SynthPhase) : Bool := rampOver p.primaryRamp && rampOver p.overlayRamp

/-- The stop ramp is complete: in STOPPING, with all six amplitude ramps at their end (R22). -/
def State.stopDue (s : State) : Bool :=
  s.seq.run == .stopping && (s.synth.phases.map SynthPhase.rampsOver).every

/-- The run enters OFF from STOPPING (R123). -/
def State.takeStop (s : State) : State := (s.enterIdle .off).latch .runEnded

/-! ## A step start (R19, R107, R113) -/

/-- The prospective tuning word for the next sample (R5): the present one, after a ramp sample of a running ramp where
ramps advance. DESIGN CHOICE, log entry 25: where the present tuning word was set since the last sample (an entry to OFF,
a SETUP_WRITE of NOM_FREQ), it is that word and not the one of the last sample. DESIGN CHOICE, log entry 30: the ramp is
the one in force now, also where it is that of a step started since the last sample and ended with no sample (R114). -/
def State.prospectTuning (s : State) : Nat :=
  if s.seq.run.ramps then (rampSample s.synth.tuning s.synth.freqRamp).1 else s.synth.tuning

/-- The prospective reference phase for the next sample (R5). -/
def State.prospectTheta (s : State) : Word := s.synth.theta + BitVec.ofNat 32 s.prospectTuning

/-- Whether the start condition of the staged step is met for the next sample (R107, R108, R109). -/
def State.startMet (s : State) : Bool :=
  match s.seq.startPhase with
  | .due => true
  | .crossing => crosses s.prospectTheta s.seq.target s.prospectTuning
  | .none => false
  | .held => false
  | .edge => false

/-- The staged step starts before the next sample, which is evaluated (R107, R113). -/
def State.startDue (s : State) : Bool :=
  match s.expander.slot with
  | .step _ => s.seq.run.evaluates && s.startMet
  | .empty => false
  | .marker _ => false

/-- A phase of the synthesizer at a step start: offset, slot and overlay at once, new ramps (R8, R12, R19). -/
def SynthPhase.startStep (levelRamp : Nat) (p : SynthPhase) (r : PhaseRecord) : SynthPhase :=
  let base : Nat := if p.overlay.isSome then p.overlayAmp else 0
  { offset := phaseOf r.offset, slot := r.slot, primary := p.primary,
    primaryRamp := some (Ramp.toward p.primary r.amplitude levelRamp),
    overlay := r.overlay.map fun o => { slot := o.slot, harmonic := o.harmonic, shift := phaseOf o.phase },
    overlayAmp := if r.overlay.isSome then base else 0,
    overlayRamp := r.overlay.map fun o => Ramp.toward base o.amplitude levelRamp }

/-- The synthesizer at a step start (R19). -/
def Synth.startStep (y : Synth) (t : Template) : Synth :=
  { y with freqRamp := some (Ramp.toward y.tuning (tuningOf t.frequency) t.freqRamp),
           phases := y.phases.map2 (SynthPhase.startStep t.levelRamp) t.phases }

/-- The active step record at a step start (R113). Until its first sample is computed its start angle is that of
the sample before (R114). -/
def State.newActive (copy : StepCopy) (s : State) : ActiveStep :=
  { copy := copy, startSample := s.synth.sampleIndex + 1#64, startAngle := angleOf s.synth.theta,
    elapsed := 0, travel := 0, capture := freshCapture, begun := false }

/-- The state at a step start, its slot emptied and not refilled yet (R113, items 1 to 4). -/
def State.activate (copy : StepCopy) (s : State) : State :=
  let out := (s.endActive .handedOver).clearSlot
  { out with synth := out.synth.startStep copy.content,
             seq := { out.seq with run := .active, remembered := none, active := some (s.newActive copy) } }

/-- The staged step starts (R113): the next item is staged at the same moment, and STEP_BEGUN latches. -/
def State.takeStart (s : State) : State :=
  match s.expander.slot with
  | .step copy => (s.activate copy).stage.latch .stepBegun
  | .empty => s
  | .marker _ => s

/-! ## The handover to an end marker (R118) -/

/-- An end marker stands behind an open step whose first sample has been produced, and is taken before the next
sample that is evaluated (R118, R121). -/
def State.handoverDue (s : State) : Bool :=
  match s.expander.slot with
  | .marker _ => s.seq.run == .active && s.seq.openBegun
  | .empty => false
  | .step _ => false

/-- The end marker is taken behind an open step (R118, R121). -/
def State.takeHandover (s : State) : State :=
  match s.expander.slot with
  | .marker option => (s.endActive .handedOver).takeMarker option
  | .empty => s
  | .step _ => s

/-! ## Taking moments -/

/-- The own moments of the run sequencer, the load monitor and the synthesizer that end or change a run. -/
inductive Moment where
  | edge | timeout | stepEnd | trip | stop | start | handover
deriving DecidableEq, Repr

/-- Every one of these moments. -/
def Moment.all : List Moment := [.edge, .timeout, .stepEnd, .trip, .stop, .start, .handover]

/-- Whether a moment is waiting to be taken. -/
def State.due (s : State) : Moment → Bool
  | .edge => s.edgeDue
  | .timeout => s.timeoutDue
  | .stepEnd => s.stepEndDue
  | .trip => s.tripDue
  | .stop => s.stopDue
  | .start => s.startDue
  | .handover => s.handoverDue

/-- What taking a moment does. -/
def State.take (s : State) : Moment → State
  | .edge => s.qualify
  | .timeout => s.expire
  | .stepEnd => s.completeStep
  | .trip => s.takeTrip
  | .stop => s.takeStop
  | .start => s.takeStart
  | .handover => s.takeHandover

/-- A moment is taken if it is due; else nothing takes place. -/
def State.takeIfDue (m : Moment) (s : State) : State := if s.due m then s.take m else s

/-- The order of moments that fall together is free (R112, R132, R145): which of several due ones is next. -/
def chooseMoment (races : Nat) (due : List Moment) : Option Moment := due[Config.raceChoice races % due.length]?

/-- One moment that is due is taken; where several are, the free value says which (log entry 2). -/
def State.settleOne (s : State) : State :=
  match Moment.all.filter s.due with
  | [] => s
  | [m] => s.take m
  | due =>
    match chooseMoment s.moments.races due with
    | none => s
    | some m => State.take { s with moments := { s.moments with races := s.moments.races + 1 } } m

/-- Due moments are taken one after another. `fuel` bounds them: each takes away its own cause. -/
def State.settleMoments : Nat → State → State
  | 0, s => s
  | fuel + 1, s => State.settleMoments fuel s.settleOne

/-- The most moments that can fall between two samples, with room to spare: an edge, an expiry, an end, a trip, a
stop, a handover and a start. -/
def mostMoments : Nat := 12

/-- Every moment still waiting is taken: the ramps that have reached their length, then the others. -/
def State.settle (s : State) : State :=
  State.settleMoments mostMoments { s with synth := s.synth.finishRamps }

/-! ## The commands -/

/-- RAMP_COMPLETE (R18): the named ramp, if it has reached its length, becomes idle at its target. -/
def execRampComplete (ramp : RampId) (s : State) : Host.Outcome State Fault Refusal :=
  .next { s with synth := s.synth.finishRamp ramp }

/-- QUALIFIED_EDGE (R110, R111). -/
def execQualifiedEdge (s : State) : Host.Outcome State Fault Refusal := .next (s.takeIfDue .edge)

/-- STEP_START (R113). -/
def execStepStart (s : State) : Host.Outcome State Fault Refusal := .next (s.takeIfDue .start)

/-- STEP_END (R117). -/
def execStepEnd (s : State) : Host.Outcome State Fault Refusal := .next (s.takeIfDue .stepEnd)

/-- END_MARKER_HANDOVER (R118, R121). -/
def execEndMarkerHandover (s : State) : Host.Outcome State Fault Refusal := .next (s.takeIfDue .handover)

/-- TRIGGER_TIMEOUT (R112). -/
def execTriggerTimeout (s : State) : Host.Outcome State Fault Refusal := .next (s.takeIfDue .timeout)

/-- TRIP (R144). -/
def execTrip (s : State) : Host.Outcome State Fault Refusal := .next (s.takeIfDue .trip)

/-- STOP_RAMP_COMPLETE (R123). -/
def execStopRampComplete (s : State) : Host.Outcome State Fault Refusal := .next (s.takeIfDue .stop)

end Sys2Proof.Machine
end

