-- ==== Sys2Proof/Machine/Sample.lean ====
section
/-! DEFINITION. The command SAMPLE (R1): the moments still waiting, then TRIG and the trigger timeout, the
synthesizer's advance, the codes, the load monitor, the counts of the active step, and the arbiter's share. -/

namespace Sys2Proof.Machine

/-! ## TRIG and the trigger timeout (R110, R112) -/

/-- Whether a change to a level counts as an edge (R110). -/
def TrigEdge.counts : TrigEdge → Bool → Bool
  | .rising, level => level
  | .falling, level => !level
  | .both, _ => true

/-- Whether a sample in this state is evaluated with the staged step in EDGE (R107, R111, R112). -/
def Sequencer.inEdge (q : Sequencer) : Bool := q.run.evaluates && q.startPhase == .edge

/-- The debounce after a sample of TRIG (R110): at sample 1 the settled level is TRIG's; later the run count is the
number of consecutive samples at the other level. -/
def Debounce.sampled (d : Debounce) (trig : Bool) : Debounce :=
  if d.first then { settled := trig, runCount := 0, first := false }
  else if trig = d.settled then { d with runCount := 0 }
  else { d with runCount := d.runCount + 1 }

/-- Whether a change qualifies at a sample of TRIG: the run count reaches TRIG_DEBOUNCE + 1 (R110). -/
def Debounce.qualifies (d : Debounce) (trig : Bool) (trigDebounce : Nat) : Bool :=
  !d.first && trig != d.settled && trigDebounce + 1 ≤ d.runCount + 1

/-- TRIG is sampled once (R110). A change that qualifies becomes a moment to be taken (`State.qualify`). -/
def State.sampleTrigger (trig : Bool) (s : State) : State :=
  let edge : EdgeMoment := { counted := s.setup.trigEdge.counts trig, evaluated := s.seq.inEdge }
  { s with seq := { s.seq with debounce := s.seq.debounce.sampled trig },
           moments := if s.seq.debounce.qualifies trig s.setup.trigDebounce then
               { s.moments with edge := some edge }
             else s.moments }

/-- Whether a timeout count has reached the limit; a TRIG_TIMEOUT of 0 gives no limit (R112). -/
def Setup.timedOut (t : Setup) (count : Nat) : Bool := 0 < t.trigTimeout && 100 * t.trigTimeout ≤ count

/-- An evaluated sample in EDGE counts toward the trigger timeout (R112). -/
def State.sampleTimeout (s : State) : State :=
  if s.seq.inEdge then
    { s with seq := { s.seq with timeoutCount := s.seq.timeoutCount + 1 },
             moments := { s.moments with timeout := s.setup.timedOut (s.seq.timeoutCount + 1) } }
  else s

/-! ## The synthesizer (R1, R4, R13 to R18) -/

/-- A ramp sample of a phase's two amplitudes (R18). -/
def SynthPhase.ramped (p : SynthPhase) : SynthPhase :=
  { p with primary := (rampSample p.primary p.primaryRamp).1, primaryRamp := (rampSample p.primary p.primaryRamp).2,
           overlayAmp := (rampSample p.overlayAmp p.overlayRamp).1,
           overlayRamp := (rampSample p.overlayAmp p.overlayRamp).2 }

/-- The seven ramps take a ramp sample where they advance (R18, R21). -/
def Synth.ramped (y : Synth) (advance : Bool) : Synth :=
  if advance then
    { y with tuning := (rampSample y.tuning y.freqRamp).1, freqRamp := (rampSample y.tuning y.freqRamp).2,
             phases := y.phases.map SynthPhase.ramped }
  else y

/-- The reference phase and the sample index advance (R1, R4). -/
def Synth.turned (y : Synth) : Synth :=
  { y with theta := y.theta + BitVec.ofNat 32 y.tuning, sampleIndex := y.sampleIndex + 1#64 }

/-- The synthesizer's advance for one sample (R4). -/
def Synth.advance (y : Synth) (ramps : Bool) : Synth := (y.ramped ramps).turned

/-- The scaled codes of a sample before saturation, with the gains formed before it (R13, R14, R140). -/
def State.scaledCodes (s : State) : PerPhase Int :=
  s.synth.phases.map2 (fun p g => scaleCode (p.sum s.store s.synth.theta) g s.setup.nomPeak) s.monitor.gains

/-- Which phases of a sample are clipped: none where the codes are forced to 0 (R15). -/
def State.clipped (s : State) : PerPhase Bool :=
  if s.seq.run.driven then s.scaledCodes.map clips else PerPhase.same false

/-- The codes emitted for a sample (R15, R16). -/
def State.emitted (s : State) : PerPhase Int :=
  if s.seq.run.driven then s.scaledCodes.map saturate else PerPhase.same 0

/-- Whether the sample is the first of the active step (R113). DESIGN CHOICE, log entry 26: a step that ends between its
start and its first sample gives no pulse of STEPMARK. -/
def Sequencer.isFirst (q : Sequencer) : Bool :=
  match q.active with
  | some a => !a.begun
  | none => false

/-- The lines of a sample: codes, ZX, STEPMARK and OUTEN (R16, R17, R113, R137); `before` is the reference phase
of the sample before. -/
def State.linesOf (before : Word) (s : State) : Ports :=
  { codes := s.emitted, zx := decide (s.synth.theta.toNat < before.toNat), stepmark := s.seq.isFirst,
    outen := s.seq.run.driven }

/-! ## The active step (R15, R113, R115, R116, R150, R151) -/

/-- Whether a sample lies in the capture window of a step (R150). -/
def inWindow (window : Nat) (start sample : Long) : Bool := window = 0 || (sample - start).toNat < window

/-- The capture fields of a phase after a sample (R15, R150, R151). -/
def Capture.after (window : Bool) (c : Capture) (gain current : Nat) (clip : Bool) : Capture :=
  { peak := if window then max c.peak current else c.peak, minGain := min c.minGain gain,
    clip := c.clip || clip }

/-- The capture fields of the three phases after a sample. -/
def captureAfter (window : Bool) (c : PerPhase Capture) (gains currents : PerPhase Nat) (clip : PerPhase Bool) :
    PerPhase Capture :=
  { a := c.a.after window gains.a currents.a clip.a, b := c.b.after window gains.b currents.b clip.b,
    c := c.c.after window gains.c currents.c clip.c }

/-- The active step record after a sample of the step: its start angle at the first, its counts where the sample
is counted, its capture fields and clip flags (R113, R115, R116). -/
def ActiveStep.after (a : ActiveStep) (counted : Bool) (y : Synth) (capture : PerPhase Capture) : ActiveStep :=
  { a with startAngle := if a.begun then a.startAngle else angleOf y.theta,
           elapsed := if counted then min maxElapsed (a.elapsed + 1) else a.elapsed,
           travel := if counted then a.travel + y.tuning else a.travel,
           capture := capture, begun := true }

/-- The active step record, if there is one, after a sample with these currents. -/
def State.activeAfter (currents : PerPhase Nat) (s : State) : Option ActiveStep :=
  match s.seq.active with
  | none => none
  | some a =>
    some (a.after (s.seq.run == .active) s.synth
      (captureAfter (inWindow s.setup.captureWindow a.startSample s.synth.sampleIndex) a.capture s.monitor.gains
        currents s.clipped))

/-! ## The load monitor (R135, R139, R141, R143) -/

/-- The limiter gains after a processed current sample (R139). -/
def State.gainsAfter (currents : PerPhase Nat) (s : State) : PerPhase Nat :=
  s.setup.limitLevel.map3 (limiterGain s.setup) s.monitor.gains currents

/-- Whether a gain leaves unity (R141). -/
def leavesUnity (before after : Nat) : Bool := before == Config.unityGain && after < Config.unityGain

/-- The trip counters after a processed current sample (R143). -/
def State.countersAfter (currents : PerPhase Nat) (s : State) : PerPhase Nat :=
  s.setup.tripLevel.map3 tripCount s.monitor.counters currents

/-- The phases that have tripped at a processed current sample, if any has (R143, R144). -/
def State.tripsAt (currents : PerPhase Nat) (s : State) : Option (PerPhase Bool) :=
  let tripped := (s.countersAfter currents).map fun c => decide (s.setup.tripSamples ≤ c)
  if tripped.any then some tripped else none

/-- The load monitor's part of a sample: nothing while OUTEN is low (R135). -/
def State.sampleMonitor (currents : PerPhase Nat) (s : State) : State :=
  if s.seq.run.driven then
    let gains := s.gainsAfter currents
    State.latchIf (PerPhase.map2 leavesUnity s.monitor.gains gains).any .limiting
      { s with monitor := { s.monitor with gains := gains, counters := s.countersAfter currents },
               moments := { s.moments with trip := s.tripsAt currents } }
  else s

/-! ## One sample -/

/-- The output of a sample, once the synthesizer has advanced: the lines, CLIPPED, and the active step record with
the gains the codes were scaled by; then the load monitor (R140). -/
def State.emit (before : Word) (currents : PerPhase Nat) (s : State) : State :=
  State.sampleMonitor currents (State.latchIf s.clipped.any .clipped
    { s with ports := s.linesOf before, seq := { s.seq with active := s.activeAfter currents } })

/-- The magnitudes of a current sample (R135). -/
def magnitudes (iA iB iC : Half) : PerPhase Nat := { a := magnitude iA, b := magnitude iB, c := magnitude iC }

/-- The production of one sample, with no moment waiting. -/
def State.produce (trig : Bool) (currents : PerPhase Nat) (s : State) : State :=
  let triggered := (s.sampleTrigger trig).sampleTimeout
  let advanced : State := { triggered with synth := triggered.synth.advance s.seq.run.ramps }
  ((advanced.emit s.synth.theta currents).releaseHeld).serveWork

/-- Link-side work that has had the sample periods within which it completes does so before the next sample
(R38). -/
def State.completeOverdue (s : State) : State := if s.workOverdue then s.completeWork else s

/-- SAMPLE (R1): no sample is produced while a full reset is in progress. -/
def execSample (trig : Bool) (iA iB iC : Half) (s : State) : Host.Outcome State Fault Refusal :=
  .next (if s.link.inReset then s
         else s.settle.completeOverdue.produce trig (magnitudes iA iB iC))

end Sys2Proof.Machine
end

