-- ==== Sys2Proof/Machine/Dispatch.lean ====
section
/-! DEFINITION. The meaning of each command, one arm for each row of spec/opcode_table.json. -/

namespace Sys2Proof.Machine

def exec (i : Instr) (s : State) : Host.Outcome State Fault Refusal :=
  match i with
  | .powerOn => Sys2Proof.Machine.execPowerOn s
  | .resetN => Sys2Proof.Machine.execResetN s
  | .fullResetComplete strap2 strap1 => Sys2Proof.Machine.execFullResetComplete strap2 strap1 s
  | .sample trig iA iB iC => Sys2Proof.Machine.execSample trig iA iB iC s
  | .rampComplete ramp => Sys2Proof.Machine.execRampComplete ramp s
  | .qualifiedEdge => Sys2Proof.Machine.execQualifiedEdge s
  | .stepStart => Sys2Proof.Machine.execStepStart s
  | .stepEnd => Sys2Proof.Machine.execStepEnd s
  | .endMarkerHandover => Sys2Proof.Machine.execEndMarkerHandover s
  | .triggerTimeout => Sys2Proof.Machine.execTriggerTimeout s
  | .trip => Sys2Proof.Machine.execTrip s
  | .stopRampComplete => Sys2Proof.Machine.execStopRampComplete s
  | .byteReceived byte framingError => Sys2Proof.Machine.execByteReceived byte framingError s
  | .gapTimeout => Sys2Proof.Machine.execGapTimeout s
  | .badframe kind tag payload crcError => Sys2Proof.Machine.execBadframe kind tag payload crcError s
  | .unknownKind kind tag payload => Sys2Proof.Machine.execUnknownKind kind tag payload s
  | .replySent => Sys2Proof.Machine.execReplySent s
  | .identify tag => Sys2Proof.Machine.execIdentify tag s
  | .status tag => Sys2Proof.Machine.execStatus tag s
  | .reset tag => Sys2Proof.Machine.execReset tag s
  | .setupWrite tag pairs => Sys2Proof.Machine.execSetupWrite tag pairs s
  | .setupRead tag ids => Sys2Proof.Machine.execSetupRead tag ids s
  | .noticeRead tag => Sys2Proof.Machine.execNoticeRead tag s
  | .noticeClear tag flagSet => Sys2Proof.Machine.execNoticeClear tag flagSet s
  | .noticeMask tag masks enable => Sys2Proof.Machine.execNoticeMask tag masks enable s
  | .shapeOpen tag slot => Sys2Proof.Machine.execShapeOpen tag slot s
  | .shapeAppend tag slot points => Sys2Proof.Machine.execShapeAppend tag slot points s
  | .shapeAppendComplete => Sys2Proof.Machine.execShapeAppendComplete s
  | .shapeErase tag slot => Sys2Proof.Machine.execShapeErase tag slot s
  | .shapeInfo tag slot => Sys2Proof.Machine.execShapeInfo tag slot s
  | .shapeSum tag slot gen start count crc => Sys2Proof.Machine.execShapeSum tag slot gen start count crc s
  | .shapeSumComplete => Sys2Proof.Machine.execShapeSumComplete s
  | .shapeCompare tag slot gen start count pad points => Sys2Proof.Machine.execShapeCompare tag slot gen start count pad points s
  | .shapeCompareComplete => Sys2Proof.Machine.execShapeCompareComplete s
  | .templateDefine tag template => Sys2Proof.Machine.execTemplateDefine tag template s
  | .templateDelete tag index => Sys2Proof.Machine.execTemplateDelete tag index s
  | .templateRead tag index => Sys2Proof.Machine.execTemplateRead tag index s
  | .phraseDefine tag index pred template => Sys2Proof.Machine.execPhraseDefine tag index pred template s
  | .phraseDelete tag index => Sys2Proof.Machine.execPhraseDelete tag index s
  | .phraseRead tag index => Sys2Proof.Machine.execPhraseRead tag index s
  | .cueAdd tag cues => Sys2Proof.Machine.execCueAdd tag cues s
  | .cueRewind tag => Sys2Proof.Machine.execCueRewind tag s
  | .runClear tag => Sys2Proof.Machine.execRunClear tag s
  | .runStart tag => Sys2Proof.Machine.execRunStart tag s
  | .runPause tag => Sys2Proof.Machine.execRunPause tag s
  | .runResume tag => Sys2Proof.Machine.execRunResume tag s
  | .runForceDisable tag abortToo skipToo => Sys2Proof.Machine.execRunForceDisable tag abortToo skipToo s
  | .runForceAbort tag skipToo => Sys2Proof.Machine.execRunForceAbort tag skipToo s
  | .runForceSkip tag => Sys2Proof.Machine.execRunForceSkip tag s
  | .faultClear tag => Sys2Proof.Machine.execFaultClear tag s
  | .outputEnable tag => Sys2Proof.Machine.execOutputEnable tag s
  | .resultRead tag count => Sys2Proof.Machine.execResultRead tag count s

end Sys2Proof.Machine
end

