-- ==== Sys2Proof/Safety.lean ====
section
/-! DEFINITION. The terms that the statements use: when the link can take a request, how a reply stands in the
state, when nothing waits to be taken, and the invariants that every step keeps. -/

namespace Sys2Proof

/-- The payloads that the kind table gives a kind: their lengths, and for CUE_ADD whole cues, each as long as its flags
declare (R89, R170; spec 09, "Kinds and payloads" and "Cue"). -/
def Kind.Admits (kind : Kind) (payload : List Byte) : Prop :=
  match kind with
  | .identify | .status | .reset | .noticeRead | .cueRewind | .runClear | .runStart | .runPause | .runResume
  | .faultClear | .outputEnable => payload.length = 0
  | .shapeOpen | .shapeErase | .shapeInfo | .templateDelete | .templateRead | .phraseDelete | .phraseRead | .runForce
  | .resultRead => payload.length = 1
  | .noticeClear => payload.length = 2
  | .noticeMask | .phraseDefine => payload.length = 3
  | .shapeSum => payload.length = 8
  | .templateDefine => payload.length = 48
  | .setupWrite => 5 ≤ payload.length ∧ payload.length ≤ 160 ∧ payload.length % 5 = 0
  | .setupRead => 1 ≤ payload.length ∧ payload.length ≤ 32
  | .shapeAppend => 3 ≤ payload.length ∧ payload.length ≤ 1023 ∧ payload.length % 2 = 1
  | .shapeCompare => 8 ≤ payload.length ∧ payload.length ≤ 520 ∧ payload.length % 2 = 0
  | .cueAdd =>
      ∃ cues : List (List Byte), payload = cues.flatten ∧ 1 ≤ cues.length ∧ cues.length ≤ 32 ∧
        ∀ cue ∈ cues, ∃ (k index rep flags : Byte) (overrides : List Byte),
          cue = k :: index :: rep :: flags :: overrides ∧
          overrides.length = (if flags.getLsbD 0 then 5 else 0) + (if flags.getLsbD 1 then 3 else 0)

end Sys2Proof

namespace Sys2Proof.Machine

/-! ## Requests and replies -/

/-- The part is free to take a request that arrives now: no full reset is in progress, READY is high, and the
receiver is in HUNT (R166, R171). -/
structure State.Listening (s : State) : Prop where
  outOfReset : s.link.inReset = false
  ready      : s.link.ready = true
  hunting    : s.link.rx = Receiver.idle

/-- The state with a request in progress, by its kind byte and tag, READY low, its reply not formed yet (R171). -/
def State.inProgress (kind tag : Byte) (s : State) : State :=
  { s with link := { s.link with ready := false, inProgress := some (kind, tag), reply := none } }

/-- The state with a request in progress, READY low, and its reply formed (R171, R173). -/
def State.replied (kind tag : Byte) (outcome : ReplyOutcome) (detail : Detail) (payload : List Byte) (s : State) :
    State :=
  let reply : Reply := { kind := kind, tag := tag, outcome := outcome, detail := detail, payload := payload }
  { s with link := { s.link with ready := false, inProgress := some (kind, tag), reply := some reply } }

/-- The reply of the request in progress, if there is one, has this outcome, detail and payload (R173). -/
def State.Replies (outcome : ReplyOutcome) (detail : Detail) (payload : List Byte) (s : State) : Prop :=
  ∃ kind tag, s.link.inProgress = some (kind, tag) ∧
    s.link.reply = some { kind := kind, tag := tag, outcome := outcome, detail := detail, payload := payload }

/-- Nothing waits to be taken before the next sample: no moment is due, no ramp has reached its length, and no
link-side work is overdue. -/
structure State.Settled (s : State) : Prop where
  noMoment : ∀ m, s.due m = false
  noRamp   : s.synth.finishRamps = s.synth
  noWork   : s.workOverdue = false

/-- Commands carried out one after another, up to the first that does not answer a next state. -/
def execAll : List Instr → State → Host.Outcome State Fault Refusal
  | [], s => .next s
  | c :: cs, s =>
    match exec c s with
    | .next t => execAll cs t
    | .fault f => .fault f
    | .refused r => .refused r

/-- The command that takes a moment. -/
def Moment.command : Moment → Instr
  | .edge => .qualifiedEdge
  | .timeout => .triggerTimeout
  | .stepEnd => .stepEnd
  | .trip => .trip
  | .stop => .stopRampComplete
  | .start => .stepStart
  | .handover => .endMarkerHandover

/-! ## Rules that several statements share -/

/-- One ramp sample by R18, with present value and ramp before and after: an idle ramp stays, a running one takes one
more sample, and the value is on the way until the progress has reached the length, and at the target from then. -/
structure RampStep (value : Nat) (ramp : Option Ramp) (value' : Nat) (ramp' : Option Ramp) : Prop where
  idle    : ramp = none → value' = value ∧ ramp' = none
  running : ∀ r, ramp = some r → ramp' = some { r with progress := r.progress + 1 }
  onWay   : ∀ r, ramp = some r → r.progress + 1 < r.length →
              (value' : Int) = (r.startValue : Int) +
                (((r.target : Int) - r.startValue) * (r.progress + 1 : Nat)).tdiv r.length
  atEnd   : ∀ r, ramp = some r → r.length ≤ r.progress + 1 → value' = r.target

/-- A number of ramp samples in a row. -/
def rampSamples : Nat → Nat × Option Ramp → Nat × Option Ramp
  | 0, v => v
  | n + 1, v => rampSamples n (rampSample v.1 v.2)

/-- The weighted sum of R13 for a phase, the lookups at the output phase of R8 and the overlay phase of R11. -/
def sumByRule (store : Store) (y : Synth) (p : Phase) : Int :=
  let q := y.phases.get p
  let output := y.theta + q.offset
  store.lookup q.slot output * (q.primary : Int)
    + match q.overlay with
      | none => 0
      | some o =>
          store.lookup o.slot (BitVec.ofNat 32 o.harmonic * output + o.shift) * (q.overlayAmp : Int)

/-- The scaled code of R14 for a sum, a gain and a nominal peak: floor((2 × |x| + D) / (2 × D)) with the sign of the
sum. -/
def codeByRule (sum : Int) (gain peak : Nat) : Int :=
  let x := sum * (gain : Int) * (peak : Int)
  let scaled : Int := ((10737090560000 + 2 * x.natAbs) / (2 * 10737090560000) : Nat)
  if sum < 0 then -scaled else scaled

/-- What an entry to OFF, FAULT or DISABLED leaves (R23, R138): no level and no overlay, every ramp idle, the tuning
word from NOM_FREQ, unity gains and counters of 0; offsets, slots, the reference phase and the sample index as they
were. -/
structure State.Rests (s t : State) : Prop where
  theta       : t.synth.theta = s.synth.theta
  sampleIndex : t.synth.sampleIndex = s.synth.sampleIndex
  tuning      : t.synth.tuning = tuningOf s.setup.nomFreq
  freqRamp    : t.synth.freqRamp = none
  phases      : ∀ p, t.synth.phases.get p =
                  { offset := (s.synth.phases.get p).offset, slot := (s.synth.phases.get p).slot, primary := 0,
                    primaryRamp := none, overlay := none, overlayAmp := 0, overlayRamp := none }
  gains       : ∀ p, t.monitor.gains.get p = 32768
  counters    : ∀ p, t.monitor.counters.get p = 0

/-- What an entry to STOPPING leaves (R22): each amplitude on a ramp to 0 over STOP_RAMP, or at 0 when that is 0;
offsets, slots, overlays, the frequency and its ramp as they were. -/
structure State.Stops (s t : State) : Prop where
  theta       : t.synth.theta = s.synth.theta
  sampleIndex : t.synth.sampleIndex = s.synth.sampleIndex
  tuning      : t.synth.tuning = s.synth.tuning
  freqRamp    : t.synth.freqRamp = s.synth.freqRamp
  ramps       : s.setup.stopRamp ≠ 0 → ∀ p, t.synth.phases.get p =
                  { s.synth.phases.get p with
                    primaryRamp := some { startValue := (s.synth.phases.get p).primary, target := 0,
                                          length := s.setup.stopRamp, progress := 0 },
                    overlayRamp := some { startValue := (s.synth.phases.get p).overlayAmp, target := 0,
                                          length := s.setup.stopRamp, progress := 0 } }
  atOnce      : s.setup.stopRamp = 0 → ∀ p, t.synth.phases.get p =
                  { s.synth.phases.get p with
                    primary := 0, primaryRamp := none, overlayAmp := 0, overlayRamp := none }

/-- What is left of a run that has been left early (R81, R131): nothing active, remembered, staged or expanded. -/
structure State.RunLeft (t : State) : Prop where
  remembered : t.seq.remembered = none
  active     : t.seq.active = none
  startPhase : t.seq.startPhase = .none
  slot       : t.expander.slot = .empty
  context    : t.expander.context = none
  stack      : t.expander.stack = []

/-- The state with the active step's record, if there is one, handed with a reason and the sample last produced
(R153). -/
def State.handActive (reason : EndReason) (s : State) : State :=
  match s.seq.active with
  | none => s
  | some a =>
    s.handResult { source := a.copy.source, trial := s.queue.trial, reason := reason,
                   start := some (a.startSample, a.startAngle), endSample := s.synth.sampleIndex,
                   capture := a.capture }

/-- The first phase and target of a start evaluation (R107). -/
structure Sequencer.Begins (q : Sequencer) (start : StartCond) : Prop where
  follow       : start = .follow → q.startPhase = .due
  angle        : ∀ t, start = .angle t → q.startPhase = .crossing ∧ q.target = phaseOf t
  trigger      : start = .trigger → q.startPhase = .edge
  triggerAngle : ∀ t, start = .triggerAngle t → q.startPhase = .edge ∧ q.target = phaseOf t
  count        : q.timeoutCount = 0

/-- What an end marker HOLD leaves when it is taken (R79, R121): the run is PARKED with RUN_ENDED latched, and the slot
it emptied is filled by a staging; queue, results, levels and shapes stay
but for that staging. The timeout count of 0 is log entry 8. -/
def State.Parks (s t : State) : Prop :=
  ∃ u : State, t = u.fillSlot ∧ u.seq.run = .parked ∧ u.seq.remembered = none ∧ u.seq.startPhase = .none ∧
    u.seq.timeoutCount = 0 ∧ u.seq.debounce = s.seq.debounce ∧
    u.expander = { s.expander with slot := .empty } ∧ u.queue = s.queue ∧ u.library = s.library ∧
    u.phrases = s.phrases ∧ u.setup = s.setup ∧ u.results = s.results ∧ u.synth = s.synth ∧ u.store = s.store ∧
    u.monitor = s.monitor ∧ u.notices = (s.latch .runEnded).notices

/-! ## Slots, templates and refcounts -/

/-- A template names a slot: as the primary slot of a phase, or as the slot of a present overlay (R30). -/
def Template.Names (t : Template) (slot : Nat) : Prop :=
  ∃ p, (t.phases.get p).slot = slot ∨ ∃ o, (t.phases.get p).overlay = some o ∧ o.slot = slot

/-- A slot is held (R31): its refcount is above 0, or the active step's copy or a staged step names it. -/
def State.SlotHeld (s : State) (slot : Nat) (record : Slot) : Prop :=
  0 < record.refcount ∨ (∃ a, s.seq.active = some a ∧ a.copy.content.Names slot) ∨
    ∃ copy, s.expander.slot = .step copy ∧ copy.content.Names slot

/-- A carried phase record fails a check of R51: a primary slot above 15, an overlay slot from 16 to 254, or, with the
overlay present, a harmonic of 0 or above 50. -/
def PhaseOutOfRange (w : PhaseWire) : Prop :=
  15 < w.slot.toNat ∨ 15 < w.overlaySlot.toNat ∧ w.overlaySlot ≠ 255#8 ∨
    w.overlaySlot ≠ 255#8 ∧ (w.harmonic = 0#8 ∨ 50 < w.harmonic.toNat)

/-- A carried template fails one of the checks 1 to 6 of R51. -/
def TemplateOutOfRange (w : TemplateWire) : Prop :=
  63 < w.index.toNat ∨ 3 < w.startKind.toNat ∨ 1 < w.durKind.toNat ∨ ∃ p, PhaseOutOfRange (w.phases.get p)

/-- The stored fields of a carried template (R49, R50, R52, R53, R54). -/
structure Template.StoredFrom (t : Template) (w : TemplateWire) : Prop where
  start     : t.start =
                if w.startKind = 0#8 then .follow
                else if w.startKind = 1#8 then .angle (w.startAngle.toNat % 3600)
                else if w.startKind = 2#8 then .trigger
                else .triggerAngle (w.startAngle.toNat % 3600)
  duration  : t.duration =
                if w.durKind = 0#8 then .samples w.durValue.toNat else .degrees (min 3600000 w.durValue.toNat)
  frequency : t.frequency = max 4000 (min 45000 w.frequency.toNat)
  levelRamp : t.levelRamp = w.levelRamp.toNat
  freqRamp  : t.freqRamp = w.freqRamp.toNat
  phases    : ∀ p, let carried := w.phases.get p
                t.phases.get p =
                  { amplitude := min 15000 carried.amplitude.toNat, offset := carried.offset.toNat % 3600,
                    slot := carried.slot.toNat,
                    overlay := if carried.overlaySlot = 255#8 then none
                      else some { slot := carried.overlaySlot.toNat, harmonic := carried.harmonic.toNat,
                                  amplitude := min 3000 carried.overlayAmp.toNat,
                                  phase := carried.overlayPhase.toNat % 3600 } }

/-- A carried template is stored with a clamped value (R50, R52, R53, R54). -/
def TemplateClamped (w : TemplateWire) : Prop :=
  w.durKind = 1#8 ∧ 3600000 < w.durValue.toNat ∨ w.frequency.toNat < 4000 ∨ 45000 < w.frequency.toNat ∨
    ∃ p, 15000 < (w.phases.get p).amplitude.toNat ∨
      (w.phases.get p).overlaySlot ≠ 255#8 ∧ 3000 < (w.phases.get p).overlayAmp.toNat

/-- A phrase entry with a change of its refcount. -/
def PhraseEntry.counted (change : Nat → Nat) (e : PhraseEntry) : PhraseEntry :=
  { e with refcount := change e.refcount }

/-- A template entry with a change of its refcount. -/
def TemplateEntry.counted (change : Nat → Nat) (e : TemplateEntry) : TemplateEntry :=
  { e with refcount := change e.refcount }

/-! ## Cues -/

/-- A cue names a template directly (R59, R102). -/
def CueBody.onTemplate (index : Nat) : CueBody → Bool
  | .template i _ _ _ => i == index
  | .phrase _ _ => false
  | .endRun _ => false

/-- A cue names a phrase (R72, R102). -/
def CueBody.onPhrase (index : Nat) : CueBody → Bool
  | .template _ _ _ _ => false
  | .phrase i _ => i == index
  | .endRun _ => false

/-- A carried cue fails a check of R90, with so many cues held before it: BAD_CUE, NOT_READY, FULL, in this order. -/
def State.CueFails (s : State) (held : Nat) (w : CueWire) (detail : Detail) : Prop :=
  let overridden : Prop := w.duration ≠ none ∨ w.start ≠ none
  let bad : Prop :=
    2 < w.kind.toNat ∨
    w.kind = 0#8 ∧ (63 < w.index.toNat ∨ (∃ d, w.duration = some d ∧ 1 < d.1.toNat) ∨
      ∃ t, w.start = some t ∧ 3 < t.1.toNat) ∨
    w.kind = 1#8 ∧ (127 < w.index.toNat ∨ overridden) ∨ w.kind = 2#8 ∧ (1 < w.index.toNat ∨ overridden)
  let absent : Prop :=
    w.kind = 0#8 ∧ s.library[w.index.toNat]? = some none ∨ w.kind = 1#8 ∧ s.phrases[w.index.toNat]? = some none
  bad ∧ detail = .badCue ∨ ¬ bad ∧ absent ∧ detail = .notReady ∨ ¬ bad ∧ ¬ absent ∧ 256 ≤ held ∧ detail = .full

/-- What a carried cue that passes its checks is stored as (R84, R85). -/
structure CueBody.StoredFrom (body : CueBody) (w : CueWire) : Prop where
  template : w.kind = 0#8 → ∃ duration start,
               body = .template w.index.toNat (max 1 w.rep.toNat) duration start ∧
               (w.duration = none → duration = none) ∧ (w.start = none → start = none) ∧
               (∀ v, w.duration = some (0#8, v) → duration = some (.samples v.toNat)) ∧
               (∀ v, w.duration = some (1#8, v) → duration = some (.degrees (min 3600000 v.toNat))) ∧
               (∀ x, w.start = some (0#8, x) → start = some .follow) ∧
               (∀ x, w.start = some (1#8, x) → start = some (.angle (x.toNat % 3600))) ∧
               (∀ x, w.start = some (2#8, x) → start = some .trigger) ∧
               (∀ x, w.start = some (3#8, x) → start = some (.triggerAngle (x.toNat % 3600)))
  phrase   : w.kind = 1#8 → body = .phrase w.index.toNat (max 1 w.rep.toNat)
  endRun   : w.kind = 2#8 → body = .endRun (if w.index = 0#8 then .off else .hold)

/-- The cue between those before and after it becomes SPENT (R88, R93, R94, R96, R102): in STREAM mode it leaves and
releases its refcount, in RETAIN mode it stays; LOW_WATER latches where the pending count reaches its level. -/
structure State.Spends (s t : State) (before : List Cue) (c : Cue) (after : List Cue) : Prop where
  stream   : s.setup.queueMode = .stream → t.queue.cues = before ++ after ∧
               (∀ i : Nat, t.library[i]? = (s.library[i]?).map (Option.map (TemplateEntry.counted fun n =>
                 if c.body.onTemplate i then n - 1 else n))) ∧
               ∀ i : Nat, t.phrases[i]? = (s.phrases[i]?).map (Option.map (PhraseEntry.counted fun n =>
                 if c.body.onPhrase i then n - 1 else n))
  retain   : s.setup.queueMode = .retain → t.queue.cues = before ++ { c with status := .spent } :: after ∧
               t.library = s.library ∧ t.phrases = s.phrases
  serial   : t.queue.nextSerial = s.queue.nextSerial
  trial    : t.queue.trial = s.queue.trial
  lowWater : t.latched .lowWater = true ↔
               s.latched .lowWater = true ∨ pendingCount s.queue.cues = s.setup.lowWater + 1

/-- The cue between those before and after it stays in the queue as EXPANDING (R88); no refcount moves. -/
structure State.Expands (s t : State) (before : List Cue) (c : Cue) (after : List Cue) : Prop where
  cues    : t.queue = { s.queue with cues := before ++ { c with status := .expanding } :: after }
  library : t.library = s.library
  phrases : t.phrases = s.phrases
  notices : t.notices = s.notices

/-! ## Invariants -/

/-- Every parameter of the setup table lies within its range (R186). -/
def Setup.InRange (t : Setup) : Prop := ∀ p ∈ Param.all, p.range.1 ≤ t.get p ∧ t.get p ≤ p.range.2

/-- The lines of a sample (R15, R16): every code lies in the code range, and every code is 0 while OUTEN is low. -/
structure Ports.Ok (p : Ports) : Prop where
  range : ∀ x ∈ p.codes.toList, -32768 ≤ x ∧ x ≤ 32767
  quiet : p.outen = false → p.codes = PerPhase.same 0

/-- The result queue's bounds (R156): at most 64 records, and a pending gap of at most 65,535. -/
structure ResultQueue.Ok (q : ResultQueue) : Prop where
  capacity : q.records.length ≤ 64
  gap      : q.pendingGap ≤ 65535

/-- The link and the link-side work (R171, R172, R173): READY is high exactly when no reset and no request is in
progress; a request in progress has either its reply or its work; a frame without the overrun mark is in assembly
only while READY is high. -/
structure State.LinkOk (s : State) : Prop where
  ready    : s.link.ready = true ↔ s.link.inReset = false ∧ s.link.inProgress = none
  inReset  : s.link.inReset = true → s.link.inProgress = none ∧ s.link.rx = Receiver.idle
  progress : s.link.inProgress.isSome = (s.link.reply.isSome != s.store.job.isSome)
  both     : (s.link.reply.isSome && s.store.job.isSome) = false
  names    : ∀ r, s.link.reply = some r → s.link.inProgress = some (r.kind, r.tag)
  unmarked : s.link.rx.state ≠ .hunt → s.link.rx.marked = false → s.link.ready = true
  hunting  : s.link.rx.state = .hunt → s.link.rx = Receiver.idle

/-- A slot's points fit its state (R26): none in EMPTY, fewer than 1,024 in FILLING, 1,024 in LOADED. -/
def Slot.Ok (slot : Slot) : Prop :=
  match slot.state with
  | .empty => slot.points = []
  | .filling => slot.points.length < 1024
  | .loaded => slot.points.length = 1024

/-- An append in progress is on a FILLING slot other than slot 0 (R33). -/
def ShapeWork.fits (work : ShapeWork) (store : Store) : Prop :=
  match work with
  | .append slot _ => slot ≠ 0 ∧ ∀ record, store.slots[slot]? = some record → record.state = .filling
  | .sum _ _ _ _ => True
  | .compare _ _ _ _ _ => True

/-- The shape store (R26, R27, R33): slot 0 is the fixed sine, LOADED at generation 0; every other slot's points fit
its state; an append in progress is on a FILLING slot; and the synthesizer's six reads or more leave at most 26 accesses
of a period to link-side work (R38). -/
structure Store.Ok (store : Store) : Prop where
  sine  : ∀ slot, store.slots[0]? = some slot → slot.state = .loaded ∧ slot.points = [] ∧ slot.gen = 0#8
  slots : ∀ k slot, k ≠ 0 → store.slots[k]? = some slot → slot.Ok
  work  : ∀ job, store.job = some job → job.work.fits store
  spare : store.spare ≤ 26

/-- A phase of the synthesizer with no level (R23). -/
structure SynthPhase.Quiet (p : SynthPhase) : Prop where
  primary     : p.primary = 0
  primaryRamp : p.primaryRamp = none
  overlay     : p.overlay = none
  overlayAmp  : p.overlayAmp = 0
  overlayRamp : p.overlayRamp = none

/-- While OUTEN is low (R18, R23, R138, R139): no level, every ramp idle, unity gains and counters of 0. -/
structure State.QuietOk (s : State) : Prop where
  phases   : s.seq.run.driven = false → ∀ p ∈ s.synth.phases.toList, p.Quiet
  freqRamp : s.seq.run.driven = false → s.synth.freqRamp = none
  gains    : s.seq.run.driven = false → s.monitor.gains = PerPhase.same 32768
  counters : s.seq.run.driven = false → s.monitor.counters = PerPhase.same 0

/-- Whether the staging slot holds a step. -/
def Staged.isStep : Staged → Bool
  | .step _ => true
  | .empty => false
  | .marker _ => false

/-- The run sequencer, the expander and the fault record agree (R75, R79, R103, R107, R119, R147): a state is
remembered in PAUSED alone; an active step exists only in ACTIVE, or in a pause from it; the fault record is
present exactly in FAULT; nothing is staged or expanded where the expander does not stage; a start phase stands
exactly for a staged step; WAITING, or a pause from it, holds a staged step; no cue is expanded behind an end marker or
without a context; and an expiry waits only for a step in EDGE. -/
structure State.RunOk (s : State) : Prop where
  remembered : s.seq.remembered.isSome = (s.seq.run == .paused)
  active     : s.seq.active.isSome = true →
                 s.seq.run = .active ∨ s.seq.run = .paused ∧ s.seq.remembered = some .active
  fault      : s.monitor.fault.isSome = (s.seq.run == .fault)
  idle       : s.seq.run.stages = false →
                 s.expander.slot = .empty ∧ s.expander.context = none ∧ s.expander.stack = []
  phase      : (s.seq.startPhase != .none) = s.expander.slot.isStep
  waiting    : s.seq.run = .waiting ∨ s.seq.remembered = some .waiting → s.expander.slot.isStep = true
  marker     : ∀ o, s.expander.slot = .marker o → s.expander.context = none
  stack      : s.expander.context = none → s.expander.stack = []
  timeout    : s.moments.timeout = true → s.seq.startPhase = .edge

/-- The cue queue and the expansion context agree (R74, R86, R88, R93): at most 256 cues; SPENT cues in RETAIN mode
alone; the SPENT cues stand before the one that is EXPANDING, and that one before the PENDING cues; the context is idle
exactly while no cue is EXPANDING, and else holds that cue's serial and body. -/
structure State.CuesOk (s : State) : Prop where
  capacity : s.queue.cues.length ≤ 256
  spent    : s.setup.queueMode = .stream → ∀ c ∈ s.queue.cues, c.status ≠ .spent
  order    : ∃ spent live pending, s.queue.cues = spent ++ live ++ pending ∧
               (∀ c ∈ spent, c.status = .spent) ∧ (∀ c ∈ pending, c.status = .pending) ∧
               (s.expander.context = none → live = []) ∧
               ∀ context, s.expander.context = some context →
                 live = [{ body := context.body, serial := context.serial, status := .expanding }]

/-- ARMED holds a staged step, and STARVED an empty slot (R80, R106). -/
structure State.SlotOk (s : State) : Prop where
  armed   : s.seq.run = .armed → s.expander.slot.isStep = true
  starved : s.seq.run = .starved → s.expander.slot = .empty

/-- A present value and its ramp within bounds: the value, and where the ramp starts and leads. -/
structure Bounded (lo hi value : Nat) (ramp : Option Ramp) : Prop where
  value : lo ≤ value ∧ value ≤ hi
  start : ∀ r, ramp = some r → lo ≤ r.startValue ∧ r.startValue ≤ hi
  goal  : ∀ r, ramp = some r → lo ≤ r.target ∧ r.target ≤ hi

/-- A template's frequency and amplitudes lie within their ranges (R52, R53, R54). -/
structure Template.InRange (t : Template) : Prop where
  frequency : 4000 ≤ t.frequency ∧ t.frequency ≤ 45000
  amplitude : ∀ p, (t.phases.get p).amplitude ≤ 15000
  overlay   : ∀ p o, (t.phases.get p).overlay = some o → o.amplitude ≤ 3000

/-- The values that run (R3, R18, R139, R142): every template in its ranges, in the library and staged; the tuning word
and each amplitude within their bounds, through every ramp; each gain from GAIN_FLOOR to 32,768. -/
structure State.LevelsOk (s : State) : Prop where
  library : ∀ (i : Nat) e, s.library[i]? = some (some e) → e.template.InRange
  staged  : ∀ copy, s.expander.slot = .step copy → copy.content.InRange
  tuning  : Bounded 1717987 19327353 s.synth.tuning s.synth.freqRamp
  primary : ∀ p, Bounded 0 15000 (s.synth.phases.get p).primary (s.synth.phases.get p).primaryRamp
  overlay : ∀ p, Bounded 0 3000 (s.synth.phases.get p).overlayAmp (s.synth.phases.get p).overlayRamp
  gains   : ∀ p, s.setup.gainFloor ≤ s.monitor.gains.get p ∧ s.monitor.gains.get p ≤ 32768

/-- How many DEFINED phrases name a template. -/
def State.phrasesOnTemplate (s : State) (index : Nat) : Nat :=
  s.phrases.toList.countP fun o => o.any fun e => e.template == index

/-- How many DEFINED phrases name a phrase as predecessor. -/
def State.phrasesOnPhrase (s : State) (index : Nat) : Nat :=
  s.phrases.toList.countP fun o => o.any fun e => e.pred == some index

/-- How many defined templates name a slot, each once (R30). -/
def State.templatesOnSlot (s : State) (slot : Nat) : Nat :=
  s.library.toList.countP fun o => o.any fun e => e.template.names slot

/-- A DEFINED phrase's predecessor lies below it and is DEFINED, its depth is one more (R66), and its template is
defined (R59, R73). -/
structure State.PhraseOk (s : State) (index : Nat) (e : PhraseEntry) : Prop where
  template : ∃ t, s.library[e.template]? = some (some t)
  root     : e.pred = none → e.depth = 1
  chained  : ∀ q, e.pred = some q → q < index ∧
               ∃ before, s.phrases[q]? = some (some before) ∧ e.depth = before.depth + 1
  depth    : e.depth ≤ 32

/-- Every refcount is exact, and nothing that is named is undefined (R30, R59, R61, R66, R72, R73, R102). -/
structure State.RefsOk (s : State) : Prop where
  slots     : ∀ (k : Nat) slot, s.store.slots[k]? = some slot → slot.refcount = s.templatesOnSlot k
  templates : ∀ (i : Nat) e, s.library[i]? = some (some e) →
                e.refcount = s.phrasesOnTemplate i + s.queue.cues.countP fun c => c.body.onTemplate i
  phrases   : ∀ (i : Nat) e, s.phrases[i]? = some (some e) →
                e.refcount = s.phrasesOnPhrase i + s.queue.cues.countP fun c => c.body.onPhrase i
  dictionary : ∀ (i : Nat) e, s.phrases[i]? = some (some e) → s.PhraseOk i e
  cueTemplates : ∀ c ∈ s.queue.cues, ∀ i, c.body.onTemplate i = true → ∃ e, s.library[i]? = some (some e)
  cuePhrases   : ∀ c ∈ s.queue.cues, ∀ i, c.body.onPhrase i = true → ∃ e, s.phrases[i]? = some (some e)

end Sys2Proof.Machine
end

