-- ==== Sys2Proof/Certificates/Slice0/Obligations.lean ====
section
/-! DEFINITION. The statements for the provers: what the commands of the FD340 do, by the numbered rules of spec/, and
the invariants that every step keeps. -/

open Sys2Proof Sys2Proof.Machine

/-- A step carries out the command at the front of the queue with the queue's rest. That the block idles on an empty
queue is the model's choice (log entry 10). -/
def Obligations.StepRunsFrontCommand : Prop :=
  (∀ (s : State) (c : Instr) (rest : List Instr), s.pending = c :: rest →
      step s = exec c { s with pending := rest }) ∧
  ∀ s : State, s.pending = [] → step s = .next s

/-- Every command answers a next state in every state, and leaves the waiting commands as they are. That a full reset
leaves them too is log entry 19. -/
def Obligations.EveryCommandRuns : Prop :=
  ∀ (c : Instr) (s : State), ∃ t, exec c s = .next t ∧ t.pending = s.pending

/-- POWER_ON and RESET_N (R175): the receiver returns to HUNT with its frame lost, the request in progress and its work
are abandoned (R37), READY is low, the codes are 0 with ZX and OUTEN low (R1), and NOTICE is low (R181). The rate holds
(R165). That STEPMARK is low then is log entry 7, that the waiting commands stay and every block stands at its reset
values from the beginning of the reset log entry 19, and that the check engine's amounts are counted on log entry 1.
While the reset is in progress no sample is produced (R1) and no byte received (R166), so no frame either: each of these
commands changes nothing. -/
def Obligations.ResetAbandonsEverything : Prop :=
  (∀ s : State, ∃ t, exec .powerOn s = .next t ∧ exec .resetN s = .next t ∧
    t.link = { ready := false, inReset := true, baud := s.link.baud, rx := Receiver.idle,
               inProgress := none, reply := none } ∧
    t.store.job = none ∧ t.seq.run = .disabled ∧ t.results.records = [] ∧ t.queue.cues = [] ∧
    t.ports = { codes := { a := 0, b := 0, c := 0 }, zx := false, stepmark := false, outen := false } ∧
    t.noticeLine = false ∧ t.pending = s.pending ∧ t.moments.engine = s.moments.engine) ∧
  ∀ s : State, s.link.inReset = true →
    (∀ trig iA iB iC, exec (.sample trig iA iB iC) s = .next s) ∧
    (∀ byte framingError, exec (.byteReceived byte framingError) s = .next s) ∧
    (∀ c : Instr, c.request?.isSome = true → exec c s = .next s) ∧
    (∀ kind tag payload crcError, exec (.badframe kind tag payload crcError) s = .next s) ∧
    ∀ kind tag payload, exec (.unknownKind kind tag payload) s = .next s

/-- FULL_RESET_COMPLETE after POWER_ON: every block holds its reset values (R2, R28, R48, R65, R74, R87, R103, R136,
R156, R181, R186), READY is high and the rate is the one the straps select (R165). That STEPMARK is low, the settled
level of TRIG low and no access left to link-side work until sample 1 are the model's choices (log entries 5, 7, 32). -/
def Obligations.FullResetValues : Prop :=
  ∀ (s : State) (strap2 strap1 : Bool), ∃ t u,
    exec .powerOn s = .next t ∧ exec (.fullResetComplete strap2 strap1) t = .next u ∧
    u.synth.theta = 0#32 ∧ u.synth.tuning = 2147484 ∧ u.synth.freqRamp = none ∧ u.synth.sampleIndex = 0#64 ∧
    (∀ p, u.synth.phases.get p =
      { offset := (match p with | .a => 0#32 | .b => 2863311531#32 | .c => 1431655765#32), slot := 0, primary := 0,
        primaryRamp := none, overlay := none, overlayAmp := 0, overlayRamp := none }) ∧
    (∀ k : Nat, k < 16 → u.store.slots[k]? =
      some { state := if k = 0 then .loaded else .empty, points := [], gen := 0#8, refcount := 0 }) ∧
    u.store.job = none ∧ u.store.spare = 0 ∧
    (∀ i : Nat, i < 64 → u.library[i]? = some none) ∧ (∀ i : Nat, i < 128 → u.phrases[i]? = some none) ∧
    u.queue = { cues := [], nextSerial := 0#16, trial := 0#8 } ∧
    u.expander = { context := none, stack := [], slot := .empty } ∧
    u.seq.run = .disabled ∧ u.seq.remembered = none ∧ u.seq.active = none ∧ u.seq.startPhase = .none ∧
    u.seq.timeoutCount = 0 ∧ u.seq.debounce.runCount = 0 ∧ u.seq.debounce.first = true ∧
    u.monitor = { gains := { a := 32768, b := 32768, c := 32768 }, counters := { a := 0, b := 0, c := 0 },
                  fault := none } ∧
    u.results = { records := [], nextSerial := 0#16, pendingGap := 0 } ∧
    (∀ n : Notice, u.latched n = decide (n = .restarted)) ∧ u.notices.masks = 0#16 ∧ u.notices.enable = false ∧
    u.setup =
      { nomFreq := 5000, nomPeak := 16384, stopRamp := 2000,
        limitLevel := { a := 32767, b := 32767, c := 32767 }, attack := 512, release := 16, gainFloor := 8192,
        tripLevel := { a := 32767, b := 32767, c := 32767 }, tripSamples := 100, captureWindow := 10000,
        trigEdge := .rising, trigDebounce := 5, trigTimeout := 0, queueMode := .stream, lowWater := 16,
        highWater := 240, resultNotify := 1 } ∧
    u.link = { ready := true, inReset := false,
               baud := (match strap2, strap1 with
                 | false, false => 115200 | false, true => 921600 | true, false => 3000000 | true, true => 115200),
               rx := Receiver.idle, inProgress := none, reply := none } ∧
    u.ports = { codes := { a := 0, b := 0, c := 0 }, zx := false, stepmark := false, outen := false }

/-- RESET (R176) is answered DONE first; REPLY_SENT after it begins the full reset, with the same results as a
power-on. REPLY_SENT after any other reply raises READY and ends the request in progress (R171). -/
def Obligations.ReplySentRaisesReadyOrResets : Prop :=
  (∀ (s : State) (tag : Byte), s.Listening →
    exec (.reset tag) s = .next (s.replied 0x03#8 tag .done .none []) ∧
    exec .replySent (s.replied 0x03#8 tag .done .none []) = exec .powerOn (s.replied 0x03#8 tag .done .none [])) ∧
  ∀ (s : State) (r : Reply), s.link.reply = some r → (r.kind = 0x03#8 → r.outcome ≠ .done) →
    exec .replySent s =
      .next { s with link := { s.link with ready := true, inProgress := none, reply := none } }

/-- SAMPLE: the sample index advances by one, modulo 2^64 (R1); the reference phase advances by the tuning word in
force for the sample, modulo 2^32 (R4); ZX is high exactly when the reference phase wraps (R17); the setup table and the
waiting commands stay. What is still due falls before the sample (R18, R108, R117, R118): a SAMPLE does what it does
after any RAMP_COMPLETE; with no ramp at its length and exactly one moment due, what it does after that moment's command;
with several due, what it does after the command of one of them, in an order that is free (R112, R132, R145). That SAMPLE
takes them is log entry 3, the free order log entry 2. -/
def Obligations.SampleAdvances : Prop :=
  ∀ (s : State) (trig : Bool) (iA iB iC : Half), s.link.inReset = false →
    let sample : Instr := .sample trig iA iB iC
    (∃ t, exec sample s = .next t ∧
      t.synth.sampleIndex = s.synth.sampleIndex + 1#64 ∧
      t.synth.theta = s.synth.theta + BitVec.ofNat 32 t.synth.tuning ∧
      (t.ports.zx = true ↔ t.synth.theta.toNat < s.synth.theta.toNat) ∧
      t.setup = s.setup ∧ t.pending = s.pending) ∧
    (∀ ramp, ∃ u, exec (.rampComplete ramp) s = .next u ∧ exec sample s = exec sample u) ∧
    (s.synth.finishRamps = s.synth → ∀ m, s.due m = true →
      ((∀ m', s.due m' = true → m' = m) → ∃ u, exec m.command s = .next u ∧ exec sample s = exec sample u) ∧
      ∃ first races u, s.due first = true ∧
        exec first.command { s with moments := { s.moments with races := races } } = .next u ∧
        exec sample s = exec sample u)

/-- SAMPLE with nothing waiting: OUTEN is high exactly in the six states of R137; each code is the saturated scaled
code of R13 to R15, with the levels of this sample and the gains formed before it (R140), and 0 where OUTEN is low
(R16); CLIPPED latches exactly when a computed code is out of range (R15); STEPMARK is high for a step's first sample
alone (R113; that a step ended before its first sample gives none is log entry 26). No shape, queue, library, dictionary,
result or setup value changes. -/
def Obligations.SampleEmitsCodes : Prop :=
  ∀ (s : State) (trig : Bool) (iA iB iC : Half), s.link.inReset = false → s.Settled →
    ∃ t, exec (.sample trig iA iB iC) s = .next t ∧ t.seq.run = s.seq.run ∧
      (t.ports.outen = true ↔
        s.seq.run ∈ [RunState.active, RunState.waiting, RunState.starved, RunState.paused, RunState.parked,
                     RunState.stopping]) ∧
      (t.ports.stepmark = true ↔ ∃ a, s.seq.active = some a ∧ a.begun = false) ∧
      (∀ p, t.ports.codes.get p =
        if t.ports.outen then
          max (-32768) (min 32767 (codeByRule (sumByRule s.store t.synth p) (s.monitor.gains.get p) s.setup.nomPeak))
        else 0) ∧
      (t.latched .clipped = true ↔ s.latched .clipped = true ∨ t.ports.outen = true ∧ ∃ p,
        codeByRule (sumByRule s.store t.synth p) (s.monitor.gains.get p) s.setup.nomPeak < -32768 ∨
        32767 < codeByRule (sumByRule s.store t.synth p) (s.monitor.gains.get p) s.setup.nomPeak) ∧
      t.store.slots = s.store.slots ∧ t.library = s.library ∧ t.phrases = s.phrases ∧ t.queue = s.queue ∧
      t.expander = s.expander ∧ t.results = s.results ∧ t.setup = s.setup ∧ t.link = s.link

/-- SAMPLE with nothing waiting, the load monitor: where OUTEN is high each gain follows R139 and each trip counter
R143, a trip waits exactly when a counter has reached TRIP_SAMPLES, with every such phase (R144), and LIMITING latches
exactly when a gain leaves 32,768 (R141); where OUTEN is low the current is ignored (R135). That a trip waits as a
moment of its own is log entry 3. -/
def Obligations.SampleLimitsAndTrips : Prop :=
  ∀ (s : State) (trig : Bool) (iA iB iC : Half), s.link.inReset = false → s.Settled →
    ∃ t, exec (.sample trig iA iB iC) s = .next t ∧
      let current (p : Phase) : Nat := ((PerPhase.mk iA iB iC).get p).toInt.natAbs
      t.monitor.fault = s.monitor.fault ∧
      (t.ports.outen = false → t.monitor = s.monitor ∧ t.moments.trip = none ∧
        t.latched .limiting = s.latched .limiting) ∧
      (t.ports.outen = true →
        (∀ p, t.monitor.gains.get p =
          if s.setup.limitLevel.get p < current p then max s.setup.gainFloor (s.monitor.gains.get p - s.setup.attack)
          else min 32768 (s.monitor.gains.get p + s.setup.release)) ∧
        (∀ p, t.monitor.counters.get p =
          if s.setup.tripLevel.get p ≤ current p then s.monitor.counters.get p + 1 else 0) ∧
        (t.moments.trip = none ↔ ∀ p, t.monitor.counters.get p < s.setup.tripSamples) ∧
        (∀ tripped, t.moments.trip = some tripped →
          ∀ p, tripped.get p = decide (s.setup.tripSamples ≤ t.monitor.counters.get p)) ∧
        (t.latched .limiting = true ↔ s.latched .limiting = true ∨
          ∃ p, s.monitor.gains.get p = 32768 ∧ t.monitor.gains.get p < 32768))

/-- SAMPLE with nothing waiting, the active step record: the elapsed count and the travel counter move in ACTIVE alone
(R115, R116); the start angle is taken at the first sample (R113); a peak moves in the capture window (R150); the
minimum takes the gain the sample used (R151); a clip sets its flag (R15). Without a record none appears. In ACTIVE a
step staged HELD behind an open step takes its initial phase, the open step's first sample being produced (R107; the
timeout count of 0 is log entry 8, a release later than the first sample log entry 13); otherwise the start phase and the
target stay, and the remembered state always. -/
def Obligations.SampleCountsActiveStep : Prop :=
  ∀ (s : State) (trig : Bool) (iA iB iC : Half), s.link.inReset = false → s.Settled →
    ∃ t, exec (.sample trig iA iB iC) s = .next t ∧
      t.seq.remembered = s.seq.remembered ∧
      (let released : Prop := s.seq.run = .active ∧ s.seq.startPhase = .held ∧ ∃ a, s.seq.active = some a ∧
          (a.copy.content.duration = .samples 0 ∨ a.copy.content.duration = .degrees 0)
       (released → ∀ copy, s.expander.slot = .step copy → t.seq.Begins copy.content.start) ∧
       (¬ released → t.seq.startPhase = s.seq.startPhase ∧ t.seq.target = s.seq.target)) ∧
      (s.seq.active = none → t.seq.active = none) ∧
      ∀ a, s.seq.active = some a → ∃ b, t.seq.active = some b ∧
        b.copy = a.copy ∧ b.startSample = a.startSample ∧ b.begun = true ∧
        b.startAngle = (if a.begun then a.startAngle else t.synth.theta.toNat * 3600 / 2 ^ 32) ∧
        b.elapsed = (if s.seq.run = .active then min 4294967295 (a.elapsed + 1) else a.elapsed) ∧
        b.travel = (if s.seq.run = .active then a.travel + t.synth.tuning else a.travel) ∧
        ∀ p, (b.capture.get p).peak =
            (if s.setup.captureWindow = 0 ∨
                (t.synth.sampleIndex - a.startSample).toNat < s.setup.captureWindow then
              max (a.capture.get p).peak ((PerPhase.mk iA iB iC).get p).toInt.natAbs
             else (a.capture.get p).peak) ∧
          (b.capture.get p).minGain = min (a.capture.get p).minGain (s.monitor.gains.get p) ∧
          ((b.capture.get p).clip = true ↔ (a.capture.get p).clip = true ∨ t.ports.outen = true ∧
            (codeByRule (sumByRule s.store t.synth p) (s.monitor.gains.get p) s.setup.nomPeak < -32768 ∨
             32767 < codeByRule (sumByRule s.store t.synth p) (s.monitor.gains.get p) s.setup.nomPeak))

/-- SAMPLE with nothing waiting, TRIG and the trigger timeout (R110, R112): at sample 1 the settled level is TRIG's; at
the settled level the run count is 0, at the other it rises; a qualified change waits from TRIG_DEBOUNCE + 1 samples
on, counted by TRIG_EDGE; an evaluated sample in EDGE raises the timeout count, and an expiry waits once the limit is
reached. That a qualified change and an expiry wait as moments of their own is log entry 3. -/
def Obligations.SampleReadsTrigger : Prop :=
  ∀ (s : State) (trig : Bool) (iA iB iC : Half), s.link.inReset = false → s.Settled →
    ∃ t, exec (.sample trig iA iB iC) s = .next t ∧
      let inEdge : Bool := s.seq.startPhase == .edge &&
        (s.seq.run == .armed || s.seq.run == .waiting || s.seq.run == .active)
      let counted : Bool := match s.setup.trigEdge with
        | .rising => trig
        | .falling => !trig
        | .both => true
      t.seq.debounce =
        (if s.seq.debounce.first then { settled := trig, runCount := 0, first := false }
         else if trig = s.seq.debounce.settled then { s.seq.debounce with runCount := 0 }
         else { s.seq.debounce with runCount := s.seq.debounce.runCount + 1 }) ∧
      t.moments.edge =
        (if s.seq.debounce.first = false ∧ trig ≠ s.seq.debounce.settled ∧
            s.setup.trigDebounce + 1 ≤ s.seq.debounce.runCount + 1 then
          some { counted := counted, evaluated := inEdge } else none) ∧
      (inEdge = true → t.seq.timeoutCount = s.seq.timeoutCount + 1 ∧
        (t.moments.timeout = true ↔
          0 < s.setup.trigTimeout ∧ s.setup.trigTimeout * 100 ≤ s.seq.timeoutCount + 1)) ∧
      (inEdge = false → s.seq.startPhase ≠ .held → t.seq.timeoutCount = s.seq.timeoutCount ∧
        t.moments.timeout = s.moments.timeout)

/-- SAMPLE with nothing waiting, the seven ramps: in ACTIVE, WAITING, STARVED, PARKED and STOPPING each takes one ramp
sample (R18); elsewhere every value and every progress holds (R21). A ramp that has reached its length stands at its
target until its completion is taken (log entry 6). -/
def Obligations.SampleMovesRamps : Prop :=
  ∀ (s : State) (trig : Bool) (iA iB iC : Half), s.link.inReset = false → s.Settled →
    ∃ t, exec (.sample trig iA iB iC) s = .next t ∧
      (s.seq.run ∈ [RunState.active, RunState.waiting, RunState.starved, RunState.parked, RunState.stopping] →
        RampStep s.synth.tuning s.synth.freqRamp t.synth.tuning t.synth.freqRamp ∧
        ∀ p, let q := s.synth.phases.get p
          let q' := t.synth.phases.get p
          RampStep q.primary q.primaryRamp q'.primary q'.primaryRamp ∧
          RampStep q.overlayAmp q.overlayRamp q'.overlayAmp q'.overlayRamp ∧
          q'.offset = q.offset ∧ q'.slot = q.slot ∧ q'.overlay = q.overlay) ∧
      (s.seq.run ∈ [RunState.off, RunState.armed, RunState.paused, RunState.fault, RunState.disabled] →
        t.synth.tuning = s.synth.tuning ∧ t.synth.freqRamp = s.synth.freqRamp ∧ t.synth.phases = s.synth.phases)

/-- A ramp of length R from V0 to V1 that is not interrupted (R18): after its (j + 1)-th ramp sample the value is
V0 + trunc((V1 − V0) × (j + 1) / R) while j + 1 < R and V1 from then on, and it always lies between V0 and V1.
RAMP_COMPLETE: the named ramp, having reached its length, becomes idle and its present value is its target; nothing else
changes. An idle ramp, or one with samples still to take, is left, and no ramp is to complete before a sample exactly
when every ramp is such. That the completion is a moment of its own after the sample is log entry 6. -/
def Obligations.RampsRunAndComplete : Prop :=
  (∀ (v0 v1 length j : Nat),
    let start : Ramp := { startValue := v0, target := v1, length := length, progress := 0 }
    let value := (rampSamples (j + 1) (v0, some start)).1
    (j + 1 < length → (value : Int) = (v0 : Int) + (((v1 : Int) - v0) * (j + 1 : Nat)).tdiv length) ∧
    (length ≤ j + 1 → value = v1) ∧ min v0 v1 ≤ value ∧ value ≤ max v0 v1) ∧
  (∀ s : State,
    let running (ramp : Option Ramp) : Prop := ∀ r, ramp = some r → r.progress = 0 ∨ r.progress < r.length
    (s.synth.finishRamps = s.synth ↔ running s.synth.freqRamp ∧
      ∀ p, running (s.synth.phases.get p).primaryRamp ∧ running (s.synth.phases.get p).overlayRamp) ∧
    (running s.synth.freqRamp → exec (.rampComplete .frequency) s = .next s) ∧
    ∀ p, (running (s.synth.phases.get p).primaryRamp → exec (.rampComplete (.primary p)) s = .next s) ∧
      (running (s.synth.phases.get p).overlayRamp → exec (.rampComplete (.overlay p)) s = .next s)) ∧
  ∀ (s : State) (r : Ramp), 1 ≤ r.progress → r.length ≤ r.progress →
    (s.synth.freqRamp = some r →
      exec (.rampComplete .frequency) s =
        .next { s with synth := { s.synth with tuning := r.target, freqRamp := none } }) ∧
    (∀ p, (s.synth.phases.get p).primaryRamp = some r →
      let q : SynthPhase := { s.synth.phases.get p with primary := r.target, primaryRamp := none }
      exec (.rampComplete (.primary p)) s =
        .next { s with synth := { s.synth with phases := s.synth.phases.set p q } }) ∧
    (∀ p, (s.synth.phases.get p).overlayRamp = some r →
      let q : SynthPhase := { s.synth.phases.get p with overlayAmp := r.target, overlayRamp := none }
      exec (.rampComplete (.overlay p)) s =
        .next { s with synth := { s.synth with phases := s.synth.phases.set p q } })

/-- The conversions: a frequency of 4,000 to 45,000 cHz by round half up, to a tuning word of 1,717,987 to 19,327,353
(R3); an angle below 3,600 tenths to phase units by round half up (R6); a phase to tenths by floor, 0 to 3,599 (R7).
There and back, an angle loses at most one tenth. -/
def Obligations.ConversionsRound : Prop :=
  (∀ f : Nat, 4000 ≤ f → f ≤ 45000 →
    tuningOf f = (f * 2 ^ 32 + 5000000) / 10000000 ∧ 1717987 ≤ tuningOf f ∧ tuningOf f ≤ 19327353) ∧
  (∀ t : Nat, t < 3600 → (phaseOf t).toNat = (t * 2 ^ 32 + 1800) / 3600) ∧
  (∀ theta : Word, angleOf theta = theta.toNat * 3600 / 2 ^ 32 ∧ angleOf theta ≤ 3599) ∧
  ∀ t : Nat, t < 3600 → angleOf (phaseOf t) = t ∨ angleOf (phaseOf t) + 1 = t

/-- The shape lookup (R9): with i = floor(θ / 2^22) and fr = floor(θ / 2^14) mod 256 the value is
P[i] + floor((P[(i + 1) mod 1,024] − P[i]) × fr / 256), floor toward minus infinity; it lies between the two points,
ends included, so in −32,768 to 32,767; a fraction of 0 gives P[i]; and −0.5 gives floor −1. -/
def Obligations.LookupInterpolates : Prop :=
  (∀ (store : Store) (slot : Nat) (theta : Word),
    let i : Nat := theta.toNat / 2 ^ 22
    let fr : Nat := theta.toNat / 2 ^ 14 % 256
    let p := store.point slot i
    let q := store.point slot ((i + 1) % 1024)
    let value := store.lookup slot theta
    i ≤ 1023 ∧ fr ≤ 255 ∧ value = p + ((q - p) * fr).fdiv 256 ∧
    min p q ≤ value ∧ value ≤ max p q ∧ -32768 ≤ value ∧ value ≤ 32767 ∧ (fr = 0 → value = p)) ∧
  (100 : Int) + ((99 - 100) * 128 : Int).fdiv 256 = 99

/-- The CRC over a range computed in one request equals the CRC over it computed in any number of continued requests,
each from the CRC the one before returned (R42, R43, R47); an empty range leaves the running CRC; a point contributes
its low byte, then its high byte; a byte is combined into the upper eight bits before eight shifts, each combined with
1021 hex where the bit shifted out is 1; and from FFFF hex one point of 0 gives 1D0F hex. -/
def Obligations.CrcContinues : Prop :=
  (∀ (store : Store) (slot start m n : Nat) (crc : Half),
    store.sumPoints slot start (m + n) crc =
      store.sumPoints slot (start + m) n (store.sumPoints slot start m crc)) ∧
  (∀ (store : Store) (slot start : Nat) (crc : Half), store.sumPoints slot start 0 crc = crc) ∧
  (∀ (store : Store) (slot start : Nat) (crc : Half),
    store.sumPoints slot start 1 crc =
      crcBytes crc [(store.pointBits slot start).setWidth 8, (store.pointBits slot start >>> 8).setWidth 8]) ∧
  (∀ (crc : Half) (byte : Byte),
    let shift (c : Half) : Half := if c.getLsbD 15 then (c <<< 1) ^^^ 0x1021#16 else c <<< 1
    crcByte crc byte = Nat.iterate shift 8 (crc ^^^ (byte.setWidth 16 <<< 8))) ∧
  crcPoint 0xFFFF#16 0#16 = 0x1D0F#16

/-- The crossing test of R109 is met exactly when the target lies in the interval from the phase before the sample,
exclusive, to the prospective phase, inclusive. -/
def Obligations.CrossingIsAnInterval : Prop :=
  ∀ (before target : Word) (tuning : Nat), tuning < 2 ^ 32 →
    (crosses (before + BitVec.ofNat 32 tuning) target tuning = true ↔
      ∃ k : Nat, 1 ≤ k ∧ k ≤ tuning ∧ target = before + BitVec.ofNat 32 k)

/-- QUALIFIED_EDGE (R110, R111): the settled level changes and the run count is 0. A change that counts as an edge is
taken by a step in EDGE at an evaluated sample (DUE for TRIGGER, CROSSING for TRIGGER_ANGLE, the timeout count 0), and
is otherwise stray; one that does not count does no more. Where no change waits the command does nothing. That it waits
as a moment of its own is log entry 3, and that an edge of an evaluated sample is taken by a step in EDGE even where a
pause was taken first is log entry 16. -/
def Obligations.QualifiedEdgeIsTakenOrStray : Prop :=
  (∀ s : State, (s.due .edge = true ↔ s.moments.edge ≠ none) ∧
    (s.moments.edge = none → exec .qualifiedEdge s = .next s)) ∧
  ∀ (s : State) (e : EdgeMoment), s.moments.edge = some e →
    ∃ t, exec .qualifiedEdge s = .next t ∧ t.moments.edge = none ∧
      t.seq.debounce = { settled := !s.seq.debounce.settled, runCount := 0, first := s.seq.debounce.first } ∧
      t.seq.run = s.seq.run ∧ t.seq.active = s.seq.active ∧ t.seq.target = s.seq.target ∧
      t.synth = s.synth ∧ t.ports = s.ports ∧ t.store = s.store ∧ t.library = s.library ∧ t.phrases = s.phrases ∧
      t.queue = s.queue ∧ t.expander = s.expander ∧ t.monitor = s.monitor ∧ t.results = s.results ∧
      t.setup = s.setup ∧ t.link = s.link ∧
      (e.counted = true → e.evaluated = true → s.seq.startPhase = .edge →
        t.seq.timeoutCount = 0 ∧ t.moments.timeout = false ∧ t.notices = s.notices ∧
        ∀ copy, s.expander.slot = .step copy →
          (copy.content.start = .trigger → t.seq.startPhase = .due) ∧
          (∀ angle, copy.content.start = .triggerAngle angle → t.seq.startPhase = .crossing)) ∧
      (e.counted = true → (e.evaluated = false ∨ s.seq.startPhase ≠ .edge) →
        t.latched .strayTrigger = true ∧ t.seq.startPhase = s.seq.startPhase ∧
        t.seq.timeoutCount = s.seq.timeoutCount) ∧
      (e.counted = false → t.notices = s.notices ∧ t.seq.startPhase = s.seq.startPhase ∧
        t.seq.timeoutCount = s.seq.timeoutCount)

/-- STEP_START (R113, R19): in ARMED, WAITING or ACTIVE a staged step that is DUE, or whose crossing test is met (R109),
starts before its first sample. An open step is handed over first; the active step record is created with the copy,
the next sample as its start, counts 0 and fresh capture fields; the synthesizer takes the offsets, slots and overlays
at once and gets new ramps from the present values; the run is ACTIVE and STEP_BEGUN latches; and the emptied slot is a
staging event, so that expander, queue, library and phrases are those a staging leaves (R75). No other step starts, and
no step in another state or phase: the command then does nothing. F* is the frequency ramp's next ramp sample where ramps
advance, else the present word, and θ* is θ_ref plus it (R5). That the record holds the
angle of the sample before until its first sample is log entry 9 (R114 says so for a step that ends there), and the
timeout count of 0 log entry 8. That the crossing test takes a tuning word set since the last sample is log entry 25, and
that it takes the ramp of a step that has ended with no sample log entry 30. -/
def Obligations.StepStartTakesOver : Prop :=
  let starts (s : State) : Prop :=
    s.seq.run ∈ [RunState.armed, RunState.waiting, RunState.active] ∧
    (s.seq.startPhase = .due ∨
      s.seq.startPhase = .crossing ∧ (s.prospectTheta - s.seq.target).toNat < s.prospectTuning)
  (∀ s : State,
    (s.seq.run ∈ [RunState.active, RunState.waiting, RunState.starved, RunState.parked, RunState.stopping] →
      ∃ ramp, RampStep s.synth.tuning s.synth.freqRamp s.prospectTuning ramp) ∧
    (s.seq.run ∈ [RunState.off, RunState.armed, RunState.paused, RunState.fault, RunState.disabled] →
      s.prospectTuning = s.synth.tuning) ∧
    s.prospectTheta = s.synth.theta + BitVec.ofNat 32 s.prospectTuning ∧
    (s.due .start = true ↔ (∃ copy, s.expander.slot = .step copy) ∧ starts s) ∧
    (¬ ((∃ copy, s.expander.slot = .step copy) ∧ starts s) → exec .stepStart s = .next s)) ∧
  ∀ (s : State) (copy : StepCopy), s.expander.slot = .step copy → starts s →
    ∃ t, exec .stepStart s = .next t ∧ t.seq.run = .active ∧ t.seq.remembered = none ∧
      t.latched .stepBegun = true ∧
      (∃ u : State, t = u.stage.latch .stepBegun ∧
        u.expander = { s.expander with slot := .empty } ∧ u.queue = s.queue ∧ u.library = s.library ∧
        u.phrases = s.phrases ∧ u.setup = s.setup ∧ u.notices = (s.handActive .handedOver).notices ∧
        u.seq.run = .active ∧ u.seq.active = t.seq.active ∧ u.seq.startPhase = .none ∧ u.seq.timeoutCount = 0 ∧
        u.seq.target = s.seq.target ∧ u.seq.debounce = s.seq.debounce) ∧
      t.seq.active =
        some { copy := copy, startSample := s.synth.sampleIndex + 1#64,
               startAngle := s.synth.theta.toNat * 3600 / 2 ^ 32, elapsed := 0, travel := 0,
               capture := { a := { peak := 0, minGain := 32768, clip := false },
                            b := { peak := 0, minGain := 32768, clip := false },
                            c := { peak := 0, minGain := 32768, clip := false } }, begun := false } ∧
      t.results = (s.handActive .handedOver).results ∧
      t.synth.theta = s.synth.theta ∧ t.synth.sampleIndex = s.synth.sampleIndex ∧
      t.synth.tuning = s.synth.tuning ∧
      t.synth.freqRamp = some { startValue := s.synth.tuning, target := tuningOf copy.content.frequency,
                                length := copy.content.freqRamp, progress := 0 } ∧
      (∀ p, let q := s.synth.phases.get p
        let q' := t.synth.phases.get p
        let r := copy.content.phases.get p
        let base : Nat := if q.overlay.isSome then q.overlayAmp else 0
        q'.offset = phaseOf r.offset ∧ q'.slot = r.slot ∧ q'.primary = q.primary ∧
        q'.primaryRamp = some { startValue := q.primary, target := r.amplitude,
                                length := copy.content.levelRamp, progress := 0 } ∧
        (r.overlay = none → q'.overlay = none ∧ q'.overlayAmp = 0 ∧ q'.overlayRamp = none) ∧
        ∀ o, r.overlay = some o →
          q'.overlay = some { slot := o.slot, harmonic := o.harmonic, shift := phaseOf o.phase } ∧
          q'.overlayAmp = base ∧
          q'.overlayRamp = some { startValue := base, target := o.amplitude, length := copy.content.levelRamp,
                                  progress := 0 }) ∧
      t.ports = s.ports ∧ t.store = s.store ∧ t.monitor = s.monitor ∧ t.setup = s.setup ∧ t.link = s.link

/-- STEP_END (R115, R116, R117): in ACTIVE a closed step whose duration is met ends with the sample last produced,
reason COMPLETE, and its record is handed; then a FOLLOW step is DUE and the run stays ACTIVE, another step waits in
WAITING from its initial phase, an end marker leads to STOPPING or PARKED, where the next item is staged (R79), and with
nothing staged the run is STARVED. No step ends in another state, open or before its duration is met: the command then
does nothing. The timeout count of 0 at an initial phase is log entry 8. -/
def Obligations.StepEndActsOnTheSlot : Prop :=
  let met (a : ActiveStep) : Prop :=
    (∃ n, 1 ≤ n ∧ a.copy.content.duration = .samples n ∧ n ≤ a.elapsed) ∨
      ∃ v, 1 ≤ v ∧ a.copy.content.duration = .degrees v ∧ v * 2 ^ 32 / 3600 ≤ a.travel
  (∀ s : State, (s.due .stepEnd = true ↔ s.seq.run = .active ∧ ∃ a, s.seq.active = some a ∧ met a) ∧
    (¬ (s.seq.run = .active ∧ ∃ a, s.seq.active = some a ∧ met a) → exec .stepEnd s = .next s)) ∧
  ∀ (s : State) (a : ActiveStep), s.seq.run = .active → s.seq.active = some a → met a →
    ∃ t, exec .stepEnd s = .next t ∧ t.seq.active = none ∧
      t.results = (s.handActive .complete).results ∧
      (∀ copy, s.expander.slot = .step copy →
        t.expander = s.expander ∧ t.queue = s.queue ∧ t.synth = s.synth ∧ t.seq.Begins copy.content.start ∧
        (copy.content.start = .follow → t.seq.run = .active) ∧
        (copy.content.start ≠ .follow → t.seq.run = .waiting)) ∧
      (s.expander.slot = .marker .off → t.seq.run = .stopping ∧ t.expander.slot = .empty ∧ s.Stops t) ∧
      (s.expander.slot = .marker .hold →
        t.seq.run = .parked ∧ t.latched .runEnded = true ∧ t.synth = s.synth ∧
          (s.handActive .complete).Parks t) ∧
      (s.expander.slot = .empty →
        t.seq.run = .starved ∧ t.latched .starved = true ∧ t.synth = s.synth ∧ t.queue = s.queue) ∧
      t.ports = s.ports ∧ t.store = s.store ∧ t.monitor = s.monitor ∧ t.setup = s.setup ∧ t.link = s.link

/-- END_MARKER_HANDOVER (R118, R121): behind an open step whose first sample has been produced an end marker is taken:
the step ends HANDED_OVER with the sample last produced, and the run enters STOPPING with its stop ramp, or PARKED with
RUN_ENDED latched and the next item staged (R79), the timeout count 0 with the slot emptied (log entry 8). In another
state, behind a closed step or before that first sample no marker is taken: the command then does nothing. -/
def Obligations.MarkerEndsAnOpenStep : Prop :=
  let handsOver (s : State) : Prop := s.seq.run = .active ∧ ∃ a, s.seq.active = some a ∧ a.begun = true ∧
    (a.copy.content.duration = .samples 0 ∨ a.copy.content.duration = .degrees 0)
  (∀ s : State, (s.due .handover = true ↔ (∃ option, s.expander.slot = .marker option) ∧ handsOver s) ∧
    (¬ ((∃ option, s.expander.slot = .marker option) ∧ handsOver s) → exec .endMarkerHandover s = .next s)) ∧
  ∀ (s : State) (option : EndOption), handsOver s → s.expander.slot = .marker option →
    ∃ t, exec .endMarkerHandover s = .next t ∧ t.seq.active = none ∧
      t.results = (s.handActive .handedOver).results ∧
      (option = .off → t.seq.run = .stopping ∧ t.expander.slot = .empty ∧ s.Stops t) ∧
      (option = .hold → t.seq.run = .parked ∧ t.latched .runEnded = true ∧ t.synth = s.synth ∧
        (s.handActive .handedOver).Parks t) ∧
      t.ports = s.ports ∧ t.store = s.store ∧ t.monitor = s.monitor ∧ t.setup = s.setup ∧ t.link = s.link

/-- TRIGGER_TIMEOUT (R112, R131, R154): the expiry latches TRIGGER_TIMEOUT and leaves the run early: an open active
step's record goes first, ABORTED, then the staged step's, TIMED_OUT, both with the sample last produced; from ARMED the
run is OFF with RUN_ENDED latched, else STOPPING. The EXPANDING cue becomes SPENT (R81); with none, queue and refcounts
stay. In PAUSED, and where no expiry waits, the command takes nothing (R112). That an expiry waits is log entry 3, the
timeout count of 0 log entry 8. -/
def Obligations.TriggerTimeoutLeavesTheRun : Prop :=
  (∀ s : State, (s.due .timeout = true ↔ s.moments.timeout = true ∧ s.seq.run ≠ .paused) ∧
    ((s.moments.timeout = false ∨ s.seq.run = .paused) → exec .triggerTimeout s = .next s)) ∧
  ∀ (s : State) (copy : StepCopy), s.moments.timeout = true → s.expander.slot = .step copy →
    s.seq.run ≠ .paused →
    ∃ t, exec .triggerTimeout s = .next t ∧ t.latched .triggerTimeout = true ∧ t.RunLeft ∧
      t.seq.timeoutCount = 0 ∧ t.moments.timeout = false ∧
      t.results =
        ((s.handActive .aborted).handResult
          { source := copy.source, trial := s.queue.trial, reason := .timedOut, start := none,
            endSample := s.synth.sampleIndex,
            capture := { a := { peak := 0, minGain := 32768, clip := false },
                         b := { peak := 0, minGain := 32768, clip := false },
                         c := { peak := 0, minGain := 32768, clip := false } } }).results ∧
      (s.seq.run = .armed → t.seq.run = .off ∧ t.latched .runEnded = true ∧ s.Rests t) ∧
      (s.seq.run ≠ .armed → t.seq.run = .stopping ∧ s.Stops t ∧ t.monitor = s.monitor) ∧
      (s.expander.context = none → t.queue = s.queue ∧ t.library = s.library ∧ t.phrases = s.phrases) ∧
      (∀ context before c after, s.expander.context = some context → s.queue.cues = before ++ c :: after →
        (∀ x ∈ before, x.status = .spent) → c.status ≠ .spent → s.Spends t before c after) ∧
      t.ports = s.ports ∧ t.store = s.store ∧ t.setup = s.setup ∧ t.link = s.link

/-- TRIP (R131, R133, R144, R147): the trip of the last sample sets the fault record with its phases and that sample,
latches TRIPPED, ends an active step TRIPPED, discards the expansion, the EXPANDING cue becoming SPENT (R81), and enters
FAULT at rest (R23, R138). Where no trip waits the command does nothing. That a trip waits as a moment of its own is log
entry 3. -/
def Obligations.TripEntersFault : Prop :=
  (∀ s : State, (s.due .trip = true ↔ s.moments.trip ≠ none) ∧
    (s.moments.trip = none → exec .trip s = .next s)) ∧
  ∀ (s : State) (tripped : PerPhase Bool), s.moments.trip = some tripped →
    ∃ t, exec .trip s = .next t ∧ t.seq.run = .fault ∧ t.RunLeft ∧ s.Rests t ∧
      t.monitor.fault = some { phases := tripped, sample := s.synth.sampleIndex } ∧
      t.latched .tripped = true ∧ t.latched .runEnded = s.latched .runEnded ∧
      t.results = (s.handActive .tripped).results ∧ t.moments.trip = none ∧
      (s.expander.context = none → t.queue = s.queue ∧ t.library = s.library ∧ t.phrases = s.phrases) ∧
      (∀ context before c after, s.expander.context = some context → s.queue.cues = before ++ c :: after →
        (∀ x ∈ before, x.status = .spent) → c.status ≠ .spent → s.Spends t before c after) ∧
      t.ports = s.ports ∧ t.store = s.store ∧ t.setup = s.setup ∧ t.link = s.link

/-- STOP_RAMP_COMPLETE (R22, R23, R123, R138): in STOPPING, with each of the six amplitude ramps idle or at its length,
the run enters OFF at rest and RUN_ENDED latches; no record is handed. In another state, or with one of these ramps
still on its way, the command does nothing. -/
def Obligations.StopRampLeadsToOff : Prop :=
  let stopped (s : State) : Prop := s.seq.run = .stopping ∧
    ∀ p, ∀ r, ((s.synth.phases.get p).primaryRamp = some r ∨ (s.synth.phases.get p).overlayRamp = some r) →
      1 ≤ r.progress ∧ r.length ≤ r.progress
  (∀ s : State, (s.due .stop = true ↔ stopped s) ∧ (¬ stopped s → exec .stopRampComplete s = .next s)) ∧
  ∀ s : State, stopped s →
    ∃ t, exec .stopRampComplete s = .next t ∧ t.seq.run = .off ∧ s.Rests t ∧ t.latched .runEnded = true ∧
      t.monitor.fault = s.monitor.fault ∧ t.results = s.results ∧ t.queue = s.queue ∧
      t.expander = s.expander ∧ t.ports = s.ports ∧ t.store = s.store ∧ t.library = s.library ∧
      t.phrases = s.phrases ∧ t.setup = s.setup ∧ t.link = s.link

/-- The payloads of the requests, by the offsets of section 9.6: multi-byte fields least significant byte first; the 48
bytes of a template with its phase records at 15, 26 and 37; a cue of 4 to 12 bytes, its flags 0 but for bits 0 and 1,
the duration override at 4, the start override at 4 or 9 (R89, R179); a setup pair, an append, a SHAPE_SUM and a
SHAPE_COMPARE; single fields in the table's order; and nothing for the other kinds. Read back under its kind and tag, the
payload of every request command is that request when its units are in number what its kind allows, and is refused for
its length otherwise (R170). -/
def Obligations.PayloadsReadBack : Prop :=
  (∀ (i : Instr) (kind : Kind) (tag : Byte) (payload : List Byte), i.request? = some (kind, tag, payload) →
    parseRequest kind tag payload = if i.lengthOk then .request i else .badLength) ∧
  (∀ (h : Half) (w : Word) (l : Long),
    le16 h = [h.setWidth 8, (h >>> 8).setWidth 8] ∧
    le32 w = [w.setWidth 8, (w >>> 8).setWidth 8, (w >>> 16).setWidth 8, (w >>> 24).setWidth 8] ∧
    (le64 l).length = 8 ∧ ∀ k : Nat, k < 8 → (le64 l)[k]? = some ((l >>> (8 * k)).setWidth 8)) ∧
  (∀ (tag : Byte) (w : TemplateWire), ∃ p : List Byte,
    (Instr.templateDefine tag w).request? = some (.templateDefine, tag, p) ∧ p = templateBytes w ∧ p.length = 48 ∧
    p.take 2 = [w.index, w.startKind] ∧ (p.drop 2).take 2 = le16 w.startAngle ∧ (p.drop 4).take 1 = [w.durKind] ∧
    (p.drop 5).take 4 = le32 w.durValue ∧ (p.drop 9).take 2 = le16 w.levelRamp ∧
    (p.drop 11).take 2 = le16 w.frequency ∧ (p.drop 13).take 2 = le16 w.freqRamp ∧
    ∀ phase : Phase, let record := p.drop (match phase with | .a => 15 | .b => 26 | .c => 37)
      let carried := w.phases.get phase
      record.take 2 = le16 carried.amplitude ∧ (record.drop 2).take 2 = le16 carried.offset ∧
      (record.drop 4).take 3 = [carried.slot, carried.overlaySlot, carried.harmonic] ∧
      (record.drop 7).take 2 = le16 carried.overlayAmp ∧ (record.drop 9).take 2 = le16 carried.overlayPhase) ∧
  (∀ (tag : Byte) (cues : List CueWire),
    (Instr.cueAdd tag cues).request? = some (.cueAdd, tag, (cues.map cueBytes).flatten)) ∧
  (∀ c : CueWire, ∃ flags : Byte,
    (∀ n : Nat, flags.getLsbD n = (n == 0 && c.duration.isSome || n == 1 && c.start.isSome)) ∧
    (c.duration = none → c.start = none → cueBytes c = [c.kind, c.index, c.rep, flags]) ∧
    (∀ d, c.duration = some d → c.start = none → cueBytes c = [c.kind, c.index, c.rep, flags, d.1] ++ le32 d.2) ∧
    (∀ t, c.duration = none → c.start = some t → cueBytes c = [c.kind, c.index, c.rep, flags, t.1] ++ le16 t.2) ∧
    ∀ d t, c.duration = some d → c.start = some t →
      cueBytes c = [c.kind, c.index, c.rep, flags, d.1] ++ le32 d.2 ++ [t.1] ++ le16 t.2) ∧
  ∀ (tag slot gen index pred template enable count : Byte) (start number crc pad flagSet : Half) (points : List Half)
    (pairs : List (Byte × Word)) (ids : List Byte) (abortToo skipToo : Bool),
    let carries (i : Instr) (kind : Kind) (payload : List Byte) : Prop := i.request? = some (kind, tag, payload)
    carries (.setupWrite tag pairs) .setupWrite (pairs.map fun pair => pair.1 :: le32 pair.2).flatten ∧
    carries (.setupRead tag ids) .setupRead ids ∧
    carries (.noticeClear tag flagSet) .noticeClear (le16 flagSet) ∧
    carries (.noticeMask tag flagSet enable) .noticeMask (le16 flagSet ++ [enable]) ∧
    carries (.shapeOpen tag slot) .shapeOpen [slot] ∧ carries (.shapeErase tag slot) .shapeErase [slot] ∧
    carries (.shapeInfo tag slot) .shapeInfo [slot] ∧
    carries (.shapeAppend tag slot points) .shapeAppend ([slot] ++ (points.map le16).flatten) ∧
    carries (.shapeSum tag slot gen start number crc) .shapeSum
      ([slot, gen] ++ le16 start ++ le16 number ++ le16 crc) ∧
    carries (.shapeCompare tag slot gen start number pad points) .shapeCompare
      ([slot, gen] ++ le16 start ++ le16 number ++ le16 pad ++ (points.map le16).flatten) ∧
    carries (.templateDelete tag index) .templateDelete [index] ∧
    carries (.templateRead tag index) .templateRead [index] ∧
    carries (.phraseDefine tag index pred template) .phraseDefine [index, pred, template] ∧
    carries (.phraseDelete tag index) .phraseDelete [index] ∧ carries (.phraseRead tag index) .phraseRead [index] ∧
    carries (.runForceDisable tag abortToo skipToo) .runForce
      [1#8 + (if abortToo then 2#8 else 0#8) + (if skipToo then 4#8 else 0#8)] ∧
    carries (.runForceAbort tag skipToo) .runForce [2#8 + (if skipToo then 4#8 else 0#8)] ∧
    carries (.runForceSkip tag) .runForce [4#8] ∧ carries (.resultRead tag count) .resultRead [count] ∧
    carries (.identify tag) .identify [] ∧ carries (.status tag) .status [] ∧ carries (.reset tag) .reset [] ∧
    carries (.noticeRead tag) .noticeRead [] ∧ carries (.cueRewind tag) .cueRewind [] ∧
    carries (.runClear tag) .runClear [] ∧ carries (.runStart tag) .runStart [] ∧
    carries (.runPause tag) .runPause [] ∧ carries (.runResume tag) .runResume [] ∧
    carries (.faultClear tag) .faultClear [] ∧ carries (.outputEnable tag) .outputEnable []

/-- The bytes of a request frame, received one by one from HUNT, do what the request command does as a whole (R166 to
R172), whether READY is high (the request is taken) or low (the frame is discarded with LINK_OVERRUN). The same holds of
a frame with a wrong CRC and of one with an unlisted kind. A CUE_ADD frame in which the flags bytes of cues have bits
set that the layout does not name does what the CUE_ADD with these bits clear does (R89, R179). That a request command
stands for a whole frame is log entry 12. -/
def Obligations.BytesMakeFrames : Prop :=
  ∀ s : State, s.link.inReset = false → s.link.rx = Receiver.idle →
    (∀ (i : Instr) (kind : Kind) (tag : Byte) (payload : List Byte),
      i.request? = some (kind, tag, payload) → payload.length ≤ 1024 →
      execAll ((frameBytes kind.code tag payload 0#16).map fun b => .byteReceived b false) s = exec i s) ∧
    (∀ (kind tag : Byte) (payload : List Byte) (crcError : Half), payload.length ≤ 1024 → crcError ≠ 0#16 →
      execAll ((frameBytes kind tag payload crcError).map fun b => .byteReceived b false) s =
        exec (.badframe kind tag payload crcError) s) ∧
    (∀ (kind tag : Byte) (payload : List Byte), payload.length ≤ 1024 → Kind.ofCode kind = none →
      execAll ((frameBytes kind tag payload 0#16).map fun b => .byteReceived b false) s =
        exec (.unknownKind kind tag payload) s) ∧
    ∀ (tag : Byte) (cues : List (CueWire × Byte)),
      let payload : List Byte := (cues.map fun cue =>
        (cueBytes cue.1).take 3 ++ (((cueBytes cue.1).drop 3).take 1).map (· ||| (cue.2 &&& 0xFC#8)) ++
          (cueBytes cue.1).drop 4).flatten
      payload.length ≤ 1024 →
      execAll ((frameBytes 0x30#8 tag payload 0#16).map fun b => .byteReceived b false) s =
        exec (.cueAdd tag (cues.map Prod.fst)) s

/-- BYTE_RECEIVED, clause by clause (R166, R167, R168, R172): 5A hex in HUNT begins a frame, with the overrun mark and
LINK_OVERRUN where READY is low; any other byte, and any byte with a framing error, is ignored in HUNT; elsewhere a
framing error discards the frame with LINK_ERROR, as does a second length byte that makes the length exceed 1,024; a
kind, tag or first length byte, a payload byte and a first CRC byte are stored. With the second CRC byte the frame is
complete (R169 to R172): one with the overrun mark is discarded without a check, though READY may have risen; else a
wrong CRC is answered BADFRAME, an unlisted kind UNKNOWN, and a request is taken as its command takes it. -/
def Obligations.BytesAreAssembled : Prop :=
  ∀ (s : State) (byte : Byte), s.link.inReset = false →
    (s.link.rx = Receiver.idle → byte = 0x5A#8 → ∃ t, exec (.byteReceived byte false) s = .next t ∧
      t.link = { s.link with rx := { state := .header, header := [], payload := [], check := [], gapRunning := true,
                                     marked := !s.link.ready } } ∧
      (s.link.ready = true → t.notices = s.notices) ∧
      (s.link.ready = false → t.latched .linkOverrun = true)) ∧
    (s.link.rx.state = .hunt → byte ≠ 0x5A#8 → exec (.byteReceived byte false) s = .next s) ∧
    (s.link.rx.state = .hunt → exec (.byteReceived byte true) s = .next s) ∧
    (s.link.rx.state ≠ .hunt → ∃ t, exec (.byteReceived byte true) s = .next t ∧
      t.link = { s.link with rx := Receiver.idle } ∧ t.latched .linkError = true) ∧
    (s.link.rx.state = .header → s.link.rx.header.length < 3 → exec (.byteReceived byte false) s =
      .next { s with link := { s.link with rx := { s.link.rx with header := s.link.rx.header ++ [byte] } } }) ∧
    (∀ kind tag lo, s.link.rx.state = .header → s.link.rx.header = [kind, tag, lo] →
      1024 < byte.toNat * 256 + lo.toNat → ∃ t, exec (.byteReceived byte false) s = .next t ∧
        t.link = { s.link with rx := Receiver.idle } ∧ t.latched .linkError = true) ∧
    (∀ kind tag lo, s.link.rx.state = .header → s.link.rx.header = [kind, tag, lo] →
      byte.toNat * 256 + lo.toNat ≤ 1024 → exec (.byteReceived byte false) s =
        .next { s with link := { s.link with rx := { s.link.rx with
          header := [kind, tag, lo, byte],
          state := if byte = 0#8 ∧ lo = 0#8 then .check else .payload } } }) ∧
    (∀ kind tag lo hi, s.link.rx.state = .payload → s.link.rx.header = [kind, tag, lo, hi] →
      exec (.byteReceived byte false) s =
        .next { s with link := { s.link with rx := { s.link.rx with
          payload := s.link.rx.payload ++ [byte],
          state := if s.link.rx.payload.length + 1 < hi.toNat * 256 + lo.toNat then .payload else .check } } }) ∧
    (s.link.rx.state = .check → s.link.rx.check = [] → exec (.byteReceived byte false) s =
      .next { s with link := { s.link with rx := { s.link.rx with check := [byte] } } }) ∧
    ∀ first, s.link.rx.state = .check → s.link.rx.check = [first] →
      let idle : State := { s with link := { s.link with rx := Receiver.idle } }
      (s.link.rx.marked = true → exec (.byteReceived byte false) s = .next idle) ∧
      (s.link.rx.marked = false → s.link.ready = true → ∀ kind tag lo hi, s.link.rx.header = [kind, tag, lo, hi] →
        let crc := crcBytes 0xFFFF#16 ([kind, tag, lo, hi] ++ s.link.rx.payload)
        let matches' : Prop := byte.toNat * 256 + first.toNat = crc.toNat
        (¬ matches' → exec (.byteReceived byte false) s = .next (idle.replied kind tag .badframe .none [])) ∧
        (matches' → (∀ k : Kind, k.code ≠ kind) →
          exec (.byteReceived byte false) s = .next (idle.replied kind tag .unknown .none [])) ∧
        ∀ (i : Instr) (k : Kind), matches' → k.code = kind → i.request? = some (k, tag, s.link.rx.payload) →
          s.link.rx.payload.length ≤ 1024 → exec (.byteReceived byte false) s = exec i idle)

/-- GAP_TIMEOUT discards the frame in assembly with LINK_ERROR and no reply (R167). BADFRAME is answered BADFRAME, NONE
with the received kind and tag and an empty payload, and UNKNOWN_KIND is answered UNKNOWN, NONE likewise; no block sees
either frame (R169, R170). A whole request frame that begins while READY is low is discarded without a reply, and
LINK_OVERRUN latches (R172). A request whose units are too few or too many for its kind, and any frame of a listed kind
whose payload has a length the kind table does not allow or is no whole number of its units, is answered REFUSED, LENGTH
with an empty payload and changes no state of any block (R170; that this holds for a CUE_ADD too is log entry 28). A
RUN_FORCE does what the command of the highest action of its set does, and with none is refused RANGE (R127). That a
command stands for a whole frame is log entry 12. -/
def Obligations.FramesTurnedAway : Prop :=
  (∀ s : State, s.link.rx.gapRunning = true → ∃ t, exec .gapTimeout s = .next t ∧
    t.link = { s.link with rx := Receiver.idle } ∧ t.latched .linkError = true ∧
    t = { s with link := t.link, notices := t.notices }) ∧
  (∀ (s : State) (kind tag : Byte) (payload : List Byte) (crcError : Half),
    s.Listening → payload.length ≤ 1024 → crcError ≠ 0#16 →
    exec (.badframe kind tag payload crcError) s = .next (s.replied kind tag .badframe .none [])) ∧
  (∀ (s : State) (kind tag : Byte) (payload : List Byte),
    s.Listening → payload.length ≤ 1024 → (∀ k : Kind, k.code ≠ kind) →
    exec (.unknownKind kind tag payload) s = .next (s.replied kind tag .unknown .none [])) ∧
  (∀ (s : State) (i : Instr) (kind : Kind) (tag : Byte) (payload : List Byte),
    i.request? = some (kind, tag, payload) → payload.length ≤ 1024 →
    (s.link.inReset = false → s.link.ready = false → s.link.rx = Receiver.idle →
      exec i s = .next (s.latch .linkOverrun)) ∧
    (s.Listening → i.lengthOk = false → exec i s = .next (s.replied kind.code tag .refused .length []))) ∧
  ∀ (s : State) (tag : Byte), s.Listening →
    let frame (kind : Kind) (payload : List Byte) : Host.Outcome State Fault Refusal :=
      execAll ((frameBytes kind.code tag payload 0#16).map fun b => .byteReceived b false) s
    (∀ kind payload, payload.length ≤ 1024 → ¬ kind.Admits payload →
      frame kind payload = .next (s.replied kind.code tag .refused .length [])) ∧
    ∀ actions : Byte,
      (actions.getLsbD 0 = true → frame .runForce [actions] =
        exec (.runForceDisable tag (actions.getLsbD 1) (actions.getLsbD 2)) s) ∧
      (actions.getLsbD 0 = false → actions.getLsbD 1 = true →
        frame .runForce [actions] = exec (.runForceAbort tag (actions.getLsbD 2)) s) ∧
      (actions.getLsbD 0 = false → actions.getLsbD 1 = false → actions.getLsbD 2 = true →
        frame .runForce [actions] = exec (.runForceSkip tag) s) ∧
      (actions.getLsbD 0 = false → actions.getLsbD 1 = false → actions.getLsbD 2 = false →
        frame .runForce [actions] = .next (s.replied 0x3B#8 tag .refused .range []))

/-- IDENTIFY (R177): DONE, NONE with the vendor code 0C61 hex, the part code 0154 hex, the revision 1 and the capacities
16, 64, 128, 256 and 64; nothing else changes. -/
def Obligations.IdentifyAnswersFixedCodes : Prop :=
  ∀ (s : State) (tag : Byte), s.Listening →
    exec (.identify tag) s =
      .next (s.replied 0x01#8 tag .done .none
        ([0x61#8, 0x0C#8] ++ [0x54#8, 0x01#8] ++ [1#8] ++ [16#8, 64#8, 128#8, 0#8, 1#8, 64#8]))

/-- STATUS (R178): DONE, NONE with the 76 bytes of the status block, all from this moment; nothing else changes. The
bytes are given by their offsets in the block (spec 09, "Status block"; R25, R86, R134). That a timeout count above 32
bits is reported by its lowest 32 is log entry 18, and that the synthesizer's values are those of this moment, also where
one was set since the last sample, log entry 29. -/
def Obligations.StatusReportsEveryBlock : Prop :=
  ∀ (s : State) (tag : Byte), s.Listening →
    ∃ p : List Byte, exec (.status tag) s = .next (s.replied 0x02#8 tag .done .none p) ∧ p.length = 76 ∧
      p.take 1 = [s.seq.run.code] ∧
      (p.drop 1).take 1 = [match s.seq.run, s.seq.remembered with
        | .paused, some .active => 2#8
        | .paused, some .waiting => 3#8
        | .paused, some .starved => 4#8
        | _, _ => 0xFF#8] ∧
      (p.drop 2).take 2 = [s.expander.slot.code, s.seq.startPhase.code] ∧
      (p.drop 4).take 4 = le32 (BitVec.ofNat 32 s.seq.timeoutCount) ∧
      (p.drop 8).take 2 = le16 (BitVec.ofNat 16 (s.queue.cues.countP fun c => c.status != .spent)) ∧
      (p.drop 10).take 2 = le16 (BitVec.ofNat 16 (s.queue.cues.countP fun c => c.status == .spent)) ∧
      (p.drop 12).take 3 = s.queue.trial :: le16 s.queue.nextSerial ∧
      (p.drop 15).take 1 = [BitVec.ofNat 8 s.results.records.length] ∧
      (s.seq.active = none → (p.drop 17).take 19 = List.replicate 19 0#8) ∧
      (∀ a, s.seq.active = some a →
        (p.drop 17).take 19 = le16 a.copy.source.serial ++ [BitVec.ofNat 8 a.copy.source.rep,
          BitVec.ofNat 8 a.copy.source.element, BitVec.ofNat 8 a.copy.source.template] ++ le64 a.startSample ++
          le16 (BitVec.ofNat 16 a.startAngle) ++ le32 (BitVec.ofNat 32 a.elapsed)) ∧
      (p.drop 36).take 8 = le64 s.synth.sampleIndex ∧
      (p.drop 44).take 2 = le16 (BitVec.ofNat 16 (s.synth.theta.toNat * 3600 / 2 ^ 32)) ∧
      (p.drop 46).take 4 = le32 (BitVec.ofNat 32 s.synth.tuning) ∧
      (∀ q : Phase, (p.drop (match q with | .a => 50 | .b => 56 | .c => 62)).take 6 =
        le16 (BitVec.ofNat 16 (s.synth.phases.get q).primary) ++
        le16 (BitVec.ofNat 16
          (if (s.synth.phases.get q).overlay.isSome then (s.synth.phases.get q).overlayAmp else 0)) ++
        le16 (BitVec.ofNat 16 (s.monitor.gains.get q))) ∧
      (∀ f, s.seq.run = .fault → s.monitor.fault = some f →
        (p.drop 16).take 1 = [(if s.seq.active.isSome then 1#8 else 0#8) ||| 2#8 |||
          (if f.phases.a then 4#8 else 0#8) ||| (if f.phases.b then 8#8 else 0#8) |||
          (if f.phases.c then 16#8 else 0#8)] ∧
        (p.drop 68).take 8 = le64 f.sample) ∧
      (s.seq.run ≠ .fault →
        (p.drop 16).take 1 = [if s.seq.active.isSome then 1#8 else 0#8] ∧ (p.drop 68).take 8 = le64 0#64)

/-- SETUP_READ (R190): with 1 to 32 listed ids, DONE, NONE with one pair for each id in order, the id and the four bytes
of the value stored (an enumerated one by its code); with an id that is not listed, REFUSED, RANGE with an empty
payload; with none or more than 32, REFUSED, LENGTH. Nothing else changes. -/
def Obligations.SetupReadReportsStoredValues : Prop :=
  ∀ (s : State) (tag : Byte) (ids : List Byte), s.Listening → ids.length ≤ 1024 →
    (1 ≤ ids.length → ids.length ≤ 32 → (∀ i ∈ ids, Param.ofId i ≠ none) →
      exec (.setupRead tag ids) s = .next (s.replied 0x05#8 tag .done .none
        (ids.flatMap fun i => i :: le32 (BitVec.ofNat 32
          (match Param.ofId i with
           | some p => s.setup.get p
           | none => 0))))) ∧
    (1 ≤ ids.length → ids.length ≤ 32 → (∃ i ∈ ids, Param.ofId i = none) →
      exec (.setupRead tag ids) s = .next (s.replied 0x05#8 tag .refused .range [])) ∧
    ((ids.length = 0 ∨ 32 < ids.length) →
      exec (.setupRead tag ids) s = .next (s.replied 0x05#8 tag .refused .length []))

/-- SETUP_WRITE (R187, R188, R24, R95, R142): a pair whose id is not listed, or whose enumerated value is no code, has
the request refused RANGE; else NOM_PEAK outside OFF, FAULT and DISABLED, or QUEUE_MODE outside OFF or with a cue held,
has it refused STATE; else the last pair of each parameter stands, brought into its range, with detail CLAMPED where any
value carried was out of it; NOM_FREQ in OFF, FAULT or DISABLED sets the tuning word, and GAIN_FLOOR raises the gains
below it. No other block changes. That both act once, by the value that stands after the whole request, is log entry
17. -/
def Obligations.SetupWriteStoresClamped : Prop :=
  ∀ (s : State) (tag : Byte) (pairs : List (Byte × Word)), s.Listening → 1 ≤ pairs.length → pairs.length ≤ 32 →
    let quiet : Prop := s.seq.run = .off ∨ s.seq.run = .fault ∨ s.seq.run = .disabled
    let outOfRange : Prop := ∃ pair ∈ pairs, ∀ p, Param.ofId pair.1 = some p →
      p.enumerated = true ∧ p.range.2 < pair.2.toNat
    let outOfState : Prop := ∃ pair ∈ pairs,
      (Param.ofId pair.1 = some .nomPeak ∧ ¬ quiet) ∨
      (Param.ofId pair.1 = some .queueMode ∧ (s.seq.run ≠ .off ∨ s.queue.cues ≠ []))
    (outOfRange → exec (.setupWrite tag pairs) s = .next (s.replied 0x04#8 tag .refused .range [])) ∧
    (¬ outOfRange → outOfState →
      exec (.setupWrite tag pairs) s = .next (s.replied 0x04#8 tag .refused .state [])) ∧
    (¬ outOfRange → ¬ outOfState → ∃ t, exec (.setupWrite tag pairs) s = .next t ∧
      t.link = (s.replied 0x04#8 tag .done (if ∃ pair ∈ pairs, ∃ p, Param.ofId pair.1 = some p ∧
        (pair.2.toNat < p.range.1 ∨ p.range.2 < pair.2.toNat) then .clamped else .none) []).link ∧
      (∀ p, t.setup.get p =
        match pairs.reverse.find? fun pair => Param.ofId pair.1 == some p with
        | some pair => max p.range.1 (min p.range.2 pair.2.toNat)
        | none => s.setup.get p) ∧
      ((∃ pair ∈ pairs, Param.ofId pair.1 = some .nomFreq) → quiet →
        t.synth = { s.synth with tuning := tuningOf t.setup.nomFreq, freqRamp := none }) ∧
      ((∀ pair ∈ pairs, Param.ofId pair.1 ≠ some .nomFreq) ∨ ¬ quiet → t.synth = s.synth) ∧
      ((∃ pair ∈ pairs, Param.ofId pair.1 = some .gainFloor) →
        ∀ p, t.monitor.gains.get p = max t.setup.gainFloor (s.monitor.gains.get p)) ∧
      ((∀ pair ∈ pairs, Param.ofId pair.1 ≠ some .gainFloor) → t.monitor = s.monitor) ∧
      t.monitor.counters = s.monitor.counters ∧ t.monitor.fault = s.monitor.fault ∧ t.ports = s.ports ∧
      t.store = s.store ∧ t.library = s.library ∧ t.phrases = s.phrases ∧ t.queue = s.queue ∧
      t.expander = s.expander ∧ t.seq = s.seq ∧ t.results = s.results ∧ t.notices = s.notices ∧
      t.moments = s.moments)

/-- NOTICE_READ (R185): DONE, NONE with the flags, the masks and the enable as they stand, whatever the masks; nothing
is cleared and nothing else changes. -/
def Obligations.NoticeReadReportsFlags : Prop :=
  ∀ (s : State) (tag : Byte), s.Listening →
    exec (.noticeRead tag) s = .next (s.replied 0x06#8 tag .done .none
      [s.notices.flags.setWidth 8, (s.notices.flags >>> 8).setWidth 8,
       s.notices.masks.setWidth 8, (s.notices.masks >>> 8).setWidth 8,
       if s.notices.enable then 1#8 else 0#8])

/-- NOTICE_CLEAR (R183): each of the fifteen flags whose bit is set in the set is cleared, every other bit stays, bit 15
of the set is not read; DONE, NONE with the flags after the clear; masks and enable stay. -/
def Obligations.NoticeClearClearsNamedFlags : Prop :=
  ∀ (s : State) (tag : Byte) (flagSet : Half), s.Listening →
    ∃ flags : Half, (∀ n : Nat, flags.getLsbD n = (s.notices.flags.getLsbD n && !(flagSet.getLsbD n && n < 15))) ∧
      exec (.noticeClear tag flagSet) s =
        .next (State.replied 0x07#8 tag .done .none [flags.setWidth 8, (flags >>> 8).setWidth 8]
          { s with notices := { s.notices with flags := flags } })

/-- NOTICE_MASK (R184, R182): an enable byte other than 0 and 1 is refused RANGE and changes nothing; else all fifteen
masks take the values of the set, bit 15 not being read, the enable takes its value, the flags stay, and the reply is
DONE, NONE with an empty payload; NOTICE is high exactly when the enable is on and a latched flag is unmasked. -/
def Obligations.NoticeMaskReplacesMasks : Prop :=
  ∀ (s : State) (tag : Byte) (masks : Half) (enable : Byte), s.Listening →
    (enable ≠ 0#8 → enable ≠ 1#8 →
      exec (.noticeMask tag masks enable) s = .next (s.replied 0x08#8 tag .refused .range [])) ∧
    ((enable = 0#8 ∨ enable = 1#8) → ∃ kept : Half,
      (∀ n : Nat, kept.getLsbD n = (masks.getLsbD n && n < 15)) ∧
      ∃ t, exec (.noticeMask tag masks enable) s = .next t ∧
        t = State.replied 0x08#8 tag .done .none []
          { s with notices := { flags := s.notices.flags, masks := kept, enable := decide (enable = 1#8) } } ∧
        (t.noticeLine = true ↔
          enable = 1#8 ∧ ∃ n : Nat, s.notices.flags.getLsbD n = true ∧ kept.getLsbD n = false))

/-- SHAPE_OPEN and SHAPE_ERASE (R29, R31, R32, R35): refused RANGE above slot 15, READ_ONLY for slot 0, IN_USE for a
held slot, in that order; else the slot is FILLING (EMPTY after an erase) with no points, its generation one higher
modulo 256, its refcount as it was. Nothing else changes. -/
def Obligations.OpenAndEraseClearASlot : Prop :=
  ∀ (s : State) (tag slot : Byte), s.Listening →
    (15 < slot.toNat →
      exec (.shapeOpen tag slot) s = .next (s.replied 0x10#8 tag .refused .range []) ∧
      exec (.shapeErase tag slot) s = .next (s.replied 0x12#8 tag .refused .range [])) ∧
    (slot = 0#8 →
      exec (.shapeOpen tag slot) s = .next (s.replied 0x10#8 tag .refused .readOnly []) ∧
      exec (.shapeErase tag slot) s = .next (s.replied 0x12#8 tag .refused .readOnly [])) ∧
    ∀ record, slot ≠ 0#8 → s.store.slots[slot.toNat]? = some record →
      let cleared (state : SlotState) : State :=
        let slots := s.store.slots.setIfInBounds slot.toNat
          { state := state, points := [], gen := record.gen + 1#8, refcount := record.refcount }
        { s with store := { s.store with slots := slots } }
      (s.SlotHeld slot.toNat record →
        exec (.shapeOpen tag slot) s = .next (s.replied 0x10#8 tag .refused .inUse []) ∧
        exec (.shapeErase tag slot) s = .next (s.replied 0x12#8 tag .refused .inUse [])) ∧
      (¬ s.SlotHeld slot.toNat record →
        exec (.shapeOpen tag slot) s =
          .next (State.replied 0x10#8 tag .done .none [slot, record.gen + 1#8] (cleared .filling)) ∧
        exec (.shapeErase tag slot) s =
          .next (State.replied 0x12#8 tag .done .none [slot, record.gen + 1#8] (cleared .empty)))

/-- SHAPE_INFO (R36), TEMPLATE_READ (R58) and PHRASE_READ (R71): refused RANGE above 15, 63 and 127, the two reads
refused NOT_READY for an entry that is not defined; else DONE, NONE with the slot's record and its two step-copy
indications, the template's 48 bytes as stored and its refcount, or the phrase's entry and its expansion. Nothing else
changes. -/
def Obligations.InfoAndReadsReportRecords : Prop :=
  ∀ (s : State) (tag index : Byte), s.Listening →
    (15 < index.toNat → exec (.shapeInfo tag index) s = .next (s.replied 0x13#8 tag .refused .range [])) ∧
    (∀ record, s.store.slots[index.toNat]? = some record →
      ∃ active staged : Bool,
        (active = true ↔ ∃ a, s.seq.active = some a ∧ a.copy.content.Names index.toNat) ∧
        (staged = true ↔ ∃ copy, s.expander.slot = .step copy ∧ copy.content.Names index.toNat) ∧
        exec (.shapeInfo tag index) s = .next (s.replied 0x13#8 tag .done .none
          ([index, match record.state with
            | .empty => 0#8
            | .filling => 1#8
            | .loaded => 2#8]
            ++ le16 (BitVec.ofNat 16 (if index = 0#8 then 1024 else record.points.length))
            ++ [record.gen, BitVec.ofNat 8 record.refcount,
                (if active then 1#8 else 0#8) ||| (if staged then 2#8 else 0#8)]))) ∧
    (63 < index.toNat → exec (.templateRead tag index) s = .next (s.replied 0x22#8 tag .refused .range [])) ∧
    (s.library[index.toNat]? = some none →
      exec (.templateRead tag index) s = .next (s.replied 0x22#8 tag .refused .notReady [])) ∧
    (∀ e, s.library[index.toNat]? = some (some e) → ∃ w : TemplateWire,
      w.index = index ∧ (e.template.start = .follow → w.startKind = 0#8 ∧ w.startAngle = 0#16) ∧
      (∀ t, e.template.start = .angle t → w.startKind = 1#8 ∧ w.startAngle = BitVec.ofNat 16 t) ∧
      (e.template.start = .trigger → w.startKind = 2#8 ∧ w.startAngle = 0#16) ∧
      (∀ t, e.template.start = .triggerAngle t → w.startKind = 3#8 ∧ w.startAngle = BitVec.ofNat 16 t) ∧
      (∀ v, e.template.duration = .samples v → w.durKind = 0#8 ∧ w.durValue = BitVec.ofNat 32 v) ∧
      (∀ v, e.template.duration = .degrees v → w.durKind = 1#8 ∧ w.durValue = BitVec.ofNat 32 v) ∧
      w.levelRamp = BitVec.ofNat 16 e.template.levelRamp ∧ w.frequency = BitVec.ofNat 16 e.template.frequency ∧
      w.freqRamp = BitVec.ofNat 16 e.template.freqRamp ∧
      (∀ p, let r := e.template.phases.get p
        let q := w.phases.get p
        q.amplitude = BitVec.ofNat 16 r.amplitude ∧ q.offset = BitVec.ofNat 16 r.offset ∧
        q.slot = BitVec.ofNat 8 r.slot ∧
        (r.overlay = none →
          q.overlaySlot = 255#8 ∧ q.harmonic = 0#8 ∧ q.overlayAmp = 0#16 ∧ q.overlayPhase = 0#16) ∧
        ∀ o, r.overlay = some o →
          q.overlaySlot = BitVec.ofNat 8 o.slot ∧ q.harmonic = BitVec.ofNat 8 o.harmonic ∧
          q.overlayAmp = BitVec.ofNat 16 o.amplitude ∧ q.overlayPhase = BitVec.ofNat 16 o.phase) ∧
      exec (.templateRead tag index) s = .next (s.replied 0x22#8 tag .done .none
        (templateBytes w ++ le16 (BitVec.ofNat 16 e.refcount)))) ∧
    (127 < index.toNat → exec (.phraseRead tag index) s = .next (s.replied 0x2A#8 tag .refused .range [])) ∧
    (s.phrases[index.toNat]? = some none →
      exec (.phraseRead tag index) s = .next (s.replied 0x2A#8 tag .refused .notReady [])) ∧
    ∀ e, s.phrases[index.toNat]? = some (some e) →
      exec (.phraseRead tag index) s = .next (s.replied 0x2A#8 tag .done .none
        ([index, BitVec.ofNat 8 (e.pred.getD 255), BitVec.ofNat 8 e.template, BitVec.ofNat 8 e.depth]
          ++ le16 (BitVec.ofNat 16 e.refcount) ++ (s.expansion index.toNat).map (BitVec.ofNat 8)))

/-- SHAPE_APPEND, SHAPE_SUM and SHAPE_COMPARE, the checks in their order (R33, R40): an append is refused RANGE,
READ_ONLY for slot 0, NOT_READY unless FILLING; the others RANGE, NOT_READY unless LOADED, STALE for another
generation, RANGE where the region ends beyond 1,024. A request that passes is in progress with its work, no reply yet
and the accesses left of the present sample's period (R38, log entry 11); a sum or compare has the engine's next amount
chosen for it (R41, log entry 1); nothing else changes. -/
def Obligations.ShapeWorkBegins : Prop :=
  ∀ (s : State) (tag slot gen : Byte) (points : List Half) (start count crc pad : Half), s.Listening →
    (1 ≤ points.length → points.length ≤ 511 →
      (15 < slot.toNat → exec (.shapeAppend tag slot points) s = .next (s.replied 0x11#8 tag .refused .range [])) ∧
      (slot = 0#8 → exec (.shapeAppend tag slot points) s = .next (s.replied 0x11#8 tag .refused .readOnly [])) ∧
      ∀ record, slot ≠ 0#8 → s.store.slots[slot.toNat]? = some record →
        (record.state ≠ .filling →
          exec (.shapeAppend tag slot points) s = .next (s.replied 0x11#8 tag .refused .notReady [])) ∧
        (record.state = .filling →
          exec (.shapeAppend tag slot points) s = .next (State.inProgress 0x11#8 tag
            { s with store := { s.store with
                job := some { work := .append slot.toNat points, served := s.store.spare, periods := 0 } } }))) ∧
    let refused (detail : Detail) : Prop :=
      exec (.shapeSum tag slot gen start count crc) s = .next (s.replied 0x14#8 tag .refused detail []) ∧
      (points.length ≤ 256 → exec (.shapeCompare tag slot gen start count pad points) s =
        .next (s.replied 0x15#8 tag .refused detail []))
    (15 < slot.toNat → refused .range) ∧
    ∀ record, s.store.slots[slot.toNat]? = some record →
      (record.state ≠ .loaded → refused .notReady) ∧
      (record.state = .loaded → gen ≠ record.gen → refused .stale) ∧
      (record.state = .loaded → gen = record.gen → 1024 < start.toNat + count.toNat → refused .range) ∧
      (record.state = .loaded → gen = record.gen → start.toNat + count.toNat ≤ 1024 →
        exec (.shapeSum tag slot gen start count crc) s = .next (State.inProgress 0x14#8 tag
          { s with
            store := { s.store with
              job := some { work := .sum slot.toNat start.toNat count.toNat crc, served := s.store.spare,
                            periods := 0 } },
            moments := { s.moments with engine := s.moments.engine + 1 } }) ∧
        (points.length ≤ 256 →
          exec (.shapeCompare tag slot gen start count pad points) s = .next (State.inProgress 0x15#8 tag
            { s with
              store := { s.store with
                job := some { work := .compare slot.toNat start.toNat count.toNat pad points,
                              served := s.store.spare, periods := 0 } },
              moments := { s.moments with engine := s.moments.engine + 1 } })))

/-- SHAPE_APPEND_COMPLETE (R34): with the cursor at c and q points carried, a = min(q, 1,024 − c) of them join the
slot's points in order, a slot with 1,024 points is LOADED, and the reply is DONE, TRUNCATED where points were dropped,
with the slot, a and the new cursor; nothing else changes. The arbiter must have left the accesses for it (R38): of 32
in a sample's period the synthesizer takes two for each lookup, and SAMPLE leaves the rest, at least 20, to link-side
work, for the work in progress and then for what begins before the next sample; an append that completes takes its a
accesses off. An append of q points is overdue once q / 20 periods, rounded up, have passed, and overdue work completes
before the sample as its completion command does it once served. Work not served yet does not complete, and a completion
command without work of its kind does nothing. This account of accesses and periods is log entry 11. -/
def Obligations.AppendCompletes : Prop :=
  (∀ (s : State) (trig : Bool) (iA iB iC : Half), s.link.inReset = false →
    (∀ m, s.due m = false) → s.synth.finishRamps = s.synth →
    let overlays : Nat := (s.synth.phases.toList.filter fun p => p.overlay.isSome).length
    20 ≤ 26 - 2 * overlays ∧
    (∃ t, exec (.sample trig iA iB iC) s = .next t ∧ t.store.spare = 26 - 2 * overlays) ∧
    (s.store.job = none → ∃ t, exec (.sample trig iA iB iC) s = .next t ∧ t.store.job = none) ∧
    ∀ job, s.store.job = some job →
    let done : Instr := match job.work with
      | .append _ _ => .shapeAppendComplete
      | .sum _ _ _ _ => .shapeSumComplete
      | .compare _ _ _ _ _ => .shapeCompareComplete
    (∀ slot points, job.work = .append slot points →
      (s.workOverdue = true ↔ points.length ≤ 20 * job.periods)) ∧
    (s.workOverdue = false → ∃ t, exec (.sample trig iA iB iC) s = .next t ∧
      t.store.job =
        some { job with served := job.served + (26 - 2 * overlays), periods := job.periods + 1 } ∧
      t.link = s.link) ∧
    (s.workOverdue = true → ∃ served t u, job.served ≤ served ∧
      exec done { s with store := { s.store with job := some { job with served := served } } } = .next u ∧
      exec (.sample trig iA iB iC) s = .next t ∧ exec (.sample trig iA iB iC) u = .next t ∧ t.store.job = none)) ∧
  (∀ s : State, (s.store.job = none → s.workOverdue = false) ∧
    ((∀ job slot points, s.store.job = some job → job.work ≠ .append slot points) →
      exec .shapeAppendComplete s = .next s) ∧
    ((∀ job slot start count crc, s.store.job = some job → job.work ≠ .sum slot start count crc) →
      exec .shapeSumComplete s = .next s) ∧
    ((∀ job slot start count pad points, s.store.job = some job → job.work ≠ .compare slot start count pad points) →
      exec .shapeCompareComplete s = .next s)) ∧
  ∀ (s : State) (slot served periods : Nat) (points : List Half) (record : Slot) (kind tag : Byte),
    s.store.job = some { work := .append slot points, served := served, periods := periods } → slot ≠ 0 →
    s.store.slots[slot]? = some record → s.link.inProgress = some (kind, tag) →
    let c := record.points.length
    let a := min points.length (1024 - c)
    (served < a → exec .shapeAppendComplete s = .next s) ∧ (a ≤ served →
    let filled : Slot :=
      { record with points := record.points ++ points.take a,
                    state := if c + a = 1024 then .loaded else record.state }
    let reply : Reply :=
      { kind := kind, tag := tag, outcome := .done,
        detail := if a < points.length then .truncated else .none,
        payload := [BitVec.ofNat 8 slot] ++ le16 (BitVec.ofNat 16 a) ++ le16 (BitVec.ofNat 16 (c + a)) }
    exec .shapeAppendComplete s = .next
      { s with store := { slots := s.store.slots.setIfInBounds slot filled, job := none,
                          spare := min s.store.spare (served - a) },
               link := { s.link with reply := some reply } })

/-- SHAPE_SUM_COMPLETE (R41, R43): with the amount c of 32 to 256 that the engine has chosen for this request, p = min(c,
count) points are processed, and the reply has p, the next start, the remaining count and the running CRC over these
points, DONE when nothing remains and PARTIAL, MORE otherwise. The amount is a free value (log entry 1). No slot changes,
and the p accesses are taken off what the present sample's period leaves (R38, log entry 11). A sum whose p accesses are
not served yet does not complete, and it is overdue once p / 20 periods, rounded up, have passed. -/
def Obligations.SumCompletes : Prop :=
  ∀ (s : State) (slot start count served periods : Nat) (crc : Half) (kind tag : Byte),
    s.store.job = some { work := .sum slot start count crc, served := served, periods := periods } →
    s.link.inProgress = some (kind, tag) →
    let c := Config.engineAmount s.moments.engine
    let p := min c count
    let reply : Reply :=
      { kind := kind, tag := tag, outcome := if p = count then .done else .partly,
        detail := if p = count then .none else .more,
        payload := le16 (BitVec.ofNat 16 p) ++ le16 (BitVec.ofNat 16 (start + p)) ++
          le16 (BitVec.ofNat 16 (count - p)) ++ le16 (s.store.sumPoints slot start p crc) }
    32 ≤ c ∧ c ≤ 256 ∧ (s.workOverdue = true ↔ p ≤ 20 * periods) ∧
    (served < p → exec .shapeSumComplete s = .next s) ∧
    (min count 256 ≤ served ∨ p ≤ served → exec .shapeSumComplete s = .next
      { s with store := { s.store with job := none, spare := min s.store.spare (served - p) },
               link := { s.link with reply := some reply } })

/-- SHAPE_COMPARE_COMPLETE (R44, R45, R46): of the pairs of the two padded sequences the engine examines the amount it has
chosen for this request (R41, log entry 1); at the first unequal pair it answers BELOW or ABOVE with the pair, after the
last pair EQUAL, else PARTIAL, MORE; each with the next start, the remaining region and the points consumed after e equal
pairs. No slot changes. The accesses needed, and taken off what the present sample's period leaves, are the region's
points among the pairs read (R38): a difference within the first 32 pairs needs those up to it alone, whatever the
amount. A compare not served yet does not complete, and it is overdue once its accesses / 20 periods, rounded up, have
passed (log entry 11). -/
def Obligations.CompareCompletes : Prop :=
  ∀ (s : State) (slot start count served periods : Nat) (pad : Half) (points : List Half) (kind tag : Byte),
    s.store.job =
      some { work := .compare slot start count pad points, served := served, periods := periods } →
    s.link.inProgress = some (kind, tag) →
    let c := Config.engineAmount s.moments.engine
    let pairs := max count points.length
    let n := min c pairs
    let stored (j : Nat) : Half := if j < count then s.store.pointBits slot (start + j) else pad
    let controller (j : Nat) : Half := points.getD j pad
    let ends (outcome : ReplyOutcome) (detail : Detail) (result : Byte) (j : Nat) (x y : Half) (e read : Nat) : Prop :=
      let need := min read count
      let reply : Reply :=
        { kind := kind, tag := tag, outcome := outcome, detail := detail,
          payload := [result] ++ le16 (BitVec.ofNat 16 j) ++ le16 x ++ le16 y ++
            le16 (BitVec.ofNat 16 (start + min e count)) ++ le16 (BitVec.ofNat 16 (count - min e count)) ++
            le16 (BitVec.ofNat 16 (min e points.length)) }
      (s.workOverdue = true ↔ need ≤ 20 * periods) ∧
      (served < need → exec .shapeCompareComplete s = .next s) ∧
      (min count 256 ≤ served ∨ need ≤ served → exec .shapeCompareComplete s = .next
        { s with store := { s.store with job := none, spare := min s.store.spare (served - need) },
                 link := { s.link with reply := some reply } })
    32 ≤ c ∧ c ≤ 256 ∧
    (∀ j < n, stored j ≠ controller j → (∀ k < j, stored k = controller k) →
      ends .done .none (if (stored j).toInt < (controller j).toInt then 1#8 else 2#8) j (stored j) (controller j)
        j (j + 1)) ∧
    ((∀ j < n, stored j = controller j) → n = pairs → ends .done .none 0#8 0 0#16 0#16 pairs pairs) ∧
    ((∀ j < n, stored j = controller j) → n < pairs → ends .partly .more 3#8 0 0#16 0#16 n n)

/-- TEMPLATE_DEFINE (R30, R49 to R56): refused RANGE where a structural check fails, else NOT_READY where a slot it would
name is not LOADED; else the entry holds the stored fields and keeps its refcount (0 where it was undefined), each
slot's refcount moves with the set of slots named, and the reply is DONE, CLAMPED where a value was clamped, with the
index, whether the entry was defined, and the refcount. Nothing else changes. -/
def Obligations.TemplateDefineStores : Prop :=
  ∀ (s : State) (tag : Byte) (w : TemplateWire), s.Listening →
    (TemplateOutOfRange w →
      exec (.templateDefine tag w) s = .next (s.replied 0x20#8 tag .refused .range [])) ∧
    (¬ TemplateOutOfRange w → ∃ content : Template, content.StoredFrom w ∧
      ((∃ k slot, content.Names k ∧ s.store.slots[k]? = some slot ∧ slot.state ≠ .loaded) →
        exec (.templateDefine tag w) s = .next (s.replied 0x20#8 tag .refused .notReady [])) ∧
      ((∀ k slot, content.Names k → s.store.slots[k]? = some slot → slot.state = .loaded) →
        ∃ detail t old, s.library[w.index.toNat]? = some old ∧
          (TemplateClamped w → detail = .clamped) ∧ (¬ TemplateClamped w → detail = .none) ∧
          exec (.templateDefine tag w) s = .next t ∧
          let refcount := (old.map TemplateEntry.refcount).getD 0
          let named (k : Nat) : Prop := ∃ e, old = some e ∧ e.template.Names k
          t = State.replied 0x20#8 tag .done detail
            ([w.index, if old = none then 0#8 else 1#8] ++ le16 (BitVec.ofNat 16 refcount))
            { s with
              library := s.library.setIfInBounds w.index.toNat
                (some { template := content, refcount := refcount }),
              store := { s.store with slots := t.store.slots } } ∧
          ∀ k slot, s.store.slots[k]? = some slot → ∃ count, t.store.slots[k]? = some { slot with refcount := count } ∧
            (content.Names k → ¬ named k → count = slot.refcount + 1) ∧
            (¬ content.Names k → named k → count = slot.refcount - 1) ∧
            ((content.Names k ↔ named k) → count = slot.refcount)))

/-- Stored values sent back unchanged reproduce the template with detail NONE (R55, R58): a template stored from a
carried one, as TEMPLATE_READ returns it and as a TEMPLATE_DEFINE reads it again, passes the structural checks, stores
the same fields and clamps nothing. -/
def Obligations.TemplateReadsBackAsDefined : Prop :=
  ∀ (w : TemplateWire) (content : Template) (tag tag' index : Byte),
    ¬ TemplateOutOfRange w → content.StoredFrom w → index.toNat ≤ 63 →
    ∃ back : TemplateWire, back.index = index ∧ ¬ TemplateOutOfRange back ∧ content.StoredFrom back ∧
      ¬ TemplateClamped back ∧
      ∀ (s : State) (count : Nat), s.Listening →
        s.library[index.toNat]? = some (some { template := content, refcount := count }) →
        exec (.templateRead tag index) s = .next (s.replied 0x22#8 tag .done .none
          (templateBytes back ++ le16 (BitVec.ofNat 16 count))) ∧
        parseRequest .templateDefine tag' (templateBytes back) = .request (.templateDefine tag' back)

/-- TEMPLATE_DELETE (R57) and PHRASE_DELETE (R70): refused RANGE, NOT_READY for an undefined entry, IN_USE while its
refcount is above 0, in that order; else the entry is undefined, each slot the template named loses one from its
refcount (R30), or the phrase's template and its predecessor each lose one, and the reply is DONE, NONE with the index.
Nothing else changes. -/
def Obligations.DeletesReleaseReferences : Prop :=
  ∀ (s : State) (tag index : Byte), s.Listening →
    (63 < index.toNat → exec (.templateDelete tag index) s = .next (s.replied 0x21#8 tag .refused .range [])) ∧
    (s.library[index.toNat]? = some none →
      exec (.templateDelete tag index) s = .next (s.replied 0x21#8 tag .refused .notReady [])) ∧
    (∀ e, s.library[index.toNat]? = some (some e) →
      (0 < e.refcount → exec (.templateDelete tag index) s = .next (s.replied 0x21#8 tag .refused .inUse [])) ∧
      (e.refcount = 0 → ∃ t, exec (.templateDelete tag index) s = .next t ∧
        t = State.replied 0x21#8 tag .done .none [index]
          { s with library := s.library.setIfInBounds index.toNat none,
                   store := { s.store with slots := t.store.slots } } ∧
        ∀ k slot, s.store.slots[k]? = some slot → ∃ count,
          t.store.slots[k]? = some { slot with refcount := count } ∧
          (e.template.Names k → count = slot.refcount - 1) ∧
          (¬ e.template.Names k → count = slot.refcount))) ∧
    (127 < index.toNat → exec (.phraseDelete tag index) s = .next (s.replied 0x29#8 tag .refused .range [])) ∧
    (s.phrases[index.toNat]? = some none →
      exec (.phraseDelete tag index) s = .next (s.replied 0x29#8 tag .refused .notReady [])) ∧
    ∀ e, s.phrases[index.toNat]? = some (some e) →
      (0 < e.refcount → exec (.phraseDelete tag index) s = .next (s.replied 0x29#8 tag .refused .inUse [])) ∧
      (e.refcount = 0 → ∃ t, exec (.phraseDelete tag index) s = .next t ∧
        t = State.replied 0x29#8 tag .done .none [index] { s with library := t.library, phrases := t.phrases } ∧
        t.phrases[index.toNat]? = some none ∧
        (∀ i, i ≠ index.toNat → t.phrases[i]? =
          (s.phrases[i]?).map (Option.map (PhraseEntry.counted fun n => if e.pred = some i then n - 1 else n))) ∧
        ∀ i, t.library[i]? =
          (s.library[i]?).map (Option.map (TemplateEntry.counted fun n => if e.template = i then n - 1 else n)))

/-- PHRASE_DEFINE (R67, R68, R69): the eight checks in their order; else the entry holds the carried predecessor and
template, its depth is 1 or one more than the predecessor's, its refcount 0; the counts of the old and new template, and
of the old and new predecessor, move by one where the two differ; the reply is DONE, NONE with the index, whether the
entry was defined, and the depth. Nothing else changes. -/
def Obligations.PhraseDefineStores : Prop :=
  ∀ (s : State) (tag index pred template : Byte), s.Listening →
    let refused (detail : Detail) : Prop :=
      exec (.phraseDefine tag index pred template) s = .next (s.replied 0x28#8 tag .refused detail [])
    let outOfRange : Prop := 127 < index.toNat ∨ 127 < pred.toNat ∧ pred ≠ 255#8 ∨ 63 < template.toNat
    (outOfRange → refused .range) ∧
    (¬ outOfRange → pred ≠ 255#8 → index.toNat ≤ pred.toNat → refused .order) ∧
    (¬ outOfRange → (pred = 255#8 ∨ pred.toNat < index.toNat) → ∀ old content before,
      s.phrases[index.toNat]? = some old → s.library[template.toNat]? = some content →
      (pred = 255#8 → before = none) → (pred ≠ 255#8 → s.phrases[pred.toNat]? = some before) →
      ((∃ e, old = some e ∧ 0 < e.refcount) → refused .inUse) ∧
      ((∀ e, old = some e → e.refcount = 0) →
        (pred ≠ 255#8 ∧ before = none ∨ content = none → refused .notReady) ∧
        ((pred = 255#8 ∨ before ≠ none) → content ≠ none →
          ((∃ q, before = some q ∧ q.depth = 32) → refused .depth) ∧
          ((∀ q, before = some q → q.depth ≠ 32) →
            let depth := (before.map PhraseEntry.depth).getD 0 + 1
            let q : Option Nat := if pred = 255#8 then none else some pred.toNat
            let oldPred : Option Nat := old.bind PhraseEntry.pred
            let oldTemplate : Option Nat := old.map PhraseEntry.template
            ∃ t, exec (.phraseDefine tag index pred template) s = .next t ∧
              t = State.replied 0x28#8 tag .done .none
                [index, if old = none then 0#8 else 1#8, BitVec.ofNat 8 depth]
                { s with library := t.library, phrases := t.phrases } ∧
              t.phrases[index.toNat]? =
                some (some { pred := q, template := template.toNat, depth := depth, refcount := 0 }) ∧
              (∀ i, i ≠ index.toNat → t.phrases[i]? =
                (s.phrases[i]?).map (Option.map (PhraseEntry.counted fun n =>
                  if q = some i ∧ oldPred ≠ some i then n + 1
                  else if oldPred = some i ∧ q ≠ some i then n - 1 else n))) ∧
              ∀ i, t.library[i]? =
                (s.library[i]?).map (Option.map (TemplateEntry.counted fun n =>
                  if template.toNat = i ∧ oldTemplate ≠ some i then n + 1
                  else if oldTemplate = some i ∧ template.toNat ≠ i then n - 1 else n))))))

/-- A phrase's expansion (R66, R78): where every predecessor lies below its phrase, a root's expansion is its template,
and any other phrase's is its predecessor's with its own template added at the end; where depths agree as well (R66),
the expansion is as long as the depth. -/
def Obligations.ExpansionFollowsChain : Prop :=
  ∀ s : State, (∀ (i : Nat) (e : PhraseEntry) (q : Nat), s.phrases[i]? = some (some e) → e.pred = some q → q < i) →
    (∀ (i : Nat) (e : PhraseEntry), s.phrases[i]? = some (some e) → e.pred = none → s.expansion i = [e.template]) ∧
    (∀ (i : Nat) (e : PhraseEntry) (q : Nat), s.phrases[i]? = some (some e) → e.pred = some q →
      s.expansion i = s.expansion q ++ [e.template]) ∧
    ((∀ (i : Nat) (e : PhraseEntry), s.phrases[i]? = some (some e) → e.pred = none → e.depth = 1) →
      (∀ (i : Nat) (e : PhraseEntry) (q : Nat), s.phrases[i]? = some (some e) → e.pred = some q →
        ∃ before, s.phrases[q]? = some (some before) ∧ e.depth = before.depth + 1) →
      ∀ (i : Nat) (e : PhraseEntry), s.phrases[i]? = some (some e) → (s.expansion i).length = e.depth)

/-- CUE_ADD (R84, R85, R87, R90, R91, R92, R97, R102): of the carried cues the longest run from the front that passes the
checks is accepted. With none, REFUSED with the first failure's detail, nothing changed. Else the accepted cues join the
back of the queue PENDING with consecutive serials, each raises its template's or phrase's refcount, HIGH_WATER is judged
on the rise, a staging may follow, and the reply (DONE, or PARTIAL with the failure's detail) carries the accepted count,
the first serial and the counts then. -/
def Obligations.CueAddJoins : Prop :=
  ∀ (s : State) (tag : Byte) (good rest : List CueWire) (bodies : List CueBody) (failure : Option Detail),
    s.Listening → 1 ≤ (good ++ rest).length → (good ++ rest).length ≤ 32 →
    (∀ (i : Nat) w, good[i]? = some w → ∀ detail, ¬ s.CueFails (s.queue.cues.length + i) w detail) →
    bodies.length = good.length →
    (∀ (i : Nat) w body, good[i]? = some w → bodies[i]? = some body → body.StoredFrom w) →
    (failure = none → rest = []) →
    (∀ detail, failure = some detail →
      ∃ w ws, rest = w :: ws ∧ s.CueFails (s.queue.cues.length + good.length) w detail) →
    (good = [] → ∀ detail, failure = some detail →
      exec (.cueAdd tag (good ++ rest)) s = .next (s.replied 0x30#8 tag .refused detail
        ([0#8] ++ le16 s.queue.nextSerial ++ le16 (BitVec.ofNat 16 (pendingCount s.queue.cues)) ++
          le16 (BitVec.ofNat 16 s.queue.cues.length)))) ∧
    (good ≠ [] → ∃ (joined : State) (new : List Cue) (detail : Detail),
      joined = { s with
        queue := { s.queue with cues := s.queue.cues ++ new,
                                nextSerial := s.queue.nextSerial + BitVec.ofNat 16 good.length },
        library := joined.library, phrases := joined.phrases, notices := joined.notices } ∧
      new.length = bodies.length ∧
      (∀ (i : Nat) body, bodies[i]? = some body →
        new[i]? = some { body := body, serial := s.queue.nextSerial + BitVec.ofNat 16 i, status := .pending }) ∧
      (∀ i : Nat, joined.library[i]? = (s.library[i]?).map (Option.map (TemplateEntry.counted fun n =>
        n + bodies.countP (CueBody.onTemplate i)))) ∧
      (∀ i : Nat, joined.phrases[i]? = (s.phrases[i]?).map (Option.map (PhraseEntry.counted fun n =>
        n + bodies.countP (CueBody.onPhrase i)))) ∧
      (∀ f, joined.latched f = true ↔ s.latched f = true ∨ f = .highWater ∧
        s.queue.cues.length < s.setup.highWater ∧ s.setup.highWater ≤ s.queue.cues.length + good.length) ∧
      joined.notices.masks = s.notices.masks ∧ joined.notices.enable = s.notices.enable ∧
      (∀ d, failure = some d → detail = d) ∧
      (failure = none → (∃ w ∈ good, ∃ v, w.duration = some (1#8, v) ∧ 3600000 < v.toNat) → detail = .clamped) ∧
      (failure = none → (∀ w ∈ good, ∀ v, w.duration = some (1#8, v) → v.toNat ≤ 3600000) → detail = .none) ∧
      exec (.cueAdd tag (good ++ rest)) s =
        .next (joined.stage.replied 0x30#8 tag (if failure = none then .done else .partly) detail
          ([BitVec.ofNat 8 good.length] ++ le16 s.queue.nextSerial ++
            le16 (BitVec.ofNat 16 (pendingCount joined.stage.queue.cues)) ++
            le16 (BitVec.ofNat 16 joined.stage.queue.cues.length))))

/-- A staging (R62, R75, R76, R77, R78, R79, R107): where the run state stages and the slot is empty, the EXPANDING cue's
next element, or else the oldest cue that is not SPENT, fills the slot: an end marker with phase NONE, or a step HELD,
copied from its template with the cue's overrides and its source. At the last element of its last repetition a cue
becomes SPENT and the context idle; before it the cue is EXPANDING. Elsewhere nothing is staged. That the slot's timeout
count is 0 is log entry 8. -/
def Obligations.StagingFillsTheSlot : Prop :=
  ∀ s : State,
    ((s.expander.slot ≠ .empty ∨
        s.seq.run ∈ [RunState.off, RunState.stopping, RunState.fault, RunState.disabled]) →
      s.fillSlot = s ∧ s.stage = s) ∧
    (s.expander.slot = .empty →
      s.seq.run ∈ [RunState.armed, RunState.active, RunState.waiting, RunState.starved, RunState.paused,
        RunState.parked] →
      (s.expander.context = none → (∀ c ∈ s.queue.cues, c.status = .spent) → s.fillSlot = s) ∧
      ∀ before c after, s.queue.cues = before ++ c :: after → (∀ x ∈ before, x.status = .spent) →
        c.status ≠ .spent →
        let kept (t : State) : Prop :=
          t.synth = s.synth ∧ t.ports = s.ports ∧ t.store = s.store ∧ t.monitor = s.monitor ∧
          t.results = s.results ∧ t.setup = s.setup ∧ t.link = s.link
        let held (t : State) : Prop :=
          t.seq = { s.seq with startPhase := .held, timeoutCount := 0 } ∧ kept t
        (∀ option, s.expander.context = none → c.body = .endRun option →
          s.Spends s.fillSlot before c after ∧
          s.fillSlot.expander = { s.expander with slot := .marker option } ∧
          s.fillSlot.seq = { s.seq with startPhase := .none, timeoutCount := 0 } ∧ kept s.fillSlot) ∧
        (∀ index rep duration start (context : Context) e,
          (s.expander.context = some context ∨ s.expander.context = none ∧
            context = { serial := c.serial, body := c.body, rep := 0, element := 0 }) →
          context.body = .template index rep duration start → s.library[index]? = some (some e) →
          ∃ content : Template,
            content = { e.template with duration := duration.getD e.template.duration,
                                        start := start.getD e.template.start } ∧
            held s.fillSlot ∧
            s.fillSlot.expander.slot = .step
              { content := content,
                source := { serial := context.serial, rep := context.rep, element := 0, template := index } } ∧
            s.fillSlot.expander.stack = [] ∧
            (context.rep + 1 < rep → s.Expands s.fillSlot before c after ∧
              s.fillSlot.expander.context = some { context with rep := context.rep + 1, element := 0 }) ∧
            (rep ≤ context.rep + 1 → s.Spends s.fillSlot before c after ∧
              s.fillSlot.expander.context = none)) ∧
        ∀ index rep (context : Context) template left e,
          (s.expander.context = some context ∨ s.expander.context = none ∧
            context = { serial := c.serial, body := c.body, rep := 0, element := 0 }) →
          context.body = .phrase index rep →
          (s.expander.stack = [] ∧ context.element = 0 ∧ s.expansion index = template :: left ∨
            s.expander.stack = template :: left) →
          s.library[template]? = some (some e) →
          held s.fillSlot ∧
          s.fillSlot.expander.slot = .step
            { content := e.template,
              source := { serial := context.serial, rep := context.rep, element := context.element,
                          template := template } } ∧
          s.fillSlot.expander.stack = left ∧
          (left ≠ [] → s.Expands s.fillSlot before c after ∧
            s.fillSlot.expander.context = some { context with element := context.element + 1 }) ∧
          (left = [] → context.rep + 1 < rep → s.Expands s.fillSlot before c after ∧
            s.fillSlot.expander.context = some { context with rep := context.rep + 1, element := 0 }) ∧
          (left = [] → rep ≤ context.rep + 1 → s.Spends s.fillSlot before c after ∧
            s.fillSlot.expander.context = none))

/-- What the run does with an item at its staging (R106, R107, R120, R121): a step staged in ARMED, or behind an open
step whose first sample has been produced, takes its initial phase; one staged in STARVED enters WAITING; an end marker
staged in ARMED ends the run in OFF, one staged in WAITING or STARVED is taken by its option (R79); anything else waits.
That a step staged in PAUSED behind such an open step takes its phase at once is log entry 13, and the timeout count of 0
at an initial phase log entry 8. -/
def Obligations.StagedItemIsActedOn : Prop :=
  ∀ s : State, s.expander.slot = .empty → s.stage = s.fillSlot.actOnStaged ∧
    ∀ u : State, u = s.fillSlot →
      (u.expander.slot = .empty → s.stage = u) ∧
      (∀ copy, u.expander.slot = .step copy →
        let open' : Prop := ∃ a, u.seq.active = some a ∧ a.begun = true ∧
          (a.copy.content.duration = .samples 0 ∨ a.copy.content.duration = .degrees 0)
        s.stage.expander = u.expander ∧ s.stage.queue = u.queue ∧ s.stage.synth = u.synth ∧
        s.stage.results = u.results ∧ s.stage.notices = u.notices ∧ s.stage.seq.active = u.seq.active ∧
        (u.seq.run = .armed → s.stage.seq.Begins copy.content.start ∧ s.stage.seq.run = .armed) ∧
        (u.seq.run = .starved → s.stage.seq.Begins copy.content.start ∧ s.stage.seq.run = .waiting) ∧
        ((u.seq.run = .active ∨ u.seq.run = .paused) → open' →
          s.stage.seq.Begins copy.content.start ∧ s.stage.seq.run = u.seq.run) ∧
        ((u.seq.run = .active ∨ u.seq.run = .paused) → ¬ open' → s.stage = u) ∧
        ((u.seq.run = .waiting ∨ u.seq.run = .parked) → s.stage = u)) ∧
      ∀ option, u.expander.slot = .marker option →
        (u.seq.run = .armed → s.stage.seq.run = .off ∧ s.stage.latched .runEnded = true ∧
          s.stage.expander.slot = .empty ∧ u.Rests s.stage ∧ s.stage.results = u.results) ∧
        (u.seq.run = .waiting ∨ u.seq.run = .starved → option = .off →
          s.stage.seq.run = .stopping ∧ s.stage.expander.slot = .empty ∧ u.Stops s.stage) ∧
        (u.seq.run = .waiting ∨ u.seq.run = .starved → option = .hold →
          s.stage.seq.run = .parked ∧ s.stage.latched .runEnded = true ∧ s.stage.synth = u.synth ∧ u.Parks s.stage) ∧
        (u.seq.run ≠ .armed → u.seq.run ≠ .waiting → u.seq.run ≠ .starved → s.stage = u)

/-- CUE_REWIND (R82, R99): refused STATE outside OFF and PARKED, MODE in STREAM mode; else the expander is reset, every
cue is PENDING in its place, the trial number is one higher modulo 256, and in PARKED a staging follows. RUN_CLEAR (R82,
R96, R101, R164): refused STATE outside OFF, FAULT and DISABLED; else the expander is reset, every cue leaves and
releases its refcount, the serials, the trial number and the result queue are cleared, and LOW_WATER is judged on the
fall. That the timeout count is 0 with the slot emptied is log entry 8. -/
def Obligations.RewindAndClear : Prop :=
  ∀ (s : State) (tag : Byte), s.Listening →
    let emptied : State :=
      { s with expander := { context := none, stack := [], slot := .empty },
               seq := { s.seq with startPhase := .none, timeoutCount := 0 },
               moments := { s.moments with timeout := false } }
    let pending : List Cue := s.queue.cues.map fun c => { c with status := .pending }
    let rewound : State := { emptied with queue := { s.queue with cues := pending, trial := s.queue.trial + 1#8 } }
    (s.seq.run ≠ .off → s.seq.run ≠ .parked →
      exec (.cueRewind tag) s = .next (s.replied 0x31#8 tag .refused .state [])) ∧
    ((s.seq.run = .off ∨ s.seq.run = .parked) → s.setup.queueMode = .stream →
      exec (.cueRewind tag) s = .next (s.replied 0x31#8 tag .refused .mode [])) ∧
    ((s.seq.run = .off ∨ s.seq.run = .parked) → s.setup.queueMode = .retain →
      exec (.cueRewind tag) s = .next (rewound.stage.replied 0x31#8 tag .done .none
        ([s.queue.trial + 1#8] ++ le16 (BitVec.ofNat 16 (pendingCount rewound.stage.queue.cues)))) ∧
      (s.seq.run = .off → rewound.stage = rewound)) ∧
    (s.seq.run ∉ [RunState.off, RunState.fault, RunState.disabled] →
      exec (.runClear tag) s = .next (s.replied 0x32#8 tag .refused .state [])) ∧
    (s.seq.run ∈ [RunState.off, RunState.fault, RunState.disabled] → ∃ t, exec (.runClear tag) s = .next t ∧
      t = State.replied 0x32#8 tag .done .none []
        { emptied with queue := { cues := [], nextSerial := 0#16, trial := 0#8 },
                       results := { records := [], nextSerial := 0#16, pendingGap := 0 },
                       library := t.library, phrases := t.phrases, notices := t.notices } ∧
      (∀ i : Nat, t.library[i]? = (s.library[i]?).map (Option.map (TemplateEntry.counted fun n =>
        n - s.queue.cues.countP fun c => c.body.onTemplate i))) ∧
      (∀ i : Nat, t.phrases[i]? = (s.phrases[i]?).map (Option.map (PhraseEntry.counted fun n =>
        n - s.queue.cues.countP fun c => c.body.onPhrase i))) ∧
      (∀ f, t.latched f = true ↔ s.latched f = true ∨
        f = .lowWater ∧ s.setup.lowWater < pendingCount s.queue.cues) ∧
      t.notices.masks = s.notices.masks ∧ t.notices.enable = s.notices.enable)

/-- RUN_START (R105, R106, R122): in OFF refused EMPTY with no cue pending, else the run enters ARMED and a staging
follows; in PARKED refused EMPTY with an empty slot, else the run enters WAITING, where a staged step takes its initial
phase and an end marker is taken at once, HOLD with the staging at the entry to PARKED (R79); elsewhere refused STATE. The
reply carries the run state after these moments. The timeout count of 0 at an initial phase is log entry 8. -/
def Obligations.RunStartArmsOrReleases : Prop :=
  ∀ (s : State) (tag : Byte), s.Listening →
    let refused (detail : Detail) : Prop :=
      exec (.runStart tag) s = .next (s.replied 0x38#8 tag .refused detail [])
    let taken (t : State) : Prop :=
      exec (.runStart tag) s = .next (t.replied 0x38#8 tag .done .none [t.seq.run.code])
    (s.seq.run ∉ [RunState.off, RunState.parked] → refused .state) ∧
    (s.seq.run = .off → pendingCount s.queue.cues = 0 → refused .empty) ∧
    (s.seq.run = .off → 0 < pendingCount s.queue.cues →
      taken (State.stage { s with seq := { s.seq with run := .armed, remembered := none } })) ∧
    (s.seq.run = .parked → s.expander.slot = .empty → refused .empty) ∧
    (s.seq.run = .parked → ∀ copy, s.expander.slot = .step copy → ∃ t, taken t ∧ t.seq.run = .waiting ∧
      t.seq.Begins copy.content.start ∧ t.seq.active = s.seq.active ∧ t.seq.debounce = s.seq.debounce ∧
      t = { s with seq := t.seq, moments := t.moments } ∧ t.moments.trip = s.moments.trip) ∧
    (s.seq.run = .parked → ∀ option, s.expander.slot = .marker option → ∃ t, taken t ∧
      (option = .off → t.seq.run = .stopping ∧ t.expander.slot = .empty ∧ s.Stops t ∧ t.queue = s.queue ∧
        t.notices = s.notices) ∧
      (option = .hold → t.seq.run = .parked ∧ t.latched .runEnded = true ∧ t.synth = s.synth ∧ s.Parks t) ∧
      t.results = s.results ∧ t.store = s.store ∧ t.monitor = s.monitor ∧ t.setup = s.setup)

/-- RUN_PAUSE (R124): taken in ACTIVE, WAITING and STARVED, the run is PAUSED and the state is remembered, all else kept;
refused STATE elsewhere. RUN_RESUME (R126): taken in PAUSED, the run returns to the remembered state; a closed step whose
duration is met ends then, else an expiry that waits is taken, else an item staged in STARVED is acted on; a step left
HELD behind an open step whose first sample has been produced takes its initial phase (log entry 13), with a timeout
count of 0 (log entry 8); refused STATE elsewhere. That the waiting expiry is taken whatever TRIG_TIMEOUT has become is
log entry 27, and that a waiting end or expiry is taken with the resume also where a trip is due is log entry 31. -/
def Obligations.PauseAndResume : Prop :=
  ∀ (s : State) (tag : Byte), s.Listening →
    (s.seq.run ∉ [RunState.active, RunState.waiting, RunState.starved] →
      exec (.runPause tag) s = .next (s.replied 0x39#8 tag .refused .state [])) ∧
    (∀ m : Remembered, s.seq.run = m.run → exec (.runPause tag) s =
      .next (State.replied 0x39#8 tag .done .none [m.run.code]
        { s with seq := { s.seq with run := .paused, remembered := some m } })) ∧
    (s.seq.run ≠ .paused → exec (.runResume tag) s = .next (s.replied 0x3A#8 tag .refused .state [])) ∧
    ∀ m : Remembered, s.seq.run = .paused → s.seq.remembered = some m →
      let back : State := { s with seq := { s.seq with run := m.run, remembered := none } }
      let met : Prop := m = .active ∧ ∃ a, s.seq.active = some a ∧
        ((∃ n, 1 ≤ n ∧ a.copy.content.duration = .samples n ∧ n ≤ a.elapsed) ∨
          ∃ v, 1 ≤ v ∧ a.copy.content.duration = .degrees v ∧ v * 2 ^ 32 / 3600 ≤ a.travel)
      let behindOpen : Prop := m = .active ∧ s.seq.startPhase = .held ∧ ∃ a, s.seq.active = some a ∧
        a.begun = true ∧ (a.copy.content.duration = .samples 0 ∨ a.copy.content.duration = .degrees 0)
      let taken (t : State) : Prop :=
        exec (.runResume tag) s = .next (t.replied 0x3A#8 tag .done .none [t.seq.run.code])
      (met → ∃ t, exec .stepEnd back = .next t ∧ taken t) ∧
      (¬ met → s.moments.timeout = true → ∃ t, exec .triggerTimeout back = .next t ∧ taken t) ∧
      (¬ met → s.moments.timeout = false → m = .starved → taken back.actOnStaged) ∧
      (¬ met → s.moments.timeout = false → m ≠ .starved → ¬ behindOpen → taken back) ∧
      (s.moments.timeout = false → behindOpen → ∀ copy, s.expander.slot = .step copy → ∃ t, taken t ∧
        t.seq.run = .active ∧ t.seq.Begins copy.content.start ∧ t = { back with seq := t.seq, moments := t.moments })

/-- RUN_FORCE with DISABLE (R127, R128, R131, R148): in DISABLED nothing changes; else the run is DISABLED at rest (R23,
R138), left early from a run in progress, the fault record cleared, RUN_ENDED not latched. With ABORT (R127, R129, R131):
refused STATE in OFF, FAULT and DISABLED; in STOPPING nothing changes; from ARMED the run is OFF with RUN_ENDED, else
STOPPING, left early. The lower actions of the set are not considered. The timeout count of 0 is log entry 8. -/
def Obligations.ForcedDisableAndAbort : Prop :=
  ∀ (s : State) (tag : Byte) (abortToo skipToo : Bool), s.Listening →
    let early : Prop := s.seq.run ∈ [RunState.armed, RunState.active, RunState.waiting, RunState.starved,
      RunState.paused, RunState.parked]
    let left (reason : EndReason) (t : State) : Prop :=
      t.RunLeft ∧ t.results = (s.handActive reason).results ∧ t.seq.timeoutCount = 0 ∧
      (s.expander.context = none → t.queue = s.queue ∧ t.library = s.library ∧ t.phrases = s.phrases) ∧
      (∀ context before c after, s.expander.context = some context → s.queue.cues = before ++ c :: after →
        (∀ x ∈ before, x.status = .spent) → c.status ≠ .spent → s.Spends t before c after)
    let kept (t : State) : Prop :=
      t.ports = s.ports ∧ t.store = s.store ∧ t.setup = s.setup ∧ t.pending = s.pending ∧
      t.seq.debounce = s.seq.debounce
    (s.seq.run = .disabled → exec (.runForceDisable tag abortToo skipToo) s =
      .next (s.replied 0x3B#8 tag .done .none [0#8, 9#8])) ∧
    (s.seq.run ≠ .disabled → ∃ t, exec (.runForceDisable tag abortToo skipToo) s = .next t ∧
      t.link = (s.replied 0x3B#8 tag .done .none [0#8, 9#8]).link ∧ t.seq.run = .disabled ∧ s.Rests t ∧ kept t ∧
      t.latched .runEnded = s.latched .runEnded ∧ (s.seq.run = .fault → t.monitor.fault = none) ∧
      (s.seq.run ≠ .fault → t.monitor.fault = s.monitor.fault) ∧
      (early → left .disabled t) ∧
      (¬ early → t.results = s.results ∧ t.queue = s.queue ∧ t.expander = s.expander ∧ t.notices = s.notices ∧
        t.library = s.library ∧ t.phrases = s.phrases)) ∧
    (s.seq.run ∈ [RunState.off, RunState.fault, RunState.disabled] → exec (.runForceAbort tag skipToo) s =
      .next (s.replied 0x3B#8 tag .refused .state [1#8, s.seq.run.code])) ∧
    (s.seq.run = .stopping → exec (.runForceAbort tag skipToo) s =
      .next (s.replied 0x3B#8 tag .done .none [1#8, 7#8])) ∧
    (early → ∃ t, exec (.runForceAbort tag skipToo) s = .next t ∧ kept t ∧ left .aborted t ∧
      (s.seq.run = .armed → t.seq.run = .off ∧ s.Rests t ∧ t.latched .runEnded = true ∧
        t.link = (s.replied 0x3B#8 tag .done .none [1#8, 0#8]).link) ∧
      (s.seq.run ≠ .armed → t.seq.run = .stopping ∧ s.Stops t ∧ t.latched .runEnded = s.latched .runEnded ∧
        t.monitor = s.monitor ∧ t.link = (s.replied 0x3B#8 tag .done .none [1#8, 7#8]).link))

/-- RUN_FORCE with SKIP (R127, R130): refused STATE outside ACTIVE and WAITING. In WAITING the staged step is DUE, its
timeout count as it was (log entry 8). In ACTIVE the step ends SKIPPED and its record is handed; behind a closed step,
and for a marker or an empty slot, the slot is treated as after an end (R117; HOLD with the staging of R79), and so is a
step still HELD behind an open one, before its first sample (log entry 14); a step behind an open one that has left HELD
keeps its phase and count, and waits in WAITING unless it is DUE. With no step active (its DUE successor not started)
nothing is ended (log entry 14). The timeout count of 0 at an initial phase is log entry 8. -/
def Obligations.ForcedSkip : Prop :=
  ∀ (s : State) (tag : Byte), s.Listening →
    (s.seq.run ≠ .active → s.seq.run ≠ .waiting →
      exec (.runForceSkip tag) s = .next (s.replied 0x3B#8 tag .refused .state [2#8, s.seq.run.code])) ∧
    (s.seq.run = .waiting → exec (.runForceSkip tag) s = .next (State.replied 0x3B#8 tag .done .none [2#8, 3#8]
      { s with seq := { s.seq with startPhase := .due }, moments := { s.moments with timeout := false } })) ∧
    (s.seq.run = .active → s.seq.active = none →
      exec (.runForceSkip tag) s = .next (s.replied 0x3B#8 tag .done .none [2#8, 2#8])) ∧
    ∀ a, s.seq.run = .active → s.seq.active = some a → ∃ t, exec (.runForceSkip tag) s = .next t ∧
      t.link = (s.replied 0x3B#8 tag .done .none [2#8, t.seq.run.code]).link ∧
      t.seq.active = none ∧ t.results = (s.handActive .skipped).results ∧
      t.ports = s.ports ∧ t.store = s.store ∧ t.monitor = s.monitor ∧ t.setup = s.setup ∧
      let isOpen : Prop := a.copy.content.duration = .samples 0 ∨ a.copy.content.duration = .degrees 0
      (∀ copy, s.expander.slot = .step copy → t.expander = s.expander ∧ t.queue = s.queue ∧ t.synth = s.synth ∧
        ((¬ isOpen ∨ s.seq.startPhase = .held) → t.seq.Begins copy.content.start ∧
          (copy.content.start = .follow → t.seq.run = .active) ∧
          (copy.content.start ≠ .follow → t.seq.run = .waiting)) ∧
        (isOpen → s.seq.startPhase ≠ .held → t.seq.startPhase = s.seq.startPhase ∧
          t.seq.timeoutCount = s.seq.timeoutCount ∧ t.seq.target = s.seq.target ∧
          (s.seq.startPhase = .due → t.seq.run = .active) ∧ (s.seq.startPhase ≠ .due → t.seq.run = .waiting))) ∧
      (s.expander.slot = .marker .off → t.seq.run = .stopping ∧ t.expander.slot = .empty ∧ s.Stops t) ∧
      (s.expander.slot = .marker .hold →
        t.seq.run = .parked ∧ t.latched .runEnded = true ∧ t.synth = s.synth ∧
          (s.handActive .skipped).Parks t) ∧
      (s.expander.slot = .empty →
        t.seq.run = .starved ∧ t.latched .starved = true ∧ t.synth = s.synth ∧ t.queue = s.queue)

/-- FAULT_CLEAR (R133, R148) is taken in FAULT alone: the run enters OFF at rest and the fault record is absent.
OUTPUT_ENABLE (R104) is taken in DISABLED alone: the run enters OFF at rest. Elsewhere each is refused STATE. RUN_ENDED
does not latch, and no record, cue or staged item changes. -/
def Obligations.FaultClearAndOutputEnable : Prop :=
  ∀ (s : State) (tag : Byte), s.Listening →
    let atRest (t : State) : Prop :=
      t.seq = { s.seq with run := .off, remembered := none } ∧ s.Rests t ∧
      t = { s with synth := t.synth, seq := t.seq, monitor := t.monitor, moments := t.moments, link := t.link }
    (s.seq.run ≠ .fault → exec (.faultClear tag) s = .next (s.replied 0x3C#8 tag .refused .state [])) ∧
    (s.seq.run = .fault → ∃ t, exec (.faultClear tag) s = .next t ∧ atRest t ∧ t.monitor.fault = none ∧
      t.link = (s.replied 0x3C#8 tag .done .none [0#8]).link) ∧
    (s.seq.run ≠ .disabled → exec (.outputEnable tag) s = .next (s.replied 0x3D#8 tag .refused .state [])) ∧
    (s.seq.run = .disabled → ∃ t, exec (.outputEnable tag) s = .next t ∧ atRest t ∧
      t.monitor.fault = s.monitor.fault ∧ t.link = (s.replied 0x3D#8 tag .done .none [0#8]).link)

/-- A record handed with fewer than 64 held is stored at the back with the next serial and any pending gap, and
RESULTS_READY latches where the count reaches its level (R157, R162); with 64 held it is dropped, the gap rises to at
most 65,535, and RESULTS_DROPPED latches (R158, R163). RESULT_READ (R160) is refused RANGE for a count of 0 or above 8;
else up to that many records leave from the front and are returned in order. A record's fields are given by their offsets
(spec 09, "Result record"): it takes 30 bytes, 10 more with a start, which stands before the end sample, and 2 more with a
gap, which stands last. -/
def Obligations.ResultsAreStoredAndRead : Prop :=
  (∀ (s : State) (body : ResultBody),
    (s.results.records.length < 64 → ∃ t, s.handResult body = t ∧
      t = { s with results := t.results, notices := t.notices } ∧
      t.results =
        { records := s.results.records ++
            [{ serial := s.results.nextSerial, body := body,
               gap := if s.results.pendingGap = 0 then none else some s.results.pendingGap }],
          nextSerial := s.results.nextSerial + 1#16, pendingGap := 0 } ∧
      ∀ f, t.latched f = true ↔ s.latched f = true ∨
        f = .resultsReady ∧ s.results.records.length + 1 = s.setup.resultNotify) ∧
    (64 ≤ s.results.records.length → ∃ t, s.handResult body = t ∧
      t = { s with results := { s.results with pendingGap := min 65535 (s.results.pendingGap + 1) },
                   notices := t.notices } ∧
      ∀ f, t.latched f = true ↔ s.latched f = true ∨ f = .resultsDropped)) ∧
  (∀ (s : State) (tag count : Byte), s.Listening →
    ((count = 0#8 ∨ 8 < count.toNat) →
      exec (.resultRead tag count) s = .next (s.replied 0x40#8 tag .refused .range [])) ∧
    (count ≠ 0#8 → count.toNat ≤ 8 → ∀ read left, s.results.records = read ++ left →
      read.length = min count.toNat s.results.records.length →
      exec (.resultRead tag count) s = .next (State.replied 0x40#8 tag .done .none
        ([BitVec.ofNat 8 read.length, BitVec.ofNat 8 left.length] ++
          le16 (BitVec.ofNat 16 s.results.pendingGap) ++ le16 s.results.nextSerial ++
          read.flatMap ResultRecord.bytes)
        { s with results := { s.results with records := left } }))) ∧
  ∀ r : ResultRecord,
    let source : Source := r.body.source
    let capture : PerPhase Capture := r.body.capture
    let fromEnd : List Byte := r.bytes.drop (if r.body.start.isSome then 20 else 10)
    r.bytes.length = 30 + (if r.body.start.isSome then 10 else 0) + (if r.gap.isSome then 2 else 0) ∧
    r.bytes.take 2 = le16 r.serial ∧ (r.bytes.drop 2).take 2 = le16 source.serial ∧
    (r.bytes.drop 4).take 5 = [BitVec.ofNat 8 source.rep, BitVec.ofNat 8 source.element,
      BitVec.ofNat 8 source.template, r.body.trial, match r.body.reason with
        | .complete => 0#8
        | .handedOver => 1#8
        | .skipped => 2#8
        | .aborted => 3#8
        | .tripped => 4#8
        | .disabled => 5#8
        | .timedOut => 6#8] ∧
    (r.bytes.drop 9).take 1 = [(if r.body.start.isSome then 1#8 else 0#8) ||| (if r.gap.isSome then 2#8 else 0#8) |||
      (if capture.a.clip then 4#8 else 0#8) ||| (if capture.b.clip then 8#8 else 0#8) |||
      (if capture.c.clip then 16#8 else 0#8)] ∧
    (∀ sample angle, r.body.start = some (sample, angle) →
      (r.bytes.drop 10).take 10 = le64 sample ++ le16 (BitVec.ofNat 16 angle)) ∧
    fromEnd.take 8 = le64 r.body.endSample ∧
    (∀ p : Phase, (fromEnd.drop (match p with | .a => 8 | .b => 12 | .c => 16)).take 4 =
      le16 (BitVec.ofNat 16 (capture.get p).peak) ++ le16 (BitVec.ofNat 16 (capture.get p).minGain)) ∧
    (∀ gap, r.gap = some gap → fromEnd.drop 20 = le16 (BitVec.ofNat 16 gap)) ∧
    (r.gap = none → fromEnd.drop 20 = [])

/-- The reset state meets every invariant below. -/
def Obligations.ResetMeetsInvariants : Prop :=
  State.reset.LinkOk ∧ State.reset.store.Ok ∧ State.reset.RunOk ∧ State.reset.QuietOk ∧
  State.reset.setup.InRange ∧ State.reset.results.Ok ∧ State.reset.ports.Ok ∧ State.reset.RefsOk ∧
  State.reset.CuesOk ∧ State.reset.SlotOk ∧ State.reset.LevelsOk

/-- Every step keeps the link's and the shape store's invariants (R26, R27, R33, R38, R171, R172, R173). -/
def Obligations.StepKeepsLinkAndStore : Prop :=
  ∀ s t : State, s.LinkOk → s.store.Ok → step s = .next t → t.LinkOk ∧ t.store.Ok

/-- Every step keeps the agreement of the run sequencer, the expander and the fault record (R75, R79, R103, R107, R119,
R147), and that of the cue queue and the expansion context: at most 256 cues, SPENT ones in RETAIN mode alone and before
the EXPANDING one, that one before the PENDING ones, and the context idle exactly while no cue is EXPANDING, else that
cue's (R74, R86, R93). With exact refcounts it keeps a staged step in ARMED and an empty slot in STARVED (R80, R106). -/
def Obligations.StepKeepsRun : Prop :=
  (∀ s t : State, s.RunOk → step s = .next t → t.RunOk) ∧
  (∀ s t : State, s.CuesOk → step s = .next t → t.CuesOk) ∧
  ∀ s t : State, s.RunOk → s.RefsOk → s.SlotOk → step s = .next t → t.SlotOk

/-- Every step keeps the synthesizer and the load monitor at rest while OUTEN is low, every parameter in its range, the
result queue within its bounds and the codes in theirs (R15, R16, R18, R23, R138, R156, R186). With the parameters in
range it keeps the running values in theirs: each primary amplitude in 0 to 15,000, each overlay amplitude in 0 to 3,000
and the tuning word in 1,717,987 to 19,327,353, with the start and the target of every ramp, each gain from GAIN_FLOOR to
32,768, and the templates in the library and in the slot, which the ramps take their targets from (R3, R18, R52, R53,
R54, R139, R142). -/
def Obligations.StepKeepsRestAndRanges : Prop :=
  (∀ s t : State, s.QuietOk → s.setup.InRange → s.results.Ok → s.ports.Ok → step s = .next t →
    t.QuietOk ∧ t.setup.InRange ∧ t.results.Ok ∧ t.ports.Ok) ∧
  ∀ s t : State, s.setup.InRange → s.LevelsOk → step s = .next t → t.LevelsOk

/-- Every step keeps every refcount exact: a slot's is the number of templates that name it (R30), a template's the
number of phrases and cues that name it (R59), a phrase's the number of phrases and cues that name it (R72), and nothing
defined names anything undefined (R61, R66, R73). -/
def Obligations.StepKeepsRefcounts : Prop :=
  ∀ s t : State, s.RefsOk → step s = .next t → t.RefsOk
end

