-- ==== Sys2Proof/Laws/State.lean ====
section
/-! SUPPORT. The plain updates of the state: for each, the fields of the state it leaves unchanged, true by
unfolding. -/

namespace Sys2Proof.Machine

/-- What `State.latch` leaves unchanged: all but notices. -/
@[simp] theorem State.latch_frame (n : Notice) (s : State) :
    (s.latch n).synth = s.synth ∧ (s.latch n).ports = s.ports ∧ (s.latch n).store = s.store ∧
    (s.latch n).library = s.library ∧ (s.latch n).phrases = s.phrases ∧ (s.latch n).queue = s.queue ∧
    (s.latch n).expander = s.expander ∧ (s.latch n).seq = s.seq ∧ (s.latch n).monitor = s.monitor ∧
    (s.latch n).results = s.results ∧ (s.latch n).setup = s.setup ∧ (s.latch n).link = s.link ∧
    (s.latch n).moments = s.moments ∧ (s.latch n).pending = s.pending := by
  simp [State.latch]

/-- What `State.setContext` leaves unchanged: all but expander. -/
@[simp] theorem State.setContext_frame (context : Option Context) (stack : List Nat) (s : State) :
    (s.setContext context stack).synth = s.synth ∧ (s.setContext context stack).ports = s.ports ∧
    (s.setContext context stack).store = s.store ∧ (s.setContext context stack).library = s.library ∧
    (s.setContext context stack).phrases = s.phrases ∧ (s.setContext context stack).queue = s.queue ∧
    (s.setContext context stack).seq = s.seq ∧ (s.setContext context stack).monitor = s.monitor ∧
    (s.setContext context stack).results = s.results ∧ (s.setContext context stack).notices = s.notices ∧
    (s.setContext context stack).setup = s.setup ∧ (s.setContext context stack).link = s.link ∧
    (s.setContext context stack).moments = s.moments ∧
    (s.setContext context stack).pending = s.pending := by
  simp [State.setContext]

/-- What `State.stageStep` leaves unchanged: all but expander, seq, moments. -/
@[simp] theorem State.stageStep_frame (copy : StepCopy) (s : State) :
    (s.stageStep copy).synth = s.synth ∧ (s.stageStep copy).ports = s.ports ∧
    (s.stageStep copy).store = s.store ∧ (s.stageStep copy).library = s.library ∧
    (s.stageStep copy).phrases = s.phrases ∧ (s.stageStep copy).queue = s.queue ∧
    (s.stageStep copy).monitor = s.monitor ∧ (s.stageStep copy).results = s.results ∧
    (s.stageStep copy).notices = s.notices ∧ (s.stageStep copy).setup = s.setup ∧
    (s.stageStep copy).link = s.link ∧ (s.stageStep copy).pending = s.pending := by
  simp [State.stageStep]

/-- What `State.stageMarker` leaves unchanged: all but expander, seq, moments. -/
@[simp] theorem State.stageMarker_frame (option : EndOption) (s : State) :
    (s.stageMarker option).synth = s.synth ∧ (s.stageMarker option).ports = s.ports ∧
    (s.stageMarker option).store = s.store ∧ (s.stageMarker option).library = s.library ∧
    (s.stageMarker option).phrases = s.phrases ∧ (s.stageMarker option).queue = s.queue ∧
    (s.stageMarker option).monitor = s.monitor ∧ (s.stageMarker option).results = s.results ∧
    (s.stageMarker option).notices = s.notices ∧ (s.stageMarker option).setup = s.setup ∧
    (s.stageMarker option).link = s.link ∧ (s.stageMarker option).pending = s.pending := by
  simp [State.stageMarker]

/-- What `State.clearSlot` leaves unchanged: all but expander, seq, moments. -/
@[simp] theorem State.clearSlot_frame (s : State) :
    (s.clearSlot).synth = s.synth ∧ (s.clearSlot).ports = s.ports ∧ (s.clearSlot).store = s.store ∧
    (s.clearSlot).library = s.library ∧ (s.clearSlot).phrases = s.phrases ∧ (s.clearSlot).queue = s.queue ∧
    (s.clearSlot).monitor = s.monitor ∧ (s.clearSlot).results = s.results ∧
    (s.clearSlot).notices = s.notices ∧ (s.clearSlot).setup = s.setup ∧ (s.clearSlot).link = s.link ∧
    (s.clearSlot).pending = s.pending := by
  simp [State.clearSlot]

/-- What `State.enterIdle` leaves unchanged: all but synth, seq, monitor, moments. -/
@[simp] theorem State.enterIdle_frame (run : RunState) (s : State) :
    (s.enterIdle run).ports = s.ports ∧ (s.enterIdle run).store = s.store ∧
    (s.enterIdle run).library = s.library ∧ (s.enterIdle run).phrases = s.phrases ∧
    (s.enterIdle run).queue = s.queue ∧ (s.enterIdle run).expander = s.expander ∧
    (s.enterIdle run).results = s.results ∧ (s.enterIdle run).notices = s.notices ∧
    (s.enterIdle run).setup = s.setup ∧ (s.enterIdle run).link = s.link ∧
    (s.enterIdle run).pending = s.pending := by
  simp [State.enterIdle]

/-- What `State.enterStopping` leaves unchanged: all but synth, seq. -/
@[simp] theorem State.enterStopping_frame (s : State) :
    (s.enterStopping).ports = s.ports ∧ (s.enterStopping).store = s.store ∧
    (s.enterStopping).library = s.library ∧ (s.enterStopping).phrases = s.phrases ∧
    (s.enterStopping).queue = s.queue ∧ (s.enterStopping).expander = s.expander ∧
    (s.enterStopping).monitor = s.monitor ∧ (s.enterStopping).results = s.results ∧
    (s.enterStopping).notices = s.notices ∧ (s.enterStopping).setup = s.setup ∧
    (s.enterStopping).link = s.link ∧ (s.enterStopping).moments = s.moments ∧
    (s.enterStopping).pending = s.pending := by
  simp [State.enterStopping]

/-- What `State.enterRun` leaves unchanged: all but seq. -/
@[simp] theorem State.enterRun_frame (run : RunState) (s : State) :
    (s.enterRun run).synth = s.synth ∧ (s.enterRun run).ports = s.ports ∧
    (s.enterRun run).store = s.store ∧ (s.enterRun run).library = s.library ∧
    (s.enterRun run).phrases = s.phrases ∧ (s.enterRun run).queue = s.queue ∧
    (s.enterRun run).expander = s.expander ∧ (s.enterRun run).monitor = s.monitor ∧
    (s.enterRun run).results = s.results ∧ (s.enterRun run).notices = s.notices ∧
    (s.enterRun run).setup = s.setup ∧ (s.enterRun run).link = s.link ∧
    (s.enterRun run).moments = s.moments ∧ (s.enterRun run).pending = s.pending := by
  simp [State.enterRun]

/-- What `State.beginEvaluation` leaves unchanged: all but seq, moments. -/
@[simp] theorem State.beginEvaluation_frame (copy : StepCopy) (s : State) :
    (s.beginEvaluation copy).synth = s.synth ∧ (s.beginEvaluation copy).ports = s.ports ∧
    (s.beginEvaluation copy).store = s.store ∧ (s.beginEvaluation copy).library = s.library ∧
    (s.beginEvaluation copy).phrases = s.phrases ∧ (s.beginEvaluation copy).queue = s.queue ∧
    (s.beginEvaluation copy).expander = s.expander ∧ (s.beginEvaluation copy).monitor = s.monitor ∧
    (s.beginEvaluation copy).results = s.results ∧ (s.beginEvaluation copy).notices = s.notices ∧
    (s.beginEvaluation copy).setup = s.setup ∧ (s.beginEvaluation copy).link = s.link ∧
    (s.beginEvaluation copy).pending = s.pending := by
  simp [State.beginEvaluation]

/-- What `State.setSlot` leaves unchanged: all but store. -/
@[simp] theorem State.setSlot_frame (index : Nat) (slot : Slot) (s : State) :
    (s.setSlot index slot).synth = s.synth ∧ (s.setSlot index slot).ports = s.ports ∧
    (s.setSlot index slot).library = s.library ∧ (s.setSlot index slot).phrases = s.phrases ∧
    (s.setSlot index slot).queue = s.queue ∧ (s.setSlot index slot).expander = s.expander ∧
    (s.setSlot index slot).seq = s.seq ∧ (s.setSlot index slot).monitor = s.monitor ∧
    (s.setSlot index slot).results = s.results ∧ (s.setSlot index slot).notices = s.notices ∧
    (s.setSlot index slot).setup = s.setup ∧ (s.setSlot index slot).link = s.link ∧
    (s.setSlot index slot).moments = s.moments ∧ (s.setSlot index slot).pending = s.pending := by
  simp [State.setSlot]

/-- What `State.beginWork` leaves unchanged: all but store. -/
@[simp] theorem State.beginWork_frame (work : ShapeWork) (s : State) :
    (s.beginWork work).synth = s.synth ∧ (s.beginWork work).ports = s.ports ∧
    (s.beginWork work).library = s.library ∧ (s.beginWork work).phrases = s.phrases ∧
    (s.beginWork work).queue = s.queue ∧ (s.beginWork work).expander = s.expander ∧
    (s.beginWork work).seq = s.seq ∧ (s.beginWork work).monitor = s.monitor ∧
    (s.beginWork work).results = s.results ∧ (s.beginWork work).notices = s.notices ∧
    (s.beginWork work).setup = s.setup ∧ (s.beginWork work).link = s.link ∧
    (s.beginWork work).moments = s.moments ∧ (s.beginWork work).pending = s.pending := by
  simp [State.beginWork]

/-- What `State.endWork` leaves unchanged: all but store. -/
@[simp] theorem State.endWork_frame (s : State) :
    (s.endWork).synth = s.synth ∧ (s.endWork).ports = s.ports ∧ (s.endWork).library = s.library ∧
    (s.endWork).phrases = s.phrases ∧ (s.endWork).queue = s.queue ∧ (s.endWork).expander = s.expander ∧
    (s.endWork).seq = s.seq ∧ (s.endWork).monitor = s.monitor ∧ (s.endWork).results = s.results ∧
    (s.endWork).notices = s.notices ∧ (s.endWork).setup = s.setup ∧ (s.endWork).link = s.link ∧
    (s.endWork).moments = s.moments ∧ (s.endWork).pending = s.pending := by
  simp [State.endWork]

/-- What `State.chooseAmount` leaves unchanged: all but moments. -/
@[simp] theorem State.chooseAmount_frame (s : State) :
    (s.chooseAmount).synth = s.synth ∧ (s.chooseAmount).ports = s.ports ∧ (s.chooseAmount).store = s.store ∧
    (s.chooseAmount).library = s.library ∧ (s.chooseAmount).phrases = s.phrases ∧
    (s.chooseAmount).queue = s.queue ∧ (s.chooseAmount).expander = s.expander ∧ (s.chooseAmount).seq = s.seq ∧
    (s.chooseAmount).monitor = s.monitor ∧ (s.chooseAmount).results = s.results ∧
    (s.chooseAmount).notices = s.notices ∧ (s.chooseAmount).setup = s.setup ∧ (s.chooseAmount).link = s.link ∧
    (s.chooseAmount).pending = s.pending := by
  simp [State.chooseAmount]

/-- What `State.moveSlotCounts` leaves unchanged: all but store. -/
@[simp] theorem State.moveSlotCounts_frame (old new : Option Template) (s : State) :
    (s.moveSlotCounts old new).synth = s.synth ∧ (s.moveSlotCounts old new).ports = s.ports ∧
    (s.moveSlotCounts old new).library = s.library ∧ (s.moveSlotCounts old new).phrases = s.phrases ∧
    (s.moveSlotCounts old new).queue = s.queue ∧ (s.moveSlotCounts old new).expander = s.expander ∧
    (s.moveSlotCounts old new).seq = s.seq ∧ (s.moveSlotCounts old new).monitor = s.monitor ∧
    (s.moveSlotCounts old new).results = s.results ∧ (s.moveSlotCounts old new).notices = s.notices ∧
    (s.moveSlotCounts old new).setup = s.setup ∧ (s.moveSlotCounts old new).link = s.link ∧
    (s.moveSlotCounts old new).moments = s.moments ∧ (s.moveSlotCounts old new).pending = s.pending := by
  simp [State.moveSlotCounts]

/-- What `State.applySetup` leaves unchanged: all but synth, monitor. -/
@[simp] theorem State.applySetup_frame (pairs : List (Byte × Word)) (s : State) :
    (s.applySetup pairs).ports = s.ports ∧ (s.applySetup pairs).store = s.store ∧
    (s.applySetup pairs).library = s.library ∧ (s.applySetup pairs).phrases = s.phrases ∧
    (s.applySetup pairs).queue = s.queue ∧ (s.applySetup pairs).expander = s.expander ∧
    (s.applySetup pairs).seq = s.seq ∧ (s.applySetup pairs).results = s.results ∧
    (s.applySetup pairs).notices = s.notices ∧ (s.applySetup pairs).setup = s.setup ∧
    (s.applySetup pairs).link = s.link ∧ (s.applySetup pairs).moments = s.moments ∧
    (s.applySetup pairs).pending = s.pending := by
  simp [State.applySetup]

/-- What `State.openRequest` leaves unchanged: all but link. -/
@[simp] theorem State.openRequest_frame (kind tag : Byte) (s : State) :
    (s.openRequest kind tag).synth = s.synth ∧ (s.openRequest kind tag).ports = s.ports ∧
    (s.openRequest kind tag).store = s.store ∧ (s.openRequest kind tag).library = s.library ∧
    (s.openRequest kind tag).phrases = s.phrases ∧ (s.openRequest kind tag).queue = s.queue ∧
    (s.openRequest kind tag).expander = s.expander ∧ (s.openRequest kind tag).seq = s.seq ∧
    (s.openRequest kind tag).monitor = s.monitor ∧ (s.openRequest kind tag).results = s.results ∧
    (s.openRequest kind tag).notices = s.notices ∧ (s.openRequest kind tag).setup = s.setup ∧
    (s.openRequest kind tag).moments = s.moments ∧ (s.openRequest kind tag).pending = s.pending := by
  simp [State.openRequest]

/-- What `State.setRx` leaves unchanged: all but link. -/
@[simp] theorem State.setRx_frame (rx : Receiver) (s : State) :
    (s.setRx rx).synth = s.synth ∧ (s.setRx rx).ports = s.ports ∧ (s.setRx rx).store = s.store ∧
    (s.setRx rx).library = s.library ∧ (s.setRx rx).phrases = s.phrases ∧ (s.setRx rx).queue = s.queue ∧
    (s.setRx rx).expander = s.expander ∧ (s.setRx rx).seq = s.seq ∧ (s.setRx rx).monitor = s.monitor ∧
    (s.setRx rx).results = s.results ∧ (s.setRx rx).notices = s.notices ∧ (s.setRx rx).setup = s.setup ∧
    (s.setRx rx).moments = s.moments ∧ (s.setRx rx).pending = s.pending := by
  simp [State.setRx]

/-- What `State.withPending` leaves unchanged: all but pending. -/
@[simp] theorem State.withPending_frame (queue : List Instr) (s : State) :
    (s.withPending queue).synth = s.synth ∧ (s.withPending queue).ports = s.ports ∧
    (s.withPending queue).store = s.store ∧ (s.withPending queue).library = s.library ∧
    (s.withPending queue).phrases = s.phrases ∧ (s.withPending queue).queue = s.queue ∧
    (s.withPending queue).expander = s.expander ∧ (s.withPending queue).seq = s.seq ∧
    (s.withPending queue).monitor = s.monitor ∧ (s.withPending queue).results = s.results ∧
    (s.withPending queue).notices = s.notices ∧ (s.withPending queue).setup = s.setup ∧
    (s.withPending queue).link = s.link ∧ (s.withPending queue).moments = s.moments := by
  simp [State.withPending]

/-- What `State.skipWaiting` leaves unchanged: all but seq, moments. -/
@[simp] theorem State.skipWaiting_frame (s : State) :
    (s.skipWaiting).synth = s.synth ∧ (s.skipWaiting).ports = s.ports ∧ (s.skipWaiting).store = s.store ∧
    (s.skipWaiting).library = s.library ∧ (s.skipWaiting).phrases = s.phrases ∧
    (s.skipWaiting).queue = s.queue ∧ (s.skipWaiting).expander = s.expander ∧
    (s.skipWaiting).monitor = s.monitor ∧ (s.skipWaiting).results = s.results ∧
    (s.skipWaiting).notices = s.notices ∧ (s.skipWaiting).setup = s.setup ∧ (s.skipWaiting).link = s.link ∧
    (s.skipWaiting).pending = s.pending := by
  simp [State.skipWaiting]

/-- What `State.takeEdge` leaves unchanged: all but seq, moments. -/
@[simp] theorem State.takeEdge_frame (s : State) :
    (s.takeEdge).synth = s.synth ∧ (s.takeEdge).ports = s.ports ∧ (s.takeEdge).store = s.store ∧
    (s.takeEdge).library = s.library ∧ (s.takeEdge).phrases = s.phrases ∧ (s.takeEdge).queue = s.queue ∧
    (s.takeEdge).expander = s.expander ∧ (s.takeEdge).monitor = s.monitor ∧
    (s.takeEdge).results = s.results ∧ (s.takeEdge).notices = s.notices ∧ (s.takeEdge).setup = s.setup ∧
    (s.takeEdge).link = s.link ∧ (s.takeEdge).pending = s.pending := by
  simp [State.takeEdge]

/-- What `State.resetExpander` leaves unchanged: all but expander, seq, moments. -/
@[simp] theorem State.resetExpander_frame (s : State) :
    (s.resetExpander).synth = s.synth ∧ (s.resetExpander).ports = s.ports ∧
    (s.resetExpander).store = s.store ∧ (s.resetExpander).library = s.library ∧
    (s.resetExpander).phrases = s.phrases ∧ (s.resetExpander).queue = s.queue ∧
    (s.resetExpander).monitor = s.monitor ∧ (s.resetExpander).results = s.results ∧
    (s.resetExpander).notices = s.notices ∧ (s.resetExpander).setup = s.setup ∧
    (s.resetExpander).link = s.link ∧ (s.resetExpander).pending = s.pending := by
  simp [State.resetExpander]

/-! ## What the plain updates change -/

/-- What staging a step changes. -/
@[simp] theorem State.stageStep_changes (copy : StepCopy) (s : State) :
    (s.stageStep copy).expander = { s.expander with slot := .step copy } ∧
    (s.stageStep copy).seq = { s.seq with startPhase := .held, timeoutCount := 0 } ∧
    (s.stageStep copy).moments = { s.moments with timeout := false } := by
  simp [State.stageStep]

/-- What staging an end marker changes. -/
@[simp] theorem State.stageMarker_changes (option : EndOption) (s : State) :
    (s.stageMarker option).expander = { s.expander with slot := .marker option } ∧
    (s.stageMarker option).seq = { s.seq with startPhase := .none, timeoutCount := 0 } ∧
    (s.stageMarker option).moments = { s.moments with timeout := false } := by
  simp [State.stageMarker]

/-- What emptying the staging slot changes. -/
@[simp] theorem State.clearSlot_changes (s : State) :
    s.clearSlot.expander = { s.expander with slot := .empty } ∧
    s.clearSlot.seq = { s.seq with startPhase := .none, timeoutCount := 0 } ∧
    s.clearSlot.moments = { s.moments with timeout := false } := by
  simp [State.clearSlot]

/-- What a new context and stack change. -/
@[simp] theorem State.setContext_changes (context : Option Context) (stack : List Nat) (s : State) :
    (s.setContext context stack).expander = { s.expander with context := context, stack := stack } := by
  simp [State.setContext]

/-- What resetting the expander changes. -/
@[simp] theorem State.resetExpander_changes (s : State) :
    s.resetExpander.expander = { context := none, stack := [], slot := .empty } ∧
    s.resetExpander.seq = { s.seq with startPhase := .none, timeoutCount := 0 } ∧
    s.resetExpander.moments = { s.moments with timeout := false } := by
  simp [State.resetExpander]

/-- What an entry to OFF, FAULT or DISABLED changes. -/
@[simp] theorem State.enterIdle_changes (run : RunState) (s : State) :
    (s.enterIdle run).synth = s.synth.quiet s.setup.nomFreq ∧
    (s.enterIdle run).seq = { s.seq with run := run, remembered := none } ∧
    (s.enterIdle run).monitor = s.monitor.rest ∧
    (s.enterIdle run).moments = { s.moments with trip := none } := by
  simp [State.enterIdle]

/-- What an entry to STOPPING changes. -/
@[simp] theorem State.enterStopping_changes (s : State) :
    s.enterStopping.synth =
      { s.synth with phases := s.synth.phases.map (SynthPhase.stop s.setup.stopRamp) } ∧
    s.enterStopping.seq = { s.seq with run := .stopping, remembered := none } := by
  simp [State.enterStopping]

/-- What another entry to a run state changes. -/
@[simp] theorem State.enterRun_changes (run : RunState) (s : State) :
    (s.enterRun run).seq = { s.seq with run := run, remembered := none } := by
  simp [State.enterRun]

/-- What the start of an evaluation changes. -/
@[simp] theorem State.beginEvaluation_changes (copy : StepCopy) (s : State) :
    (s.beginEvaluation copy).seq =
      { s.seq with startPhase := copy.content.start.initialPhase,
                   target := copy.content.start.target?.getD s.seq.target, timeoutCount := 0 } ∧
    (s.beginEvaluation copy).moments = s.moments.fresh := by
  simp [State.beginEvaluation]

/-- What latching a flag changes. -/
@[simp] theorem State.latch_changes (n : Notice) (s : State) :
    (s.latch n).notices = { s.notices with flags := s.notices.flags ||| (1#16 <<< n.bit) } := by
  simp [State.latch]

/-- What opening a request changes. -/
@[simp] theorem State.openRequest_changes (kind tag : Byte) (s : State) :
    (s.openRequest kind tag).link =
      { s.link with ready := false, inProgress := some (kind, tag), reply := none } := by
  simp [State.openRequest]

/-- What replacing the receiver's frame changes. -/
@[simp] theorem State.setRx_changes (rx : Receiver) (s : State) :
    (s.setRx rx).link = { s.link with rx := rx } := by
  simp [State.setRx]

/-- What the start of link-side work changes. -/
@[simp] theorem State.beginWork_changes (work : ShapeWork) (s : State) :
    (s.beginWork work).store =
      { s.store with job := some { work := work, served := s.store.spare, periods := 0 } } := by
  simp [State.beginWork]

/-- What the end of link-side work changes. -/
@[simp] theorem State.endWork_changes (s : State) :
    s.endWork.store = { s.store with job := none, spare := s.spareAfterWork } := by
  simp [State.endWork]

/-- What a new slot record changes. -/
@[simp] theorem State.setSlot_changes (index : Nat) (slot : Slot) (s : State) :
    (s.setSlot index slot).store = { s.store with slots := s.store.slots.setIfInBounds index slot } := by
  simp [State.setSlot]

/-- What a use of the check engine changes. -/
@[simp] theorem State.chooseAmount_changes (s : State) :
    s.chooseAmount.moments = { s.moments with engine := s.moments.engine + 1 } := by
  simp [State.chooseAmount]

/-- What another queue of commands changes. -/
@[simp] theorem State.withPending_changes (queue : List Instr) (s : State) :
    (s.withPending queue).pending = queue := by
  simp [State.withPending]

/-- What a forced skip in WAITING changes. -/
@[simp] theorem State.skipWaiting_changes (s : State) :
    s.skipWaiting.seq = { s.seq with startPhase := .due } ∧
    s.skipWaiting.moments = { s.moments with timeout := false } := by
  simp [State.skipWaiting]

end Sys2Proof.Machine
end

