-- ==== Sys2Proof/Laws/Ops.lean ====
section
/-! SUPPORT. The shared operations of Machine/Ops.lean: what each leaves unchanged, and what each does. -/

namespace Sys2Proof.Machine

/-- What `State.latchIf` leaves unchanged: all but notices. -/
@[simp] theorem State.latchIf_frame (cause : Bool) (n : Notice) (s : State) :
    (s.latchIf cause n).synth = s.synth ∧ (s.latchIf cause n).ports = s.ports ∧
    (s.latchIf cause n).store = s.store ∧ (s.latchIf cause n).library = s.library ∧
    (s.latchIf cause n).phrases = s.phrases ∧ (s.latchIf cause n).queue = s.queue ∧
    (s.latchIf cause n).expander = s.expander ∧ (s.latchIf cause n).seq = s.seq ∧
    (s.latchIf cause n).monitor = s.monitor ∧ (s.latchIf cause n).results = s.results ∧
    (s.latchIf cause n).setup = s.setup ∧ (s.latchIf cause n).link = s.link ∧
    (s.latchIf cause n).moments = s.moments ∧ (s.latchIf cause n).pending = s.pending := by
  unfold State.latchIf
  repeat' split
  all_goals simp

/-- What `State.handResult` leaves unchanged: all but results, notices. -/
@[simp] theorem State.handResult_frame (body : ResultBody) (s : State) :
    (s.handResult body).synth = s.synth ∧ (s.handResult body).ports = s.ports ∧
    (s.handResult body).store = s.store ∧ (s.handResult body).library = s.library ∧
    (s.handResult body).phrases = s.phrases ∧ (s.handResult body).queue = s.queue ∧
    (s.handResult body).expander = s.expander ∧ (s.handResult body).seq = s.seq ∧
    (s.handResult body).monitor = s.monitor ∧ (s.handResult body).setup = s.setup ∧
    (s.handResult body).link = s.link ∧ (s.handResult body).moments = s.moments ∧
    (s.handResult body).pending = s.pending := by
  unfold State.handResult
  by_cases h : s.results.records.length < Config.resultCapacity <;> simp [h]

/-- What `State.endActive` leaves unchanged: all but seq, results, notices. -/
@[simp] theorem State.endActive_frame (reason : EndReason) (s : State) :
    (s.endActive reason).synth = s.synth ∧ (s.endActive reason).ports = s.ports ∧
    (s.endActive reason).store = s.store ∧ (s.endActive reason).library = s.library ∧
    (s.endActive reason).phrases = s.phrases ∧ (s.endActive reason).queue = s.queue ∧
    (s.endActive reason).expander = s.expander ∧ (s.endActive reason).monitor = s.monitor ∧
    (s.endActive reason).setup = s.setup ∧ (s.endActive reason).link = s.link ∧
    (s.endActive reason).moments = s.moments ∧ (s.endActive reason).pending = s.pending := by
  unfold State.endActive
  repeat' split
  all_goals simp

/-- What `State.countTemplate` leaves unchanged: all but library. -/
@[simp] theorem State.countTemplate_frame (change : Nat → Nat) (index : Nat) (s : State) :
    (s.countTemplate change index).synth = s.synth ∧ (s.countTemplate change index).ports = s.ports ∧
    (s.countTemplate change index).store = s.store ∧ (s.countTemplate change index).phrases = s.phrases ∧
    (s.countTemplate change index).queue = s.queue ∧ (s.countTemplate change index).expander = s.expander ∧
    (s.countTemplate change index).seq = s.seq ∧ (s.countTemplate change index).monitor = s.monitor ∧
    (s.countTemplate change index).results = s.results ∧
    (s.countTemplate change index).notices = s.notices ∧ (s.countTemplate change index).setup = s.setup ∧
    (s.countTemplate change index).link = s.link ∧ (s.countTemplate change index).moments = s.moments ∧
    (s.countTemplate change index).pending = s.pending := by
  unfold State.countTemplate
  repeat' split
  all_goals simp

/-- What `State.countPhrase` leaves unchanged: all but phrases. -/
@[simp] theorem State.countPhrase_frame (change : Nat → Nat) (index : Nat) (s : State) :
    (s.countPhrase change index).synth = s.synth ∧ (s.countPhrase change index).ports = s.ports ∧
    (s.countPhrase change index).store = s.store ∧ (s.countPhrase change index).library = s.library ∧
    (s.countPhrase change index).queue = s.queue ∧ (s.countPhrase change index).expander = s.expander ∧
    (s.countPhrase change index).seq = s.seq ∧ (s.countPhrase change index).monitor = s.monitor ∧
    (s.countPhrase change index).results = s.results ∧ (s.countPhrase change index).notices = s.notices ∧
    (s.countPhrase change index).setup = s.setup ∧ (s.countPhrase change index).link = s.link ∧
    (s.countPhrase change index).moments = s.moments ∧
    (s.countPhrase change index).pending = s.pending := by
  unfold State.countPhrase
  repeat' split
  all_goals simp

/-- What `State.countCue` leaves unchanged: all but library, phrases. -/
@[simp] theorem State.countCue_frame (change : Nat → Nat) (body : CueBody) (s : State) :
    (s.countCue change body).synth = s.synth ∧ (s.countCue change body).ports = s.ports ∧
    (s.countCue change body).store = s.store ∧ (s.countCue change body).queue = s.queue ∧
    (s.countCue change body).expander = s.expander ∧ (s.countCue change body).seq = s.seq ∧
    (s.countCue change body).monitor = s.monitor ∧ (s.countCue change body).results = s.results ∧
    (s.countCue change body).notices = s.notices ∧ (s.countCue change body).setup = s.setup ∧
    (s.countCue change body).link = s.link ∧ (s.countCue change body).moments = s.moments ∧
    (s.countCue change body).pending = s.pending := by
  unfold State.countCue
  repeat' split
  all_goals simp

/-- What `State.setCues` leaves unchanged: all but queue, notices. -/
@[simp] theorem State.setCues_frame (cues : List Cue) (s : State) :
    (s.setCues cues).synth = s.synth ∧ (s.setCues cues).ports = s.ports ∧
    (s.setCues cues).store = s.store ∧ (s.setCues cues).library = s.library ∧
    (s.setCues cues).phrases = s.phrases ∧ (s.setCues cues).expander = s.expander ∧
    (s.setCues cues).seq = s.seq ∧ (s.setCues cues).monitor = s.monitor ∧
    (s.setCues cues).results = s.results ∧ (s.setCues cues).setup = s.setup ∧
    (s.setCues cues).link = s.link ∧ (s.setCues cues).moments = s.moments ∧
    (s.setCues cues).pending = s.pending := by
  simp [State.setCues]

/-- What `State.expandLive` leaves unchanged: all but queue, notices. -/
@[simp] theorem State.expandLive_frame (s : State) :
    (s.expandLive).synth = s.synth ∧ (s.expandLive).ports = s.ports ∧ (s.expandLive).store = s.store ∧
    (s.expandLive).library = s.library ∧ (s.expandLive).phrases = s.phrases ∧
    (s.expandLive).expander = s.expander ∧ (s.expandLive).seq = s.seq ∧
    (s.expandLive).monitor = s.monitor ∧ (s.expandLive).results = s.results ∧
    (s.expandLive).setup = s.setup ∧ (s.expandLive).link = s.link ∧ (s.expandLive).moments = s.moments ∧
    (s.expandLive).pending = s.pending := by
  simp [State.expandLive]

/-- What `State.spendLive` leaves unchanged: all but library, phrases, queue, notices. -/
@[simp] theorem State.spendLive_frame (s : State) :
    (s.spendLive).synth = s.synth ∧ (s.spendLive).ports = s.ports ∧ (s.spendLive).store = s.store ∧
    (s.spendLive).expander = s.expander ∧ (s.spendLive).seq = s.seq ∧ (s.spendLive).monitor = s.monitor ∧
    (s.spendLive).results = s.results ∧ (s.spendLive).setup = s.setup ∧ (s.spendLive).link = s.link ∧
    (s.spendLive).moments = s.moments ∧ (s.spendLive).pending = s.pending := by
  unfold State.spendLive
  repeat' split
  all_goals simp

/-- What `State.endRepetition` leaves unchanged: all but library, phrases, queue, expander, notices. -/
@[simp] theorem State.endRepetition_frame (context : Context) (rep : Nat) (s : State) :
    (s.endRepetition context rep).synth = s.synth ∧ (s.endRepetition context rep).ports = s.ports ∧
    (s.endRepetition context rep).store = s.store ∧ (s.endRepetition context rep).seq = s.seq ∧
    (s.endRepetition context rep).monitor = s.monitor ∧ (s.endRepetition context rep).results = s.results ∧
    (s.endRepetition context rep).setup = s.setup ∧ (s.endRepetition context rep).link = s.link ∧
    (s.endRepetition context rep).moments = s.moments ∧
    (s.endRepetition context rep).pending = s.pending := by
  unfold State.endRepetition
  repeat' split
  all_goals simp

/-- What `State.stageElement` leaves unchanged: all but library, phrases, queue, expander, seq, notices,
moments. -/
@[simp] theorem State.stageElement_frame (context : Context) (s : State) :
    (s.stageElement context).synth = s.synth ∧ (s.stageElement context).ports = s.ports ∧
    (s.stageElement context).store = s.store ∧ (s.stageElement context).monitor = s.monitor ∧
    (s.stageElement context).results = s.results ∧ (s.stageElement context).setup = s.setup ∧
    (s.stageElement context).link = s.link ∧ (s.stageElement context).pending = s.pending := by
  unfold State.stageElement
  repeat' split
  all_goals simp

/-- What `State.fillSlot` leaves unchanged: all but library, phrases, queue, expander, seq, notices, moments. -/
@[simp] theorem State.fillSlot_frame (s : State) :
    (s.fillSlot).synth = s.synth ∧ (s.fillSlot).ports = s.ports ∧ (s.fillSlot).store = s.store ∧
    (s.fillSlot).monitor = s.monitor ∧ (s.fillSlot).results = s.results ∧ (s.fillSlot).setup = s.setup ∧
    (s.fillSlot).link = s.link ∧ (s.fillSlot).pending = s.pending := by
  unfold State.fillSlot
  repeat' split
  all_goals simp

/-- What `State.discardExpansion` leaves unchanged: all but library, phrases, queue, expander, seq, notices,
moments. -/
@[simp] theorem State.discardExpansion_frame (s : State) :
    (s.discardExpansion).synth = s.synth ∧ (s.discardExpansion).ports = s.ports ∧
    (s.discardExpansion).store = s.store ∧ (s.discardExpansion).monitor = s.monitor ∧
    (s.discardExpansion).results = s.results ∧ (s.discardExpansion).setup = s.setup ∧
    (s.discardExpansion).link = s.link ∧ (s.discardExpansion).pending = s.pending := by
  unfold State.discardExpansion
  repeat' split
  all_goals simp

/-- What `State.takeMarker` leaves unchanged: all but synth, library, phrases, queue, expander, seq, monitor,
notices, moments. -/
@[simp] theorem State.takeMarker_frame (option : EndOption) (s : State) :
    (s.takeMarker option).ports = s.ports ∧ (s.takeMarker option).store = s.store ∧
    (s.takeMarker option).results = s.results ∧ (s.takeMarker option).setup = s.setup ∧
    (s.takeMarker option).link = s.link ∧ (s.takeMarker option).pending = s.pending := by
  unfold State.takeMarker
  repeat' split
  all_goals simp

/-- What `State.actOnStaged` leaves unchanged: all but synth, library, phrases, queue, expander, seq,
monitor, notices, moments. -/
@[simp] theorem State.actOnStaged_frame (s : State) :
    (s.actOnStaged).ports = s.ports ∧ (s.actOnStaged).store = s.store ∧
    (s.actOnStaged).results = s.results ∧ (s.actOnStaged).setup = s.setup ∧ (s.actOnStaged).link = s.link ∧
    (s.actOnStaged).pending = s.pending := by
  unfold State.actOnStaged
  repeat' split
  all_goals simp

/-- What `State.stage` leaves unchanged: all but synth, library, phrases, queue, expander, seq, monitor,
notices, moments. -/
@[simp] theorem State.stage_frame (s : State) :
    (s.stage).ports = s.ports ∧ (s.stage).store = s.store ∧ (s.stage).results = s.results ∧
    (s.stage).setup = s.setup ∧ (s.stage).link = s.link ∧ (s.stage).pending = s.pending := by
  unfold State.stage
  repeat' split
  all_goals simp

/-- What `State.afterEnd` leaves unchanged: all but synth, library, phrases, queue, expander, seq, monitor,
notices, moments. -/
@[simp] theorem State.afterEnd_frame (s : State) :
    (s.afterEnd).ports = s.ports ∧ (s.afterEnd).store = s.store ∧ (s.afterEnd).results = s.results ∧
    (s.afterEnd).setup = s.setup ∧ (s.afterEnd).link = s.link ∧ (s.afterEnd).pending = s.pending := by
  unfold State.afterEnd
  repeat' split
  all_goals simp

/-- What `State.enterEnd` leaves unchanged: all but synth, seq, monitor, moments. -/
@[simp] theorem State.enterEnd_frame (run : RunState) (s : State) :
    (s.enterEnd run).ports = s.ports ∧ (s.enterEnd run).store = s.store ∧
    (s.enterEnd run).library = s.library ∧ (s.enterEnd run).phrases = s.phrases ∧
    (s.enterEnd run).queue = s.queue ∧ (s.enterEnd run).expander = s.expander ∧
    (s.enterEnd run).results = s.results ∧ (s.enterEnd run).notices = s.notices ∧
    (s.enterEnd run).setup = s.setup ∧ (s.enterEnd run).link = s.link ∧
    (s.enterEnd run).pending = s.pending := by
  unfold State.enterEnd
  repeat' split
  all_goals simp

/-- What `State.handTimedOut` leaves unchanged: all but results, notices. -/
@[simp] theorem State.handTimedOut_frame (s : State) :
    (s.handTimedOut).synth = s.synth ∧ (s.handTimedOut).ports = s.ports ∧
    (s.handTimedOut).store = s.store ∧ (s.handTimedOut).library = s.library ∧
    (s.handTimedOut).phrases = s.phrases ∧ (s.handTimedOut).queue = s.queue ∧
    (s.handTimedOut).expander = s.expander ∧ (s.handTimedOut).seq = s.seq ∧
    (s.handTimedOut).monitor = s.monitor ∧ (s.handTimedOut).setup = s.setup ∧
    (s.handTimedOut).link = s.link ∧ (s.handTimedOut).moments = s.moments ∧
    (s.handTimedOut).pending = s.pending := by
  unfold State.handTimedOut
  repeat' split
  all_goals simp

/-- What `State.leaveEarly` leaves unchanged: all but synth, library, phrases, queue, expander, seq, monitor,
results, notices, moments. -/
@[simp] theorem State.leaveEarly_frame (reason : EndReason) (run : RunState) (s : State) :
    (s.leaveEarly reason run).ports = s.ports ∧ (s.leaveEarly reason run).store = s.store ∧
    (s.leaveEarly reason run).setup = s.setup ∧ (s.leaveEarly reason run).link = s.link ∧
    (s.leaveEarly reason run).pending = s.pending := by
  simp [State.leaveEarly]

/-- What `State.leaveTimedOut` leaves unchanged: all but synth, library, phrases, queue, expander, seq,
monitor, results, notices, moments. -/
@[simp] theorem State.leaveTimedOut_frame (run : RunState) (s : State) :
    (s.leaveTimedOut run).ports = s.ports ∧ (s.leaveTimedOut run).store = s.store ∧
    (s.leaveTimedOut run).setup = s.setup ∧ (s.leaveTimedOut run).link = s.link ∧
    (s.leaveTimedOut run).pending = s.pending := by
  simp [State.leaveTimedOut]

/-- What `State.answer` leaves unchanged: all but link. -/
@[simp] theorem State.answer_frame (outcome : ReplyOutcome) (detail : Detail) (payload : List Byte) (s : State) :
    (s.answer outcome detail payload).synth = s.synth ∧ (s.answer outcome detail payload).ports = s.ports ∧
    (s.answer outcome detail payload).store = s.store ∧
    (s.answer outcome detail payload).library = s.library ∧
    (s.answer outcome detail payload).phrases = s.phrases ∧
    (s.answer outcome detail payload).queue = s.queue ∧
    (s.answer outcome detail payload).expander = s.expander ∧
    (s.answer outcome detail payload).seq = s.seq ∧ (s.answer outcome detail payload).monitor = s.monitor ∧
    (s.answer outcome detail payload).results = s.results ∧
    (s.answer outcome detail payload).notices = s.notices ∧
    (s.answer outcome detail payload).setup = s.setup ∧
    (s.answer outcome detail payload).moments = s.moments ∧
    (s.answer outcome detail payload).pending = s.pending := by
  unfold State.answer
  repeat' split
  all_goals simp

/-- What `State.done` leaves unchanged: all but link. -/
@[simp] theorem State.done_frame (detail : Detail) (payload : List Byte) (s : State) :
    (s.done detail payload).synth = s.synth ∧ (s.done detail payload).ports = s.ports ∧
    (s.done detail payload).store = s.store ∧ (s.done detail payload).library = s.library ∧
    (s.done detail payload).phrases = s.phrases ∧ (s.done detail payload).queue = s.queue ∧
    (s.done detail payload).expander = s.expander ∧ (s.done detail payload).seq = s.seq ∧
    (s.done detail payload).monitor = s.monitor ∧ (s.done detail payload).results = s.results ∧
    (s.done detail payload).notices = s.notices ∧ (s.done detail payload).setup = s.setup ∧
    (s.done detail payload).moments = s.moments ∧ (s.done detail payload).pending = s.pending := by
  simp [State.done]

/-- What `State.refuse` leaves unchanged: all but link. -/
@[simp] theorem State.refuse_frame (detail : Detail) (s : State) :
    (s.refuse detail).synth = s.synth ∧ (s.refuse detail).ports = s.ports ∧
    (s.refuse detail).store = s.store ∧ (s.refuse detail).library = s.library ∧
    (s.refuse detail).phrases = s.phrases ∧ (s.refuse detail).queue = s.queue ∧
    (s.refuse detail).expander = s.expander ∧ (s.refuse detail).seq = s.seq ∧
    (s.refuse detail).monitor = s.monitor ∧ (s.refuse detail).results = s.results ∧
    (s.refuse detail).notices = s.notices ∧ (s.refuse detail).setup = s.setup ∧
    (s.refuse detail).moments = s.moments ∧ (s.refuse detail).pending = s.pending := by
  simp [State.refuse]

/-! ## What the shared operations do -/

/-- The end of the active step leaves no active step record, and nothing else of the sequencer changes. -/
@[simp] theorem State.endActive_seq (reason : EndReason) (s : State) :
    (s.endActive reason).seq = { s.seq with active := none } := by
  unfold State.endActive
  split <;> simp_all
  rename_i h
  cases hs : s.seq
  simp_all

/-- The end of a repetition leaves the slot; it leaves no context after the last repetition, and an empty stack
whatever the repetition. -/
@[simp] theorem State.endRepetition_expander (context : Context) (rep : Nat) (s : State) :
    (s.endRepetition context rep).expander =
      { s.expander with
        context := if context.rep + 1 < rep then some { context with rep := context.rep + 1, element := 0 }
          else none,
        stack := [] } := by
  unfold State.endRepetition
  split <;> simp [*]

/-- What a staging can do (R76 to R79): nothing, or fill the empty slot with a step in phase HELD, or with an end
marker that leaves no context; with no context left there is no stack. -/
def State.Filled (s t : State) : Prop :=
  t.seq = { s.seq with startPhase := t.seq.startPhase, timeoutCount := 0 } ∧
  t.moments = { s.moments with timeout := false } ∧
  ((∃ copy, t.expander.slot = .step copy ∧ t.seq.startPhase = .held ∧
      (t.expander.context = none → t.expander.stack = [])) ∨
   (∃ o, t.expander.slot = .marker o ∧ t.seq.startPhase = .none ∧
      t.expander.context = s.expander.context ∧ t.expander.stack = s.expander.stack))

/-- What the staging of an element can do. -/
theorem State.stageElement_cases (context : Context) (s : State) :
    s.stageElement context = s ∨ State.Filled s (s.stageElement context) := by
  unfold State.stageElement
  split
  · split
    · exact .inl rfl
    · right; simp [State.Filled]
  · split
    · exact .inl rfl
    · split
      · exact .inl rfl
      · right
        dsimp only
        split <;> simp [State.Filled]
  · exact .inl rfl

/-- What a staging can do: nothing, or fill the slot, which was empty, in a run state that stages. An end marker is
staged with no context. -/
theorem State.fillSlot_cases (s : State) :
    s.fillSlot = s ∨
    (s.seq.run.stages = true ∧ s.expander.slot = .empty ∧ State.Filled s s.fillSlot ∧
      ((∃ o, s.fillSlot.expander.slot = .marker o) → s.expander.context = none)) := by
  have element (context : Context) (h : s.seq.run.stages = true) (he : s.expander.slot = .empty) :
      s.stageElement context = s ∨
      (s.seq.run.stages = true ∧ s.expander.slot = .empty ∧ State.Filled s (s.stageElement context) ∧
        ((∃ o, (s.stageElement context).expander.slot = .marker o) → s.expander.context = none)) := by
    rcases s.stageElement_cases context with e | f
    · exact .inl e
    · refine .inr ⟨h, he, f, ?_⟩
      rintro ⟨o, ho⟩
      exfalso
      revert ho
      unfold State.stageElement
      (repeat' split) <;> simp_all
  unfold State.fillSlot
  split
  · rename_i h
    simp only [Bool.and_eq_true, beq_iff_eq] at h
    split
    · exact element _ h.1 h.2
    · rename_i hc
      split
      · exact .inl rfl
      · split
        · right; simp [State.Filled, h, hc]
        · exact element _ h.1 h.2
        · exact element _ h.1 h.2
  · exact .inl rfl

end Sys2Proof.Machine
end

