-- ==== Sys2Proof/Laws/Requests.lean ====
section
/-! SUPPORT. The requests of every block but the run sequencer: what each leaves unchanged. -/

namespace Sys2Proof.Machine

/-- What `State.takeIdentify` leaves unchanged: all but link. -/
@[simp] theorem State.takeIdentify_frame (s : State) :
    (s.takeIdentify).synth = s.synth ∧ (s.takeIdentify).ports = s.ports ∧
    (s.takeIdentify).store = s.store ∧ (s.takeIdentify).library = s.library ∧
    (s.takeIdentify).phrases = s.phrases ∧ (s.takeIdentify).queue = s.queue ∧
    (s.takeIdentify).expander = s.expander ∧ (s.takeIdentify).seq = s.seq ∧
    (s.takeIdentify).monitor = s.monitor ∧ (s.takeIdentify).results = s.results ∧
    (s.takeIdentify).notices = s.notices ∧ (s.takeIdentify).setup = s.setup ∧
    (s.takeIdentify).moments = s.moments ∧ (s.takeIdentify).pending = s.pending := by
  simp [State.takeIdentify]

/-- What `State.takeStatus` leaves unchanged: all but link. -/
@[simp] theorem State.takeStatus_frame (s : State) :
    (s.takeStatus).synth = s.synth ∧ (s.takeStatus).ports = s.ports ∧ (s.takeStatus).store = s.store ∧
    (s.takeStatus).library = s.library ∧ (s.takeStatus).phrases = s.phrases ∧
    (s.takeStatus).queue = s.queue ∧ (s.takeStatus).expander = s.expander ∧ (s.takeStatus).seq = s.seq ∧
    (s.takeStatus).monitor = s.monitor ∧ (s.takeStatus).results = s.results ∧
    (s.takeStatus).notices = s.notices ∧ (s.takeStatus).setup = s.setup ∧
    (s.takeStatus).moments = s.moments ∧ (s.takeStatus).pending = s.pending := by
  simp [State.takeStatus]

/-- What `State.takeReset` leaves unchanged: all but link. -/
@[simp] theorem State.takeReset_frame (s : State) :
    (s.takeReset).synth = s.synth ∧ (s.takeReset).ports = s.ports ∧ (s.takeReset).store = s.store ∧
    (s.takeReset).library = s.library ∧ (s.takeReset).phrases = s.phrases ∧ (s.takeReset).queue = s.queue ∧
    (s.takeReset).expander = s.expander ∧ (s.takeReset).seq = s.seq ∧ (s.takeReset).monitor = s.monitor ∧
    (s.takeReset).results = s.results ∧ (s.takeReset).notices = s.notices ∧ (s.takeReset).setup = s.setup ∧
    (s.takeReset).moments = s.moments ∧ (s.takeReset).pending = s.pending := by
  simp [State.takeReset]

/-- What `State.takeSetupWrite` leaves unchanged: all but synth, monitor, setup, link. -/
@[simp] theorem State.takeSetupWrite_frame (pairs : List (Byte × Word)) (s : State) :
    (s.takeSetupWrite pairs).ports = s.ports ∧ (s.takeSetupWrite pairs).store = s.store ∧
    (s.takeSetupWrite pairs).library = s.library ∧ (s.takeSetupWrite pairs).phrases = s.phrases ∧
    (s.takeSetupWrite pairs).queue = s.queue ∧ (s.takeSetupWrite pairs).expander = s.expander ∧
    (s.takeSetupWrite pairs).seq = s.seq ∧ (s.takeSetupWrite pairs).results = s.results ∧
    (s.takeSetupWrite pairs).notices = s.notices ∧ (s.takeSetupWrite pairs).moments = s.moments ∧
    (s.takeSetupWrite pairs).pending = s.pending := by
  unfold State.takeSetupWrite
  repeat' split
  all_goals simp

/-- What `State.takeSetupRead` leaves unchanged: all but link. -/
@[simp] theorem State.takeSetupRead_frame (ids : List Byte) (s : State) :
    (s.takeSetupRead ids).synth = s.synth ∧ (s.takeSetupRead ids).ports = s.ports ∧
    (s.takeSetupRead ids).store = s.store ∧ (s.takeSetupRead ids).library = s.library ∧
    (s.takeSetupRead ids).phrases = s.phrases ∧ (s.takeSetupRead ids).queue = s.queue ∧
    (s.takeSetupRead ids).expander = s.expander ∧ (s.takeSetupRead ids).seq = s.seq ∧
    (s.takeSetupRead ids).monitor = s.monitor ∧ (s.takeSetupRead ids).results = s.results ∧
    (s.takeSetupRead ids).notices = s.notices ∧ (s.takeSetupRead ids).setup = s.setup ∧
    (s.takeSetupRead ids).moments = s.moments ∧ (s.takeSetupRead ids).pending = s.pending := by
  unfold State.takeSetupRead
  repeat' split
  all_goals simp

/-- What `State.takeNoticeRead` leaves unchanged: all but link. -/
@[simp] theorem State.takeNoticeRead_frame (s : State) :
    (s.takeNoticeRead).synth = s.synth ∧ (s.takeNoticeRead).ports = s.ports ∧
    (s.takeNoticeRead).store = s.store ∧ (s.takeNoticeRead).library = s.library ∧
    (s.takeNoticeRead).phrases = s.phrases ∧ (s.takeNoticeRead).queue = s.queue ∧
    (s.takeNoticeRead).expander = s.expander ∧ (s.takeNoticeRead).seq = s.seq ∧
    (s.takeNoticeRead).monitor = s.monitor ∧ (s.takeNoticeRead).results = s.results ∧
    (s.takeNoticeRead).notices = s.notices ∧ (s.takeNoticeRead).setup = s.setup ∧
    (s.takeNoticeRead).moments = s.moments ∧ (s.takeNoticeRead).pending = s.pending := by
  unfold State.takeNoticeRead
  repeat' split
  all_goals simp

/-- What `State.takeNoticeClear` leaves unchanged: all but notices, link. -/
@[simp] theorem State.takeNoticeClear_frame (flagSet : Half) (s : State) :
    (s.takeNoticeClear flagSet).synth = s.synth ∧ (s.takeNoticeClear flagSet).ports = s.ports ∧
    (s.takeNoticeClear flagSet).store = s.store ∧ (s.takeNoticeClear flagSet).library = s.library ∧
    (s.takeNoticeClear flagSet).phrases = s.phrases ∧ (s.takeNoticeClear flagSet).queue = s.queue ∧
    (s.takeNoticeClear flagSet).expander = s.expander ∧ (s.takeNoticeClear flagSet).seq = s.seq ∧
    (s.takeNoticeClear flagSet).monitor = s.monitor ∧ (s.takeNoticeClear flagSet).results = s.results ∧
    (s.takeNoticeClear flagSet).setup = s.setup ∧ (s.takeNoticeClear flagSet).moments = s.moments ∧
    (s.takeNoticeClear flagSet).pending = s.pending := by
  simp [State.takeNoticeClear]

/-- What `State.takeNoticeMask` leaves unchanged: all but notices, link. -/
@[simp] theorem State.takeNoticeMask_frame (masks : Half) (enable : Byte) (s : State) :
    (s.takeNoticeMask masks enable).synth = s.synth ∧ (s.takeNoticeMask masks enable).ports = s.ports ∧
    (s.takeNoticeMask masks enable).store = s.store ∧ (s.takeNoticeMask masks enable).library = s.library ∧
    (s.takeNoticeMask masks enable).phrases = s.phrases ∧ (s.takeNoticeMask masks enable).queue = s.queue ∧
    (s.takeNoticeMask masks enable).expander = s.expander ∧ (s.takeNoticeMask masks enable).seq = s.seq ∧
    (s.takeNoticeMask masks enable).monitor = s.monitor ∧
    (s.takeNoticeMask masks enable).results = s.results ∧ (s.takeNoticeMask masks enable).setup = s.setup ∧
    (s.takeNoticeMask masks enable).moments = s.moments ∧
    (s.takeNoticeMask masks enable).pending = s.pending := by
  unfold State.takeNoticeMask
  repeat' split
  all_goals simp

/-- What `State.clearShape` leaves unchanged: all but store, link. -/
@[simp] theorem State.clearShape_frame (state : SlotState) (slot : Byte) (s : State) :
    (s.clearShape state slot).synth = s.synth ∧ (s.clearShape state slot).ports = s.ports ∧
    (s.clearShape state slot).library = s.library ∧ (s.clearShape state slot).phrases = s.phrases ∧
    (s.clearShape state slot).queue = s.queue ∧ (s.clearShape state slot).expander = s.expander ∧
    (s.clearShape state slot).seq = s.seq ∧ (s.clearShape state slot).monitor = s.monitor ∧
    (s.clearShape state slot).results = s.results ∧ (s.clearShape state slot).notices = s.notices ∧
    (s.clearShape state slot).setup = s.setup ∧ (s.clearShape state slot).moments = s.moments ∧
    (s.clearShape state slot).pending = s.pending := by
  unfold State.clearShape
  repeat' split
  all_goals simp

/-- What `State.takeShapeOpen` leaves unchanged: all but store, link. -/
@[simp] theorem State.takeShapeOpen_frame (slot : Byte) (s : State) :
    (s.takeShapeOpen slot).synth = s.synth ∧ (s.takeShapeOpen slot).ports = s.ports ∧
    (s.takeShapeOpen slot).library = s.library ∧ (s.takeShapeOpen slot).phrases = s.phrases ∧
    (s.takeShapeOpen slot).queue = s.queue ∧ (s.takeShapeOpen slot).expander = s.expander ∧
    (s.takeShapeOpen slot).seq = s.seq ∧ (s.takeShapeOpen slot).monitor = s.monitor ∧
    (s.takeShapeOpen slot).results = s.results ∧ (s.takeShapeOpen slot).notices = s.notices ∧
    (s.takeShapeOpen slot).setup = s.setup ∧ (s.takeShapeOpen slot).moments = s.moments ∧
    (s.takeShapeOpen slot).pending = s.pending := by
  simp [State.takeShapeOpen]

/-- What `State.takeShapeErase` leaves unchanged: all but store, link. -/
@[simp] theorem State.takeShapeErase_frame (slot : Byte) (s : State) :
    (s.takeShapeErase slot).synth = s.synth ∧ (s.takeShapeErase slot).ports = s.ports ∧
    (s.takeShapeErase slot).library = s.library ∧ (s.takeShapeErase slot).phrases = s.phrases ∧
    (s.takeShapeErase slot).queue = s.queue ∧ (s.takeShapeErase slot).expander = s.expander ∧
    (s.takeShapeErase slot).seq = s.seq ∧ (s.takeShapeErase slot).monitor = s.monitor ∧
    (s.takeShapeErase slot).results = s.results ∧ (s.takeShapeErase slot).notices = s.notices ∧
    (s.takeShapeErase slot).setup = s.setup ∧ (s.takeShapeErase slot).moments = s.moments ∧
    (s.takeShapeErase slot).pending = s.pending := by
  simp [State.takeShapeErase]

/-- What `State.takeShapeInfo` leaves unchanged: all but link. -/
@[simp] theorem State.takeShapeInfo_frame (slot : Byte) (s : State) :
    (s.takeShapeInfo slot).synth = s.synth ∧ (s.takeShapeInfo slot).ports = s.ports ∧
    (s.takeShapeInfo slot).store = s.store ∧ (s.takeShapeInfo slot).library = s.library ∧
    (s.takeShapeInfo slot).phrases = s.phrases ∧ (s.takeShapeInfo slot).queue = s.queue ∧
    (s.takeShapeInfo slot).expander = s.expander ∧ (s.takeShapeInfo slot).seq = s.seq ∧
    (s.takeShapeInfo slot).monitor = s.monitor ∧ (s.takeShapeInfo slot).results = s.results ∧
    (s.takeShapeInfo slot).notices = s.notices ∧ (s.takeShapeInfo slot).setup = s.setup ∧
    (s.takeShapeInfo slot).moments = s.moments ∧ (s.takeShapeInfo slot).pending = s.pending := by
  unfold State.takeShapeInfo
  repeat' split
  all_goals simp

/-- What `State.takeShapeAppend` leaves unchanged: all but store, link. -/
@[simp] theorem State.takeShapeAppend_frame (slot : Byte) (points : List Half) (s : State) :
    (s.takeShapeAppend slot points).synth = s.synth ∧ (s.takeShapeAppend slot points).ports = s.ports ∧
    (s.takeShapeAppend slot points).library = s.library ∧
    (s.takeShapeAppend slot points).phrases = s.phrases ∧ (s.takeShapeAppend slot points).queue = s.queue ∧
    (s.takeShapeAppend slot points).expander = s.expander ∧ (s.takeShapeAppend slot points).seq = s.seq ∧
    (s.takeShapeAppend slot points).monitor = s.monitor ∧
    (s.takeShapeAppend slot points).results = s.results ∧
    (s.takeShapeAppend slot points).notices = s.notices ∧ (s.takeShapeAppend slot points).setup = s.setup ∧
    (s.takeShapeAppend slot points).moments = s.moments ∧
    (s.takeShapeAppend slot points).pending = s.pending := by
  unfold State.takeShapeAppend
  repeat' split
  all_goals simp

/-- What `State.takeShapeSum` leaves unchanged: all but store, link and the count of amounts chosen. -/
@[simp] theorem State.takeShapeSum_frame (slot gen : Byte) (start count crc : Half) (s : State) :
    (s.takeShapeSum slot gen start count crc).synth = s.synth ∧
    (s.takeShapeSum slot gen start count crc).ports = s.ports ∧
    (s.takeShapeSum slot gen start count crc).library = s.library ∧
    (s.takeShapeSum slot gen start count crc).phrases = s.phrases ∧
    (s.takeShapeSum slot gen start count crc).queue = s.queue ∧
    (s.takeShapeSum slot gen start count crc).expander = s.expander ∧
    (s.takeShapeSum slot gen start count crc).seq = s.seq ∧
    (s.takeShapeSum slot gen start count crc).monitor = s.monitor ∧
    (s.takeShapeSum slot gen start count crc).results = s.results ∧
    (s.takeShapeSum slot gen start count crc).notices = s.notices ∧
    (s.takeShapeSum slot gen start count crc).setup = s.setup ∧
    (s.takeShapeSum slot gen start count crc).moments.edge = s.moments.edge ∧
    (s.takeShapeSum slot gen start count crc).moments.timeout = s.moments.timeout ∧
    (s.takeShapeSum slot gen start count crc).moments.trip = s.moments.trip ∧
    (s.takeShapeSum slot gen start count crc).moments.races = s.moments.races ∧
    (s.takeShapeSum slot gen start count crc).pending = s.pending := by
  unfold State.takeShapeSum
  repeat' split
  all_goals simp

/-- What `State.takeShapeCompare` leaves unchanged: all but store, link and the count of amounts chosen. -/
@[simp] theorem State.takeShapeCompare_frame (slot gen : Byte) (start count pad : Half) (points : List Half) (s : State) :
    (s.takeShapeCompare slot gen start count pad points).synth = s.synth ∧
    (s.takeShapeCompare slot gen start count pad points).ports = s.ports ∧
    (s.takeShapeCompare slot gen start count pad points).library = s.library ∧
    (s.takeShapeCompare slot gen start count pad points).phrases = s.phrases ∧
    (s.takeShapeCompare slot gen start count pad points).queue = s.queue ∧
    (s.takeShapeCompare slot gen start count pad points).expander = s.expander ∧
    (s.takeShapeCompare slot gen start count pad points).seq = s.seq ∧
    (s.takeShapeCompare slot gen start count pad points).monitor = s.monitor ∧
    (s.takeShapeCompare slot gen start count pad points).results = s.results ∧
    (s.takeShapeCompare slot gen start count pad points).notices = s.notices ∧
    (s.takeShapeCompare slot gen start count pad points).setup = s.setup ∧
    (s.takeShapeCompare slot gen start count pad points).moments.edge = s.moments.edge ∧
    (s.takeShapeCompare slot gen start count pad points).moments.timeout = s.moments.timeout ∧
    (s.takeShapeCompare slot gen start count pad points).moments.trip = s.moments.trip ∧
    (s.takeShapeCompare slot gen start count pad points).moments.races = s.moments.races ∧
    (s.takeShapeCompare slot gen start count pad points).pending = s.pending := by
  unfold State.takeShapeCompare
  repeat' split
  all_goals simp

/-- What `State.completeAppend` leaves unchanged: all but store, link. -/
@[simp] theorem State.completeAppend_frame (slot : Nat) (points : List Half) (s : State) :
    (s.completeAppend slot points).synth = s.synth ∧ (s.completeAppend slot points).ports = s.ports ∧
    (s.completeAppend slot points).library = s.library ∧
    (s.completeAppend slot points).phrases = s.phrases ∧ (s.completeAppend slot points).queue = s.queue ∧
    (s.completeAppend slot points).expander = s.expander ∧ (s.completeAppend slot points).seq = s.seq ∧
    (s.completeAppend slot points).monitor = s.monitor ∧
    (s.completeAppend slot points).results = s.results ∧
    (s.completeAppend slot points).notices = s.notices ∧ (s.completeAppend slot points).setup = s.setup ∧
    (s.completeAppend slot points).moments = s.moments ∧
    (s.completeAppend slot points).pending = s.pending := by
  unfold State.completeAppend
  repeat' split
  all_goals simp

/-- What `State.completeSum` leaves unchanged: all but store, link. -/
@[simp] theorem State.completeSum_frame (slot start count : Nat) (crc : Half) (s : State) :
    (s.completeSum slot start count crc).synth = s.synth ∧
    (s.completeSum slot start count crc).ports = s.ports ∧
    (s.completeSum slot start count crc).library = s.library ∧
    (s.completeSum slot start count crc).phrases = s.phrases ∧
    (s.completeSum slot start count crc).queue = s.queue ∧
    (s.completeSum slot start count crc).expander = s.expander ∧
    (s.completeSum slot start count crc).seq = s.seq ∧
    (s.completeSum slot start count crc).monitor = s.monitor ∧
    (s.completeSum slot start count crc).results = s.results ∧
    (s.completeSum slot start count crc).notices = s.notices ∧
    (s.completeSum slot start count crc).setup = s.setup ∧
    (s.completeSum slot start count crc).moments = s.moments ∧
    (s.completeSum slot start count crc).pending = s.pending := by
  simp [State.completeSum]

/-- What `State.completeCompare` leaves unchanged: all but store, link. -/
@[simp] theorem State.completeCompare_frame (slot start count : Nat) (pad : Half) (points : List Half) (s : State) :
    (s.completeCompare slot start count pad points).synth = s.synth ∧
    (s.completeCompare slot start count pad points).ports = s.ports ∧
    (s.completeCompare slot start count pad points).library = s.library ∧
    (s.completeCompare slot start count pad points).phrases = s.phrases ∧
    (s.completeCompare slot start count pad points).queue = s.queue ∧
    (s.completeCompare slot start count pad points).expander = s.expander ∧
    (s.completeCompare slot start count pad points).seq = s.seq ∧
    (s.completeCompare slot start count pad points).monitor = s.monitor ∧
    (s.completeCompare slot start count pad points).results = s.results ∧
    (s.completeCompare slot start count pad points).notices = s.notices ∧
    (s.completeCompare slot start count pad points).setup = s.setup ∧
    (s.completeCompare slot start count pad points).moments = s.moments ∧
    (s.completeCompare slot start count pad points).pending = s.pending := by
  unfold State.completeCompare
  dsimp only
  generalize firstDifference _ _ _ = d
  cases d with
  | some j => simp
  | none => dsimp only; split <;> simp

/-- What `State.completeWork` leaves unchanged: all but store, link. -/
@[simp] theorem State.completeWork_frame (s : State) :
    (s.completeWork).synth = s.synth ∧ (s.completeWork).ports = s.ports ∧
    (s.completeWork).library = s.library ∧ (s.completeWork).phrases = s.phrases ∧
    (s.completeWork).queue = s.queue ∧ (s.completeWork).expander = s.expander ∧
    (s.completeWork).seq = s.seq ∧ (s.completeWork).monitor = s.monitor ∧
    (s.completeWork).results = s.results ∧ (s.completeWork).notices = s.notices ∧
    (s.completeWork).setup = s.setup ∧ (s.completeWork).moments = s.moments ∧
    (s.completeWork).pending = s.pending := by
  unfold State.completeWork
  repeat' split
  all_goals simp

/-- What `State.takeTemplateDefine` leaves unchanged: all but store, library, link. -/
@[simp] theorem State.takeTemplateDefine_frame (w : TemplateWire) (s : State) :
    (s.takeTemplateDefine w).synth = s.synth ∧ (s.takeTemplateDefine w).ports = s.ports ∧
    (s.takeTemplateDefine w).phrases = s.phrases ∧ (s.takeTemplateDefine w).queue = s.queue ∧
    (s.takeTemplateDefine w).expander = s.expander ∧ (s.takeTemplateDefine w).seq = s.seq ∧
    (s.takeTemplateDefine w).monitor = s.monitor ∧ (s.takeTemplateDefine w).results = s.results ∧
    (s.takeTemplateDefine w).notices = s.notices ∧ (s.takeTemplateDefine w).setup = s.setup ∧
    (s.takeTemplateDefine w).moments = s.moments ∧ (s.takeTemplateDefine w).pending = s.pending := by
  unfold State.takeTemplateDefine
  repeat' split
  all_goals simp

/-- What `State.takeTemplateDelete` leaves unchanged: all but store, library, link. -/
@[simp] theorem State.takeTemplateDelete_frame (index : Byte) (s : State) :
    (s.takeTemplateDelete index).synth = s.synth ∧ (s.takeTemplateDelete index).ports = s.ports ∧
    (s.takeTemplateDelete index).phrases = s.phrases ∧ (s.takeTemplateDelete index).queue = s.queue ∧
    (s.takeTemplateDelete index).expander = s.expander ∧ (s.takeTemplateDelete index).seq = s.seq ∧
    (s.takeTemplateDelete index).monitor = s.monitor ∧ (s.takeTemplateDelete index).results = s.results ∧
    (s.takeTemplateDelete index).notices = s.notices ∧ (s.takeTemplateDelete index).setup = s.setup ∧
    (s.takeTemplateDelete index).moments = s.moments ∧
    (s.takeTemplateDelete index).pending = s.pending := by
  unfold State.takeTemplateDelete
  repeat' split
  all_goals simp

/-- What `State.takeTemplateRead` leaves unchanged: all but link. -/
@[simp] theorem State.takeTemplateRead_frame (index : Byte) (s : State) :
    (s.takeTemplateRead index).synth = s.synth ∧ (s.takeTemplateRead index).ports = s.ports ∧
    (s.takeTemplateRead index).store = s.store ∧ (s.takeTemplateRead index).library = s.library ∧
    (s.takeTemplateRead index).phrases = s.phrases ∧ (s.takeTemplateRead index).queue = s.queue ∧
    (s.takeTemplateRead index).expander = s.expander ∧ (s.takeTemplateRead index).seq = s.seq ∧
    (s.takeTemplateRead index).monitor = s.monitor ∧ (s.takeTemplateRead index).results = s.results ∧
    (s.takeTemplateRead index).notices = s.notices ∧ (s.takeTemplateRead index).setup = s.setup ∧
    (s.takeTemplateRead index).moments = s.moments ∧ (s.takeTemplateRead index).pending = s.pending := by
  unfold State.takeTemplateRead
  repeat' split
  all_goals simp

/-- What `State.countAtTemplate` leaves unchanged: all but library. -/
@[simp] theorem State.countAtTemplate_frame (change : Nat → Nat) (place : Option Nat) (s : State) :
    (countAt (State.countTemplate change) place s).synth = s.synth ∧
    (countAt (State.countTemplate change) place s).ports = s.ports ∧
    (countAt (State.countTemplate change) place s).store = s.store ∧
    (countAt (State.countTemplate change) place s).phrases = s.phrases ∧
    (countAt (State.countTemplate change) place s).queue = s.queue ∧
    (countAt (State.countTemplate change) place s).expander = s.expander ∧
    (countAt (State.countTemplate change) place s).seq = s.seq ∧
    (countAt (State.countTemplate change) place s).monitor = s.monitor ∧
    (countAt (State.countTemplate change) place s).results = s.results ∧
    (countAt (State.countTemplate change) place s).notices = s.notices ∧
    (countAt (State.countTemplate change) place s).setup = s.setup ∧
    (countAt (State.countTemplate change) place s).link = s.link ∧
    (countAt (State.countTemplate change) place s).moments = s.moments ∧
    (countAt (State.countTemplate change) place s).pending = s.pending := by
  cases place <;> simp [countAt]

/-- What `State.countAtPhrase` leaves unchanged: all but phrases. -/
@[simp] theorem State.countAtPhrase_frame (change : Nat → Nat) (place : Option Nat) (s : State) :
    (countAt (State.countPhrase change) place s).synth = s.synth ∧
    (countAt (State.countPhrase change) place s).ports = s.ports ∧
    (countAt (State.countPhrase change) place s).store = s.store ∧
    (countAt (State.countPhrase change) place s).library = s.library ∧
    (countAt (State.countPhrase change) place s).queue = s.queue ∧
    (countAt (State.countPhrase change) place s).expander = s.expander ∧
    (countAt (State.countPhrase change) place s).seq = s.seq ∧
    (countAt (State.countPhrase change) place s).monitor = s.monitor ∧
    (countAt (State.countPhrase change) place s).results = s.results ∧
    (countAt (State.countPhrase change) place s).notices = s.notices ∧
    (countAt (State.countPhrase change) place s).setup = s.setup ∧
    (countAt (State.countPhrase change) place s).link = s.link ∧
    (countAt (State.countPhrase change) place s).moments = s.moments ∧
    (countAt (State.countPhrase change) place s).pending = s.pending := by
  cases place <;> simp [countAt]

/-- What `State.moveCountTemplate` leaves unchanged: all but library. -/
@[simp] theorem State.moveCountTemplate_frame (old new : Option Nat) (s : State) :
    (moveCount State.countTemplate old new s).synth = s.synth ∧
    (moveCount State.countTemplate old new s).ports = s.ports ∧
    (moveCount State.countTemplate old new s).store = s.store ∧
    (moveCount State.countTemplate old new s).phrases = s.phrases ∧
    (moveCount State.countTemplate old new s).queue = s.queue ∧
    (moveCount State.countTemplate old new s).expander = s.expander ∧
    (moveCount State.countTemplate old new s).seq = s.seq ∧
    (moveCount State.countTemplate old new s).monitor = s.monitor ∧
    (moveCount State.countTemplate old new s).results = s.results ∧
    (moveCount State.countTemplate old new s).notices = s.notices ∧
    (moveCount State.countTemplate old new s).setup = s.setup ∧
    (moveCount State.countTemplate old new s).link = s.link ∧
    (moveCount State.countTemplate old new s).moments = s.moments ∧
    (moveCount State.countTemplate old new s).pending = s.pending := by
  by_cases h : old = new <;> simp [moveCount, h]

/-- What `State.moveCountPhrase` leaves unchanged: all but phrases. -/
@[simp] theorem State.moveCountPhrase_frame (old new : Option Nat) (s : State) :
    (moveCount State.countPhrase old new s).synth = s.synth ∧
    (moveCount State.countPhrase old new s).ports = s.ports ∧
    (moveCount State.countPhrase old new s).store = s.store ∧
    (moveCount State.countPhrase old new s).library = s.library ∧
    (moveCount State.countPhrase old new s).queue = s.queue ∧
    (moveCount State.countPhrase old new s).expander = s.expander ∧
    (moveCount State.countPhrase old new s).seq = s.seq ∧
    (moveCount State.countPhrase old new s).monitor = s.monitor ∧
    (moveCount State.countPhrase old new s).results = s.results ∧
    (moveCount State.countPhrase old new s).notices = s.notices ∧
    (moveCount State.countPhrase old new s).setup = s.setup ∧
    (moveCount State.countPhrase old new s).link = s.link ∧
    (moveCount State.countPhrase old new s).moments = s.moments ∧
    (moveCount State.countPhrase old new s).pending = s.pending := by
  by_cases h : old = new <;> simp [moveCount, h]

/-- What `State.takePhraseDefine` leaves unchanged: all but library, phrases, link. -/
@[simp] theorem State.takePhraseDefine_frame (index pred template : Byte) (s : State) :
    (s.takePhraseDefine index pred template).synth = s.synth ∧
    (s.takePhraseDefine index pred template).ports = s.ports ∧
    (s.takePhraseDefine index pred template).store = s.store ∧
    (s.takePhraseDefine index pred template).queue = s.queue ∧
    (s.takePhraseDefine index pred template).expander = s.expander ∧
    (s.takePhraseDefine index pred template).seq = s.seq ∧
    (s.takePhraseDefine index pred template).monitor = s.monitor ∧
    (s.takePhraseDefine index pred template).results = s.results ∧
    (s.takePhraseDefine index pred template).notices = s.notices ∧
    (s.takePhraseDefine index pred template).setup = s.setup ∧
    (s.takePhraseDefine index pred template).moments = s.moments ∧
    (s.takePhraseDefine index pred template).pending = s.pending := by
  unfold State.takePhraseDefine
  dsimp only
  repeat' split
  all_goals simp

/-- What `State.takePhraseDelete` leaves unchanged: all but library, phrases, link. -/
@[simp] theorem State.takePhraseDelete_frame (index : Byte) (s : State) :
    (s.takePhraseDelete index).synth = s.synth ∧ (s.takePhraseDelete index).ports = s.ports ∧
    (s.takePhraseDelete index).store = s.store ∧ (s.takePhraseDelete index).queue = s.queue ∧
    (s.takePhraseDelete index).expander = s.expander ∧ (s.takePhraseDelete index).seq = s.seq ∧
    (s.takePhraseDelete index).monitor = s.monitor ∧ (s.takePhraseDelete index).results = s.results ∧
    (s.takePhraseDelete index).notices = s.notices ∧ (s.takePhraseDelete index).setup = s.setup ∧
    (s.takePhraseDelete index).moments = s.moments ∧ (s.takePhraseDelete index).pending = s.pending := by
  unfold State.takePhraseDelete
  repeat' split
  all_goals simp

/-- What `State.takePhraseRead` leaves unchanged: all but link. -/
@[simp] theorem State.takePhraseRead_frame (index : Byte) (s : State) :
    (s.takePhraseRead index).synth = s.synth ∧ (s.takePhraseRead index).ports = s.ports ∧
    (s.takePhraseRead index).store = s.store ∧ (s.takePhraseRead index).library = s.library ∧
    (s.takePhraseRead index).phrases = s.phrases ∧ (s.takePhraseRead index).queue = s.queue ∧
    (s.takePhraseRead index).expander = s.expander ∧ (s.takePhraseRead index).seq = s.seq ∧
    (s.takePhraseRead index).monitor = s.monitor ∧ (s.takePhraseRead index).results = s.results ∧
    (s.takePhraseRead index).notices = s.notices ∧ (s.takePhraseRead index).setup = s.setup ∧
    (s.takePhraseRead index).moments = s.moments ∧ (s.takePhraseRead index).pending = s.pending := by
  unfold State.takePhraseRead
  repeat' split
  all_goals simp

/-- What `State.countCues` leaves unchanged: all but library, phrases. -/
@[simp] theorem State.countCues_frame (change : Nat → Nat) (bodies : List CueBody) (s : State) :
    (s.countCues change bodies).synth = s.synth ∧ (s.countCues change bodies).ports = s.ports ∧
    (s.countCues change bodies).store = s.store ∧ (s.countCues change bodies).queue = s.queue ∧
    (s.countCues change bodies).expander = s.expander ∧ (s.countCues change bodies).seq = s.seq ∧
    (s.countCues change bodies).monitor = s.monitor ∧ (s.countCues change bodies).results = s.results ∧
    (s.countCues change bodies).notices = s.notices ∧ (s.countCues change bodies).setup = s.setup ∧
    (s.countCues change bodies).link = s.link ∧ (s.countCues change bodies).moments = s.moments ∧
    (s.countCues change bodies).pending = s.pending := by
  induction bodies generalizing s with
  | nil => simp [State.countCues]
  | cons b bs ih =>
    have h := ih (s.countCue change b)
    simp only [State.countCues, List.foldl_cons] at h ⊢
    simpa using h

/-- What `State.joinCues` leaves unchanged: all but synth, library, phrases, queue, expander, seq, monitor,
notices, moments. -/
@[simp] theorem State.joinCues_frame (bodies : List CueBody) (s : State) :
    (s.joinCues bodies).ports = s.ports ∧ (s.joinCues bodies).store = s.store ∧
    (s.joinCues bodies).results = s.results ∧ (s.joinCues bodies).setup = s.setup ∧
    (s.joinCues bodies).link = s.link ∧ (s.joinCues bodies).pending = s.pending := by
  simp [State.joinCues]

/-- What `State.takeCueAdd` leaves unchanged: all but synth, library, phrases, queue, expander, seq, monitor,
notices, link, moments. -/
@[simp] theorem State.takeCueAdd_frame (cues : List CueWire) (s : State) :
    (s.takeCueAdd cues).ports = s.ports ∧ (s.takeCueAdd cues).store = s.store ∧
    (s.takeCueAdd cues).results = s.results ∧ (s.takeCueAdd cues).setup = s.setup ∧
    (s.takeCueAdd cues).pending = s.pending := by
  unfold State.takeCueAdd
  dsimp only
  generalize s.acceptCues s.queue.cues.length cues = r
  obtain ⟨bodies, failure⟩ := r
  cases failure <;> by_cases h : bodies = [] <;> simp [h]

/-- What `State.takeCueRewind` leaves unchanged: all but synth, library, phrases, queue, expander, seq,
monitor, notices, link, moments. -/
@[simp] theorem State.takeCueRewind_frame (s : State) :
    (s.takeCueRewind).ports = s.ports ∧ (s.takeCueRewind).store = s.store ∧
    (s.takeCueRewind).results = s.results ∧ (s.takeCueRewind).setup = s.setup ∧
    (s.takeCueRewind).pending = s.pending := by
  unfold State.takeCueRewind
  repeat' split
  all_goals simp

/-- What `State.takeRunClear` leaves unchanged: all but library, phrases, queue, expander, seq, results,
notices, link, moments. -/
@[simp] theorem State.takeRunClear_frame (s : State) :
    (s.takeRunClear).synth = s.synth ∧ (s.takeRunClear).ports = s.ports ∧
    (s.takeRunClear).store = s.store ∧ (s.takeRunClear).monitor = s.monitor ∧
    (s.takeRunClear).setup = s.setup ∧ (s.takeRunClear).pending = s.pending := by
  unfold State.takeRunClear
  repeat' split
  all_goals simp

/-- What `State.takeResultRead` leaves unchanged: all but results, link. -/
@[simp] theorem State.takeResultRead_frame (count : Byte) (s : State) :
    (s.takeResultRead count).synth = s.synth ∧ (s.takeResultRead count).ports = s.ports ∧
    (s.takeResultRead count).store = s.store ∧ (s.takeResultRead count).library = s.library ∧
    (s.takeResultRead count).phrases = s.phrases ∧ (s.takeResultRead count).queue = s.queue ∧
    (s.takeResultRead count).expander = s.expander ∧ (s.takeResultRead count).seq = s.seq ∧
    (s.takeResultRead count).monitor = s.monitor ∧ (s.takeResultRead count).notices = s.notices ∧
    (s.takeResultRead count).setup = s.setup ∧ (s.takeResultRead count).moments = s.moments ∧
    (s.takeResultRead count).pending = s.pending := by
  unfold State.takeResultRead
  repeat' split
  all_goals simp

end Sys2Proof.Machine
end

