-- ==== Sys2Proof/Laws/Runs.lean ====
section
/-! SUPPORT. The run sequencer's requests: what each leaves unchanged. -/

namespace Sys2Proof.Machine

/-- What `State.doneWithState` leaves unchanged: all but link. -/
@[simp] theorem State.doneWithState_frame (s : State) :
    (s.doneWithState).synth = s.synth ∧ (s.doneWithState).ports = s.ports ∧
    (s.doneWithState).store = s.store ∧ (s.doneWithState).library = s.library ∧
    (s.doneWithState).phrases = s.phrases ∧ (s.doneWithState).queue = s.queue ∧
    (s.doneWithState).expander = s.expander ∧ (s.doneWithState).seq = s.seq ∧
    (s.doneWithState).monitor = s.monitor ∧ (s.doneWithState).results = s.results ∧
    (s.doneWithState).notices = s.notices ∧ (s.doneWithState).setup = s.setup ∧
    (s.doneWithState).moments = s.moments ∧ (s.doneWithState).pending = s.pending := by
  simp [State.doneWithState]

/-- What `State.armRun` leaves unchanged: all but synth, library, phrases, queue, expander, seq, monitor,
notices, moments. -/
@[simp] theorem State.armRun_frame (s : State) :
    (s.armRun).ports = s.ports ∧ (s.armRun).store = s.store ∧ (s.armRun).results = s.results ∧
    (s.armRun).setup = s.setup ∧ (s.armRun).link = s.link ∧ (s.armRun).pending = s.pending := by
  simp [State.armRun]

/-- What `State.leaveParked` leaves unchanged: all but synth, library, phrases, queue, expander, seq,
monitor, notices, moments. -/
@[simp] theorem State.leaveParked_frame (s : State) :
    (s.leaveParked).ports = s.ports ∧ (s.leaveParked).store = s.store ∧
    (s.leaveParked).results = s.results ∧ (s.leaveParked).setup = s.setup ∧ (s.leaveParked).link = s.link ∧
    (s.leaveParked).pending = s.pending := by
  unfold State.leaveParked
  repeat' split
  all_goals simp

/-- What `State.takeRunStart` leaves unchanged: all but synth, library, phrases, queue, expander, seq,
monitor, notices, link, moments. -/
@[simp] theorem State.takeRunStart_frame (s : State) :
    (s.takeRunStart).ports = s.ports ∧ (s.takeRunStart).store = s.store ∧
    (s.takeRunStart).results = s.results ∧ (s.takeRunStart).setup = s.setup ∧
    (s.takeRunStart).pending = s.pending := by
  unfold State.takeRunStart
  repeat' split
  all_goals simp

/-- What `State.takeRunPause` leaves unchanged: all but seq, link. -/
@[simp] theorem State.takeRunPause_frame (s : State) :
    (s.takeRunPause).synth = s.synth ∧ (s.takeRunPause).ports = s.ports ∧
    (s.takeRunPause).store = s.store ∧ (s.takeRunPause).library = s.library ∧
    (s.takeRunPause).phrases = s.phrases ∧ (s.takeRunPause).queue = s.queue ∧
    (s.takeRunPause).expander = s.expander ∧ (s.takeRunPause).monitor = s.monitor ∧
    (s.takeRunPause).results = s.results ∧ (s.takeRunPause).notices = s.notices ∧
    (s.takeRunPause).setup = s.setup ∧ (s.takeRunPause).moments = s.moments ∧
    (s.takeRunPause).pending = s.pending := by
  unfold State.takeRunPause
  repeat' split
  all_goals simp

/-- What `State.completeStep` leaves unchanged: all but synth, library, phrases, queue, expander, seq,
monitor, results, notices, moments. -/
@[simp] theorem State.completeStep_frame (s : State) :
    (s.completeStep).ports = s.ports ∧ (s.completeStep).store = s.store ∧
    (s.completeStep).setup = s.setup ∧ (s.completeStep).link = s.link ∧
    (s.completeStep).pending = s.pending := by
  simp [State.completeStep]

/-- What `State.expire` leaves unchanged: all but synth, library, phrases, queue, expander, seq, monitor,
results, notices, moments. -/
@[simp] theorem State.expire_frame (s : State) :
    (s.expire).ports = s.ports ∧ (s.expire).store = s.store ∧ (s.expire).setup = s.setup ∧
    (s.expire).link = s.link ∧ (s.expire).pending = s.pending := by
  unfold State.expire
  repeat' split
  all_goals simp

/-- What `State.releaseHeld` leaves unchanged: all but seq, moments. -/
@[simp] theorem State.releaseHeld_frame (s : State) :
    (s.releaseHeld).synth = s.synth ∧ (s.releaseHeld).ports = s.ports ∧ (s.releaseHeld).store = s.store ∧
    (s.releaseHeld).library = s.library ∧ (s.releaseHeld).phrases = s.phrases ∧
    (s.releaseHeld).queue = s.queue ∧ (s.releaseHeld).expander = s.expander ∧
    (s.releaseHeld).monitor = s.monitor ∧ (s.releaseHeld).results = s.results ∧
    (s.releaseHeld).notices = s.notices ∧ (s.releaseHeld).setup = s.setup ∧ (s.releaseHeld).link = s.link ∧
    (s.releaseHeld).pending = s.pending := by
  unfold State.releaseHeld
  repeat' split
  all_goals simp

/-- What `State.afterResume` leaves unchanged: all but synth, library, phrases, queue, expander, seq,
monitor, results, notices, moments. -/
@[simp] theorem State.afterResume_frame (s : State) :
    (s.afterResume).ports = s.ports ∧ (s.afterResume).store = s.store ∧ (s.afterResume).setup = s.setup ∧
    (s.afterResume).link = s.link ∧ (s.afterResume).pending = s.pending := by
  unfold State.afterResume
  repeat' split
  all_goals simp

/-- What `State.takeRunResume` leaves unchanged: all but synth, library, phrases, queue, expander, seq,
monitor, results, notices, link, moments. -/
@[simp] theorem State.takeRunResume_frame (s : State) :
    (s.takeRunResume).ports = s.ports ∧ (s.takeRunResume).store = s.store ∧
    (s.takeRunResume).setup = s.setup ∧ (s.takeRunResume).pending = s.pending := by
  unfold State.takeRunResume
  repeat' split
  all_goals simp

/-- What `State.forceDisable` leaves unchanged: all but synth, library, phrases, queue, expander, seq,
monitor, results, notices, moments. -/
@[simp] theorem State.forceDisable_frame (s : State) :
    (s.forceDisable).ports = s.ports ∧ (s.forceDisable).store = s.store ∧
    (s.forceDisable).setup = s.setup ∧ (s.forceDisable).link = s.link ∧
    (s.forceDisable).pending = s.pending := by
  unfold State.forceDisable
  repeat' split
  all_goals simp

/-- What `State.forceAbort` leaves unchanged: all but synth, library, phrases, queue, expander, seq, monitor,
results, notices, moments. -/
@[simp] theorem State.forceAbort_frame (s : State) :
    (s.forceAbort).ports = s.ports ∧ (s.forceAbort).store = s.store ∧ (s.forceAbort).setup = s.setup ∧
    (s.forceAbort).link = s.link ∧ (s.forceAbort).pending = s.pending := by
  unfold State.forceAbort
  repeat' split
  all_goals simp

/-- What `State.skipActive` leaves unchanged: all but synth, library, phrases, queue, expander, seq, monitor,
results, notices, moments. -/
@[simp] theorem State.skipActive_frame (s : State) :
    (s.skipActive).ports = s.ports ∧ (s.skipActive).store = s.store ∧ (s.skipActive).setup = s.setup ∧
    (s.skipActive).link = s.link ∧ (s.skipActive).pending = s.pending := by
  unfold State.skipActive
  repeat' split
  all_goals simp

/-- What `State.forceSkip` leaves unchanged: all but synth, library, phrases, queue, expander, seq, monitor,
results, notices, moments. -/
@[simp] theorem State.forceSkip_frame (s : State) :
    (s.forceSkip).ports = s.ports ∧ (s.forceSkip).store = s.store ∧ (s.forceSkip).setup = s.setup ∧
    (s.forceSkip).link = s.link ∧ (s.forceSkip).pending = s.pending := by
  unfold State.forceSkip
  repeat' split
  all_goals simp

/-- What `State.takeForce` leaves unchanged: all but synth, library, phrases, queue, expander, seq, monitor,
results, notices, link, moments. -/
@[simp] theorem State.takeForce_frame (action : Action) (s : State) :
    (s.takeForce action).ports = s.ports ∧ (s.takeForce action).store = s.store ∧
    (s.takeForce action).setup = s.setup ∧ (s.takeForce action).pending = s.pending := by
  unfold State.takeForce
  repeat' split
  all_goals simp

/-- What `State.takeFaultClear` leaves unchanged: all but synth, seq, monitor, link, moments. -/
@[simp] theorem State.takeFaultClear_frame (s : State) :
    (s.takeFaultClear).ports = s.ports ∧ (s.takeFaultClear).store = s.store ∧
    (s.takeFaultClear).library = s.library ∧ (s.takeFaultClear).phrases = s.phrases ∧
    (s.takeFaultClear).queue = s.queue ∧ (s.takeFaultClear).expander = s.expander ∧
    (s.takeFaultClear).results = s.results ∧ (s.takeFaultClear).notices = s.notices ∧
    (s.takeFaultClear).setup = s.setup ∧ (s.takeFaultClear).pending = s.pending := by
  unfold State.takeFaultClear
  repeat' split
  all_goals simp

/-- What `State.takeOutputEnable` leaves unchanged: all but synth, seq, monitor, link, moments. -/
@[simp] theorem State.takeOutputEnable_frame (s : State) :
    (s.takeOutputEnable).ports = s.ports ∧ (s.takeOutputEnable).store = s.store ∧
    (s.takeOutputEnable).library = s.library ∧ (s.takeOutputEnable).phrases = s.phrases ∧
    (s.takeOutputEnable).queue = s.queue ∧ (s.takeOutputEnable).expander = s.expander ∧
    (s.takeOutputEnable).results = s.results ∧ (s.takeOutputEnable).notices = s.notices ∧
    (s.takeOutputEnable).setup = s.setup ∧ (s.takeOutputEnable).pending = s.pending := by
  unfold State.takeOutputEnable
  repeat' split
  all_goals simp

end Sys2Proof.Machine
end

