-- ==== Sys2Proof/Laws/Moments.lean ====
section
/-! SUPPORT. The part's own moments: what each leaves unchanged. -/

namespace Sys2Proof.Machine

/-- What `State.qualify` leaves unchanged: all but seq, notices, moments. -/
@[simp] theorem State.qualify_frame (s : State) :
    (s.qualify).synth = s.synth ∧ (s.qualify).ports = s.ports ∧ (s.qualify).store = s.store ∧
    (s.qualify).library = s.library ∧ (s.qualify).phrases = s.phrases ∧ (s.qualify).queue = s.queue ∧
    (s.qualify).expander = s.expander ∧ (s.qualify).monitor = s.monitor ∧ (s.qualify).results = s.results ∧
    (s.qualify).setup = s.setup ∧ (s.qualify).link = s.link ∧ (s.qualify).pending = s.pending := by
  unfold State.qualify
  repeat' split
  all_goals simp

/-- What `State.takeTrip` leaves unchanged: all but synth, library, phrases, queue, expander, seq, monitor,
results, notices, moments. -/
@[simp] theorem State.takeTrip_frame (s : State) :
    (s.takeTrip).ports = s.ports ∧ (s.takeTrip).store = s.store ∧ (s.takeTrip).setup = s.setup ∧
    (s.takeTrip).link = s.link ∧ (s.takeTrip).pending = s.pending := by
  unfold State.takeTrip
  repeat' split
  all_goals simp

/-- What `State.takeStop` leaves unchanged: all but synth, seq, monitor, notices, moments. -/
@[simp] theorem State.takeStop_frame (s : State) :
    (s.takeStop).ports = s.ports ∧ (s.takeStop).store = s.store ∧ (s.takeStop).library = s.library ∧
    (s.takeStop).phrases = s.phrases ∧ (s.takeStop).queue = s.queue ∧ (s.takeStop).expander = s.expander ∧
    (s.takeStop).results = s.results ∧ (s.takeStop).setup = s.setup ∧ (s.takeStop).link = s.link ∧
    (s.takeStop).pending = s.pending := by
  simp [State.takeStop]

/-- What `State.activate` leaves unchanged: all but synth, expander, seq, results, notices, moments. -/
@[simp] theorem State.activate_frame (copy : StepCopy) (s : State) :
    (s.activate copy).ports = s.ports ∧ (s.activate copy).store = s.store ∧
    (s.activate copy).library = s.library ∧ (s.activate copy).phrases = s.phrases ∧
    (s.activate copy).queue = s.queue ∧ (s.activate copy).monitor = s.monitor ∧
    (s.activate copy).setup = s.setup ∧ (s.activate copy).link = s.link ∧
    (s.activate copy).pending = s.pending := by
  simp [State.activate]

/-- What `State.takeStart` leaves unchanged: all but synth, library, phrases, queue, expander, seq, monitor,
results, notices, moments. -/
@[simp] theorem State.takeStart_frame (s : State) :
    (s.takeStart).ports = s.ports ∧ (s.takeStart).store = s.store ∧ (s.takeStart).setup = s.setup ∧
    (s.takeStart).link = s.link ∧ (s.takeStart).pending = s.pending := by
  unfold State.takeStart
  repeat' split
  all_goals simp

/-- What `State.takeHandover` leaves unchanged: all but synth, library, phrases, queue, expander, seq,
monitor, results, notices, moments. -/
@[simp] theorem State.takeHandover_frame (s : State) :
    (s.takeHandover).ports = s.ports ∧ (s.takeHandover).store = s.store ∧
    (s.takeHandover).setup = s.setup ∧ (s.takeHandover).link = s.link ∧
    (s.takeHandover).pending = s.pending := by
  unfold State.takeHandover
  repeat' split
  all_goals simp

/-- What `State.take` leaves unchanged: all but synth, library, phrases, queue, expander, seq, monitor,
results, notices, moments. -/
@[simp] theorem State.take_frame (m : Moment) (s : State) :
    (s.take m).ports = s.ports ∧ (s.take m).store = s.store ∧ (s.take m).setup = s.setup ∧
    (s.take m).link = s.link ∧ (s.take m).pending = s.pending := by
  unfold State.take
  repeat' split
  all_goals simp

/-- What `State.takeIfDue` leaves unchanged: all but synth, library, phrases, queue, expander, seq, monitor,
results, notices, moments. -/
@[simp] theorem State.takeIfDue_frame (m : Moment) (s : State) :
    (s.takeIfDue m).ports = s.ports ∧ (s.takeIfDue m).store = s.store ∧ (s.takeIfDue m).setup = s.setup ∧
    (s.takeIfDue m).link = s.link ∧ (s.takeIfDue m).pending = s.pending := by
  unfold State.takeIfDue
  repeat' split
  all_goals simp

/-- What `State.settleOne` leaves unchanged: all but synth, library, phrases, queue, expander, seq, monitor,
results, notices, moments. -/
@[simp] theorem State.settleOne_frame (s : State) :
    (s.settleOne).ports = s.ports ∧ (s.settleOne).store = s.store ∧ (s.settleOne).setup = s.setup ∧
    (s.settleOne).link = s.link ∧ (s.settleOne).pending = s.pending := by
  unfold State.settleOne
  repeat' split
  all_goals simp

/-- What `State.settleMoments` leaves unchanged: all but synth, library, phrases, queue, expander, seq,
monitor, results, notices, moments. -/
@[simp] theorem State.settleMoments_frame (fuel : Nat) (s : State) :
    (State.settleMoments fuel s).ports = s.ports ∧ (State.settleMoments fuel s).store = s.store ∧
    (State.settleMoments fuel s).setup = s.setup ∧ (State.settleMoments fuel s).link = s.link ∧
    (State.settleMoments fuel s).pending = s.pending := by
  induction fuel generalizing s with
  | zero => simp [State.settleMoments]
  | succ fuel ih => simpa [State.settleMoments] using ih s.settleOne

/-- What `State.settle` leaves unchanged: all but synth, library, phrases, queue, expander, seq, monitor,
results, notices, moments. -/
@[simp] theorem State.settle_frame (s : State) :
    (s.settle).ports = s.ports ∧ (s.settle).store = s.store ∧ (s.settle).setup = s.setup ∧
    (s.settle).link = s.link ∧ (s.settle).pending = s.pending := by
  simp [State.settle]

end Sys2Proof.Machine
end

