-- ==== Sys2Proof/Laws/Linkless.lean ====
section
/-! SUPPORT. What the blocks do does not depend on the link interface: each shared operation answers the same, but for
the link, whatever the link holds. -/

namespace Sys2Proof.Machine

/-- The state with another link interface. -/
def State.onLink (l : Link) (s : State) : State := { s with link := l }

/-- Another link leaves the synthesizer. -/
@[simp] theorem State.onLink_synth (l : Link) (s : State) : (s.onLink l).synth = s.synth := rfl

/-- Another link leaves the lines. -/
@[simp] theorem State.onLink_ports (l : Link) (s : State) : (s.onLink l).ports = s.ports := rfl

/-- Another link leaves the shape store. -/
@[simp] theorem State.onLink_store (l : Link) (s : State) : (s.onLink l).store = s.store := rfl

/-- Another link leaves the library. -/
@[simp] theorem State.onLink_library (l : Link) (s : State) : (s.onLink l).library = s.library := rfl

/-- Another link leaves the dictionary. -/
@[simp] theorem State.onLink_phrases (l : Link) (s : State) : (s.onLink l).phrases = s.phrases := rfl

/-- Another link leaves the cue queue. -/
@[simp] theorem State.onLink_queue (l : Link) (s : State) : (s.onLink l).queue = s.queue := rfl

/-- Another link leaves the expander. -/
@[simp] theorem State.onLink_expander (l : Link) (s : State) : (s.onLink l).expander = s.expander := rfl

/-- Another link leaves the run sequencer. -/
@[simp] theorem State.onLink_seq (l : Link) (s : State) : (s.onLink l).seq = s.seq := rfl

/-- Another link leaves the load monitor. -/
@[simp] theorem State.onLink_monitor (l : Link) (s : State) : (s.onLink l).monitor = s.monitor := rfl

/-- Another link leaves the result queue. -/
@[simp] theorem State.onLink_results (l : Link) (s : State) : (s.onLink l).results = s.results := rfl

/-- Another link leaves the notice unit. -/
@[simp] theorem State.onLink_notices (l : Link) (s : State) : (s.onLink l).notices = s.notices := rfl

/-- Another link leaves the setup table. -/
@[simp] theorem State.onLink_setup (l : Link) (s : State) : (s.onLink l).setup = s.setup := rfl

/-- Another link leaves the own moments. -/
@[simp] theorem State.onLink_moments (l : Link) (s : State) : (s.onLink l).moments = s.moments := rfl

/-- Another link leaves the queue of commands. -/
@[simp] theorem State.onLink_pending (l : Link) (s : State) : (s.onLink l).pending = s.pending := rfl

/-- The other link. -/
@[simp] theorem State.onLink_link (l : Link) (s : State) : (s.onLink l).link = l := rfl

/-- `State.latch` does not depend on the link. -/
theorem State.onLink_latch (l : Link) (n : Notice) (s : State) : (s.onLink l).latch n = (s.latch n).onLink l := rfl

/-- `State.latchIf` does not depend on the link. -/
theorem State.onLink_latchIf (l : Link) (c : Bool) (n : Notice) (s : State) :
    (s.onLink l).latchIf c n = (s.latchIf c n).onLink l := by
  cases c <;> rfl

/-- `State.handResult` does not depend on the link. -/
theorem State.onLink_handResult (l : Link) (b : ResultBody) (s : State) :
    (s.onLink l).handResult b = (s.handResult b).onLink l := by
  unfold State.handResult
  have h : (s.onLink l).results = s.results ∧ (s.onLink l).setup = s.setup := ⟨rfl, rfl⟩
  rw [h.1, h.2]
  dsimp only
  split
  · rw [← State.onLink_latchIf]; rfl
  · rfl

/-- `State.endActive` does not depend on the link. -/
theorem State.onLink_endActive (l : Link) (r : EndReason) (s : State) :
    (s.onLink l).endActive r = (s.endActive r).onLink l := by
  unfold State.endActive
  have h : (s.onLink l).seq = s.seq := rfl
  rw [h]
  split
  · rfl
  · rw [← State.onLink_handResult]; rfl

/-- `State.countCue` does not depend on the link. -/
theorem State.onLink_countCue (l : Link) (f : Nat → Nat) (b : CueBody) (s : State) :
    (s.onLink l).countCue f b = (s.countCue f b).onLink l := by
  cases b with
  | template k _ _ _ =>
    simp only [State.countCue, State.countTemplate]
    have h : (s.onLink l).template? k = s.template? k := rfl
    rw [h]
    split <;> rfl
  | phrase k _ =>
    simp only [State.countCue, State.countPhrase]
    have h : (s.onLink l).phrase? k = s.phrase? k := rfl
    rw [h]
    split <;> rfl
  | endRun _ => rfl

/-- `State.countCues` does not depend on the link. -/
theorem State.onLink_countCues (l : Link) (f : Nat → Nat) (bs : List CueBody) (s : State) :
    (s.onLink l).countCues f bs = (s.countCues f bs).onLink l := by
  unfold State.countCues
  induction bs generalizing s with
  | nil => rfl
  | cons b bs ih => rw [List.foldl_cons, List.foldl_cons, State.onLink_countCue, ih]

/-- `State.setCues` does not depend on the link. -/
theorem State.onLink_setCues (l : Link) (cues : List Cue) (s : State) :
    (s.onLink l).setCues cues = (s.setCues cues).onLink l := by
  unfold State.setCues
  rw [← State.onLink_latchIf, ← State.onLink_latchIf]; rfl

/-- `State.expandLive` does not depend on the link. -/
theorem State.onLink_expandLive (l : Link) (s : State) : (s.onLink l).expandLive = s.expandLive.onLink l :=
  State.onLink_setCues l _ s

/-- `State.spendLive` does not depend on the link. -/
theorem State.onLink_spendLive (l : Link) (s : State) : (s.onLink l).spendLive = s.spendLive.onLink l := by
  unfold State.spendLive
  have h : (s.onLink l).queue = s.queue ∧ (s.onLink l).setup = s.setup := ⟨rfl, rfl⟩
  rw [h.1, h.2]
  split
  · rfl
  · split
    · rw [State.onLink_setCues, State.onLink_countCue]
    · rw [State.onLink_setCues]

/-- `State.endRepetition` does not depend on the link. -/
theorem State.onLink_endRepetition (l : Link) (c : Context) (rep : Nat) (s : State) :
    (s.onLink l).endRepetition c rep = (s.endRepetition c rep).onLink l := by
  unfold State.endRepetition
  split
  · rw [← State.onLink_expandLive]; rfl
  · rw [← State.onLink_spendLive]; rfl

/-- `State.stageElement` does not depend on the link. -/
theorem State.onLink_stageElement (l : Link) (c : Context) (s : State) :
    (s.onLink l).stageElement c = (s.stageElement c).onLink l := by
  unfold State.stageElement
  have ht : ∀ k, (s.onLink l).template? k = s.template? k := fun _ => rfl
  have hx : (s.onLink l).expander = s.expander ∧ (s.onLink l).expansion = s.expansion := ⟨rfl, rfl⟩
  simp only [ht, hx.1, hx.2]
  split
  · split
    · rfl
    · rw [← State.onLink_endRepetition]; rfl
  · split
    · rfl
    · split
      · rfl
      · split
        · rw [← State.onLink_endRepetition]; rfl
        · rw [← State.onLink_expandLive]; rfl
  · rfl

/-- `State.fillSlot` does not depend on the link. -/
theorem State.onLink_fillSlot (l : Link) (s : State) : (s.onLink l).fillSlot = s.fillSlot.onLink l := by
  unfold State.fillSlot
  have hx : (s.onLink l).expander = s.expander ∧ (s.onLink l).seq = s.seq ∧ (s.onLink l).queue = s.queue :=
    ⟨rfl, rfl, rfl⟩
  simp only [hx.1, hx.2.1, hx.2.2]
  split
  · split
    · exact State.onLink_stageElement l _ s
    · split
      · rfl
      · split
        · rw [← State.onLink_spendLive]; rfl
        · exact State.onLink_stageElement l _ s
        · exact State.onLink_stageElement l _ s
  · rfl

/-- `State.discardExpansion` does not depend on the link. -/
theorem State.onLink_discardExpansion (l : Link) (s : State) :
    (s.onLink l).discardExpansion = s.discardExpansion.onLink l := by
  unfold State.discardExpansion
  have hx : (s.onLink l).expander = s.expander := rfl
  rw [hx]
  split
  · rfl
  · rw [← State.onLink_spendLive]; rfl

/-- `State.takeMarker` does not depend on the link. -/
theorem State.onLink_takeMarker (l : Link) (o : EndOption) (s : State) :
    (s.onLink l).takeMarker o = (s.takeMarker o).onLink l := by
  unfold State.takeMarker
  have hx : (s.onLink l).seq = s.seq := rfl
  rw [hx]
  split
  · rfl
  · split
    · rw [← State.onLink_fillSlot]; rfl
    · rfl

/-- `State.actOnStaged` does not depend on the link. -/
theorem State.onLink_actOnStaged (l : Link) (s : State) : (s.onLink l).actOnStaged = s.actOnStaged.onLink l := by
  unfold State.actOnStaged
  have hx : (s.onLink l).expander = s.expander ∧ (s.onLink l).seq = s.seq := ⟨rfl, rfl⟩
  simp only [hx.1, hx.2]
  split
  · rfl
  · split <;> (try split) <;> rfl
  · split <;> first | rfl | exact State.onLink_takeMarker l _ s

/-- `State.stage` does not depend on the link. -/
theorem State.onLink_stage (l : Link) (s : State) : (s.onLink l).stage = s.stage.onLink l := by
  unfold State.stage
  have hx : (s.onLink l).expander = s.expander := rfl
  rw [hx]
  split
  · rw [State.onLink_fillSlot, State.onLink_actOnStaged]
  · rfl

/-- `State.afterEnd` does not depend on the link. -/
theorem State.onLink_afterEnd (l : Link) (s : State) : (s.onLink l).afterEnd = s.afterEnd.onLink l := by
  unfold State.afterEnd
  have hx : (s.onLink l).expander = s.expander := rfl
  rw [hx]
  split
  · split <;> rfl
  · exact State.onLink_takeMarker l _ s
  · rfl

/-- `State.enterEnd` does not depend on the link. -/
theorem State.onLink_enterEnd (l : Link) (r : RunState) (s : State) :
    (s.onLink l).enterEnd r = (s.enterEnd r).onLink l := by
  unfold State.enterEnd
  split <;> rfl

/-- `State.handTimedOut` does not depend on the link. -/
theorem State.onLink_handTimedOut (l : Link) (s : State) : (s.onLink l).handTimedOut = s.handTimedOut.onLink l := by
  unfold State.handTimedOut
  have hx : (s.onLink l).expander = s.expander := rfl
  rw [hx]
  split
  · rw [← State.onLink_handResult]; rfl
  · rfl
  · rfl

/-- `State.leaveEarly` does not depend on the link. -/
theorem State.onLink_leaveEarly (l : Link) (reason : EndReason) (r : RunState) (s : State) :
    (s.onLink l).leaveEarly reason r = (s.leaveEarly reason r).onLink l := by
  unfold State.leaveEarly
  rw [State.onLink_endActive, State.onLink_discardExpansion, State.onLink_enterEnd]

/-- `State.leaveTimedOut` does not depend on the link. -/
theorem State.onLink_leaveTimedOut (l : Link) (r : RunState) (s : State) :
    (s.onLink l).leaveTimedOut r = (s.leaveTimedOut r).onLink l := by
  unfold State.leaveTimedOut
  rw [State.onLink_endActive, State.onLink_handTimedOut, State.onLink_discardExpansion, State.onLink_enterEnd]

/-- `State.completeStep` does not depend on the link. -/
theorem State.onLink_completeStep (l : Link) (s : State) : (s.onLink l).completeStep = s.completeStep.onLink l := by
  unfold State.completeStep
  rw [State.onLink_endActive, State.onLink_afterEnd]

/-- `State.expire` does not depend on the link. -/
theorem State.onLink_expire (l : Link) (s : State) : (s.onLink l).expire = s.expire.onLink l := by
  unfold State.expire
  have hx : (s.onLink l).seq = s.seq := rfl
  rw [hx]
  split
  · rw [State.onLink_latch, State.onLink_leaveTimedOut, State.onLink_latch]
  · rw [State.onLink_latch, State.onLink_leaveTimedOut]

/-- `State.releaseHeld` does not depend on the link. -/
theorem State.onLink_releaseHeld (l : Link) (s : State) : (s.onLink l).releaseHeld = s.releaseHeld.onLink l := by
  unfold State.releaseHeld
  have hx : (s.onLink l).expander = s.expander ∧ (s.onLink l).seq = s.seq := ⟨rfl, rfl⟩
  rw [hx.1, hx.2]
  split
  · split <;> rfl
  · rfl

/-- `State.afterResume` does not depend on the link. -/
theorem State.onLink_afterResume (l : Link) (s : State) : (s.onLink l).afterResume = s.afterResume.onLink l := by
  unfold State.afterResume
  have hx : (s.onLink l).moments = s.moments ∧ (s.onLink l).seq = s.seq := ⟨rfl, rfl⟩
  rw [hx.1, hx.2, State.onLink_completeStep, State.onLink_expire, State.onLink_actOnStaged, State.onLink_releaseHeld]
  (repeat' split) <;> rfl

/-- `State.skipActive` does not depend on the link. -/
theorem State.onLink_skipActive (l : Link) (s : State) : (s.onLink l).skipActive = s.skipActive.onLink l := by
  unfold State.skipActive
  have hx : (s.onLink l).stagedReleased = s.stagedReleased ∧ (s.onLink l).seq = s.seq := ⟨rfl, rfl⟩
  rw [hx.1, hx.2, State.onLink_endActive, State.onLink_afterEnd]
  (repeat' split) <;> rfl

end Sys2Proof.Machine
end

