-- ==== Sys2Proof/Laws/Latched.lean ====
section
/-! SUPPORT. Flags: what latching one does to each, and that no shared operation clears one (R180). -/

namespace Sys2Proof.Machine

/-- A flag after another has latched: latched, or as it was (R180). -/
@[simp] theorem State.latched_latch (n m : Notice) (s : State) :
    (s.latch n).latched m = (s.latched m || decide (m = n)) := by
  cases n <;> cases m <;> simp [State.latch, State.latched, Notice.bit]

/-- A flag after another has latched where its cause has come. -/
@[simp] theorem State.latched_latchIf (cause : Bool) (n m : Notice) (s : State) :
    (s.latchIf cause n).latched m = (s.latched m || (cause && decide (m = n))) := by
  cases cause <;> simp [State.latchIf]

/-- A flag depends on the notice unit alone. -/
theorem State.latched_of_eq {s t : State} (h : t.notices = s.notices) (n : Notice) : t.latched n = s.latched n := by
  simp [State.latched, h]

/-- Latching depends on the notice unit alone. -/
theorem State.latch_notices (n : Notice) {s t : State} (h : t.notices = s.notices) :
    (t.latch n).notices = (s.latch n).notices := by
  simp [State.latch, h]

/-- Latching on a cause depends on the notice unit alone. -/
theorem State.latchIf_notices (cause : Bool) (n : Notice) {s t : State} (h : t.notices = s.notices) :
    (t.latchIf cause n).notices = (s.latchIf cause n).notices := by
  cases cause
  · exact h
  · exact State.latch_notices n h

/-- No flag of the first state is clear in the second. -/
def State.Keeps (s t : State) : Prop := ∀ n, s.latched n = true → t.latched n = true

/-- Keeping flags is transitive. -/
theorem State.Keeps.trans {s t u : State} (h : s.Keeps t) (g : t.Keeps u) : s.Keeps u := fun n hn => g n (h n hn)

/-- A state with the same notice unit keeps the flags. -/
theorem State.Keeps.of_eq {s t : State} (h : t.notices = s.notices) : s.Keeps t := by
  intro n hn
  rw [State.latched_of_eq h]
  exact hn

/-- Latching keeps the flags. -/
theorem State.latch_keeps (n : Notice) (s : State) : s.Keeps (s.latch n) := by
  intro m hm
  simp [hm]

/-- Latching on a cause keeps the flags. -/
theorem State.latchIf_keeps (cause : Bool) (n : Notice) (s : State) : s.Keeps (s.latchIf cause n) := by
  intro m hm
  simp [hm]

/-- Latching after a change outside the notice unit keeps the flags. -/
theorem State.Keeps.latch {s u : State} (h : u.notices = s.notices) (n : Notice) : s.Keeps (u.latch n) :=
  (State.Keeps.of_eq h).trans (u.latch_keeps n)

/-- Latching on a cause after a change outside the notice unit keeps the flags. -/
theorem State.Keeps.latchIf {s u : State} (h : u.notices = s.notices) (cause : Bool) (n : Notice) :
    s.Keeps (u.latchIf cause n) :=
  (State.Keeps.of_eq h).trans (u.latchIf_keeps cause n)

/-- A record handed keeps the flags. -/
theorem State.handResult_keeps (body : ResultBody) (s : State) : s.Keeps (s.handResult body) := by
  unfold State.handResult
  dsimp only
  split
  · refine State.Keeps.latchIf ?_ _ _
    rfl
  · refine State.Keeps.latch ?_ _
    rfl

/-- A change of the cues keeps the flags. -/
theorem State.setCues_keeps (cues : List Cue) (s : State) : s.Keeps (s.setCues cues) := by
  unfold State.setCues
  refine State.Keeps.trans ?_ (State.latchIf_keeps _ _ _)
  refine State.Keeps.latchIf ?_ _ _
  rfl

/-- A cue that becomes SPENT keeps the flags. -/
theorem State.spendLive_keeps (s : State) : s.Keeps s.spendLive := by
  unfold State.spendLive
  split
  · exact State.Keeps.of_eq rfl
  · split
    · exact (State.setCues_keeps (dropLive s.queue.cues) s).trans (State.Keeps.of_eq (by simp))
    · exact State.setCues_keeps _ _

/-- The end of a repetition keeps the flags. -/
theorem State.endRepetition_keeps (context : Context) (rep : Nat) (s : State) :
    s.Keeps (s.endRepetition context rep) := by
  unfold State.endRepetition
  split
  · refine State.Keeps.trans ?_ (State.setCues_keeps _ _)
    exact State.Keeps.of_eq (by simp)
  · refine State.Keeps.trans ?_ (State.spendLive_keeps _)
    exact State.Keeps.of_eq (by simp)

/-- The staging of an element keeps the flags. -/
theorem State.stageElement_keeps (context : Context) (s : State) : s.Keeps (s.stageElement context) := by
  unfold State.stageElement
  dsimp only
  split
  · split
    · exact State.Keeps.of_eq rfl
    · refine State.Keeps.trans ?_ (State.endRepetition_keeps _ _ _)
      exact State.Keeps.of_eq (by simp)
  · split
    · exact State.Keeps.of_eq rfl
    · split
      · exact State.Keeps.of_eq rfl
      · split
        · refine State.Keeps.trans ?_ (State.endRepetition_keeps _ _ _)
          exact State.Keeps.of_eq (by simp)
        · refine State.Keeps.trans ?_ (State.setCues_keeps _ _)
          exact State.Keeps.of_eq (by simp)
  · exact State.Keeps.of_eq rfl

/-- A staging keeps the flags. -/
theorem State.fillSlot_keeps (s : State) : s.Keeps s.fillSlot := by
  unfold State.fillSlot
  split
  · split
    · exact State.stageElement_keeps _ _
    · split
      · exact State.Keeps.of_eq rfl
      · split
        · refine State.Keeps.trans ?_ (State.spendLive_keeps _)
          exact State.Keeps.of_eq (by simp)
        · exact State.stageElement_keeps _ _
        · exact State.stageElement_keeps _ _
  · exact State.Keeps.of_eq rfl

/-- An end marker taken keeps the flags. -/
theorem State.takeMarker_keeps (option : EndOption) (s : State) : s.Keeps (s.takeMarker option) := by
  unfold State.takeMarker
  split
  · exact State.Keeps.latch (by simp) _
  · split
    · refine State.Keeps.trans ?_ (State.fillSlot_keeps _)
      exact State.Keeps.latch (by simp) _
    · exact State.Keeps.of_eq (by simp)

/-- Acting on a staged item keeps the flags. -/
theorem State.actOnStaged_keeps (s : State) : s.Keeps s.actOnStaged := by
  unfold State.actOnStaged
  repeat' split
  all_goals first
    | exact State.Keeps.of_eq (by simp)
    | exact State.takeMarker_keeps _ _

/-- A staging event keeps the flags. -/
theorem State.stage_keeps (s : State) : s.Keeps s.stage := by
  unfold State.stage
  split
  · exact State.Keeps.trans (State.fillSlot_keeps _) (State.actOnStaged_keeps _)
  · exact State.Keeps.of_eq rfl

/-- The end of the active step keeps the flags. -/
theorem State.endActive_keeps (reason : EndReason) (s : State) : s.Keeps (s.endActive reason) := by
  unfold State.endActive
  split
  · exact State.Keeps.of_eq rfl
  · refine State.Keeps.trans ?_ (State.handResult_keeps _ _)
    exact State.Keeps.of_eq rfl

/-- The discarding of an expansion keeps the flags. -/
theorem State.discardExpansion_keeps (s : State) : s.Keeps s.discardExpansion := by
  unfold State.discardExpansion
  split
  · exact State.Keeps.of_eq (by simp)
  · refine State.Keeps.trans ?_ (State.spendLive_keeps _)
    exact State.Keeps.of_eq (by simp)

end Sys2Proof.Machine
end

