-- ==== Sys2Proof/Laws/Refcounts.lean ====
section
/-! SUPPORT. The refcounts of templates and phrases: what one change of a count does, entry by entry. -/

namespace Sys2Proof.Machine

/-- Reading a vector after one of its places has been set, in bounds or not. -/
theorem getElem?_set {α : Type} {n : Nat} (v : Vector α n) (i : Nat) (x : α) (j : Nat) :
    (v.setIfInBounds i x)[j]? = if i = j then (v[j]?).map (fun _ => x) else v[j]? := by
  rw [Vector.getElem?_setIfInBounds]
  split
  · rename_i h; subst h
    split
    · simp [*]
    · rw [Vector.getElem?_eq_none (by omega)]; rfl
  · rfl

/-- A change that leaves every count is none. -/
theorem TemplateEntry.counted_id (o : Option (Option TemplateEntry)) :
    o.map (Option.map (TemplateEntry.counted fun n => n)) = o := by
  rcases o with - | - | e <;> rfl

/-- A change that leaves every count is none. -/
theorem PhraseEntry.counted_id (o : Option (Option PhraseEntry)) :
    o.map (Option.map (PhraseEntry.counted fun n => n)) = o := by
  rcases o with - | - | e <;> rfl

/-- One template's count changes, each other entry stays. -/
theorem State.countTemplate_library (s : State) (f : Nat → Nat) (k i : Nat) :
    (s.countTemplate f k).library[i]? =
      (s.library[i]?).map (Option.map (TemplateEntry.counted fun n => if k = i then f n else n)) := by
  unfold State.countTemplate State.template?
  by_cases hk : k = i
  · subst hk
    cases hx : s.library[k]? with
    | none => simp [hx]
    | some x =>
      cases x with
      | none => simp [hx]
      | some e => simp [hx, getElem?_set, TemplateEntry.counted]
  · simp only [hk, if_false, TemplateEntry.counted_id]
    split
    · rfl
    · simp [hk]

/-- One phrase's count changes, each other entry stays. -/
theorem State.countPhrase_phrases (s : State) (f : Nat → Nat) (k i : Nat) :
    (s.countPhrase f k).phrases[i]? =
      (s.phrases[i]?).map (Option.map (PhraseEntry.counted fun n => if k = i then f n else n)) := by
  unfold State.countPhrase State.phrase?
  by_cases hk : k = i
  · subst hk
    cases hx : s.phrases[k]? with
    | none => simp [hx]
    | some x =>
      cases x with
      | none => simp [hx]
      | some e => simp [hx, getElem?_set, PhraseEntry.counted]
  · simp only [hk, if_false, PhraseEntry.counted_id]
    split
    · rfl
    · simp [hk]

/-- A change of a template's count changes the library alone. -/
theorem State.countTemplate_eq (s : State) (f : Nat → Nat) (k : Nat) :
    s.countTemplate f k = { s with library := (s.countTemplate f k).library } := by
  unfold State.countTemplate
  split <;> rfl

/-- A change of a phrase's count changes the dictionary alone. -/
theorem State.countPhrase_eq (s : State) (f : Nat → Nat) (k : Nat) :
    s.countPhrase f k = { s with phrases := (s.countPhrase f k).phrases } := by
  unfold State.countPhrase
  split <;> rfl

/-- A cue's template count changes where the cue names it. -/
theorem State.countCue_library (s : State) (f : Nat → Nat) (b : CueBody) (i : Nat) :
    (s.countCue f b).library[i]? =
      (s.library[i]?).map (Option.map (TemplateEntry.counted fun n => if b.onTemplate i then f n else n)) := by
  cases b with
  | template k _ _ _ =>
    rw [State.countCue, State.countTemplate_library]
    simp [CueBody.onTemplate]
  | phrase k _ => simp [State.countCue, CueBody.onTemplate, TemplateEntry.counted_id]
  | endRun _ => simp [State.countCue, CueBody.onTemplate, TemplateEntry.counted_id]

/-- A cue's phrase count changes where the cue names it. -/
theorem State.countCue_phrases (s : State) (f : Nat → Nat) (b : CueBody) (i : Nat) :
    (s.countCue f b).phrases[i]? =
      (s.phrases[i]?).map (Option.map (PhraseEntry.counted fun n => if b.onPhrase i then f n else n)) := by
  cases b with
  | template k _ _ _ => simp [State.countCue, CueBody.onPhrase, PhraseEntry.counted_id]
  | phrase k _ =>
    rw [State.countCue, State.countPhrase_phrases]
    simp [CueBody.onPhrase]
  | endRun _ => simp [State.countCue, CueBody.onPhrase, PhraseEntry.counted_id]

/-- A change of a cue's count changes the library and the dictionary alone. -/
theorem State.countCue_eq (s : State) (f : Nat → Nat) (b : CueBody) :
    s.countCue f b = { s with library := (s.countCue f b).library, phrases := (s.countCue f b).phrases } := by
  cases b with
  | template k _ _ _ => simp only [State.countCue, State.countTemplate]; split <;> rfl
  | phrase k _ => simp only [State.countCue, State.countPhrase]; split <;> rfl
  | endRun _ => rfl

/-- Counting several cues changes the library and the dictionary alone. -/
theorem State.countCues_eq (s : State) (f : Nat → Nat) (bodies : List CueBody) :
    s.countCues f bodies =
      { s with library := (s.countCues f bodies).library, phrases := (s.countCues f bodies).phrases } := by
  unfold State.countCues
  induction bodies generalizing s with
  | nil => rfl
  | cons b bs ih =>
    rw [List.foldl_cons, ih]
    simp

/-- Cues that join raise each template's count by their number on it. -/
theorem State.countCues_up_library (s : State) (bodies : List CueBody) (i : Nat) :
    (s.countCues up bodies).library[i]? = (s.library[i]?).map (Option.map (TemplateEntry.counted fun n =>
      n + bodies.countP (CueBody.onTemplate i))) := by
  unfold State.countCues
  induction bodies generalizing s with
  | nil => simp [TemplateEntry.counted_id]
  | cons b bs ih =>
    rw [List.foldl_cons, ih, State.countCue_library]
    rcases s.library[i]? with - | - | e <;> simp [TemplateEntry.counted, List.countP_cons, up]
    split <;> omega

/-- Cues that join raise each phrase's count by their number on it. -/
theorem State.countCues_up_phrases (s : State) (bodies : List CueBody) (i : Nat) :
    (s.countCues up bodies).phrases[i]? = (s.phrases[i]?).map (Option.map (PhraseEntry.counted fun n =>
      n + bodies.countP (CueBody.onPhrase i))) := by
  unfold State.countCues
  induction bodies generalizing s with
  | nil => simp [PhraseEntry.counted_id]
  | cons b bs ih =>
    rw [List.foldl_cons, ih, State.countCue_phrases]
    rcases s.phrases[i]? with - | - | e <;> simp [PhraseEntry.counted, List.countP_cons, up]
    split <;> omega

/-- Cues that leave lower each template's count by their number on it. -/
theorem State.countCues_down_library (s : State) (bodies : List CueBody) (i : Nat) :
    (s.countCues down bodies).library[i]? = (s.library[i]?).map (Option.map (TemplateEntry.counted fun n =>
      n - bodies.countP (CueBody.onTemplate i))) := by
  unfold State.countCues
  induction bodies generalizing s with
  | nil => simp [TemplateEntry.counted_id]
  | cons b bs ih =>
    rw [List.foldl_cons, ih, State.countCue_library]
    rcases s.library[i]? with - | - | e <;> simp [TemplateEntry.counted, List.countP_cons, down]
    split <;> omega

/-- Cues that leave lower each phrase's count by their number on it. -/
theorem State.countCues_down_phrases (s : State) (bodies : List CueBody) (i : Nat) :
    (s.countCues down bodies).phrases[i]? = (s.phrases[i]?).map (Option.map (PhraseEntry.counted fun n =>
      n - bodies.countP (CueBody.onPhrase i))) := by
  unfold State.countCues
  induction bodies generalizing s with
  | nil => simp [PhraseEntry.counted_id]
  | cons b bs ih =>
    rw [List.foldl_cons, ih, State.countCue_phrases]
    rcases s.phrases[i]? with - | - | e <;> simp [PhraseEntry.counted, List.countP_cons, down]
    split <;> omega

end Sys2Proof.Machine
end

