-- ==== Sys2Proof/Laws/Sample.lean ====
section
/-! SUPPORT. The parts of a sample: what each leaves unchanged. -/

namespace Sys2Proof.Machine

/-- What `State.sampleTrigger` leaves unchanged: all but seq, moments. -/
@[simp] theorem State.sampleTrigger_frame (trig : Bool) (s : State) :
    (s.sampleTrigger trig).synth = s.synth ∧ (s.sampleTrigger trig).ports = s.ports ∧
    (s.sampleTrigger trig).store = s.store ∧ (s.sampleTrigger trig).library = s.library ∧
    (s.sampleTrigger trig).phrases = s.phrases ∧ (s.sampleTrigger trig).queue = s.queue ∧
    (s.sampleTrigger trig).expander = s.expander ∧ (s.sampleTrigger trig).monitor = s.monitor ∧
    (s.sampleTrigger trig).results = s.results ∧ (s.sampleTrigger trig).notices = s.notices ∧
    (s.sampleTrigger trig).setup = s.setup ∧ (s.sampleTrigger trig).link = s.link ∧
    (s.sampleTrigger trig).pending = s.pending := by
  simp [State.sampleTrigger]

/-- What `State.sampleTimeout` leaves unchanged: all but seq, moments. -/
@[simp] theorem State.sampleTimeout_frame (s : State) :
    (s.sampleTimeout).synth = s.synth ∧ (s.sampleTimeout).ports = s.ports ∧
    (s.sampleTimeout).store = s.store ∧ (s.sampleTimeout).library = s.library ∧
    (s.sampleTimeout).phrases = s.phrases ∧ (s.sampleTimeout).queue = s.queue ∧
    (s.sampleTimeout).expander = s.expander ∧ (s.sampleTimeout).monitor = s.monitor ∧
    (s.sampleTimeout).results = s.results ∧ (s.sampleTimeout).notices = s.notices ∧
    (s.sampleTimeout).setup = s.setup ∧ (s.sampleTimeout).link = s.link ∧
    (s.sampleTimeout).pending = s.pending := by
  unfold State.sampleTimeout
  repeat' split
  all_goals simp

/-- What `State.sampleMonitor` leaves unchanged: all but monitor, notices, moments. -/
@[simp] theorem State.sampleMonitor_frame (currents : PerPhase Nat) (s : State) :
    (s.sampleMonitor currents).synth = s.synth ∧ (s.sampleMonitor currents).ports = s.ports ∧
    (s.sampleMonitor currents).store = s.store ∧ (s.sampleMonitor currents).library = s.library ∧
    (s.sampleMonitor currents).phrases = s.phrases ∧ (s.sampleMonitor currents).queue = s.queue ∧
    (s.sampleMonitor currents).expander = s.expander ∧ (s.sampleMonitor currents).seq = s.seq ∧
    (s.sampleMonitor currents).results = s.results ∧ (s.sampleMonitor currents).setup = s.setup ∧
    (s.sampleMonitor currents).link = s.link ∧ (s.sampleMonitor currents).pending = s.pending := by
  unfold State.sampleMonitor
  repeat' split
  all_goals simp

/-- What `State.emit` leaves unchanged: all but ports, seq, monitor, notices, moments. -/
@[simp] theorem State.emit_frame (before : Word) (currents : PerPhase Nat) (s : State) :
    (s.emit before currents).synth = s.synth ∧ (s.emit before currents).store = s.store ∧
    (s.emit before currents).library = s.library ∧ (s.emit before currents).phrases = s.phrases ∧
    (s.emit before currents).queue = s.queue ∧ (s.emit before currents).expander = s.expander ∧
    (s.emit before currents).results = s.results ∧ (s.emit before currents).setup = s.setup ∧
    (s.emit before currents).link = s.link ∧ (s.emit before currents).pending = s.pending := by
  simp [State.emit]

/-- What `State.serveWork` leaves unchanged: all but store. -/
@[simp] theorem State.serveWork_frame (s : State) :
    (s.serveWork).synth = s.synth ∧ (s.serveWork).ports = s.ports ∧ (s.serveWork).library = s.library ∧
    (s.serveWork).phrases = s.phrases ∧ (s.serveWork).queue = s.queue ∧
    (s.serveWork).expander = s.expander ∧ (s.serveWork).seq = s.seq ∧ (s.serveWork).monitor = s.monitor ∧
    (s.serveWork).results = s.results ∧ (s.serveWork).notices = s.notices ∧ (s.serveWork).setup = s.setup ∧
    (s.serveWork).link = s.link ∧ (s.serveWork).moments = s.moments ∧
    (s.serveWork).pending = s.pending := by
  simp [State.serveWork]

/-- What the arbiter's part of a sample changes. -/
@[simp] theorem State.serveWork_changes (s : State) :
    (s.serveWork).store =
      { s.store with job := s.store.job.map (ShapeJob.serve s.synth.leftover), spare := s.synth.leftover } := rfl

/-- What `State.produce` leaves unchanged: all but synth, ports, store, seq, monitor, notices, moments. -/
@[simp] theorem State.produce_frame (trig : Bool) (currents : PerPhase Nat) (s : State) :
    (s.produce trig currents).library = s.library ∧ (s.produce trig currents).phrases = s.phrases ∧
    (s.produce trig currents).queue = s.queue ∧ (s.produce trig currents).expander = s.expander ∧
    (s.produce trig currents).results = s.results ∧ (s.produce trig currents).setup = s.setup ∧
    (s.produce trig currents).link = s.link ∧ (s.produce trig currents).pending = s.pending := by
  simp [State.produce]

/-- What `State.completeOverdue` leaves unchanged: all but store, link, moments. -/
@[simp] theorem State.completeOverdue_frame (s : State) :
    (s.completeOverdue).synth = s.synth ∧ (s.completeOverdue).ports = s.ports ∧
    (s.completeOverdue).library = s.library ∧ (s.completeOverdue).phrases = s.phrases ∧
    (s.completeOverdue).queue = s.queue ∧ (s.completeOverdue).expander = s.expander ∧
    (s.completeOverdue).seq = s.seq ∧ (s.completeOverdue).monitor = s.monitor ∧
    (s.completeOverdue).results = s.results ∧ (s.completeOverdue).notices = s.notices ∧
    (s.completeOverdue).setup = s.setup ∧ (s.completeOverdue).pending = s.pending := by
  unfold State.completeOverdue
  repeat' split
  all_goals simp

end Sys2Proof.Machine
end

