-- ==== Sys2Proof/Laws/Link.lean ====
section
/-! SUPPORT. The link interface: what each of its operations leaves unchanged. -/

namespace Sys2Proof.Machine

/-- What `State.handOver` leaves unchanged: all but synth, store, library, phrases, queue, expander, seq,
monitor, results, notices, setup, link, moments. -/
@[simp] theorem State.handOver_frame (i : Instr) (s : State) :
    (s.handOver i).ports = s.ports ∧ (s.handOver i).pending = s.pending := by
  cases i <;> simp [State.handOver]

/-- What `State.takeRequest` leaves unchanged: all but synth, store, library, phrases, queue, expander, seq,
monitor, results, notices, setup, link, moments. -/
@[simp] theorem State.takeRequest_frame (i : Instr) (s : State) :
    (s.takeRequest i).ports = s.ports ∧ (s.takeRequest i).pending = s.pending := by
  unfold State.takeRequest
  repeat' split
  all_goals simp

/-- What `State.takeParsed` leaves unchanged: all but synth, store, library, phrases, queue, expander, seq,
monitor, results, notices, setup, link, moments. -/
@[simp] theorem State.takeParsed_frame (p : Parsed) (s : State) :
    (s.takeParsed p).ports = s.ports ∧ (s.takeParsed p).pending = s.pending := by
  unfold State.takeParsed
  repeat' split
  all_goals simp

/-- What `State.takeFrame` leaves unchanged: all but synth, store, library, phrases, queue, expander, seq,
monitor, results, notices, setup, link, moments. -/
@[simp] theorem State.takeFrame_frame (kind tag : Byte) (payload : List Byte) (good : Bool) (s : State) :
    (s.takeFrame kind tag payload good).ports = s.ports ∧
    (s.takeFrame kind tag payload good).pending = s.pending := by
  unfold State.takeFrame
  repeat' split
  all_goals simp

/-- What `State.discardFrame` leaves unchanged: all but notices, link. -/
@[simp] theorem State.discardFrame_frame (s : State) :
    (s.discardFrame).synth = s.synth ∧ (s.discardFrame).ports = s.ports ∧
    (s.discardFrame).store = s.store ∧ (s.discardFrame).library = s.library ∧
    (s.discardFrame).phrases = s.phrases ∧ (s.discardFrame).queue = s.queue ∧
    (s.discardFrame).expander = s.expander ∧ (s.discardFrame).seq = s.seq ∧
    (s.discardFrame).monitor = s.monitor ∧ (s.discardFrame).results = s.results ∧
    (s.discardFrame).setup = s.setup ∧ (s.discardFrame).moments = s.moments ∧
    (s.discardFrame).pending = s.pending := by
  simp [State.discardFrame]

/-- What `State.beginFrame` leaves unchanged: all but notices, link. -/
@[simp] theorem State.beginFrame_frame (s : State) :
    (s.beginFrame).synth = s.synth ∧ (s.beginFrame).ports = s.ports ∧ (s.beginFrame).store = s.store ∧
    (s.beginFrame).library = s.library ∧ (s.beginFrame).phrases = s.phrases ∧
    (s.beginFrame).queue = s.queue ∧ (s.beginFrame).expander = s.expander ∧ (s.beginFrame).seq = s.seq ∧
    (s.beginFrame).monitor = s.monitor ∧ (s.beginFrame).results = s.results ∧
    (s.beginFrame).setup = s.setup ∧ (s.beginFrame).moments = s.moments ∧
    (s.beginFrame).pending = s.pending := by
  simp [State.beginFrame]

/-- What `State.headerByte` leaves unchanged: all but notices, link. -/
@[simp] theorem State.headerByte_frame (byte : Byte) (s : State) :
    (s.headerByte byte).synth = s.synth ∧ (s.headerByte byte).ports = s.ports ∧
    (s.headerByte byte).store = s.store ∧ (s.headerByte byte).library = s.library ∧
    (s.headerByte byte).phrases = s.phrases ∧ (s.headerByte byte).queue = s.queue ∧
    (s.headerByte byte).expander = s.expander ∧ (s.headerByte byte).seq = s.seq ∧
    (s.headerByte byte).monitor = s.monitor ∧ (s.headerByte byte).results = s.results ∧
    (s.headerByte byte).setup = s.setup ∧ (s.headerByte byte).moments = s.moments ∧
    (s.headerByte byte).pending = s.pending := by
  unfold State.headerByte
  dsimp only
  rcases s.link.rx.header with _ | ⟨a, _ | ⟨b, _ | ⟨c, _ | ⟨d, t⟩⟩⟩⟩
  case cons.cons.cons.nil => dsimp only; by_cases h : Config.maxPayload < (half c byte).toNat <;> simp [h]
  all_goals simp

/-- What `State.payloadByte` leaves unchanged: all but link. -/
@[simp] theorem State.payloadByte_frame (byte : Byte) (s : State) :
    (s.payloadByte byte).synth = s.synth ∧ (s.payloadByte byte).ports = s.ports ∧
    (s.payloadByte byte).store = s.store ∧ (s.payloadByte byte).library = s.library ∧
    (s.payloadByte byte).phrases = s.phrases ∧ (s.payloadByte byte).queue = s.queue ∧
    (s.payloadByte byte).expander = s.expander ∧ (s.payloadByte byte).seq = s.seq ∧
    (s.payloadByte byte).monitor = s.monitor ∧ (s.payloadByte byte).results = s.results ∧
    (s.payloadByte byte).notices = s.notices ∧ (s.payloadByte byte).setup = s.setup ∧
    (s.payloadByte byte).moments = s.moments ∧ (s.payloadByte byte).pending = s.pending := by
  simp [State.payloadByte]

/-- What `State.completeFrame` leaves unchanged: all but synth, store, library, phrases, queue, expander,
seq, monitor, results, notices, setup, link, moments. -/
@[simp] theorem State.completeFrame_frame (lo hi : Byte) (s : State) :
    (s.completeFrame lo hi).ports = s.ports ∧ (s.completeFrame lo hi).pending = s.pending := by
  unfold State.completeFrame
  dsimp only
  generalize (crcBytes crcStart (s.link.rx.header ++ s.link.rx.payload) == half lo hi) = good
  cases s.link.rx.marked
  · rcases s.link.rx.header with _ | ⟨a, _ | ⟨b, _ | ⟨c, _ | ⟨d, _ | ⟨e, t⟩⟩⟩⟩⟩ <;> simp
  · simp

/-- What `State.checkByte` leaves unchanged: all but synth, store, library, phrases, queue, expander, seq,
monitor, results, notices, setup, link, moments. -/
@[simp] theorem State.checkByte_frame (byte : Byte) (s : State) :
    (s.checkByte byte).ports = s.ports ∧ (s.checkByte byte).pending = s.pending := by
  unfold State.checkByte
  repeat' split
  all_goals simp

/-- What `State.goodByte` leaves unchanged: all but synth, store, library, phrases, queue, expander, seq,
monitor, results, notices, setup, link, moments. -/
@[simp] theorem State.goodByte_frame (byte : Byte) (s : State) :
    (s.goodByte byte).ports = s.ports ∧ (s.goodByte byte).pending = s.pending := by
  unfold State.goodByte
  repeat' split
  all_goals simp

/-- What `State.brokenByte` leaves unchanged: all but notices, link. -/
@[simp] theorem State.brokenByte_frame (s : State) :
    (s.brokenByte).synth = s.synth ∧ (s.brokenByte).ports = s.ports ∧ (s.brokenByte).store = s.store ∧
    (s.brokenByte).library = s.library ∧ (s.brokenByte).phrases = s.phrases ∧
    (s.brokenByte).queue = s.queue ∧ (s.brokenByte).expander = s.expander ∧ (s.brokenByte).seq = s.seq ∧
    (s.brokenByte).monitor = s.monitor ∧ (s.brokenByte).results = s.results ∧
    (s.brokenByte).setup = s.setup ∧ (s.brokenByte).moments = s.moments ∧
    (s.brokenByte).pending = s.pending := by
  unfold State.brokenByte
  repeat' split
  all_goals simp

/-- What `State.receiveByte` leaves unchanged: all but synth, store, library, phrases, queue, expander, seq,
monitor, results, notices, setup, link, moments. -/
@[simp] theorem State.receiveByte_frame (byte : Byte) (framingError : Bool) (s : State) :
    (s.receiveByte byte framingError).ports = s.ports ∧
    (s.receiveByte byte framingError).pending = s.pending := by
  unfold State.receiveByte
  repeat' split
  all_goals simp

/-- What `State.feed` leaves unchanged: all but synth, store, library, phrases, queue, expander, seq,
monitor, results, notices, setup, link, moments. -/
@[simp] theorem State.feed_frame (bytes : List Byte) (s : State) :
    (s.feed bytes).ports = s.ports ∧ (s.feed bytes).pending = s.pending := by
  induction bytes generalizing s with
  | nil => simp [State.feed]
  | cons b bs ih =>
    have h := ih (s.receiveByte b false)
    simp only [State.feed, List.foldl_cons] at h ⊢
    simpa using h

/-- What `State.requestFrame` leaves unchanged: all but synth, store, library, phrases, queue, expander, seq,
monitor, results, notices, setup, link, moments. -/
@[simp] theorem State.requestFrame_frame (i : Instr) (s : State) :
    (s.requestFrame i).ports = s.ports ∧ (s.requestFrame i).pending = s.pending := by
  unfold State.requestFrame State.wholeFrame
  repeat' split
  all_goals simp

end Sys2Proof.Machine
end

