-- ==== Sys2Proof/Laws/Step.lean ====
section
/-! SUPPORT. What a command can do, said once: every next state of `exec` is one of the results of `Took`, and every
byte that is received does one of the things of `Heard`. Later proofs take these cases and do not unfold `exec`. -/

namespace Sys2Proof.Machine

/-- The results that a command can have. -/
inductive Took (s : State) : State → Prop
  /-- Nothing takes place. -/
  | same : Took s s
  /-- A full reset begins. -/
  | reset : Took s s.beginReset
  /-- A full reset completes. -/
  | restart (baud : Nat) (h : s.link.inReset = true) :
      Took s (State.latch .restarted
        { s with link := { s.link with ready := true, inReset := false, baud := baud } })
  /-- A moment that is due is taken. -/
  | moment (m : Moment) (h : s.due m = true) : Took s (s.take m)
  /-- A ramp completes. -/
  | ramp (r : RampId) : Took s { s with synth := s.synth.finishRamp r }
  /-- A sample is produced. -/
  | sample (trig : Bool) (currents : PerPhase Nat) (h : s.link.inReset = false) :
      Took s (s.settle.completeOverdue.produce trig currents)
  /-- Link-side work completes. -/
  | work (h : s.store.job.isSome = true) : Took s s.completeWork
  /-- A request arrives whole and is taken. -/
  | request (i : Instr) (kind : Kind) (tag : Byte) (payload : List Byte)
      (hi : i.request? = some (kind, tag, payload)) (h : s.Listening) :
      Took s ((s.openRequest kind.code tag).takeRequest i)
  /-- Another frame arrives whole and is taken. -/
  | frame (kind tag : Byte) (payload : List Byte) (good : Bool) (h : s.Listening) :
      Took s (s.takeFrame kind tag payload good)
  /-- A frame arrives whole while READY is low. -/
  | overrun (h : s.link.inReset = false) : Took s (s.latch .linkOverrun)
  /-- Bytes are received. -/
  | bytes (bs : List Byte) : Took s (s.feed bs)
  /-- A byte with a framing error is received. -/
  | broken (h : s.link.inReset = false) : Took s s.brokenByte
  /-- The gap timer expires. -/
  | gap (h : s.link.rx.gapRunning = true) : Took s s.discardFrame
  /-- The last byte of a reply has been sent. -/
  | sent (r : Reply) (h : s.link.reply = some r) :
      Took s { s with link := { s.link with ready := true, inProgress := none, reply := none } }

/-- A whole frame that finds the receiver in HUNT is taken or overrun. -/
theorem State.wholeFrame_took {s : State} {payload : List Byte} (hreset : s.link.inReset = false)
    (hfits : s.frameFits payload = true) (taken : State → State) (h : s.Listening → Took s (taken s)) :
    Took s (s.wholeFrame taken) := by
  unfold State.wholeFrame
  split
  · rename_i hready
    refine h ⟨hreset, hready, ?_⟩
    simp only [State.frameFits, Bool.and_eq_true, beq_iff_eq] at hfits
    exact hfits.1
  · exact .overrun hreset

/-- What the arrival of a request can do. -/
theorem State.requestFrame_took (i : Instr) (s : State) : Took s (s.requestFrame i) := by
  unfold State.requestFrame
  split
  · exact .same
  · rename_i hreset
    split
    · exact .same
    · rename_i kind tag payload hi
      split
      · rename_i hfits
        exact State.wholeFrame_took (by simpa using hreset) hfits _ fun h => .request i kind tag payload hi h
      · exact .bytes _

/-- What a moment's command can do. -/
theorem State.takeIfDue_took (m : Moment) (s : State) : Took s (s.takeIfDue m) := by
  unfold State.takeIfDue
  split
  · rename_i h; exact .moment m h
  · exact .same

/-- What a command can do: a next state is one of the results above. -/
theorem exec_took {c : Instr} {s t : State} (h : exec c s = .next t) : Took s t := by
  cases c
  case powerOn => cases h; exact .reset
  case resetN => cases h; exact .reset
  case fullResetComplete strap2 strap1 =>
    cases h
    split
    · rename_i hr; exact .restart _ hr
    · exact .same
  case sample trig iA iB iC =>
    cases h
    split
    · exact .same
    · rename_i hr; exact .sample _ _ (by simpa using hr)
  case rampComplete r => cases h; exact .ramp r
  case qualifiedEdge => cases h; exact State.takeIfDue_took _ s
  case stepStart => cases h; exact State.takeIfDue_took _ s
  case stepEnd => cases h; exact State.takeIfDue_took _ s
  case endMarkerHandover => cases h; exact State.takeIfDue_took _ s
  case triggerTimeout => cases h; exact State.takeIfDue_took _ s
  case trip => cases h; exact State.takeIfDue_took _ s
  case stopRampComplete => cases h; exact State.takeIfDue_took _ s
  case byteReceived byte framingError =>
    cases h
    by_cases hr : s.link.inReset = true
    · rw [show s.receiveByte byte framingError = s by simp [State.receiveByte, hr]]; exact .same
    · cases framingError
      · exact .bytes [byte]
      · rw [show s.receiveByte byte true = s.brokenByte by simp [State.receiveByte, hr]]
        exact .broken (by simpa using hr)
  case gapTimeout =>
    cases h
    split
    · rename_i hg; exact .gap hg
    · exact .same
  case badframe kind tag payload crcError =>
    cases h
    split
    · exact .same
    · rename_i hr
      split
      · rename_i hf
        simp only [Bool.and_eq_true] at hf
        exact State.wholeFrame_took (by simpa using hr) hf.1 _ fun h => .frame _ _ _ _ h
      · exact .bytes _
  case unknownKind kind tag payload =>
    cases h
    split
    · exact .same
    · rename_i hr
      split
      · rename_i hf
        simp only [Bool.and_eq_true] at hf
        exact State.wholeFrame_took (by simpa using hr) hf.1 _ fun h => .frame _ _ _ _ h
      · exact .bytes _
  case replySent =>
    simp only [exec, execReplySent] at h
    split at h
    · cases h; exact .same
    · rename_i r hr
      cases h
      split
      · exact .reset
      · exact .sent r hr
  case shapeAppendComplete =>
    simp only [exec, execShapeAppendComplete] at h
    split at h
    · rename_i hj
      cases h
      split
      · have := Took.work (s := s) (by simp [hj])
        simpa [State.completeWork, hj] using this
      · exact .same
    · cases h; exact .same
  case shapeSumComplete =>
    simp only [exec, execShapeSumComplete] at h
    split at h
    · rename_i hj
      cases h
      split
      · have := Took.work (s := s) (by simp [hj])
        simpa [State.completeWork, hj] using this
      · exact .same
    · cases h; exact .same
  case shapeCompareComplete =>
    simp only [exec, execShapeCompareComplete] at h
    split at h
    · rename_i hj
      cases h
      split
      · have := Took.work (s := s) (by simp [hj])
        simpa [State.completeWork, hj] using this
      · exact .same
    · cases h; exact .same
  all_goals cases h; exact State.requestFrame_took _ s

/-- What receiving a byte without a framing error can do. -/
inductive Heard (s : State) : State → Prop
  /-- Nothing takes place. -/
  | same : Heard s s
  /-- The byte joins the frame in assembly, whose mark stays. -/
  | stored (rx : Receiver) (hm : rx.marked = s.link.rx.marked) (hs : s.link.rx.state ≠ .hunt)
      (ht : rx.state ≠ .hunt) : Heard s (s.setRx rx)
  /-- A frame begins in HUNT. -/
  | begun (h : s.link.rx.state = .hunt) (hr : s.link.inReset = false) : Heard s s.beginFrame
  /-- The frame in assembly is discarded with LINK_ERROR. -/
  | discarded : Heard s s.discardFrame
  /-- The frame in assembly is complete and discarded without a check. -/
  | dropped : Heard s (s.setRx Receiver.idle)
  /-- The frame in assembly is complete and taken. -/
  | taken (kind tag : Byte) (payload : List Byte) (good : Bool) (hs : s.link.rx.state ≠ .hunt)
      (hm : s.link.rx.marked = false) : Heard s ((s.setRx Receiver.idle).takeFrame kind tag payload good)

/-- What receiving a byte without a framing error can do: one of the results above. -/
theorem State.receiveByte_heard (byte : Byte) (s : State) : Heard s (s.receiveByte byte false) := by
  unfold State.receiveByte
  split
  · exact .same
  · rename_i hr
    simp only [Bool.false_eq_true, if_false]
    unfold State.goodByte
    split
    · rename_i hs
      split
      · exact .begun hs (by simpa using hr)
      · exact .same
    · rename_i hs
      unfold State.headerByte
      dsimp only
      split
      · split
        · exact .discarded
        · exact .stored _ rfl (by simp [hs]) (by dsimp only; split <;> simp)
      · exact .stored _ rfl (by simp [hs]) (by simp [hs])
    · rename_i hs
      unfold State.payloadByte
      exact .stored _ rfl (by simp [hs]) (by dsimp only; split <;> simp)
    · rename_i hs
      unfold State.checkByte
      split
      · exact .stored _ rfl (by simp [hs]) (by simp [hs])
      · unfold State.completeFrame
        dsimp only
        split
        · exact .dropped
        · rename_i hm
          split
          · exact .taken _ _ _ _ (by simp [hs]) (by simpa using hm)
          · exact .dropped

/-- A property that every received byte keeps is kept by bytes received one after another. -/
theorem State.feed_keeps {P : State → Prop} (hbyte : ∀ s t, P s → Heard s t → P t) (bytes : List Byte) (s : State)
    (h : P s) : P (s.feed bytes) := by
  induction bytes generalizing s with
  | nil => exact h
  | cons b bs ih => exact ih _ (hbyte _ _ h (State.receiveByte_heard b s))

end Sys2Proof.Machine
end

