-- ==== Sys2Proof/Laws/RunOk.lean ====
section
/-! SUPPORT. The run sequencer, the expander and the fault record stay in agreement (`State.RunOk`) under each
operation. -/

namespace Sys2Proof.Machine

/-- `State.RunOk` depends on the sequencer, the expander, the fault record and the waiting expiry alone. -/
theorem State.RunOk.of_eq {s t : State} (h : s.RunOk) (hs : t.seq = s.seq) (he : t.expander = s.expander)
    (hf : t.monitor.fault = s.monitor.fault) (hm : t.moments.timeout = s.moments.timeout) : t.RunOk := by
  obtain ⟨h1, h2, h3, h4, h5, h6, h7, h8, h9⟩ := h
  constructor <;> simp_all

/-- No expiry waits for a step that is not in EDGE. -/
theorem State.RunOk.timeout_false {s : State} (h : s.RunOk) (hp : s.seq.startPhase ≠ .edge) :
    s.moments.timeout = false := by
  by_contra hc
  exact hp (h.timeout (by simpa using hc))

/-- Without a staged step the start phase is NONE. -/
theorem State.RunOk.phase_none {s : State} (h : s.RunOk) (hp : s.expander.slot.isStep = false) :
    s.seq.startPhase = .none := by
  have := h.phase
  rw [hp] at this
  simpa using this

/-- No expiry waits in FAULT. -/
theorem State.RunOk.timeout_ne_fault {s : State} (h : s.RunOk) (ht : s.moments.timeout = true)
    : s.seq.run ≠ .fault := by
  intro hr
  have h1 := h.timeout ht
  have h2 := (h.idle (by simp [hr, RunState.stages])).1
  have h3 := h.phase_none (by simp [h2, Staged.isStep])
  simp [h1] at h3

/-- `State.fillSlot` keeps `State.RunOk`. -/
theorem State.fillSlot_runOk {s : State} (h : s.RunOk) : s.fillSlot.RunOk := by
  rcases s.fillSlot_cases with e | ⟨hst, hemp, ⟨hseq, hmom, hfill⟩, hm⟩
  · rw [e]; exact h
  · obtain ⟨h1, h2, h3, h4, h5, h6, h7, h8, h9⟩ := h
    constructor
    · rw [hseq]; exact h1
    · rw [hseq]; exact h2
    · rw [hseq]; simpa using h3
    · rw [hseq]; simp [hst]
    · rcases hfill with ⟨c, a, b, d⟩ | ⟨o, a, b, d, e⟩ <;> simp [a, b, Staged.isStep]
    · rw [hseq]; intro hw; have := h6 hw; simp [hemp, Staged.isStep] at this
    · intro o ho
      rcases hfill with ⟨c, a, b, d⟩ | ⟨o', a, b, d, e⟩
      · simp [a] at ho
      · rw [d]; exact hm ⟨o', a⟩
    · intro hc
      rcases hfill with ⟨c, a, b, d⟩ | ⟨o', a, b, d, e⟩
      · exact d hc
      · rw [e]; exact h8 (hm ⟨o', a⟩)
    · rw [hmom]; simp

/-- `State.RunOk` depends on four fields of the sequencer, the expander,
    the fault record and the waiting expiry. -/
theorem State.RunOk.of_eq_core {s t : State} (h : s.RunOk) (h1 : t.seq.run = s.seq.run)
    (h2 : t.seq.remembered = s.seq.remembered)
   (h3 : t.seq.active = s.seq.active) (h4 : t.seq.startPhase = s.seq.startPhase) (he : t.expander = s.expander)
    (hf : t.monitor.fault = s.monitor.fault) (hm : t.moments.timeout = s.moments.timeout) : t.RunOk := by
  obtain ⟨h1, h2, h3, h4, h5, h6, h7, h8, h9⟩ := h
  constructor <;> simp_all

/-- The entry to OFF, FAULT or DISABLED with the run left behind meets `State.RunOk`. -/
theorem State.enterIdle_runOk {s : State} (run : RunState) (hr : run = .off ∨ run = .disabled ∨ run = .fault)
    (ha : s.seq.active = none) (hf : s.monitor.fault.isSome = (run == .fault))
    (he : s.expander.slot = .empty ∧ s.expander.context = none ∧ s.expander.stack = [])
    (hp : s.seq.startPhase = .none) (hm : s.moments.timeout = false) : (s.enterIdle run).RunOk := by
  constructor <;> rcases hr with rfl | rfl | rfl <;> simp_all [Monitor.rest, Staged.isStep]

/-- The entry to STOPPING with the run left behind meets `State.RunOk`. -/
theorem State.enterStopping_runOk {s : State}
    (ha : s.seq.active = none) (hf : s.monitor.fault = none)
    (he : s.expander.slot = .empty ∧ s.expander.context = none ∧ s.expander.stack = [])
    (hp : s.seq.startPhase = .none) (hm : s.moments.timeout = false) : (s.enterStopping).RunOk := by
  constructor <;> simp_all [Staged.isStep, RunState.stages]

/-- `State.latch` keeps `State.RunOk`. -/
theorem State.latch_runOk {s : State} (n) (h : s.RunOk) : (s.latch n).RunOk := h.of_eq (by simp) (by simp)
    (by simp) (by simp)

/-- Outside FAULT there is no fault record. -/
theorem State.RunOk.noFault {s : State} (h : s.RunOk) (hr : s.seq.run ≠ .fault) : s.monitor.fault = none := by
  have h3 := h.fault
  have : (s.seq.run == .fault) = false := by simpa using hr
  rw [this] at h3; simpa using h3

/-- `State.takeMarker` keeps `State.RunOk`. -/
theorem State.takeMarker_runOk {s : State} (o) (h : s.RunOk) (ha : s.seq.active = none)
    (hr : s.seq.run.stages = true)
   (hm : s.expander.slot = .marker o) : (s.takeMarker o).RunOk := by
  have hf : s.monitor.fault = none := h.noFault (by rintro e; simp [e, RunState.stages] at hr)
  have hc := h.marker _ hm
  have hst := h.stack hc
  unfold State.takeMarker
  split
  · apply State.latch_runOk
    apply State.enterIdle_runOk <;> simp_all
  · cases o
    · apply State.enterStopping_runOk <;> simp_all
    · apply State.fillSlot_runOk
      constructor <;> simp_all [Staged.isStep, RunState.stages]

/-- An evaluation begins in a phase other than NONE. -/
theorem initialPhase_ne (c : StartCond) : c.initialPhase ≠ .none := by cases c <;> simp [StartCond.initialPhase]

/-- `State.beginEvaluation` keeps `State.RunOk`. -/
theorem State.beginEvaluation_runOk {s : State} (copy) (h : s.RunOk) (hs : s.expander.slot.isStep = true) :
    (s.beginEvaluation copy).RunOk := by
  obtain ⟨h1, h2, h3, h4, h5, h6, h7, h8, h9⟩ := h
  constructor <;> simp_all [initialPhase_ne, Moments.fresh]

/-- `State.enterRun` keeps `State.RunOk`. -/
theorem State.enterRun_runOk {s : State} (run : RunState) (h : s.RunOk) (h0 : s.seq.run.stages = true)
    (hr : run = .waiting ∨ run = .starved ∨ run = .parked)
    (ha : s.seq.active = none) (hw : run = .waiting → s.expander.slot.isStep = true) :
    (s.enterRun run).RunOk := by
  have hf : s.monitor.fault = none := h.noFault (by rintro e; simp [e, RunState.stages] at h0)
  obtain ⟨h1, h2, h3, h4, h5, h6, h7, h8, h9⟩ := h
  constructor <;> rcases hr with rfl | rfl | rfl <;> simp_all [RunState.stages]

/-- Outside ACTIVE and PAUSED there is no active step. -/
theorem State.RunOk.active_none {s : State} (h : s.RunOk) (h1 : s.seq.run ≠ .active)
    (h2 : s.seq.run ≠ .paused) : s.seq.active = none := by
  by_contra hc
  have := h.active (Option.isSome_iff_ne_none.mpr hc)
  simp_all

/-- `State.actOnStaged` keeps `State.RunOk`. -/
theorem State.actOnStaged_runOk {s : State} (h : s.RunOk) : s.actOnStaged.RunOk := by
  unfold State.actOnStaged
  split
  · exact h
  · rename_i copy hs
    have his : s.expander.slot.isStep = true := by simp [hs, Staged.isStep]
    split <;> try exact h
    · exact State.beginEvaluation_runOk _ h his
    · rename_i hr
      apply State.beginEvaluation_runOk
      · exact State.enterRun_runOk _ h (by simp [hr, RunState.stages]) (.inl rfl)
          (h.active_none (by simp [hr]) (by simp [hr])) (fun _ => his)
      · simpa using his
    · split
      · exact State.beginEvaluation_runOk _ h his
      · exact h
    · split
      · exact State.beginEvaluation_runOk _ h his
      · exact h
  · rename_i o hs
    split <;> try exact h
    all_goals
      rename_i hr
      exact State.takeMarker_runOk _ h (h.active_none (by simp [hr]) (by simp [hr])) (by simp [hr,
          RunState.stages]) hs

/-- `State.stage` keeps `State.RunOk`. -/
theorem State.stage_runOk {s : State} (h : s.RunOk) : s.stage.RunOk := by
  unfold State.stage
  split
  · exact State.actOnStaged_runOk (State.fillSlot_runOk h)
  · exact h

/-- `State.endActive` keeps `State.RunOk`. -/
theorem State.endActive_runOk {s : State} (r) (h : s.RunOk) : (s.endActive r).RunOk := by
  obtain ⟨h1, h2, h3, h4, h5, h6, h7, h8, h9⟩ := h
  constructor <;> simp_all

/-- `State.afterEnd` keeps `State.RunOk`. -/
theorem State.afterEnd_runOk {s : State} (h : s.RunOk) (ha : s.seq.active = none) (hr : s.seq.run = .active)
    : s.afterEnd.RunOk := by
  have hst : s.seq.run.stages = true := by simp [hr, RunState.stages]
  unfold State.afterEnd
  split
  · rename_i copy hs
    have his : s.expander.slot.isStep = true := by simp [hs, Staged.isStep]
    split
    · exact State.beginEvaluation_runOk _ h his
    · exact State.beginEvaluation_runOk _ (State.enterRun_runOk _ h hst (.inl rfl) ha fun _ => his)
        (by simpa using his)
  · rename_i o hs
    exact State.takeMarker_runOk _ h ha hst hs
  · exact State.latch_runOk _ (State.enterRun_runOk _ h hst (.inr (.inl rfl)) ha (by simp))

/-- What an early leave does to the expander, the sequencer and the moments. -/
theorem State.discardExpansion_changes (s : State) :
    s.discardExpansion.expander = { context := none, stack := [], slot := .empty } ∧
    s.discardExpansion.seq = { s.seq with startPhase := .none, timeoutCount := 0 } ∧
    s.discardExpansion.moments = { s.moments with timeout := false } := by
  unfold State.discardExpansion
  split <;> simp

/-- A run left with its expansion discarded meets `State.RunOk`. -/
theorem State.leave_runOk {s : State} (run : RunState) (hr : run = .off ∨ run = .disabled ∨ run = .fault ∨ run = .stopping)
    (ha : s.seq.active = none) (hf : s.monitor.fault.isSome = (run == .fault)) :
    (s.discardExpansion.enterEnd run).RunOk := by
  have hd := s.discardExpansion_changes
  unfold State.enterEnd
  split
  · rename_i h
    subst h
    have hf' : s.monitor.fault = none := by
      have hn : (RunState.stopping == RunState.fault) = false := rfl
      rw [hn] at hf; simpa using hf
    clear hf
    apply State.enterStopping_runOk <;> simp_all [State.discardExpansion_changes]
  · apply State.enterIdle_runOk <;> simp_all [State.discardExpansion_changes]

/-- `State.leaveEarly` keeps `State.RunOk`. -/
theorem State.leaveEarly_runOk {s : State} (reason) (run : RunState)
    (hr : run = .off ∨ run = .disabled ∨ run = .fault ∨ run = .stopping)
    (hf : s.monitor.fault.isSome = (run == .fault)) : (s.leaveEarly reason run).RunOk := by
  apply State.leave_runOk <;> simp_all

/-- `State.leaveTimedOut` keeps `State.RunOk`. -/
theorem State.leaveTimedOut_runOk {s : State} (run : RunState)
    (hr : run = .off ∨ run = .disabled ∨ run = .fault ∨ run = .stopping)
    (hf : s.monitor.fault.isSome = (run == .fault)) : (s.leaveTimedOut run).RunOk := by
  apply State.leave_runOk <;> simp_all

/-- `State.completeStep` keeps `State.RunOk`. -/
theorem State.completeStep_runOk {s : State} (h : s.RunOk) (hr : s.seq.run = .active)
    : s.completeStep.RunOk := by
  apply State.afterEnd_runOk (State.endActive_runOk _ h) <;> simp_all

/-- `State.expire` keeps `State.RunOk`. -/
theorem State.expire_runOk {s : State} (h : s.RunOk) (hf : s.seq.run ≠ .fault) : s.expire.RunOk := by
  have := h.noFault hf
  unfold State.expire
  split
  · exact State.latch_runOk _ (State.leaveTimedOut_runOk _ (.inl rfl) (by simp_all))
  · exact (State.leaveTimedOut_runOk _ (by simp) (by simp_all))

/-- `State.releaseHeld` keeps `State.RunOk`. -/
theorem State.releaseHeld_runOk {s : State} (h : s.RunOk) : s.releaseHeld.RunOk := by
  unfold State.releaseHeld
  split
  · split
    · exact State.beginEvaluation_runOk _ h (by simp_all [Staged.isStep])
    · exact h
    · exact h
  · exact h

/-- `State.armRun` keeps `State.RunOk`. -/
theorem State.armRun_runOk {s : State} (h : s.RunOk) (hr : s.seq.run = .off) : s.armRun.RunOk := by
  have hf := h.noFault (by simp [hr])
  have ha := h.active_none (by simp [hr]) (by simp [hr])
  have hi := h.idle (by simp [hr, RunState.stages])
  obtain ⟨h1, h2, h3, h4, h5, h6, h7, h8, h9⟩ := h
  apply State.stage_runOk
  constructor <;> simp_all [RunState.stages]

/-- `State.leaveParked` keeps `State.RunOk`. -/
theorem State.leaveParked_runOk {s : State} (h : s.RunOk) (hr : s.seq.run = .parked) : s.leaveParked.RunOk := by
  have ha := h.active_none (by simp [hr]) (by simp [hr])
  have hst : s.seq.run.stages = true := by simp [hr, RunState.stages]
  have hf := h.noFault (by simp [hr])
  unfold State.leaveParked
  split
  · exact h
  · rename_i copy hs
    have his : s.expander.slot.isStep = true := by simp [hs, Staged.isStep]
    exact State.beginEvaluation_runOk _ (State.enterRun_runOk _ h hst (.inl rfl) ha fun _ => his)
        (by simpa using his)
  · rename_i o hs
    have hc := h.marker _ hs
    have hk := h.stack hc
    unfold State.takeMarker
    rw [if_neg (by simp)]
    cases o
    · apply State.enterStopping_runOk <;> simp_all
    · apply State.fillSlot_runOk
      constructor <;> simp_all [Staged.isStep, RunState.stages]

/-- `State.answer` keeps `State.RunOk`. -/
theorem State.answer_runOk {s : State} (o d p) (h : s.RunOk) : (s.answer o d p).RunOk := h.of_eq (by simp)
    (by simp) (by simp) (by simp)

/-- `State.done` keeps `State.RunOk`. -/
theorem State.done_runOk {s : State} (d p) (h : s.RunOk) : (s.done d p).RunOk := h.of_eq (by simp) (by simp)
    (by simp) (by simp)

/-- `State.refuse` keeps `State.RunOk`. -/
theorem State.refuse_runOk {s : State} (d) (h : s.RunOk) : (s.refuse d).RunOk := h.of_eq (by simp) (by simp)
    (by simp) (by simp)

/-- `State.takeRunStart` keeps `State.RunOk`. -/
theorem State.takeRunStart_runOk {s : State} (h : s.RunOk) : s.takeRunStart.RunOk := by
  unfold State.takeRunStart
  split <;> try exact State.refuse_runOk _ h
  · rename_i hr
    split
    · exact State.refuse_runOk _ h
    · exact State.done_runOk _ _ (State.armRun_runOk h hr)
  · rename_i hr
    split
    · exact State.refuse_runOk _ h
    · exact State.done_runOk _ _ (State.leaveParked_runOk h hr)

/-- `State.takeRunPause` keeps `State.RunOk`. -/
theorem State.takeRunPause_runOk {s : State} (h : s.RunOk) : s.takeRunPause.RunOk := by
  unfold State.takeRunPause
  split
  · exact State.refuse_runOk _ h
  · rename_i r hp
    apply State.done_runOk
    obtain ⟨h1, h2, h3, h4, h5, h6, h7, h8, h9⟩ := h
    cases hr : s.seq.run <;> simp [hr, RunState.pausable] at hp <;> subst hp <;>
      constructor <;> simp_all [RunState.stages]

/-- The return to the remembered state keeps `State.RunOk`, and is not to FAULT. -/
theorem State.resume_runOk {s : State} (h : s.RunOk) (hr : s.seq.run = .paused) :
    (s.enterRun s.seq.resumed).RunOk ∧ (s.enterRun s.seq.resumed).seq.run ≠ .fault := by
  have hf := h.noFault (by simp [hr])
  obtain ⟨h1, h2, h3, h4, h5, h6, h7, h8, h9⟩ := h
  rw [hr] at h1
  obtain ⟨r, hrem⟩ := Option.isSome_iff_exists.mp (h1.trans rfl)
  cases r <;> refine ⟨?_, ?_⟩ <;> (try constructor) <;> simp_all [Sequencer.resumed, Remembered.run,
      RunState.stages]

/-- `State.afterResume` keeps `State.RunOk`. -/
theorem State.afterResume_runOk {s : State} (h : s.RunOk) (hf : s.seq.run ≠ .fault) : s.afterResume.RunOk := by
  unfold State.afterResume
  split
  · apply State.completeStep_runOk h; simp_all
  · split
    · exact State.expire_runOk h hf
    · split
      · exact State.actOnStaged_runOk h
      · exact State.releaseHeld_runOk h

/-- `State.takeRunResume` keeps `State.RunOk`. -/
theorem State.takeRunResume_runOk {s : State} (h : s.RunOk) : s.takeRunResume.RunOk := by
  unfold State.takeRunResume
  split
  · rename_i hr
    have := State.resume_runOk h hr
    exact State.done_runOk _ _ (State.afterResume_runOk this.1 this.2)
  · exact State.refuse_runOk _ h

/-- The entry to OFF or DISABLED that clears the fault record keeps `State.RunOk`. -/
theorem State.clearFault_idle {s : State} (run : RunState) (hr : run = .off ∨ run = .disabled) (h : s.RunOk)
    (h0 : s.seq.run.stages = false):
    (State.enterIdle run { s with monitor := { s.monitor with fault := none } }).RunOk := by
  have hi := h.idle h0
  have ha : s.seq.active = none := h.active_none (by rintro e; simp [e, RunState.stages] at h0)
      (by rintro e; simp [e, RunState.stages] at h0)
  have hp : s.seq.startPhase = .none := h.phase_none (by simp [hi, Staged.isStep])
  have ht := h.timeout_false (by simp [hp])
  apply State.enterIdle_runOk <;> (try simp_all)
  · rcases hr with rfl | rfl <;> simp
  · rcases hr with rfl | rfl <;> simp

/-- The entry to OFF or DISABLED from outside a run keeps `State.RunOk`. -/
theorem State.idle_runOk {s : State} (run : RunState) (hr : run = .off ∨ run = .disabled) (h : s.RunOk)
    (h0 : s.seq.run.stages = false) (hf : s.seq.run ≠ .fault):
    (s.enterIdle run).RunOk := by
  have hi := h.idle h0
  have hf := h.noFault hf
  have ha : s.seq.active = none := h.active_none (by rintro e; simp [e, RunState.stages] at h0)
      (by rintro e; simp [e, RunState.stages] at h0)
  have hp : s.seq.startPhase = .none := h.phase_none (by simp [hi, Staged.isStep])
  have ht := h.timeout_false (by simp [hp])
  apply State.enterIdle_runOk <;> (try simp_all)
  · rcases hr with rfl | rfl <;> simp
  · rcases hr with rfl | rfl <;> simp

/-- `State.forceDisable` keeps `State.RunOk`. -/
theorem State.forceDisable_runOk {s : State} (h : s.RunOk) : s.forceDisable.RunOk := by
  unfold State.forceDisable
  split
  all_goals rename_i hr
  · exact h
  · exact State.idle_runOk _ (.inr rfl) h (by simp [hr, RunState.stages]) (by simp [hr])
  · exact State.idle_runOk _ (.inr rfl) h (by simp [hr, RunState.stages]) (by simp [hr])
  · exact State.clearFault_idle _ (.inr rfl) h (by simp [hr, RunState.stages])
  all_goals exact State.leaveEarly_runOk _ _ (by simp) (by simp [h.noFault (by simp [hr])])

/-- `State.forceAbort` keeps `State.RunOk`. -/
theorem State.forceAbort_runOk {s : State} (h : s.RunOk) : s.forceAbort.RunOk := by
  unfold State.forceAbort
  split
  all_goals rename_i hr
  all_goals try exact h
  · exact State.latch_runOk _ (State.leaveEarly_runOk _ _ (by simp) (by simp [h.noFault (by simp [hr])]))
  all_goals exact State.leaveEarly_runOk _ _ (by simp) (by simp [h.noFault (by simp [hr])])

/-- `State.forceSkip` keeps `State.RunOk`. -/
theorem State.forceSkip_runOk {s : State} (h : s.RunOk) (hv : s.seq.run = .active ∨ s.seq.run = .waiting)
    : s.forceSkip.RunOk := by
  unfold State.forceSkip
  split
  · rename_i hr
    unfold State.skipActive
    split
    · exact h
    · have he := State.endActive_runOk .skipped h
      split
      · rename_i hc
        split
        · exact he
        · have hi : s.expander.slot.isStep = true := by
            simp only [Bool.and_eq_true] at hc
            have := hc.2
            revert this
            unfold State.stagedReleased
            split <;> simp_all [Staged.isStep]
          exact State.enterRun_runOk _ he (by simp [hr, RunState.stages]) (.inl rfl) (by simp)
              (by simpa using hi)
      · exact State.afterEnd_runOk he (by simp) (by simp [hr])
  · have hr : s.seq.run = .waiting := by tauto
    have := h.waiting (.inl hr)
    obtain ⟨h1, h2, h3, h4, h5, h6, h7, h8, h9⟩ := h
    constructor <;> simp_all

/-- `State.takeForce` keeps `State.RunOk`. -/
theorem State.takeForce_runOk {s : State} (a) (h : s.RunOk) : (s.takeForce a).RunOk := by
  unfold State.takeForce
  split
  · rename_i hv
    cases a
    · exact State.done_runOk _ _ (State.forceDisable_runOk h)
    · exact State.done_runOk _ _ (State.forceAbort_runOk h)
    · refine State.done_runOk _ _ (State.forceSkip_runOk h ?_)
      revert hv
      cases s.seq.run <;> simp [Action.valid]
  · exact State.answer_runOk _ _ _ h

/-- `State.takeFaultClear` keeps `State.RunOk`. -/
theorem State.takeFaultClear_runOk {s : State} (h : s.RunOk) : s.takeFaultClear.RunOk := by
  unfold State.takeFaultClear
  split
  · rename_i hr
    exact State.done_runOk _ _ (State.clearFault_idle _ (.inl rfl) h (by simp [hr, RunState.stages]))
  · exact State.refuse_runOk _ h

/-- `State.takeOutputEnable` keeps `State.RunOk`. -/
theorem State.takeOutputEnable_runOk {s : State} (h : s.RunOk) : s.takeOutputEnable.RunOk := by
  unfold State.takeOutputEnable
  split
  · rename_i hr
    exact State.done_runOk _ _ (State.idle_runOk _ (.inl rfl) h (by simp [hr, RunState.stages]) (by simp [hr]))
  · exact State.refuse_runOk _ h

/-! moments -/

/-- `State.qualify` keeps `State.RunOk`. -/
theorem State.qualify_runOk {s : State} (h : s.RunOk) : s.qualify.RunOk := by
  unfold State.qualify
  split
  · exact h
  · dsimp only
    split
    · split
      · rename_i he
        obtain ⟨h1, h2, h3, h4, h5, h6, h7, h8, h9⟩ := h
        simp only [Bool.and_eq_true, beq_iff_eq] at he
        have h5' : s.expander.slot.isStep = true := by rw [← h5, he.2]; rfl
        unfold State.takeEdge
        cases hsl : s.expander.slot <;> simp [hsl, Staged.isStep] at h5'
        rename_i copy
        cases copy.content.start <;> constructor <;> (try simp_all [Staged.isStep]) <;> (split <;> simp)
      · exact State.latch_runOk _ (h.of_eq_core (by simp) (by simp) (by simp) (by simp) (by simp) (by simp)
          (by simp))
    · exact (h.of_eq_core (by simp) (by simp) (by simp) (by simp) (by simp) (by simp) (by simp))

/-- `State.takeTrip` keeps `State.RunOk`. -/
theorem State.takeTrip_runOk {s : State} (h : s.RunOk) : s.takeTrip.RunOk := by
  unfold State.takeTrip
  split
  · exact h
  · exact State.leaveEarly_runOk _ _ (by simp) (by simp)

/-- `State.takeStop` keeps `State.RunOk`. -/
theorem State.takeStop_runOk {s : State} (h : s.RunOk) (hr : s.seq.run = .stopping) : s.takeStop.RunOk :=
  State.latch_runOk _ (State.idle_runOk _ (.inl rfl) h (by simp [hr, RunState.stages]) (by simp [hr]))

/-- `State.takeStart` keeps `State.RunOk`. -/
theorem State.takeStart_runOk {s : State} (h : s.RunOk) (hr : s.seq.run.evaluates = true)
    : s.takeStart.RunOk := by
  unfold State.takeStart
  split
  · refine State.latch_runOk _ (State.stage_runOk ?_)
    have hf := h.noFault (by rintro e; simp [e, RunState.evaluates] at hr)
    obtain ⟨h1, h2, h3, h4, h5, h6, h7, h8, h9⟩ := h
    unfold State.activate
    have hm := h7
    constructor <;> simp_all [Staged.isStep, RunState.stages]
  · exact h
  · exact h

/-- `State.takeHandover` keeps `State.RunOk`. -/
theorem State.takeHandover_runOk {s : State} (h : s.RunOk) (hr : s.seq.run = .active)
    : s.takeHandover.RunOk := by
  unfold State.takeHandover
  split
  · rename_i o hs
    exact State.takeMarker_runOk _ (State.endActive_runOk _ h) (by simp) (by simp [hr, RunState.stages])
        (by simpa using hs)
  · exact h
  · exact h

/-- `State.take` keeps `State.RunOk`. -/
theorem State.take_runOk {s : State} (m) (h : s.RunOk) (hd : s.due m = true) : (s.take m).RunOk := by
  cases m
  · exact State.qualify_runOk h
  · refine State.expire_runOk h ?_
    simp only [State.due, State.timeoutDue, Bool.and_eq_true] at hd
    exact h.timeout_ne_fault hd.1
  · refine State.completeStep_runOk h ?_
    simp [State.due, State.stepEndDue] at hd; exact hd.1
  · exact State.takeTrip_runOk h
  · refine State.takeStop_runOk h ?_
    simp [State.due, State.stopDue] at hd; exact hd.1
  · refine State.takeStart_runOk h ?_
    simp only [State.due, State.startDue] at hd
    split at hd <;> simp_all
  · refine State.takeHandover_runOk h ?_
    simp only [State.due, State.handoverDue] at hd
    split at hd <;> simp_all

/-- `State.settleOne` keeps `State.RunOk`. -/
theorem State.settleOne_runOk {s : State} (h : s.RunOk) : s.settleOne.RunOk := by
  have hdue (m : Moment) (hm : m ∈ Moment.all.filter s.due) : s.due m = true := (List.mem_filter.mp hm).2
  unfold State.settleOne
  split
  · exact h
  · rename_i m hm
    exact State.take_runOk m h (hdue m (by rw [hm]; simp))
  · split
    · exact h
    · rename_i m hm
      refine State.take_runOk m ?_ ?_
      · exact h.of_eq rfl rfl rfl rfl
      · have := hdue m (List.mem_of_getElem? hm)
        revert this
        cases m <;> exact id

/-- `State.settleMoments` keeps `State.RunOk`. -/
theorem State.settleMoments_runOk (fuel : Nat) {s : State} (h : s.RunOk)
    : (State.settleMoments fuel s).RunOk := by
  induction fuel generalizing s with
  | zero => exact h
  | succ fuel ih => exact ih (State.settleOne_runOk h)

/-- `State.settle` keeps `State.RunOk`. -/
theorem State.settle_runOk {s : State} (h : s.RunOk) : s.settle.RunOk :=
  State.settleMoments_runOk _ (h.of_eq rfl rfl rfl rfl)

/-- `State.sampleTrigger` keeps `State.RunOk`. -/
theorem State.sampleTrigger_runOk {s : State} (trig : Bool) (h : s.RunOk) : (s.sampleTrigger trig).RunOk := by
  apply h.of_eq_core <;> simp [State.sampleTrigger]
  split <;> rfl

/-- `State.sampleTimeout` keeps `State.RunOk`. -/
theorem State.sampleTimeout_runOk {s : State} (h : s.RunOk) : s.sampleTimeout.RunOk := by
  unfold State.sampleTimeout
  split
  · rename_i he
    obtain ⟨h1, h2, h3, h4, h5, h6, h7, h8, h9⟩ := h
    simp only [Sequencer.inEdge, Bool.and_eq_true, beq_iff_eq] at he
    constructor <;> simp_all
  · exact h

/-- A sample neither makes nor ends an active step record. -/
theorem State.activeAfter_isSome (currents : PerPhase Nat) (s : State) :
    (s.activeAfter currents).isSome = s.seq.active.isSome := by
  unfold State.activeAfter
  split <;> simp_all

/-- A processed current sample leaves the fault record and a waiting expiry. -/
theorem State.sampleMonitor_core (currents : PerPhase Nat) (s : State) :
    (s.sampleMonitor currents).monitor.fault = s.monitor.fault ∧
    (s.sampleMonitor currents).moments.timeout = s.moments.timeout := by
  unfold State.sampleMonitor
  split <;> simp

/-- `State.emit` keeps `State.RunOk`. -/
theorem State.emit_runOk {s : State} (before : Word) (currents : PerPhase Nat) (h : s.RunOk)
    : (s.emit before currents).RunOk := by
  unfold State.emit
  have ha := s.activeAfter_isSome currents
  have hc (t : State) := t.sampleMonitor_core currents
  obtain ⟨h1, h2, h3, h4, h5, h6, h7, h8, h9⟩ := h
  constructor <;> simp_all

/-- `State.serveWork` keeps `State.RunOk`. -/
theorem State.serveWork_runOk {s : State} (h : s.RunOk) : s.serveWork.RunOk :=
  h.of_eq (by simp) (by simp) (by simp) (by simp)

/-- `State.produce` keeps `State.RunOk`. -/
theorem State.produce_runOk {s : State} (trig : Bool) (currents : PerPhase Nat) (h : s.RunOk)
    : (s.produce trig currents).RunOk := by
  unfold State.produce
  dsimp only
  apply State.serveWork_runOk
  apply State.releaseHeld_runOk
  apply State.emit_runOk
  exact State.RunOk.of_eq (State.sampleTimeout_runOk (State.sampleTrigger_runOk trig h)) rfl rfl rfl rfl

/-- `State.completeWork` keeps `State.RunOk`. -/
theorem State.completeWork_runOk {s : State} (h : s.RunOk) : s.completeWork.RunOk :=
  h.of_eq (by simp) (by simp) (by simp) (by simp)

/-- `State.completeOverdue` keeps `State.RunOk`. -/
theorem State.completeOverdue_runOk {s : State} (h : s.RunOk) : s.completeOverdue.RunOk := by
  unfold State.completeOverdue
  split
  · exact State.completeWork_runOk h
  · exact h

/-- `State.setCues` keeps `State.RunOk`. -/
theorem State.setCues_runOk {s : State} (c) (h : s.RunOk) : (s.setCues c).RunOk := h.of_eq (by simp)
    (by simp) (by simp) (by simp)

/-- `State.countCues` keeps `State.RunOk`. -/
theorem State.countCues_runOk {s : State} (c b) (h : s.RunOk) : (s.countCues c b).RunOk := h.of_eq (by simp)
    (by simp) (by simp) (by simp)

/-- `State.takeCueAdd` keeps `State.RunOk`. -/
theorem State.takeCueAdd_runOk {s : State} (cues) (h : s.RunOk) : (s.takeCueAdd cues).RunOk := by
  have hj (b : List CueBody) : (s.joinCues b).RunOk := by
    unfold State.joinCues
    apply State.stage_runOk
    exact (State.countCues_runOk up b (State.setCues_runOk (s.queue.cues ++ numberCues s.queue.nextSerial b)
        h)).of_eq rfl rfl rfl rfl
  unfold State.takeCueAdd
  dsimp only
  split
  · exact State.answer_runOk _ _ _ h
  · split
    · exact State.answer_runOk _ _ _ (hj _)
    · exact State.done_runOk _ _ (hj _)

/-- `State.resetExpander` keeps `State.RunOk`. -/
theorem State.resetExpander_runOk {s : State} (h : s.RunOk) (hw : ¬ (s.seq.run = .waiting ∨ s.seq.remembered = some .waiting)) : s.resetExpander.RunOk := by
  obtain ⟨h1, h2, h3, h4, h5, h6, h7, h8, h9⟩ := h
  constructor <;> simp_all [Staged.isStep]

/-- Outside PAUSED no state is remembered. -/
theorem State.RunOk.remembered_none {s : State} (h : s.RunOk) (hr : s.seq.run ≠ .paused)
    : s.seq.remembered = none := by
  have := h.remembered
  have hp : (s.seq.run == .paused) = false := by simpa using hr
  rw [hp] at this
  simpa using this

/-- `State.takeCueRewind` keeps `State.RunOk`. -/
theorem State.takeCueRewind_runOk {s : State} (h : s.RunOk) : s.takeCueRewind.RunOk := by
  unfold State.takeCueRewind
  split
  · exact State.refuse_runOk _ h
  · rename_i hr
    split
    · exact State.refuse_runOk _ h
    · apply State.done_runOk
      apply State.stage_runOk
      refine State.RunOk.of_eq (State.setCues_runOk _ (State.resetExpander_runOk h ?_)) rfl rfl rfl rfl
      have hrun : s.seq.run = .off ∨ s.seq.run = .parked := by tauto
      have := h.remembered_none (by rcases hrun with e | e <;> simp [e])
      rcases hrun with e | e <;> simp [e, this]

/-- `State.takeRunClear` keeps `State.RunOk`. -/
theorem State.takeRunClear_runOk {s : State} (h : s.RunOk) : s.takeRunClear.RunOk := by
  unfold State.takeRunClear
  split
  · rename_i hrun
    apply State.done_runOk
    refine State.RunOk.of_eq (State.countCues_runOk down (s.queue.cues.map Cue.body)
        (State.setCues_runOk [] (State.resetExpander_runOk h ?_))) rfl rfl rfl rfl
    have := h.remembered_none (by rcases hrun with e | e | e <;> simp [e])
    rcases hrun with e | e | e <;> simp [e, this]
  · exact State.refuse_runOk _ h

/-- `State.takeSetupWrite` keeps `State.RunOk`. -/
theorem State.takeSetupWrite_runOk {s : State} (p) (h : s.RunOk) : (s.takeSetupWrite p).RunOk := by
  unfold State.takeSetupWrite
  split
  · exact State.refuse_runOk _ h
  · split
    · exact State.refuse_runOk _ h
    · apply State.done_runOk
      apply h.of_eq <;> simp [State.applySetup]
      split <;> rfl

/-- `State.handOver` keeps `State.RunOk`. -/
theorem State.handOver_runOk {s : State} (i : Instr) (h : s.RunOk) : (s.handOver i).RunOk := by
  cases i <;> simp only [State.handOver]
  all_goals first
    | exact h
    | exact h.of_eq (by simp) (by simp) (by simp) (by simp)
    | exact State.takeSetupWrite_runOk _ h
    | exact State.takeCueAdd_runOk _ h
    | exact State.takeCueRewind_runOk h
    | exact State.takeRunClear_runOk h
    | exact State.takeRunStart_runOk h
    | exact State.takeRunPause_runOk h
    | exact State.takeRunResume_runOk h
    | exact State.takeForce_runOk _ h
    | exact State.takeFaultClear_runOk h
    | exact State.takeOutputEnable_runOk h

/-- The taking of a frame keeps `State.RunOk`. -/
theorem State.takeFrame_runOk {s : State} (k t p g) (h : s.RunOk) : (s.takeFrame k t p g).RunOk := by
  have ho : (s.openRequest k t).RunOk := h.of_eq (by simp) (by simp) (by simp) (by simp)
  unfold State.takeFrame
  dsimp only
  split
  · split
    · exact State.answer_runOk _ _ _ ho
    · unfold State.takeParsed
      split
      · exact State.handOver_runOk _ ho
      · exact State.refuse_runOk _ ho
      · exact State.refuse_runOk _ ho
  · exact State.answer_runOk _ _ _ ho

/-- The state in which a full reset begins meets `State.RunOk`. -/
theorem State.beginReset_runOk (s : State) : s.beginReset.RunOk := by
  constructor <;> simp [State.beginReset, State.reset, Sequencer.reset, Monitor.reset, Expander.reset,
      Moments.clear, Staged.isStep]

/-- Receiving a byte keeps `State.RunOk`. -/
theorem State.RunOk.heard {s t : State} (h : s.RunOk) (ht : Heard s t) : t.RunOk := by
  have hs (rx : Receiver) : (s.setRx rx).RunOk := h.of_eq (by simp) (by simp) (by simp) (by simp)
  cases ht with
  | same => exact h
  | stored rx hm hs' ht => exact hs rx
  | begun hs' hr => exact h.of_eq (by simp) (by simp) (by simp) (by simp)
  | discarded => exact h.of_eq (by simp) (by simp) (by simp) (by simp)
  | dropped => exact hs _
  | taken k tag p g hs' hm => exact State.takeFrame_runOk _ _ _ _ (hs _)

end Sys2Proof.Machine
end

