-- ==== Sys2Proof/Laws/Staging.lean ====
section
/-! SUPPORT. Stagings: the oldest cue that is not SPENT, what it leaves when it becomes EXPANDING or SPENT, the end of a
repetition, and the trial number. -/

namespace Sys2Proof.Machine

/-- The oldest cue that is not SPENT, behind SPENT ones. -/
theorem oldestLive_split {before : List Cue} {c : Cue} {after : List Cue} (hb : ∀ x ∈ before, x.status = .spent)
    (hc : c.status ≠ .spent) :
    oldestLive (before ++ c :: after) = some c := by
  induction before with
  | nil => simp [oldestLive, hc]
  | cons x xs ih =>
    have := hb x (by simp)
    simp only [oldestLive, List.cons_append, List.find?_cons] at ih ⊢
    rw [this]; simpa using ih (fun y hy => hb y (by simp [hy]))

/-- A status given to the oldest cue that is not SPENT. -/
theorem markLive_split {before : List Cue} {c : Cue} {after : List Cue} (st : CueStatus) (hb : ∀ x ∈ before,
    x.status = .spent) (hc : c.status ≠ .spent) :
    markLive st (before ++ c :: after) = before ++ { c with status := st } :: after := by
  induction before with
  | nil => simp [markLive, hc]
  | cons x xs ih =>
    have := hb x (by simp)
    simp only [List.cons_append, markLive, this, if_true]
    rw [ih (fun y hy => hb y (by simp [hy]))]

/-- The cues without the oldest one that is not SPENT. -/
theorem dropLive_eq {before : List Cue} {c : Cue} {after : List Cue} (hb : ∀ x ∈ before, x.status = .spent)
    (hc : c.status ≠ .spent) :
    dropLive (before ++ c :: after) = before ++ after := by
  induction before with
  | nil => simp [dropLive, hc]
  | cons x xs ih =>
    have := hb x (by simp)
    simp only [List.cons_append, dropLive, this, if_true]
    rw [ih (fun y hy => hb y (by simp [hy]))]

/-- With every cue SPENT there is no oldest one. -/
theorem oldestLive_none {l : List Cue} (h : ∀ c ∈ l, c.status = .spent) : oldestLive l = none := by
  simp [oldestLive]; exact h

/-- No flag latches where its cause has not come. -/
theorem State.latchIf_false (n : Notice) (s : State) : s.latchIf false n = s := rfl

/-- What an oldest cue that becomes EXPANDING leaves (R88). -/
theorem State.expandLive_eq {s : State} {before : List Cue} {c : Cue} {after : List Cue} (hs : s.queue.cues = before ++ c :: after)
   (hb : ∀ x ∈ before, x.status = .spent) (hc : c.status ≠ .spent) :
   s.expandLive = { s with queue := { s.queue with cues := before ++ { c with status := .expanding } :: after } } := by
  unfold State.expandLive State.setCues
  rw [hs, markLive_split _ hb hc]
  have h1 : pendingCount (before ++ { c with status := .expanding } :: after)
      = pendingCount (before ++ c :: after) := by
    simp [pendingCount, List.countP_append, hc]
  have h2 : (before ++ { c with status := CueStatus.expanding } :: after).length = (before ++ c :: after).length := by simp
  rw [h1, h2]
  have h3 : ∀ n m, fallsTo n m m = false := by intro n m; simp [fallsTo]
  have h4 : ∀ n m, risesTo n m m = false := by intro n m; simp [risesTo]
  rw [h3, h4]; rfl

/-- What an oldest cue that becomes SPENT leaves (R88, R93, R94, R96, R102). -/
theorem State.spendLive_spends {s : State} {before : List Cue} {c : Cue} {after : List Cue} (hs : s.queue.cues = before ++ c :: after)
   (hb : ∀ x ∈ before, x.status = .spent) (hc : c.status ≠ .spent) :
   s.Spends s.spendLive before c after ∧ s.spendLive = { s with queue := s.spendLive.queue, library := s.spendLive.library, phrases := s.spendLive.phrases, notices := s.spendLive.notices } := by
  have hp : pendingCount (before ++ c :: after) = pendingCount (before ++ after) + 1 := by
    simp [pendingCount, List.countP_append, hc]; omega
  have hp' : pendingCount (before ++ { c with status := .spent } :: after) = pendingCount (before ++ after) := by
    simp [pendingCount, List.countP_append]
  have hr : ∀ n a b, b ≤ a → risesTo n a b = false := by intro n a b h; simp [risesTo]; omega
  have hst : ∀ cues : List Cue, pendingCount cues = pendingCount (before ++ after) →
      cues.length ≤ (before ++ c :: after).length →
      s.setCues cues = State.latchIf (decide (pendingCount s.queue.cues = s.setup.lowWater + 1))
          .lowWater { s with queue := { s.queue with cues := cues } } := by
    intro cues h1 h2
    unfold State.setCues
    rw [hs, hr _ _ _ h2, h1, hp, State.latchIf_false]
    congr 1
    simp [fallsTo, ← Bool.decide_and]; omega
  unfold State.spendLive
  rw [hs, oldestLive_split hb hc]
  dsimp only
  cases hm : s.setup.queueMode with
  | stream =>
    simp only
    rw [dropLive_eq hb hc, hst _ rfl (by simp)]
    constructor
    · constructor
      · intro _
        refine ⟨?_, fun i => ?_, fun i => ?_⟩
        · rw [State.countCue_eq]; simp
        · rw [State.countCue_library]; simp [down]
        · rw [State.countCue_phrases]; simp [down]
      · intro h; rw [hm] at h; cases h
      · rw [State.countCue_eq]; simp
      · rw [State.countCue_eq]; simp
      · rw [State.latched_of_eq (s := State.latchIf (decide (pendingCount s.queue.cues = s.setup.lowWater + 1))
          .lowWater { s with queue := { s.queue with cues := before ++ after } }) (by rw [State.countCue_eq])]
        rw [State.latched_latchIf]; simp
        exact Iff.rfl
    · cases decide (pendingCount s.queue.cues = s.setup.lowWater + 1) <;> rw [State.countCue_eq] <;> rfl
  | retain =>
    simp only
    rw [markLive_split _ hb hc, hst _ hp' (by simp)]
    constructor
    · constructor
      · intro h; rw [hm] at h; cases h
      · intro _; simp
      · simp
      · simp
      · rw [State.latched_latchIf]; simp; exact Iff.rfl
    · cases decide (pendingCount s.queue.cues = s.setup.lowWater + 1) <;> rfl

/-- What the end of a repetition leaves (R77, R78). -/
theorem State.endRepetition_leaves (s u : State) (context : Context) (rep : Nat)
    {before : List Cue} {c : Cue} {after : List Cue}
   (hu : u = { s with expander := u.expander, seq := u.seq, moments := u.moments })
   (hs : s.queue.cues = before ++ c :: after) (hb : ∀ x ∈ before, x.status = .spent) (hc : c.status ≠ .spent) :
   (context.rep + 1 < rep → s.Expands (u.endRepetition context rep) before c after ∧
              (u.endRepetition context rep).expander.context = some { context with rep := context.rep + 1, element := 0 }) ∧
   (rep ≤ context.rep + 1 → s.Spends (u.endRepetition context rep) before c after ∧
              (u.endRepetition context rep).expander.context = none) ∧
   (u.endRepetition context rep).expander.slot = u.expander.slot ∧
   (u.endRepetition context rep).expander.stack = [] ∧
   u.endRepetition context rep = { u with queue := (u.endRepetition context rep).queue, expander := (u.endRepetition context rep).expander, library := (u.endRepetition context rep).library, phrases := (u.endRepetition context rep).phrases, notices := (u.endRepetition context rep).notices } := by
  obtain ⟨x, q, m, rfl⟩ : ∃ x q m, u = { s with expander := x, seq := q, moments := m } := ⟨_, _, _, hu⟩
  unfold State.endRepetition
  by_cases h : context.rep + 1 < rep
  · rw [if_pos h]
    rw [State.expandLive_eq (s := State.setContext (some { context with rep := context.rep + 1, element := 0 })
        [] { s with expander := x, seq := q, moments := m }) (before := before) (c := c) (after := after) hs hb hc]
    exact ⟨fun _ => ⟨⟨rfl, rfl, rfl, rfl⟩, rfl⟩, fun h' => absurd h (by omega), rfl, rfl, rfl⟩
  · rw [if_neg h]
    obtain ⟨h1, h2⟩ := State.spendLive_spends (s := State.setContext none []
        { s with expander := x, seq := q, moments := m }) (before := before) (c := c) (after := after) hs hb hc
    refine ⟨fun h' => absurd h' h, fun _ => ⟨⟨h1.stream, h1.retain, h1.serial, h1.trial, h1.lowWater⟩, by rw [h2]; rfl⟩, by rw [h2]; rfl, by rw [h2]; rfl, ?_⟩
    rw [h2]; rfl

/-- A change of the cues leaves the trial number. -/
theorem State.setCues_trial (l : List Cue) (s : State) : (s.setCues l).queue.trial = s.queue.trial := by
  simp [State.setCues]

/-- A cue that becomes SPENT leaves the trial number. -/
theorem State.spendLive_trial (s : State) : s.spendLive.queue.trial = s.queue.trial := by
  unfold State.spendLive
  (repeat' split) <;> simp [State.setCues_trial]

/-- The end of a repetition leaves the trial number. -/
theorem State.endRepetition_trial (c : Context) (r : Nat) (s : State)
    : (s.endRepetition c r).queue.trial = s.queue.trial := by
  unfold State.endRepetition State.expandLive
  (repeat' split) <;> simp [State.setCues_trial, State.spendLive_trial]

/-- The staging of an element leaves the trial number. -/
theorem State.stageElement_trial (c : Context) (s : State) : (s.stageElement c).queue.trial = s.queue.trial := by
  unfold State.stageElement State.expandLive
  (repeat' split) <;> simp [State.setCues_trial, State.endRepetition_trial]

/-- A staging leaves the trial number. -/
theorem State.fillSlot_trial (s : State) : s.fillSlot.queue.trial = s.queue.trial := by
  unfold State.fillSlot
  (repeat' split) <;> simp [State.stageElement_trial, State.spendLive_trial]

/-- An end marker leaves the trial number. -/
theorem State.takeMarker_trial (o) (s : State) : (s.takeMarker o).queue.trial = s.queue.trial := by
  unfold State.takeMarker
  (repeat' split) <;> simp [State.fillSlot_trial]

/-- Acting on what is staged leaves the trial number. -/
theorem State.actOnStaged_trial (s : State) : s.actOnStaged.queue.trial = s.queue.trial := by
  unfold State.actOnStaged
  (repeat' split) <;> simp [State.takeMarker_trial]

/-- A staging event leaves the trial number. -/
theorem State.stage_trial (s : State) : s.stage.queue.trial = s.queue.trial := by
  unfold State.stage
  split <;> simp [State.fillSlot_trial, State.actOnStaged_trial]

/-- A step that leaves HELD takes its initial phase (R107). -/
theorem State.beginEvaluation_begins (v : State) (copy : StepCopy)
    : (v.beginEvaluation copy).seq.Begins copy.content.start := by
  constructor <;> (intros; simp_all [StartCond.initialPhase, StartCond.target?])

/-- The active step is open and has produced its first sample, in the terms of the statements. -/
theorem Sequencer.openBegun_iff (q : Sequencer) : q.openBegun = true ↔ ∃ a, q.active = some a ∧ a.begun = true ∧
          (a.copy.content.duration = .samples 0 ∨ a.copy.content.duration = .degrees 0) := by
  unfold Sequencer.openBegun
  cases q.active with
  | none => simp
  | some a =>
    simp only [Bool.and_eq_true, Option.some.injEq, exists_eq_left']
    rw [and_comm]
    refine and_congr Iff.rfl ?_
    unfold Duration.isOpen Duration.value
    cases a.copy.content.duration <;> simp

end Sys2Proof.Machine
end

