-- ==== Sys2Proof/Laws/CueChecks.lean ====
section
/-! SUPPORT. The checks of a carried cue and what it is stored as, in the terms of Safety, and the cues that join. -/

namespace Sys2Proof.Machine

/-- A byte is a constant exactly where its value is. -/
theorem byte_eq_iff (a : Byte) (n : Nat) (h : n < 256) : a = BitVec.ofNat 8 n ↔ a.toNat = n := by
  rw [← BitVec.toNat_inj]; simp; omega

/-- An unknown duration kind. -/
theorem durationOf_isNone (k : Byte) (a : Word) : (durationOf k a).isNone = true ↔ 1 < k.toNat := by
  unfold durationOf
  have := k.isLt
  simp only [byte_eq_iff k 0 (by omega), byte_eq_iff k 1 (by omega)]
  (repeat' split) <;> simp <;> omega

/-- An unknown start kind. -/
theorem startOf_isNone (k : Byte) (a : Half) : (startOf k a).isNone = true ↔ 3 < k.toNat := by
  unfold startOf
  have := k.isLt
  simp only [byte_eq_iff k 0 (by omega), byte_eq_iff k 1 (by omega), byte_eq_iff k 2 (by omega),
      byte_eq_iff k 3 (by omega)]
  (repeat' split) <;> simp <;> omega

/-- An override of an unknown kind (R90, check 4). -/
theorem badOverride_iff (w : CueWire) : badOverride w = true ↔ (∃ d, w.duration = some d ∧ 1 < d.1.toNat) ∨ ∃ t,
    w.start = some t ∧ 3 < t.1.toNat := by
  unfold badOverride
  rw [Bool.or_eq_true]
  refine or_congr ?_ ?_
  · cases w.duration with
    | none => simp
    | some d => simpa using durationOf_isNone d.1 d.2
  · cases w.start with
    | none => simp
    | some d => simpa using startOf_isNone d.1 d.2

/-- The checks of a carried cue, in the terms of Safety (R90). -/
theorem State.checkCue_cases (s : State) (held : Nat) (w : CueWire) :
   (∀ d, s.checkCue held w = .error d → s.CueFails held w d) ∧ (∀ b, s.checkCue held w = .ok b → b.StoredFrom w)
       := by
  have hk := w.kind.isLt
  have k0 := byte_eq_iff w.kind 0 (by omega)
  have k1 := byte_eq_iff w.kind 1 (by omega)
  have k2 := byte_eq_iff w.kind 2 (by omega)
  have hT : w.index.toNat ≤ 63 → ((s.template? w.index.toNat).isNone = true ↔
      s.library[w.index.toNat]? = some none) := by
    intro h
    unfold State.template?
    have : s.library[w.index.toNat]? = some s.library[w.index.toNat] := by simp
    rw [this]; cases s.library[w.index.toNat] <;> simp
  have hP : w.index.toNat ≤ 127 → ((s.phrase? w.index.toNat).isNone = true ↔
      s.phrases[w.index.toNat]? = some none) := by
    intro h
    unfold State.phrase?
    have : s.phrases[w.index.toNat]? = some s.phrases[w.index.toNat] := by simp
    rw [this]; cases s.phrases[w.index.toNat] <;> simp
  have hO : (w.duration.isSome || w.start.isSome) = true ↔ (w.duration ≠ none ∨ w.start ≠ none) := by
    cases w.duration <;> cases w.start <;> simp
  have hB := badOverride_iff w
  unfold State.checkCue State.CueFails
  dsimp only
  by_cases h0 : w.kind = 0#8
  · have n0 := k0.1 h0
    have e1 : ¬ w.kind = 1#8 := by rw [k1]; omega
    have e2 : ¬ w.kind = 2#8 := by rw [k2]; omega
    rw [if_pos h0]
    by_cases h63 : 63 < w.index.toNat
    · rw [if_pos h63]
      refine ⟨fun d hd => ?_, fun b hb => by cases hb⟩
      cases hd; left; exact ⟨Or.inr (Or.inl ⟨h0, Or.inl h63⟩), rfl⟩
    rw [if_neg h63]
    by_cases hb : badOverride w = true
    · rw [if_pos hb]
      refine ⟨fun d hd => ?_, fun b hb => by cases hb⟩
      cases hd; left; exact ⟨Or.inr (Or.inl ⟨h0, Or.inr (hB.1 hb)⟩), rfl⟩
    rw [if_neg hb]
    have hnb : ¬ (2 < w.kind.toNat ∨
    w.kind = 0#8 ∧ (63 < w.index.toNat ∨ (∃ d, w.duration = some d ∧ 1 < d.1.toNat) ∨
      ∃ t, w.start = some t ∧ 3 < t.1.toNat) ∨
    w.kind = 1#8 ∧ (127 < w.index.toNat ∨ (w.duration ≠ none ∨ w.start ≠ none)) ∨ w.kind = 2#8 ∧
        (1 < w.index.toNat ∨ (w.duration ≠ none ∨ w.start ≠ none))) := by
      rintro (h | ⟨-, h | h⟩ | ⟨h, -⟩ | ⟨h, -⟩)
      · omega
      · exact h63 h
      · exact hb (hB.2 h)
      · exact e1 h
      · exact e2 h
    by_cases ha : (s.template? w.index.toNat).isNone = true
    · rw [if_pos ha]
      refine ⟨fun d hd => ?_, fun b hb => by cases hb⟩
      cases hd; right; left; exact ⟨hnb, Or.inl ⟨h0, (hT (by omega)).1 ha⟩, rfl⟩
    rw [if_neg ha]
    have hna : ¬ (w.kind = 0#8 ∧ s.library[w.index.toNat]? = some none ∨ w.kind = 1#8 ∧
        s.phrases[w.index.toNat]? = some none) := by
      rintro (⟨-, h⟩ | ⟨h, -⟩)
      · exact ha ((hT (by omega)).2 h)
      · exact e1 h
    by_cases hf : Config.cueCapacity ≤ held
    · rw [if_pos hf]
      refine ⟨fun d hd => ?_, fun b hb => by cases hb⟩
      cases hd; right; right; exact ⟨hnb, hna, hf, rfl⟩
    rw [if_neg hf]
    refine ⟨fun d hd => by (cases hd), fun b hb' => ?_⟩
    cases hb'
    have hrep : storedRepeat w.rep = max 1 w.rep.toNat := by
      unfold storedRepeat; split
      · rename_i h; rw [h]; rfl
      · rename_i h; rw [byte_eq_iff _ 0 (by omega)] at h; omega
    refine ⟨fun _ => ⟨_, _, by rw [hrep], ?_⟩, fun h => absurd h e1, fun h => absurd h e2⟩
    simp +contextual [durationOf, startOf, maxDegrees]
  · rw [if_neg h0]
    by_cases h1 : w.kind = 1#8
    · rw [if_pos h1]
      have n1 := k1.1 h1
      have e2 : ¬ w.kind = 2#8 := by rw [k2]; omega
      by_cases h127 : 127 < w.index.toNat
      · rw [if_pos h127]
        refine ⟨fun d hd => ?_, fun b hb => by cases hb⟩
        cases hd; left; exact ⟨Or.inr (Or.inr (Or.inl ⟨h1, Or.inl h127⟩)), rfl⟩
      rw [if_neg h127]
      by_cases ho : (w.duration.isSome || w.start.isSome) = true
      · rw [if_pos ho]
        refine ⟨fun d hd => ?_, fun b hb => by cases hb⟩
        cases hd; left; exact ⟨Or.inr (Or.inr (Or.inl ⟨h1, Or.inr (hO.1 ho)⟩)), rfl⟩
      rw [if_neg ho]
      have hnb : ¬ (2 < w.kind.toNat ∨
    w.kind = 0#8 ∧ (63 < w.index.toNat ∨ (∃ d, w.duration = some d ∧ 1 < d.1.toNat) ∨
      ∃ t, w.start = some t ∧ 3 < t.1.toNat) ∨
    w.kind = 1#8 ∧ (127 < w.index.toNat ∨ (w.duration ≠ none ∨ w.start ≠ none)) ∨ w.kind = 2#8 ∧
        (1 < w.index.toNat ∨ (w.duration ≠ none ∨ w.start ≠ none))) := by
        rintro (h | ⟨h, -⟩ | ⟨-, h | h⟩ | ⟨h, -⟩)
        · omega
        · exact h0 h
        · exact h127 h
        · exact ho (hO.2 h)
        · exact e2 h
      by_cases ha : (s.phrase? w.index.toNat).isNone = true
      · rw [if_pos ha]
        refine ⟨fun d hd => ?_, fun b hb => by cases hb⟩
        cases hd; right; left; exact ⟨hnb, Or.inr ⟨h1, (hP (by omega)).1 ha⟩, rfl⟩
      rw [if_neg ha]
      by_cases hf : Config.cueCapacity ≤ held
      · rw [if_pos hf]
        refine ⟨fun d hd => ?_, fun b hb => by cases hb⟩
        cases hd; right; right; refine ⟨hnb, ?_, hf, rfl⟩
        rintro (⟨h, -⟩ | ⟨-, h⟩)
        · exact h0 h
        · exact ha ((hP (by omega)).2 h)
      rw [if_neg hf]
      refine ⟨fun d hd => by (cases hd), fun b hb' => ?_⟩
      cases hb'
      have hrep : storedRepeat w.rep = max 1 w.rep.toNat := by
        unfold storedRepeat; split
        · rename_i h; rw [h]; rfl
        · rename_i h; rw [byte_eq_iff _ 0 (by omega)] at h; omega
      exact ⟨fun h => absurd h h0, fun _ => by rw [hrep], fun h => absurd h e2⟩
    · rw [if_neg h1]
      by_cases h2 : w.kind = 2#8
      · rw [if_pos h2]
        have n2 := k2.1 h2
        by_cases h1' : 1 < w.index.toNat
        · rw [if_pos h1']
          refine ⟨fun d hd => ?_, fun b hb => by cases hb⟩
          cases hd; left; exact ⟨Or.inr (Or.inr (Or.inr ⟨h2, Or.inl h1'⟩)), rfl⟩
        rw [if_neg h1']
        by_cases ho : (w.duration.isSome || w.start.isSome) = true
        · rw [if_pos ho]
          refine ⟨fun d hd => ?_, fun b hb => by cases hb⟩
          cases hd; left; exact ⟨Or.inr (Or.inr (Or.inr ⟨h2, Or.inr (hO.1 ho)⟩)), rfl⟩
        rw [if_neg ho]
        by_cases hf : Config.cueCapacity ≤ held
        · rw [if_pos hf]
          refine ⟨fun d hd => ?_, fun b hb => by cases hb⟩
          cases hd; right; right; refine ⟨?_, ?_, hf, rfl⟩
          · rintro (h | ⟨h, -⟩ | ⟨h, -⟩ | ⟨-, h | h⟩)
            · omega
            · exact h0 h
            · exact h1 h
            · exact h1' h
            · exact ho (hO.2 h)
          · rintro (⟨h, -⟩ | ⟨h, -⟩)
            · exact h0 h
            · exact h1 h
        rw [if_neg hf]
        refine ⟨fun d hd => by (cases hd), fun b hb' => ?_⟩
        cases hb'
        exact ⟨fun h => absurd h h0, fun h => absurd h h1, fun _ => rfl⟩
      · rw [if_neg h2]
        refine ⟨fun d hd => ?_, fun b hb => by cases hb⟩
        cases hd; left; refine ⟨Or.inl ?_, rfl⟩
        rw [k0] at h0; rw [k1] at h1; rw [k2] at h2; omega

/-- A cue fails with one detail. -/
theorem State.cueFails_unique (s : State) (held : Nat) (w : CueWire) (d d' : Detail) (h : s.CueFails held w d)
    (h' : s.CueFails held w d') : d = d' := by
  unfold State.CueFails at h h'
  dsimp only at h h'
  rcases h with ⟨a, b⟩ | ⟨a, b, c⟩ | ⟨a, b, c, e⟩ <;> rcases h' with ⟨a', b'⟩ | ⟨a', b', c'⟩ | ⟨a', b', c', e'⟩ <;> first | exact absurd a' a | exact absurd a a' | (rw [b, b']) | (rw [c, c']) | exact absurd b b' | exact absurd b' b | (rw [e, e'])

/-- A cue that passes is stored as one body. -/
theorem CueBody.storedFrom_unique (b b' : CueBody) (w : CueWire) (hk : w.kind.toNat ≤ 2) (hd : ∀ d,
    w.duration = some d → d.1.toNat ≤ 1) (hs : ∀ d, w.start = some d → d.1.toNat ≤ 3) (h : b.StoredFrom w)
        (h' : b'.StoredFrom w) : b = b' := by
  have hk' := w.kind.isLt
  have hk3 : w.kind = 0#8 ∨ w.kind = 1#8 ∨ w.kind = 2#8 := by rw [byte_eq_iff _ 0 (by omega), byte_eq_iff _ 1 (by omega), byte_eq_iff _ 2 (by omega)]; omega
  rcases hk3 with hk | hk | hk
  · obtain ⟨d1, s1, e1, a1, b1, c1, f1, g1, i1, j1, l1⟩ := h.template hk
    obtain ⟨d2, s2, e2, a2, b2, c2, f2, g2, i2, j2, l2⟩ := h'.template hk
    rw [e1, e2]
    congr 1
    · cases hx : w.duration with
      | none => rw [a1 hx, a2 hx]
      | some d =>
        obtain ⟨k, v⟩ := d
        have := hd _ hx; simp only at this
        have : k = 0#8 ∨ k = 1#8 := by rw [byte_eq_iff _ 0 (by omega), byte_eq_iff _ 1 (by omega)]; omega
        rcases this with rfl | rfl
        · rw [c1 v hx, c2 v hx]
        · rw [f1 v hx, f2 v hx]
    · cases hx : w.start with
      | none => rw [b1 hx, b2 hx]
      | some d =>
        obtain ⟨k, v⟩ := d
        have := hs _ hx; simp only at this
        have : k = 0#8 ∨ k = 1#8 ∨ k = 2#8 ∨ k = 3#8 := by rw [byte_eq_iff _ 0 (by omega), byte_eq_iff _ 1 (by omega), byte_eq_iff _ 2 (by omega), byte_eq_iff _ 3 (by omega)]; omega
        rcases this with rfl | rfl | rfl | rfl
        · rw [g1 v hx, g2 v hx]
        · rw [i1 v hx, i2 v hx]
        · rw [j1 v hx, j2 v hx]
        · rw [l1 v hx, l2 v hx]
  · rw [h.phrase hk, h'.phrase hk]
  · rw [h.endRun hk, h'.endRun hk]

/-- A cue that fails no check is accepted as the body it is stored as. -/
theorem State.checkCue_ok (s : State) (held : Nat) (w : CueWire) (b : CueBody) (h : ∀ d, ¬ s.CueFails held w d)
    (hb : b.StoredFrom w) : s.checkCue held w = .ok b := by
  have hc := State.checkCue_cases s held w
  cases hx : s.checkCue held w with
  | error d => exact absurd (hc.1 d hx) (h d)
  | ok b' =>
    have hb' := hc.2 b' hx
    have hnb : ¬ (2 < w.kind.toNat ∨
    w.kind = 0#8 ∧ (63 < w.index.toNat ∨ (∃ d, w.duration = some d ∧ 1 < d.1.toNat) ∨
      ∃ t, w.start = some t ∧ 3 < t.1.toNat) ∨
    w.kind = 1#8 ∧ (127 < w.index.toNat ∨ (w.duration ≠ none ∨ w.start ≠ none)) ∨ w.kind = 2#8 ∧
        (1 < w.index.toNat ∨ (w.duration ≠ none ∨ w.start ≠ none))) := by
      intro hbad
      exact h .badCue (Or.inl ⟨hbad, rfl⟩)
    congr 1
    refine CueBody.storedFrom_unique b' b w ?_ ?_ ?_ hb' hb
    · by_contra hc; exact hnb (Or.inl (by omega))
    · intro d hd; by_contra hcc
      have hk' := w.kind.isLt
      have hk3 : w.kind = 0#8 ∨ w.kind = 1#8 ∨ w.kind = 2#8 := by
        rw [byte_eq_iff _ 0 (by omega), byte_eq_iff _ 1 (by omega), byte_eq_iff _ 2 (by omega)]; by_contra hcc; exact hnb (Or.inl (by omega))
      rcases hk3 with hk | hk | hk
      · exact hnb (Or.inr (Or.inl ⟨hk, Or.inr (Or.inl ⟨d, hd, by omega⟩)⟩))
      · exact hnb (Or.inr (Or.inr (Or.inl ⟨hk, Or.inr (Or.inl (by rw [hd]; simp))⟩)))
      · exact hnb (Or.inr (Or.inr (Or.inr ⟨hk, Or.inr (Or.inl (by rw [hd]; simp))⟩)))
    · intro d hd; by_contra hcc
      have hk' := w.kind.isLt
      have hk3 : w.kind = 0#8 ∨ w.kind = 1#8 ∨ w.kind = 2#8 := by
        rw [byte_eq_iff _ 0 (by omega), byte_eq_iff _ 1 (by omega), byte_eq_iff _ 2 (by omega)]; by_contra hcc; exact hnb (Or.inl (by omega))
      rcases hk3 with hk | hk | hk
      · exact hnb (Or.inr (Or.inl ⟨hk, Or.inr (Or.inr ⟨d, hd, by omega⟩)⟩))
      · exact hnb (Or.inr (Or.inr (Or.inl ⟨hk, Or.inr (Or.inr (by rw [hd]; simp))⟩)))
      · exact hnb (Or.inr (Or.inr (Or.inr ⟨hk, Or.inr (Or.inr (by rw [hd]; simp))⟩)))

/-- A cue that fails a check is refused with its detail. -/
theorem State.checkCue_error (s : State) (held : Nat) (w : CueWire) (d : Detail) (h : s.CueFails held w d)
    : s.checkCue held w = .error d := by
  have hc := State.checkCue_cases s held w
  cases hx : s.checkCue held w with
  | error d' => rw [State.cueFails_unique s held w d d' h (hc.1 d' hx)]
  | ok b' =>
    exfalso
    -- ok and fails contradictory
    unfold State.CueFails at h
    dsimp only at h
    have hk' := w.kind.isLt
    have k0 := byte_eq_iff w.kind 0 (by omega)
    have k1 := byte_eq_iff w.kind 1 (by omega)
    have k2 := byte_eq_iff w.kind 2 (by omega)
    have hB := badOverride_iff w
    have hO : (w.duration.isSome || w.start.isSome) = true ↔ (w.duration ≠ none ∨ w.start ≠ none) := by
      cases w.duration <;> cases w.start <;> simp
    unfold State.checkCue at hx
    dsimp only at hx
    have hb : ∀ P : Prop, (P ∧ d = Detail.badCue → P) := fun _ h => h.1
    by_cases h0 : w.kind = 0#8
    · have n0 := k0.1 h0
      have e1 : ¬ w.kind = 1#8 := by rw [k1]; omega
      have e2 : ¬ w.kind = 2#8 := by rw [k2]; omega
      rw [if_pos h0] at hx
      split at hx; · cases hx
      split at hx; · cases hx
      split at hx; · cases hx
      split at hx; · cases hx
      rename_i a1 a2 a3 a4
      rcases h with ⟨h, -⟩ | ⟨-, h, -⟩ | ⟨-, -, h, -⟩
      · rcases h with h | ⟨-, h | h⟩ | ⟨h, -⟩ | ⟨h, -⟩
        · omega
        · exact a1 h
        · exact a2 (hB.2 h)
        · exact e1 h
        · exact e2 h
      · rcases h with ⟨-, h⟩ | ⟨h, -⟩
        · apply a3; unfold State.template?; rw [h]; rfl
        · exact e1 h
      · exact a4 h
    · rw [if_neg h0] at hx
      by_cases h1 : w.kind = 1#8
      · have n1 := k1.1 h1
        have e2 : ¬ w.kind = 2#8 := by rw [k2]; omega
        rw [if_pos h1] at hx
        split at hx; · cases hx
        split at hx; · cases hx
        split at hx; · cases hx
        split at hx; · cases hx
        rename_i a1 a2 a3 a4
        rcases h with ⟨h, -⟩ | ⟨-, h, -⟩ | ⟨-, -, h, -⟩
        · rcases h with h | ⟨h, -⟩ | ⟨-, h | h⟩ | ⟨h, -⟩
          · omega
          · exact h0 h
          · exact a1 h
          · exact a2 (hO.2 h)
          · exact e2 h
        · rcases h with ⟨h, -⟩ | ⟨-, h⟩
          · exact h0 h
          · apply a3; unfold State.phrase?; rw [h]; rfl
        · exact a4 h
      · rw [if_neg h1] at hx
        by_cases h2 : w.kind = 2#8
        · have n2 := k2.1 h2
          rw [if_pos h2] at hx
          split at hx; · cases hx
          split at hx; · cases hx
          split at hx; · cases hx
          rename_i a1 a2 a4
          rcases h with ⟨h, -⟩ | ⟨-, h, -⟩ | ⟨-, -, h, -⟩
          · rcases h with h | ⟨h, -⟩ | ⟨h, -⟩ | ⟨-, h | h⟩
            · omega
            · exact h0 h
            · exact h1 h
            · exact a1 h
            · exact a2 (hO.2 h)
          · rcases h with ⟨h, -⟩ | ⟨h, -⟩
            · exact h0 h
            · exact h1 h
          · exact a4 h
        · rw [if_neg h2] at hx; cases hx

/-- The cues accepted of those carried, with the detail of the first failure (R90, R91). -/
theorem State.acceptCues_eq (s : State) (good rest : List CueWire) (bodies : List CueBody)
    (failure : Option Detail) (held : Nat)
  (h1 : ∀ (i : Nat) w, good[i]? = some w → ∀ detail, ¬ s.CueFails (held + i) w detail)
  (h2 : bodies.length = good.length)
  (h3 : ∀ (i : Nat) w body, good[i]? = some w → bodies[i]? = some body → body.StoredFrom w)
  (h4 : failure = none → rest = [])
  (h5 : ∀ detail, failure = some detail → ∃ w ws, rest = w :: ws ∧ s.CueFails (held + good.length) w detail) :
  s.acceptCues held (good ++ rest) = (List.zip bodies (good.map overrideClamped), failure) := by
  induction good generalizing held bodies with
  | nil =>
    have : bodies = [] := List.length_eq_zero_iff.1 h2
    subst this
    cases failure with
    | none => rw [h4 rfl]; rfl
    | some d =>
      obtain ⟨w, ws, hr, hf⟩ := h5 d rfl
      rw [hr]
      simp only [List.nil_append, State.acceptCues]
      rw [State.checkCue_error s held w d (by simpa using hf)]; rfl
  | cons w good ih =>
    cases bodies with
    | nil => simp at h2
    | cons b bodies =>
      simp only [List.cons_append, State.acceptCues]
      rw [State.checkCue_ok s held w b (by simpa using h1 0 w rfl) (h3 0 w b rfl rfl)]
      simp only
      rw [ih bodies (held + 1) (fun i w' hw d => by have := h1 (i + 1) w' (by simpa using hw) d; rwa [Nat.add_assoc, Nat.add_comm 1 i]) (by simpa using h2)
        (fun i w' b' hw hb => h3 (i + 1) w' b' (by simpa using hw) (by simpa using hb))
        (fun d hd => by obtain ⟨w', ws, e, f⟩ := h5 d hd; refine ⟨w', ws, e, ?_⟩; rw [show held + 1 + good.length = held + (w :: good).length by simp; omega]; exact f)]
      simp

/-- The cues that join are PENDING, with consecutive serials (R87). -/
theorem numberCues_get (bodies : List CueBody) (n : Half) : (numberCues n bodies).length = bodies.length ∧
    ∀ (i : Nat) b, bodies[i]? = some b → (numberCues n bodies)[i]? = some { body := b, serial := n + BitVec.ofNat 16 i, status := .pending } := by
  induction bodies generalizing n with
  | nil => simp [numberCues]
  | cons x xs ih =>
    refine ⟨by simp [numberCues, (ih _).1], fun i b hb => ?_⟩
    cases i with
    | zero => simp at hb; subst hb; simp [numberCues]
    | succ i =>
      simp only [numberCues, List.getElem?_cons_succ] at hb ⊢
      rw [(ih (n + 1#16)).2 i b hb, BitVec.add_assoc]
      congr 3
      rw [← BitVec.toNat_inj]; simp; omega

/-- Every cue that joins counts as pending. -/
theorem numberCues_pending (bodies : List CueBody) (n : Half) : pendingCount (numberCues n bodies)
    = bodies.length := by
  unfold pendingCount
  induction bodies generalizing n with
  | nil => rfl
  | cons x xs ih => simp [numberCues, ih]

/-- A carried cue takes at most 12 bytes. -/
theorem cueBytes_length (w : CueWire) : (cueBytes w).length ≤ 12 := by
  unfold cueBytes
  cases w.duration <;> cases w.start <;> simp [le32, le16]

/-- The checks of cues do not depend on the link. -/
theorem State.onLink_acceptCues (l : Link) (s : State) (held : Nat) (ws : List CueWire)
    : (s.onLink l).acceptCues held ws = s.acceptCues held ws := by
  induction ws generalizing held with
  | nil => rfl
  | cons w ws ih =>
    have : (s.onLink l).checkCue held w = s.checkCue held w := rfl
    unfold State.acceptCues
    rw [this]
    split
    · rfl
    · rw [ih]

/-- Cues join whatever the link holds. -/
theorem State.onLink_joinCues (l : Link) (s : State) (b) : (s.onLink l).joinCues b = (s.joinCues b).onLink l := by
  unfold State.joinCues
  dsimp only
  rw [State.onLink_queue, State.onLink_setCues, State.onLink_countCues, ← State.onLink_stage]; rfl

/-- What joining cues change: the queue, and HIGH_WATER on the rise (R97). -/
theorem State.setCues_grow (s : State) (new : List Cue) (hp : pendingCount new = new.length) :
   s.setCues (s.queue.cues ++ new) = { s.latchIf (decide (s.queue.cues.length < s.setup.highWater ∧ s.setup.highWater ≤ s.queue.cues.length + new.length)) .highWater with queue := { s.queue with cues := s.queue.cues ++ new } } := by
  have hlow : fallsTo s.setup.lowWater (pendingCount s.queue.cues) (pendingCount (s.queue.cues ++ new))
      = false := by
    have : pendingCount (s.queue.cues ++ new) = pendingCount s.queue.cues + new.length := by
      rw [← hp]; unfold pendingCount; rw [List.countP_append]
    rw [this]; simp [fallsTo]; omega
  have hh : risesTo s.setup.highWater s.queue.cues.length (s.queue.cues ++ new).length = decide (s.queue.cues.length < s.setup.highWater ∧ s.setup.highWater ≤ s.queue.cues.length + new.length) := by
    simp [risesTo]
  unfold State.setCues
  rw [hlow, hh]
  cases decide (s.queue.cues.length < s.setup.highWater ∧ s.setup.highWater ≤ s.queue.cues.length + new.length) <;> rfl

/-- An override that is clamped (R85). -/
theorem overrideClamped_iff (w : CueWire) : overrideClamped w = true ↔ ∃ v, w.duration = some (1#8, v) ∧
    3600000 < v.toNat := by
  unfold overrideClamped durationClamped
  cases w.duration with
  | none => simp
  | some d => obtain ⟨k, v⟩ := d; simp [maxDegrees]; intro _; exact decide_eq_true_iff

end Sys2Proof.Machine
end

