-- ==== Sys2Proof/Laws/RefsOk.lean ====
section
/-! SUPPORT. Refcounts: what each operation does to `State.RefsOk`. -/

namespace Sys2Proof.Machine

/-! ## Counting -/

/-- Vectors that agree on what is counted count alike. -/
theorem countP_congr {α : Type} {n : Nat} (p q : α → Bool) (v w : Vector α n)
    (h : ∀ i : Nat, (w[i]?).map q = (v[i]?).map p) : w.toList.countP q = v.toList.countP p := by
  have e : w.toList.map q = v.toList.map p := by
    apply List.ext_getElem?
    intro i
    simpa using h i
  have a := congrArg (List.countP id) e
  simpa [List.countP_map, Function.comp_def] using a

/-- The count after one entry of a list is replaced. -/
theorem countP_list_set {α : Type} (p : α → Bool) (l : List α) (k : Nat) (old new : α) (h : l[k]? = some old) :
    (l.set k new).countP p + (if p old then 1 else 0) = l.countP p + (if p new then 1 else 0) := by
  induction l generalizing k with
  | nil => simp at h
  | cons x xs ih =>
    cases k with
    | zero =>
      simp only [List.getElem?_cons_zero, Option.some.injEq] at h
      subst h
      simp only [List.set_cons_zero, List.countP_cons]
      omega
    | succ k =>
      have := ih k (by simpa using h)
      simp only [List.set_cons_succ, List.countP_cons]
      omega

/-- The count after one entry of a vector is replaced. -/
theorem countP_set {α : Type} {n : Nat} (p : α → Bool) (v : Vector α n) (k : Nat) (old new : α)
    (h : v[k]? = some old) :
    (v.setIfInBounds k new).toList.countP p + (if p old then 1 else 0) =
      v.toList.countP p + (if p new then 1 else 0) := by
  have := countP_list_set p v.toList k old new (by simpa using h)
  simpa using this

/-- How many held cues name a template. -/
def State.cuesOnTemplate (s : State) (i : Nat) : Nat := s.queue.cues.countP fun c => c.body.onTemplate i

/-- How many held cues name a phrase. -/
def State.cuesOnPhrase (s : State) (i : Nat) : Nat := s.queue.cues.countP fun c => c.body.onPhrase i

/-! ## Changes that keep every refcount exact -/

/-- Refcounts that move with the cues stay exact. -/
theorem State.RefsOk.recount {s t : State} (h : s.RefsOk) (f g : Nat → Nat → Nat)
    (hs : t.store.slots = s.store.slots)
    (hl : ∀ i : Nat, t.library[i]? = (s.library[i]?).map (Option.map (TemplateEntry.counted (f i))))
    (hp : ∀ i : Nat, t.phrases[i]? = (s.phrases[i]?).map (Option.map (PhraseEntry.counted (g i))))
    (hf : ∀ i n, f i (n + s.cuesOnTemplate i) = n + t.cuesOnTemplate i)
    (hg : ∀ i n, g i (n + s.cuesOnPhrase i) = n + t.cuesOnPhrase i)
    (ht : ∀ c ∈ t.queue.cues, ∀ i, c.body.onTemplate i = true → ∃ e, s.library[i]? = some (some e))
    (hq : ∀ c ∈ t.queue.cues, ∀ i, c.body.onPhrase i = true → ∃ e, s.phrases[i]? = some (some e)) :
    t.RefsOk := by
  have hlib {i : Nat} {e : TemplateEntry} (he : t.library[i]? = some (some e)) :
      ∃ e', s.library[i]? = some (some e') ∧ e = e'.counted (f i) := by
    rw [hl] at he
    rcases hx : s.library[i]? with - | - | e'
    · simp [hx] at he
    · simp [hx] at he
    · rw [hx] at he
      simp only [Option.map_some, Option.some.injEq] at he
      exact ⟨e', rfl, he.symm⟩
  have hphr {i : Nat} {e : PhraseEntry} (he : t.phrases[i]? = some (some e)) :
      ∃ e', s.phrases[i]? = some (some e') ∧ e = e'.counted (g i) := by
    rw [hp] at he
    rcases hx : s.phrases[i]? with - | - | e'
    · simp [hx] at he
    · simp [hx] at he
    · rw [hx] at he
      simp only [Option.map_some, Option.some.injEq] at he
      exact ⟨e', rfl, he.symm⟩
  have hlib' {i : Nat} (he : ∃ e, s.library[i]? = some (some e)) : ∃ e, t.library[i]? = some (some e) := by
    obtain ⟨e, he⟩ := he
    exact ⟨e.counted (f i), by rw [hl, he]; rfl⟩
  have hphr' {i : Nat} {e : PhraseEntry} (he : s.phrases[i]? = some (some e)) :
      t.phrases[i]? = some (some (e.counted (g i))) := by
    rw [hp, he]; rfl
  have ct (i : Nat) : t.phrasesOnTemplate i = s.phrasesOnTemplate i := by
    refine countP_congr _ _ _ _ fun j => ?_
    rw [hp]
    rcases s.phrases[j]? with - | - | e <;> rfl
  have cp (i : Nat) : t.phrasesOnPhrase i = s.phrasesOnPhrase i := by
    refine countP_congr _ _ _ _ fun j => ?_
    rw [hp]
    rcases s.phrases[j]? with - | - | e <;> rfl
  have cs (k : Nat) : t.templatesOnSlot k = s.templatesOnSlot k := by
    refine countP_congr _ _ _ _ fun j => ?_
    rw [hl]
    rcases s.library[j]? with - | - | e <;> rfl
  constructor
  · intro k slot hk
    rw [cs]
    exact h.slots k slot (hs ▸ hk)
  · intro i e he
    obtain ⟨e', he', rfl⟩ := hlib he
    show f i e'.refcount = _
    rw [h.templates i e' he', ct]
    exact hf i _
  · intro i e he
    obtain ⟨e', he', rfl⟩ := hphr he
    show g i e'.refcount = _
    rw [h.phrases i e' he', cp]
    exact hg i _
  · intro i e he
    obtain ⟨e', he', rfl⟩ := hphr he
    obtain ⟨d1, d2, d3, d4⟩ := h.dictionary i e' he'
    refine ⟨hlib' d1, d2, fun q hq => ?_, d4⟩
    obtain ⟨a, before, b, c⟩ := d3 q hq
    exact ⟨a, _, hphr' b, c⟩
  · intro c hc i hi
    exact hlib' (ht c hc i hi)
  · intro c hc i hi
    obtain ⟨e, he⟩ := hq c hc i hi
    exact ⟨_, hphr' he⟩

/-- Cues with the same bodies in the same order keep the refcounts exact. -/
theorem State.RefsOk.of_eq {s t : State} (h : s.RefsOk) (hs : t.store.slots = s.store.slots)
    (hl : t.library = s.library) (hp : t.phrases = s.phrases)
    (hc : t.queue.cues.map Cue.body = s.queue.cues.map Cue.body) : t.RefsOk := by
  have back : ∀ c ∈ t.queue.cues, ∃ c' ∈ s.queue.cues, c'.body = c.body := by
    intro c hm
    have : c.body ∈ t.queue.cues.map Cue.body := List.mem_map_of_mem hm
    rw [hc] at this
    simpa using this
  have ct (p : CueBody → Bool) : t.queue.cues.countP (fun c => p c.body) = s.queue.cues.countP fun c => p c.body := by
    have := congrArg (List.countP p) hc
    simpa [List.countP_map, Function.comp_def] using this
  refine h.recount (fun _ n => n) (fun _ n => n) hs ?_ ?_ ?_ ?_ ?_ ?_
  · intro i; rw [hl, TemplateEntry.counted_id]
  · intro i; rw [hp, PhraseEntry.counted_id]
  · intro i n
    show _ = n + t.queue.cues.countP _
    rw [ct (CueBody.onTemplate i)]; rfl
  · intro i n
    show _ = n + t.queue.cues.countP _
    rw [ct (CueBody.onPhrase i)]; rfl
  · intro c hm i hi
    obtain ⟨c', hc', e⟩ := back c hm
    exact h.cueTemplates c' hc' i (e ▸ hi)
  · intro c hm i hi
    obtain ⟨c', hc', e⟩ := back c hm
    exact h.cuePhrases c' hc' i (e ▸ hi)

/-! ## The cue queue -/

/-- A status given to the oldest cue that is not SPENT leaves every body. -/
theorem markLive_bodies (status : CueStatus) (cues : List Cue) :
    (markLive status cues).map Cue.body = cues.map Cue.body := by
  induction cues with
  | nil => rfl
  | cons c cs ih =>
    unfold markLive
    split <;> simp [ih]

/-- The cues after a change of them. -/
@[simp] theorem State.setCues_cues (cues : List Cue) (s : State) : (s.setCues cues).queue.cues = cues := by
  simp [State.setCues]

/-- A cue that becomes EXPANDING keeps the refcounts exact. -/
theorem State.expandLive_refsOk {s : State} (h : s.RefsOk) : s.expandLive.RefsOk := by
  refine h.of_eq (by simp) (by simp) (by simp) ?_
  simp [State.expandLive, markLive_bodies]

/-- The cue that is dropped is the oldest one not SPENT. -/
theorem dropLive_split {cues : List Cue} {c : Cue} (h : oldestLive cues = some c) :
    ∃ before after, cues = before ++ c :: after ∧ dropLive cues = before ++ after := by
  induction cues with
  | nil => simp [oldestLive] at h
  | cons x xs ih =>
    by_cases hx : x.status = .spent
    · have h' : oldestLive xs = some c := by simpa [oldestLive, hx] using h
      obtain ⟨before, after, e, d⟩ := ih h'
      exact ⟨x :: before, after, by simp [e], by simp [dropLive, hx, d]⟩
    · have : x = c := by simpa [oldestLive, hx] using h
      subst this
      exact ⟨[], xs, rfl, by simp [dropLive, hx]⟩

/-- A cue that becomes SPENT keeps the refcounts exact. -/
theorem State.spendLive_refsOk {s : State} (h : s.RefsOk) : s.spendLive.RefsOk := by
  unfold State.spendLive
  split
  · exact h
  · rename_i c hc
    split
    · obtain ⟨before, after, hs, hd⟩ := dropLive_split hc
      have hq : ((s.setCues (dropLive s.queue.cues)).countCue down c.body).queue.cues = before ++ after := by
        rw [State.countCue_eq]; simp [hd]
      have hm {x : Cue} (hx : x ∈ before ++ after) : x ∈ s.queue.cues := by
        rw [hs]; simp only [List.mem_append, List.mem_cons] at hx ⊢; tauto
      refine h.recount (fun i n => if c.body.onTemplate i then down n else n)
        (fun i n => if c.body.onPhrase i then down n else n) ?_ ?_ ?_ ?_ ?_ ?_ ?_
      · rw [State.countCue_eq]; simp
      · intro i; rw [State.countCue_library]; simp
      · intro i; rw [State.countCue_phrases]; simp
      · intro i n
        simp only [State.cuesOnTemplate, hq]
        simp only [hs, List.countP_append, List.countP_cons]
        split <;> (simp [down]; try omega)
      · intro i n
        simp only [State.cuesOnPhrase, hq]
        simp only [hs, List.countP_append, List.countP_cons]
        split <;> (simp [down]; try omega)
      · intro x hx; rw [hq] at hx; exact h.cueTemplates x (hm hx)
      · intro x hx; rw [hq] at hx; exact h.cuePhrases x (hm hx)
    · refine h.of_eq (by simp) (by simp) (by simp) ?_
      simp [markLive_bodies]

/-- Cues that join, each naming what is defined, keep the refcounts exact. -/
theorem State.joined_refsOk {s : State} (h : s.RefsOk) (new : List Cue)
    (ht : ∀ c ∈ new, ∀ i, c.body.onTemplate i = true → ∃ e, s.library[i]? = some (some e))
    (hp : ∀ c ∈ new, ∀ i, c.body.onPhrase i = true → ∃ e, s.phrases[i]? = some (some e)) :
    ((s.setCues (s.queue.cues ++ new)).countCues up (new.map Cue.body)).RefsOk := by
  have hq : ((s.setCues (s.queue.cues ++ new)).countCues up (new.map Cue.body)).queue.cues = s.queue.cues ++ new := by
    rw [State.countCues_eq]; simp
  refine h.recount (fun i n => n + (new.map Cue.body).countP (CueBody.onTemplate i))
    (fun i n => n + (new.map Cue.body).countP (CueBody.onPhrase i)) ?_ ?_ ?_ ?_ ?_ ?_ ?_
  · rw [State.countCues_eq]; simp
  · intro i; rw [State.countCues_up_library]; simp
  · intro i; rw [State.countCues_up_phrases]; simp
  · intro i n
    simp [State.cuesOnTemplate, List.countP_append, List.countP_map, Function.comp_def, Nat.add_assoc]
  · intro i n
    simp [State.cuesOnPhrase, List.countP_append, List.countP_map, Function.comp_def, Nat.add_assoc]
  · intro c hc
    rw [hq, List.mem_append] at hc
    exact hc.elim (h.cueTemplates c) (ht c)
  · intro c hc
    rw [hq, List.mem_append] at hc
    exact hc.elim (h.cuePhrases c) (hp c)

/-- All cues leaving keep the refcounts exact. -/
theorem State.emptied_refsOk {s : State} (h : s.RefsOk) :
    ((s.setCues []).countCues down (s.queue.cues.map Cue.body)).RefsOk := by
  have hq : ((s.setCues []).countCues down (s.queue.cues.map Cue.body)).queue.cues = [] := by
    rw [State.countCues_eq]; simp
  refine h.recount (fun i n => n - (s.queue.cues.map Cue.body).countP (CueBody.onTemplate i))
    (fun i n => n - (s.queue.cues.map Cue.body).countP (CueBody.onPhrase i)) ?_ ?_ ?_ ?_ ?_ ?_ ?_
  · rw [State.countCues_eq]; simp
  · intro i; rw [State.countCues_down_library]; simp
  · intro i; rw [State.countCues_down_phrases]; simp
  · intro i n
    simp [State.cuesOnTemplate, List.countP_map, Function.comp_def]
  · intro i n
    simp [State.cuesOnPhrase, List.countP_map, Function.comp_def]
  · intro c hc; rw [hq] at hc; cases hc
  · intro c hc; rw [hq] at hc; cases hc

/-! ## The library -/

/-- An undefined template is named by no phrase and no cue. -/
theorem State.RefsOk.unnamed {s : State} (h : s.RefsOk) {k : Nat} (hk : s.library[k]? = some none) :
    s.phrasesOnTemplate k = 0 ∧ s.cuesOnTemplate k = 0 := by
  constructor
  · unfold State.phrasesOnTemplate
    rw [List.countP_eq_zero]
    intro o ho
    obtain ⟨i, hi⟩ := List.mem_iff_getElem?.1 ho
    rw [Vector.getElem?_toList] at hi
    cases o with
    | none => simp
    | some e =>
      obtain ⟨t, ht⟩ := (h.dictionary i e hi).template
      intro hc
      simp only [Option.any_some, beq_iff_eq] at hc
      rw [hc, hk] at ht
      cases ht
  · unfold State.cuesOnTemplate
    rw [List.countP_eq_zero]
    intro c hc hi
    obtain ⟨t, ht⟩ := h.cueTemplates c hc k hi
    rw [hk] at ht
    cases ht

/-- A FREE phrase is named by no phrase and no cue. -/
theorem State.RefsOk.unnamedPhrase {s : State} (h : s.RefsOk) {k : Nat} (hk : s.phrases[k]? = some none) :
    s.phrasesOnPhrase k = 0 ∧ s.cuesOnPhrase k = 0 := by
  constructor
  · unfold State.phrasesOnPhrase
    rw [List.countP_eq_zero]
    intro o ho
    obtain ⟨i, hi⟩ := List.mem_iff_getElem?.1 ho
    rw [Vector.getElem?_toList] at hi
    cases o with
    | none => simp
    | some e =>
      intro hc
      simp only [Option.any_some, beq_iff_eq] at hc
      obtain ⟨_, before, hb, _⟩ := (h.dictionary i e hi).chained k hc
      rw [hk] at hb
      cases hb
  · unfold State.cuesOnPhrase
    rw [List.countP_eq_zero]
    intro c hc hi
    obtain ⟨t, ht⟩ := h.cuePhrases c hc k hi
    rw [hk] at ht
    cases ht

/-- An entry of the library replaced, with the slot refcounts moved (R30). -/
theorem State.RefsOk.setTemplate {s t : State} (h : s.RefsOk) (k : Nat) (old new : Option TemplateEntry)
    (ho : s.library[k]? = some old) (hl : t.library = s.library.setIfInBounds k new) (hp : t.phrases = s.phrases)
    (hq : t.queue = s.queue)
    (hs : t.store.slots = (s.moveSlotCounts (old.map TemplateEntry.template)
      (new.map TemplateEntry.template)).store.slots)
    (hr : ∀ e, new = some e → e.refcount = s.phrasesOnTemplate k + s.cuesOnTemplate k)
    (hd : new = none → s.phrasesOnTemplate k + s.cuesOnTemplate k = 0) : t.RefsOk := by
  have hget (i : Nat) : t.library[i]? = if k = i then some new else s.library[i]? := by
    rw [hl, getElem?_set]
    split
    · rename_i e; subst e; rw [ho]; rfl
    · rfl
  have hex {i : Nat} (he : ∃ e, s.library[i]? = some (some e)) (hz : s.phrasesOnTemplate i + s.cuesOnTemplate i ≠ 0) :
      ∃ e, t.library[i]? = some (some e) := by
    rw [hget]
    split
    · rename_i e
      subst e
      cases new with
      | none => exact absurd (hd rfl) hz
      | some e => exact ⟨e, rfl⟩
    · exact he
  constructor
  · intro j slot hj
    rw [hs] at hj
    simp only [State.moveSlotCounts, Vector.getElem?_mapIdx, Option.map_eq_some_iff] at hj
    obtain ⟨slot', hj', rfl⟩ := hj
    have hc := countP_set (fun o : Option TemplateEntry => o.any fun e => e.template.names j) s.library k old new ho
    rw [← hl] at hc
    have hsl := h.slots j slot' hj'
    unfold State.templatesOnSlot at hsl ⊢
    have e1 : namesSlot (old.map TemplateEntry.template) j = old.any fun e => e.template.names j := by cases old <;> rfl
    have e2 : namesSlot (new.map TemplateEntry.template) j = new.any fun e => e.template.names j := by cases new <;> rfl
    simp only [e1, e2]
    generalize t.library.toList.countP (fun o => o.any fun e => e.template.names j) = x at *
    generalize s.library.toList.countP (fun o => o.any fun e => e.template.names j) = y at *
    generalize (old.any fun e => e.template.names j) = a at *
    generalize (new.any fun e => e.template.names j) = b at *
    cases a <;> cases b <;> simp at hc ⊢ <;> omega
  · intro i e he
    rw [hget] at he
    rw [hq]
    have : t.phrasesOnTemplate i = s.phrasesOnTemplate i := by unfold State.phrasesOnTemplate; rw [hp]
    rw [this]
    split at he
    · rename_i hi
      subst hi
      exact hr e (by simpa using he)
    · exact h.templates i e he
  · intro i e he
    rw [hp] at he
    rw [hq]
    have : t.phrasesOnPhrase i = s.phrasesOnPhrase i := by unfold State.phrasesOnPhrase; rw [hp]
    rw [this]
    exact h.phrases i e he
  · intro i e he
    rw [hp] at he
    obtain ⟨d1, d2, d3, d4⟩ := h.dictionary i e he
    refine ⟨hex d1 ?_, d2, ?_, d4⟩
    · have : 0 < s.phrasesOnTemplate e.template := by
        unfold State.phrasesOnTemplate
        rw [List.countP_pos_iff]
        refine ⟨some e, ?_, by simp⟩
        exact List.mem_iff_getElem?.2 ⟨i, by rw [Vector.getElem?_toList]; exact he⟩
      omega
    · rw [hp]; exact d3
  · intro c hc i hi
    rw [hq] at hc
    refine hex (h.cueTemplates c hc i hi) ?_
    have : 0 < s.cuesOnTemplate i := by
      unfold State.cuesOnTemplate
      rw [List.countP_pos_iff]
      exact ⟨c, hc, hi⟩
    omega
  · intro c hc i hi
    rw [hq] at hc
    rw [hp]
    exact h.cuePhrases c hc i hi

/-! ## The dictionary -/

/-- An entry of the dictionary that nothing names replaced, with the refcounts of what the old and the new entry
name moved (R69, R70). -/
theorem State.RefsOk.setPhrase {s t : State} (h : s.RefsOk) (k : Nat) (old new : Option PhraseEntry)
    (f g : Nat → Nat → Nat) (ho : s.phrases[k]? = some old)
    (hl : ∀ i : Nat, t.library[i]? = (s.library[i]?).map (Option.map (TemplateEntry.counted (f i))))
    (hp : ∀ i : Nat, t.phrases[i]? =
      if k = i then some new else (s.phrases[i]?).map (Option.map (PhraseEntry.counted (g i))))
    (hq : t.queue = s.queue) (hs : t.store.slots = s.store.slots)
    (hf : ∀ i n, let was := if old.any (fun e => e.template == i) then 1 else 0
      was ≤ n → f i n + was = n + if new.any (fun e => e.template == i) then 1 else 0)
    (hg : ∀ i n, k ≠ i → let was := if old.any (fun e => e.pred == some i) then 1 else 0
      was ≤ n → g i n + was = n + if new.any (fun e => e.pred == some i) then 1 else 0)
    (hz : s.phrasesOnPhrase k + s.cuesOnPhrase k = 0) (hr : ∀ e, new = some e → e.refcount = 0)
    (hn : ∀ e, new = some e → s.PhraseOk k e) : t.RefsOk := by
  have onT (i : Nat) : t.phrasesOnTemplate i + (if old.any (fun e => e.template == i) then 1 else 0) =
      s.phrasesOnTemplate i + if new.any (fun e => e.template == i) then 1 else 0 := by
    have hc := countP_set (fun o : Option PhraseEntry => o.any fun e => e.template == i) s.phrases k old new ho
    unfold State.phrasesOnTemplate
    rw [← hc]
    congr 1
    refine countP_congr _ _ _ _ fun j => ?_
    rw [hp, getElem?_set]
    split
    · rename_i e; subst e; rw [ho]; rfl
    · rcases s.phrases[j]? with - | - | e <;> rfl
  have onP (i : Nat) : t.phrasesOnPhrase i + (if old.any (fun e => e.pred == some i) then 1 else 0) =
      s.phrasesOnPhrase i + if new.any (fun e => e.pred == some i) then 1 else 0 := by
    have hc := countP_set (fun o : Option PhraseEntry => o.any fun e => e.pred == some i) s.phrases k old new ho
    unfold State.phrasesOnPhrase
    rw [← hc]
    congr 1
    refine countP_congr _ _ _ _ fun j => ?_
    rw [hp, getElem?_set]
    split
    · rename_i e; subst e; rw [ho]; rfl
    · rcases s.phrases[j]? with - | - | e <;> rfl
  have oldT (i : Nat) : (if old.any (fun e => e.template == i) then 1 else 0) ≤ s.phrasesOnTemplate i := by
    split
    · rename_i hh
      unfold State.phrasesOnTemplate
      exact List.countP_pos_iff.2 ⟨old, List.mem_iff_getElem?.2 ⟨k, by rw [Vector.getElem?_toList]; exact ho⟩, hh⟩
    · omega
  have oldP (i : Nat) : (if old.any (fun e => e.pred == some i) then 1 else 0) ≤ s.phrasesOnPhrase i := by
    split
    · rename_i hh
      unfold State.phrasesOnPhrase
      exact List.countP_pos_iff.2 ⟨old, List.mem_iff_getElem?.2 ⟨k, by rw [Vector.getElem?_toList]; exact ho⟩, hh⟩
    · omega
  have hlib {i : Nat} (he : ∃ e, s.library[i]? = some (some e)) : ∃ e, t.library[i]? = some (some e) := by
    obtain ⟨e, he⟩ := he
    exact ⟨e.counted (f i), by rw [hl, he]; rfl⟩
  have hphr {i : Nat} {e : PhraseEntry} (hk : k ≠ i) (he : s.phrases[i]? = some (some e)) :
      t.phrases[i]? = some (some (e.counted (g i))) := by
    rw [hp, if_neg hk, he]; rfl
  have hsub {i : Nat} {e : PhraseEntry} (hk : k ≠ i) (he : t.phrases[i]? = some (some e)) :
      ∃ e', s.phrases[i]? = some (some e') ∧ e = e'.counted (g i) := by
    rw [hp, if_neg hk] at he
    rcases hx : s.phrases[i]? with - | - | e'
    · simp [hx] at he
    · simp [hx] at he
    · rw [hx] at he
      simp only [Option.map_some, Option.some.injEq] at he
      exact ⟨e', rfl, he.symm⟩
  constructor
  · intro j slot hj
    have : t.templatesOnSlot j = s.templatesOnSlot j := by
      refine countP_congr _ _ _ _ fun i => ?_
      rw [hl]
      rcases s.library[i]? with - | - | e <;> rfl
    rw [this]
    exact h.slots j slot (hs ▸ hj)
  · intro i e he
    rw [hl] at he
    rcases hx : s.library[i]? with - | - | e'
    · simp [hx] at he
    · simp [hx] at he
    · rw [hx] at he
      simp only [Option.map_some, Option.some.injEq] at he
      subst he
      have a := h.templates i e' hx
      have b := hf i e'.refcount (by have := oldT i; omega)
      have c := onT i
      rw [hq]
      show f i e'.refcount = _
      omega
  · intro i e he
    by_cases hk : k = i
    · subst hk
      rw [hp, if_pos rfl] at he
      have hnew : new = some e := by simpa using he
      have c := onP k
      have hself : new.any (fun e => e.pred == some k) = false := by
        rw [hnew]
        simp only [Option.any_some, beq_eq_false_iff_ne]
        intro hc
        have := (hn e hnew).chained k hc
        omega
      rw [hr e hnew, hq]
      show 0 = t.phrasesOnPhrase k + s.cuesOnPhrase k
      rw [hself] at c
      simp at c
      omega
    · obtain ⟨e', hx, rfl⟩ := hsub hk he
      have a := h.phrases i e' hx
      have b := hg i e'.refcount hk (by have := oldP i; omega)
      have c := onP i
      rw [hq]
      show g i e'.refcount = _
      omega
  · intro i e he
    by_cases hk : k = i
    · subst hk
      rw [hp, if_pos rfl] at he
      have hnew : new = some e := by simpa using he
      obtain ⟨d1, d2, d3, d4⟩ := hn e hnew
      refine ⟨hlib d1, d2, fun q hq' => ?_, d4⟩
      obtain ⟨a, before, b, c⟩ := d3 q hq'
      exact ⟨a, _, hphr (by omega) b, c⟩
    · obtain ⟨e', hx, rfl⟩ := hsub hk he
      obtain ⟨d1, d2, d3, d4⟩ := h.dictionary i e' hx
      refine ⟨hlib d1, d2, fun q hq' => ?_, d4⟩
      obtain ⟨a, before, b, c⟩ := d3 q hq'
      refine ⟨a, _, hphr ?_ b, c⟩
      rintro rfl
      have : 0 < s.phrasesOnPhrase k :=
        List.countP_pos_iff.2 ⟨some e', List.mem_iff_getElem?.2 ⟨i, by rw [Vector.getElem?_toList]; exact hx⟩, by
          simpa [PhraseEntry.counted] using hq'⟩
      omega
  · intro c hc i hi
    rw [hq] at hc
    exact hlib (h.cueTemplates c hc i hi)
  · intro c hc i hi
    rw [hq] at hc
    obtain ⟨e, he⟩ := h.cuePhrases c hc i hi
    refine ⟨_, hphr ?_ he⟩
    rintro rfl
    have : 0 < s.cuesOnPhrase k := List.countP_pos_iff.2 ⟨c, hc, hi⟩
    omega

end Sys2Proof.Machine
end

