-- ==== Sys2Proof/Laws/Setup.lean ====
section
/-! SUPPORT. The setup table: reading a parameter after writing one, and the table's ranges. -/

namespace Sys2Proof.Machine

/-- A parameter written with a value of its range reads as that value. -/
theorem Setup.get_put_same (t : Setup) (p : Param) (v : Nat) (hv : v ≤ p.range.2) : (t.put p v).get p = v := by
  cases p <;> simp only [Param.range] at hv <;> simp only [Setup.put, Setup.get]
  case limitLevel q => cases q <;> rfl
  case tripLevel q => cases q <;> rfl
  case trigEdge => split <;> [skip; split] <;> simp only [TrigEdge.code] <;> omega
  case queueMode => split <;> simp only [QueueMode.code] <;> omega

/-- A parameter that is not written reads as before. -/
theorem Setup.get_put_ne (t : Setup) (p q : Param) (v : Nat) (h : p ≠ q) : (t.put p v).get q = t.get q := by
  cases p <;> cases q <;> try rfl
  case trigEdge.trigEdge => exact absurd rfl h
  case queueMode.queueMode => exact absurd rfl h
  case limitLevel.limitLevel x y =>
    cases x <;> cases y <;> first | rfl | exact absurd rfl h
  case tripLevel.tripLevel x y =>
    cases x <;> cases y <;> first | rfl | exact absurd rfl h
  all_goals exact absurd rfl h

/-- A range's lowest value is not above its highest. -/
theorem Param.range_le (p : Param) : p.range.1 ≤ p.range.2 := by
  cases p <;> simp [Param.range]

/-- A clamped value lies in its range. -/
theorem clampTo_range {lo hi : Nat} (h : lo ≤ hi) (v : Nat) : lo ≤ clampTo lo hi v ∧ clampTo lo hi v ≤ hi := by
  unfold clampTo
  omega

/-- Writing a pair keeps every parameter within its range. -/
theorem Setup.write_inRange {t : Setup} (h : t.InRange) (pair : Byte × Word) : (t.write pair).InRange := by
  unfold Setup.write
  split
  · exact h
  · rename_i p _
    have hc := clampTo_range p.range_le pair.2.toNat
    intro q hq
    by_cases he : p = q
    · subst he
      rwa [Setup.get_put_same _ _ _ hc.2]
    · rw [Setup.get_put_ne _ _ _ _ he]
      exact h q hq

/-- Writing pairs keeps every parameter within its range. -/
theorem Setup.writes_inRange {t : Setup} (h : t.InRange) (pairs : List (Byte × Word)) :
    (pairs.foldl Setup.write t).InRange := by
  induction pairs generalizing t with
  | nil => exact h
  | cons p ps ih => exact ih (Setup.write_inRange h p)

/-- `State.takeSetupWrite` keeps every parameter within its range. -/
theorem State.takeSetupWrite_inRange {s : State} (pairs : List (Byte × Word)) (h : s.setup.InRange) :
    (s.takeSetupWrite pairs).setup.InRange := by
  unfold State.takeSetupWrite
  split
  · simpa using h
  · split
    · simpa using h
    · simpa [State.applySetup] using Setup.writes_inRange h pairs

end Sys2Proof.Machine
end

