-- ==== Sys2Proof/Laws/SetupWrites.lean ====
section
/-! SUPPORT. A parameter after the pairs of a SETUP_WRITE. -/

namespace Sys2Proof.Machine

/-- A parameter after one pair. -/
theorem Setup.get_write (t : Setup) (pair : Byte × Word) (p : Param) (h : Param.ofId pair.1 ≠ none) :
   (t.write pair).get p = if Param.ofId pair.1 == some p then max p.range.1 (min p.range.2 pair.2.toNat)
       else t.get p := by
  unfold Setup.write
  cases hq : Param.ofId pair.1 with
  | none => exact absurd hq h
  | some q =>
    simp only
    by_cases hpq : q = p
    · subst hpq
      rw [Setup.get_put_same _ _ _ (clampTo_range q.range_le _).2]
      simp [clampTo]
    · have : ¬ (some q == some p) = true := by simpa using hpq
      rw [if_neg this, Setup.get_put_ne _ _ _ _ hpq]

/-- A parameter after pairs in order. -/
theorem Setup.get_writes (pairs : List (Byte × Word)) (t : Setup) (p : Param) (h : ∀ pair ∈ pairs,
    Param.ofId pair.1 ≠ none) :
   (pairs.foldl Setup.write t).get p =
     match pairs.reverse.find? fun pair => Param.ofId pair.1 == some p with
     | some pair => max p.range.1 (min p.range.2 pair.2.toNat)
     | none => t.get p := by
  induction pairs generalizing t with
  | nil => rfl
  | cons x xs ih =>
    rw [List.foldl_cons, ih _ (fun y hy => h y (List.mem_cons_of_mem _ hy)), List.reverse_cons, List.find?_append]
    cases hf : xs.reverse.find? fun pair => Param.ofId pair.1 == some p with
    | some y => simp
    | none =>
      simp only [Option.none_or]
      rw [Setup.get_write _ _ _ (h x (by simp))]
      cases hb : (Param.ofId x.1 == some p) <;> simp [hb]

end Sys2Proof.Machine
end

