-- ==== Sys2Proof/Laws/CuesOk.lean ====
section
/-! SUPPORT. The cue queue and the expansion context stay in agreement (`State.CuesOk`) under each operation. -/

namespace Sys2Proof.Machine

/-- `State.CuesOk` depends on the cues, the queue mode and the expansion context alone. -/
theorem State.CuesOk.of_eq {s t : State} (h : s.CuesOk) (hq : t.queue.cues = s.queue.cues)
    (hm : t.setup.queueMode = s.setup.queueMode) (hc : t.expander.context = s.expander.context) : t.CuesOk := by
  obtain ⟨h1, h2, h3⟩ := h
  constructor <;> simp_all

/-- The oldest cue that is not SPENT stands behind SPENT cues and before PENDING ones; it is PENDING where the context is
idle, and else EXPANDING and the context's. -/
theorem State.CuesOk.oldest {s : State} (h : s.CuesOk) {c : Cue} (hc : oldestLive s.queue.cues = some c) :
    ∃ before after, s.queue.cues = before ++ c :: after ∧ (∀ x ∈ before, x.status = .spent) ∧ c.status ≠ .spent ∧
      (∀ x ∈ after, x.status = .pending) ∧
      ∀ context, s.expander.context = some context →
        c = { body := context.body, serial := context.serial, status := .expanding } := by
  obtain ⟨spent, live, pending, hq, hs, hp, hn, hx⟩ := h.order
  cases hctx : s.expander.context with
  | none =>
    rw [hn hctx, List.append_nil] at hq
    cases pending with
    | nil =>
      rw [hq, List.append_nil, oldestLive_none hs] at hc
      cases hc
    | cons p ps =>
      have hps := hp p (by simp)
      rw [hq, oldestLive_split hs (by simp [hps])] at hc
      cases hc
      exact ⟨spent, ps, hq, hs, by simp [hps], fun x hx => hp x (by simp [hx]), fun _ e => by cases e⟩
  | some context =>
    rw [hx _ hctx] at hq
    rw [hq, List.append_assoc, List.singleton_append, oldestLive_split hs (by simp)] at hc
    cases hc
    exact ⟨spent, pending, by simpa using hq, hs, by simp, hp, fun _ e => by cases e; rfl⟩

/-- A busy context has its cue in the queue. -/
theorem State.CuesOk.expanding {s : State} (h : s.CuesOk) {context : Context} (hx : s.expander.context = some context) :
    ∃ c, oldestLive s.queue.cues = some c ∧ c.body = context.body ∧ c.serial = context.serial := by
  obtain ⟨spent, live, pending, hq, hs, -, -, hl⟩ := h.order
  refine ⟨{ body := context.body, serial := context.serial, status := .expanding }, ?_, rfl, rfl⟩
  rw [hq, hl _ hx, List.append_assoc, List.singleton_append, oldestLive_split hs (by simp)]

/-- The oldest cue that is not SPENT becomes EXPANDING, the context its own. -/
theorem State.CuesOk.expands {s t : State} (h : s.CuesOk) {c : Cue} {context : Context}
    (hc : oldestLive s.queue.cues = some c) (hb : context.body = c.body) (hn : context.serial = c.serial)
    (hm : t.setup.queueMode = s.setup.queueMode) (hx : t.expander.context = some context)
    (ht : ∀ before after, s.queue.cues = before ++ c :: after → (∀ x ∈ before, x.status = .spent) →
      c.status ≠ .spent → t.queue.cues = before ++ { c with status := .expanding } :: after) : t.CuesOk := by
  obtain ⟨before, after, hq, hs, hcs, hp, -⟩ := h.oldest hc
  have ht := ht _ _ hq hs hcs
  have h1 := h.capacity
  have h2 := h.spent
  rw [hq] at h1 h2
  refine ⟨by simpa [ht] using h1, fun hstream => ?_, before, [{ c with status := .expanding }], after,
    by simpa using ht, hs, hp, fun e => by simp [hx] at e, fun x e => ?_⟩
  · have h2 := h2 (hm ▸ hstream)
    rw [ht]
    simp only [List.mem_append, List.mem_cons] at h2 ⊢
    rintro x (hx | rfl | hx)
    · exact h2 x (.inl hx)
    · simp
    · exact h2 x (.inr (.inr hx))
  · rw [hx] at e
    cases e
    rw [hb, hn]

/-- The oldest cue that is not SPENT becomes SPENT, the context idle. -/
theorem State.CuesOk.spends {s t : State} (h : s.CuesOk) {c : Cue} (hc : oldestLive s.queue.cues = some c)
    (hm : t.setup.queueMode = s.setup.queueMode) (hx : t.expander.context = none)
    (ht : ∀ before after, s.queue.cues = before ++ c :: after → (∀ x ∈ before, x.status = .spent) →
      c.status ≠ .spent → s.Spends t before c after) : t.CuesOk := by
  obtain ⟨before, after, hq, hs, hcs, hp, -⟩ := h.oldest hc
  have ht := ht _ _ hq hs hcs
  have h1 := h.capacity
  have h2 := h.spent
  rw [hq] at h1 h2
  simp only [List.length_append, List.length_cons] at h1
  cases hmode : s.setup.queueMode with
  | stream =>
    have hc' := ht.stream hmode
    have h2 := h2 hmode
    refine ⟨by rw [hc'.1]; simp; omega, fun _ x hx => ?_, before, [], after, by simpa using hc'.1, hs, hp,
      fun _ => rfl, fun x e => by simp [hx] at e⟩
    rw [hc'.1] at hx
    exact h2 x (by simp at hx ⊢; tauto)
  | retain =>
    have hc' := ht.retain hmode
    refine ⟨by rw [hc'.1]; simp; omega, fun e => by simp [hm, hmode] at e,
      before ++ [{ c with status := .spent }], [], after, by simpa using hc'.1, ?_, hp, fun _ => rfl,
      fun x e => by simp [hx] at e⟩
    intro x hx
    simp only [List.mem_append, List.mem_singleton] at hx
    rcases hx with hx | rfl
    · exact hs x hx
    · rfl

/-- `State.endRepetition` keeps `State.CuesOk`, its context naming the oldest cue that is not SPENT. -/
theorem State.endRepetition_cuesOk {s u : State} (context : Context) (rep : Nat) (h : s.CuesOk) {c : Cue}
    (hu : u = { s with expander := u.expander, seq := u.seq, moments := u.moments })
    (hc : oldestLive s.queue.cues = some c) (hb : context.body = c.body) (hn : context.serial = c.serial) :
    (u.endRepetition context rep).CuesOk := by
  have hm : u.setup.queueMode = s.setup.queueMode := by rw [hu]
  obtain ⟨before, after, hq, hs, hcs, -, -⟩ := h.oldest hc
  by_cases hr : context.rep + 1 < rep
  · obtain ⟨hx, hctx⟩ := (State.endRepetition_leaves s u context rep hu hq hs hcs).1 hr
    refine h.expands hc (context := { context with rep := context.rep + 1, element := 0 }) hb hn (by simpa) hctx ?_
    intro before after hq hs hcs
    rw [((State.endRepetition_leaves s u context rep hu hq hs hcs).1 hr).1.cues]
  · have hr := Nat.le_of_not_lt hr
    refine h.spends hc (by simpa) ((State.endRepetition_leaves s u context rep hu hq hs hcs).2.1 hr).2 ?_
    intro before after hq hs hcs
    exact ((State.endRepetition_leaves s u context rep hu hq hs hcs).2.1 hr).1

/-- `State.stageElement` keeps `State.CuesOk`, its context naming the oldest cue that is not SPENT. -/
theorem State.stageElement_cuesOk {s : State} (context : Context) (h : s.CuesOk) {c : Cue}
    (hc : oldestLive s.queue.cues = some c) (hb : context.body = c.body) (hn : context.serial = c.serial) :
    (s.stageElement context).CuesOk := by
  unfold State.stageElement
  split
  · split
    · exact h
    · exact State.endRepetition_cuesOk _ _ h rfl hc hb hn
  · split
    · exact h
    · split
      · exact h
      · dsimp only
        split
        · exact State.endRepetition_cuesOk _ _ h rfl hc hb hn
        · refine h.expands hc (context := { context with element := context.element + 1 }) hb hn (by simp)
            (by simp) ?_
          intro before after hq hs hcs
          rw [State.expandLive_eq (by simpa using hq) hs hcs]
  · exact h

/-- `State.fillSlot` keeps `State.CuesOk`. -/
theorem State.fillSlot_cuesOk {s : State} (h : s.CuesOk) : s.fillSlot.CuesOk := by
  unfold State.fillSlot
  split
  · split
    · rename_i context hx
      obtain ⟨c, hc, hb, hn⟩ := h.expanding hx
      exact State.stageElement_cuesOk _ h hc hb.symm hn.symm
    · rename_i hx
      split
      · exact h
      · rename_i c hc
        split
        · refine h.spends hc (by simp) (by simpa using hx) ?_
          intro before after hq hs hcs
          have := (State.spendLive_spends (s := s.stageMarker ‹_›) (by simpa using hq) hs hcs).1
          exact ⟨this.stream, this.retain, this.serial, this.trial, this.lowWater⟩
        · exact State.stageElement_cuesOk _ h hc rfl rfl
        · exact State.stageElement_cuesOk _ h hc rfl rfl
  · exact h

/-- `State.discardExpansion` keeps `State.CuesOk`. -/
theorem State.discardExpansion_cuesOk {s : State} (h : s.CuesOk) : s.discardExpansion.CuesOk := by
  unfold State.discardExpansion
  split
  · rename_i hx
    exact h.of_eq (by simp) (by simp) (by simp [hx])
  · rename_i context hx
    obtain ⟨c, hc, -, -⟩ := h.expanding hx
    refine h.spends hc (by simp) (by simp) ?_
    intro before after hq hs hcs
    have := (State.spendLive_spends (s := s.resetExpander) (by simpa using hq) hs hcs).1
    exact ⟨this.stream, this.retain, this.serial, this.trial, this.lowWater⟩

/-! ## The run sequencer -/

/-- `State.takeMarker` keeps `State.CuesOk`. -/
theorem State.takeMarker_cuesOk {s : State} (o : EndOption) (h : s.CuesOk) : (s.takeMarker o).CuesOk := by
  unfold State.takeMarker
  (repeat' split)
  · exact h.of_eq (by simp) (by simp) (by simp)
  · exact State.fillSlot_cuesOk (h.of_eq (by simp) (by simp) (by simp))
  · exact h.of_eq (by simp) (by simp) (by simp)

/-- `State.beginEvaluation` keeps `State.CuesOk`. -/
theorem State.beginEvaluation_cuesOk {s : State} (copy : StepCopy) (h : s.CuesOk) :
    (s.beginEvaluation copy).CuesOk :=
  h.of_eq (by simp) (by simp) (by simp)

/-- `State.enterRun` keeps `State.CuesOk`. -/
theorem State.enterRun_cuesOk {s : State} (run : RunState) (h : s.CuesOk) : (s.enterRun run).CuesOk :=
  h.of_eq (by simp) (by simp) (by simp)

/-- `State.latch` keeps `State.CuesOk`. -/
theorem State.latch_cuesOk {s : State} (n : Notice) (h : s.CuesOk) : (s.latch n).CuesOk :=
  h.of_eq (by simp) (by simp) (by simp)

/-- `State.actOnStaged` keeps `State.CuesOk`. -/
theorem State.actOnStaged_cuesOk {s : State} (h : s.CuesOk) : s.actOnStaged.CuesOk := by
  unfold State.actOnStaged
  (repeat' split) <;> first
    | exact h
    | exact State.beginEvaluation_cuesOk _ h
    | exact State.beginEvaluation_cuesOk _ (State.enterRun_cuesOk _ h)
    | exact State.takeMarker_cuesOk _ h

/-- `State.stage` keeps `State.CuesOk`. -/
theorem State.stage_cuesOk {s : State} (h : s.CuesOk) : s.stage.CuesOk := by
  unfold State.stage
  split
  · exact State.actOnStaged_cuesOk (State.fillSlot_cuesOk h)
  · exact h

/-- `State.endActive` keeps `State.CuesOk`. -/
theorem State.endActive_cuesOk {s : State} (reason : EndReason) (h : s.CuesOk) : (s.endActive reason).CuesOk :=
  h.of_eq (by simp) (by simp) (by simp)

/-- `State.afterEnd` keeps `State.CuesOk`. -/
theorem State.afterEnd_cuesOk {s : State} (h : s.CuesOk) : s.afterEnd.CuesOk := by
  unfold State.afterEnd
  (repeat' split) <;> first
    | exact State.beginEvaluation_cuesOk _ h
    | exact State.beginEvaluation_cuesOk _ (State.enterRun_cuesOk _ h)
    | exact State.takeMarker_cuesOk _ h
    | exact State.latch_cuesOk _ (State.enterRun_cuesOk _ h)

/-- `State.enterEnd` keeps `State.CuesOk`. -/
theorem State.enterEnd_cuesOk {s : State} (run : RunState) (h : s.CuesOk) : (s.enterEnd run).CuesOk := by
  unfold State.enterEnd
  split <;> exact h.of_eq (by simp) (by simp) (by simp)

/-- `State.leaveEarly` keeps `State.CuesOk`. -/
theorem State.leaveEarly_cuesOk {s : State} (reason : EndReason) (run : RunState) (h : s.CuesOk) :
    (s.leaveEarly reason run).CuesOk :=
  State.enterEnd_cuesOk _ (State.discardExpansion_cuesOk (State.endActive_cuesOk _ h))

/-- `State.leaveTimedOut` keeps `State.CuesOk`. -/
theorem State.leaveTimedOut_cuesOk {s : State} (run : RunState) (h : s.CuesOk) : (s.leaveTimedOut run).CuesOk := by
  refine State.enterEnd_cuesOk _ (State.discardExpansion_cuesOk ?_)
  exact (State.endActive_cuesOk .aborted h).of_eq (by simp) (by simp) (by simp)

/-- `State.expire` keeps `State.CuesOk`. -/
theorem State.expire_cuesOk {s : State} (h : s.CuesOk) : s.expire.CuesOk := by
  unfold State.expire
  split
  · exact State.latch_cuesOk _ (State.leaveTimedOut_cuesOk _ (State.latch_cuesOk _ h))
  · exact State.leaveTimedOut_cuesOk _ (State.latch_cuesOk _ h)

/-- `State.completeStep` keeps `State.CuesOk`. -/
theorem State.completeStep_cuesOk {s : State} (h : s.CuesOk) : s.completeStep.CuesOk :=
  State.afterEnd_cuesOk (State.endActive_cuesOk _ h)

/-- `State.take` keeps `State.CuesOk`. -/
theorem State.take_cuesOk {s : State} (m : Moment) (h : s.CuesOk) : (s.take m).CuesOk := by
  cases m <;> unfold State.take <;> dsimp only
  · exact h.of_eq (by simp) (by simp) (by simp)
  · exact State.expire_cuesOk h
  · exact State.completeStep_cuesOk h
  · unfold State.takeTrip
    split
    · exact h
    · exact State.leaveEarly_cuesOk _ _ (h.of_eq (by simp) (by simp) (by simp))
  · exact h.of_eq (by simp) (by simp) (by simp)
  · unfold State.takeStart
    split
    · exact State.latch_cuesOk _ (State.stage_cuesOk (h.of_eq (by simp) (by simp) (by simp [State.activate])))
    · exact h
    · exact h
  · unfold State.takeHandover
    split
    · exact State.takeMarker_cuesOk _ (State.endActive_cuesOk _ h)
    · exact h
    · exact h

/-- `State.settle` keeps `State.CuesOk`. -/
theorem State.settle_cuesOk {s : State} (h : s.CuesOk) : s.settle.CuesOk := by
  have one {s : State} (h : s.CuesOk) : s.settleOne.CuesOk := by
    unfold State.settleOne
    (repeat' split)
    · exact h
    · exact State.take_cuesOk _ h
    · exact h
    · exact State.take_cuesOk _ (h.of_eq rfl rfl rfl)
  have all (n : Nat) : ∀ {s : State}, s.CuesOk → (State.settleMoments n s).CuesOk := by
    induction n with
    | zero => exact fun h => h
    | succ n ih => exact fun h => ih (one h)
  exact all _ (h.of_eq rfl rfl rfl)

/-! ## Requests -/

/-- `State.answer` keeps `State.CuesOk`. -/
theorem State.answer_cuesOk {s : State} (o : ReplyOutcome) (d : Detail) (p : List Byte) (h : s.CuesOk) :
    (s.answer o d p).CuesOk :=
  h.of_eq (by simp) (by simp) (by simp)

/-- The accepted cues fit the queue (R86, R90). -/
theorem State.acceptCues_fits (s : State) (cues : List CueWire) (held : Nat) (h : held ≤ 256) :
    held + (s.acceptCues held cues).1.length ≤ 256 := by
  induction cues generalizing held with
  | nil => simpa [State.acceptCues]
  | cons w ws ih =>
    unfold State.acceptCues
    split
    · simpa
    · rename_i body hb
      have hfree : held < 256 := by
        by_contra hc
        revert hb
        have : Config.cueCapacity ≤ held := by simp [Config.cueCapacity]; omega
        unfold State.checkCue
        simp only [this, if_true]
        (repeat' split) <;> simp
      have := ih (held + 1) (by omega)
      simp only [List.length_cons]
      omega

/-- Accepted cues are as many as their bodies. -/
theorem numberCues_length (bodies : List CueBody) (serial : Half) :
    (numberCues serial bodies).length = bodies.length := by
  induction bodies generalizing serial with
  | nil => rfl
  | cons b bs ih => simp [numberCues, ih]

/-- Accepted cues are PENDING (R91). -/
theorem numberCues_status (bodies : List CueBody) (serial : Half) :
    ∀ c ∈ numberCues serial bodies, c.status = .pending := by
  induction bodies generalizing serial with
  | nil => simp [numberCues]
  | cons b bs ih => simpa [numberCues] using ih _

/-- Accepted cues join the queue within its capacity: `State.joinCues` keeps `State.CuesOk`. -/
theorem State.joinCues_cuesOk {s : State} (bodies : List CueBody) (h : s.CuesOk)
    (hfit : s.queue.cues.length + bodies.length ≤ 256) : (s.joinCues bodies).CuesOk := by
  have hnew := numberCues_status bodies s.queue.nextSerial
  unfold State.joinCues
  refine State.stage_cuesOk ?_
  obtain ⟨spent, live, pending, hq, hs, hp, hn, hx⟩ := h.order
  refine ⟨?_, ?_, spent, live, pending ++ numberCues s.queue.nextSerial bodies, ?_, hs, ?_, ?_, ?_⟩
  · simpa [numberCues_length] using hfit
  · intro hm c hc
    simp only [State.countCues_frame, State.setCues_frame, State.setCues_cues, List.mem_append] at hm hc
    rcases hc with hc | hc
    · exact h.spent hm c hc
    · simp [hnew c hc]
  · simp [hq]
  · intro c hc
    rcases List.mem_append.mp hc with hc | hc
    · exact hp c hc
    · exact hnew c hc
  · simpa using hn
  · simpa using hx

/-- The queue mode changes only with no cue held (R95). -/
theorem State.queueMode_kept {s : State} (pairs : List (Byte × Word)) (hall : pairs.all s.pairInState = true)
    (hq : s.queue.cues ≠ []) : (pairs.foldl Setup.write s.setup).queueMode = s.setup.queueMode := by
  have one (t : Setup) (pair : Byte × Word) (hp : s.pairInState pair = true) :
      (t.write pair).queueMode = t.queueMode := by
    unfold Setup.write
    split
    · rfl
    · rename_i p hid
      simp only [State.pairInState, hid] at hp
      cases p <;> first | rfl | simp_all
  generalize s.setup = t
  induction pairs generalizing t with
  | nil => rfl
  | cons p ps ih =>
    simp only [List.all_cons, Bool.and_eq_true] at hall
    rw [List.foldl_cons, ih hall.2, one _ _ hall.1]

/-- `State.takeSetupWrite` keeps `State.CuesOk`. -/
theorem State.takeSetupWrite_cuesOk {s : State} (pairs : List (Byte × Word)) (h : s.CuesOk) :
    (s.takeSetupWrite pairs).CuesOk := by
  unfold State.takeSetupWrite
  split
  · exact State.answer_cuesOk _ _ _ h
  · split
    · exact State.answer_cuesOk _ _ _ h
    · rename_i hp
      refine State.answer_cuesOk _ _ _ ?_
      by_cases hq : s.queue.cues = []
      · obtain ⟨h1, -, h3⟩ := h
        refine ⟨?_, ?_, ?_⟩
        · simpa [State.applySetup] using h1
        · simp [State.applySetup, hq]
        · simpa [State.applySetup] using h3
      · exact h.of_eq (by simp [State.applySetup])
          (by simpa [State.applySetup] using State.queueMode_kept pairs (by simpa using hp) hq)
          (by simp [State.applySetup])

/-- `State.takeCueAdd` keeps `State.CuesOk`. -/
theorem State.takeCueAdd_cuesOk {s : State} (cues : List CueWire) (h : s.CuesOk) : (s.takeCueAdd cues).CuesOk := by
  have hj := State.joinCues_cuesOk ((s.acceptCues s.queue.cues.length cues).1.map Prod.fst) h
    (by simpa using State.acceptCues_fits s cues _ h.capacity)
  unfold State.takeCueAdd
  dsimp only
  (repeat' split) <;> first
    | exact State.answer_cuesOk _ _ _ h
    | exact State.answer_cuesOk _ _ _ hj

/-- `State.takeCueRewind` keeps `State.CuesOk`. -/
theorem State.takeCueRewind_cuesOk {s : State} (h : s.CuesOk) : s.takeCueRewind.CuesOk := by
  unfold State.takeCueRewind
  dsimp only
  split
  · exact State.answer_cuesOk _ _ _ h
  · split
    · exact State.answer_cuesOk _ _ _ h
    · refine State.answer_cuesOk _ _ _ (State.stage_cuesOk ⟨by simpa using h.capacity, ?_, [], [],
        s.queue.cues.map fun c => { c with status := .pending }, by simp, by simp, by simp, by simp, by simp⟩)
      intro _ c hc
      simp at hc
      obtain ⟨x, -, rfl⟩ := hc
      simp

/-- `State.takeRunClear` keeps `State.CuesOk`. -/
theorem State.takeRunClear_cuesOk {s : State} (h : s.CuesOk) : s.takeRunClear.CuesOk := by
  unfold State.takeRunClear
  dsimp only
  split
  · exact State.answer_cuesOk _ _ _ ⟨by simp [CueQueue.reset], by simp [CueQueue.reset], [], [], [],
      by simp [CueQueue.reset], by simp, by simp, by simp, by simp⟩
  · exact State.answer_cuesOk _ _ _ h

/-- `State.takeRunStart` keeps `State.CuesOk`. -/
theorem State.takeRunStart_cuesOk {s : State} (h : s.CuesOk) : s.takeRunStart.CuesOk := by
  unfold State.takeRunStart State.armRun State.leaveParked
  (repeat' split) <;> refine State.answer_cuesOk _ _ _ ?_ <;> first
    | exact h
    | exact State.stage_cuesOk (State.enterRun_cuesOk _ h)
    | exact State.beginEvaluation_cuesOk _ (State.enterRun_cuesOk _ h)
    | exact State.takeMarker_cuesOk _ (State.enterRun_cuesOk _ h)

/-- `State.takeRunResume` keeps `State.CuesOk`. -/
theorem State.takeRunResume_cuesOk {s : State} (h : s.CuesOk) : s.takeRunResume.CuesOk := by
  have h' := State.enterRun_cuesOk s.seq.resumed h
  unfold State.takeRunResume State.afterResume State.releaseHeld
  (repeat' split) <;> refine State.answer_cuesOk _ _ _ ?_ <;> first
    | exact h'
    | exact h
    | exact State.completeStep_cuesOk h'
    | exact State.expire_cuesOk h'
    | exact State.actOnStaged_cuesOk h'
    | exact State.beginEvaluation_cuesOk _ h'

/-- `State.takeForce` keeps `State.CuesOk`. -/
theorem State.takeForce_cuesOk {s : State} (a : Action) (h : s.CuesOk) : (s.takeForce a).CuesOk := by
  have idle (run : RunState) (u : State) (hu : u.CuesOk) : (u.enterIdle run).CuesOk :=
    hu.of_eq (by simp) (by simp) (by simp)
  have he := State.endActive_cuesOk .skipped h
  unfold State.takeForce
  split
  · refine State.answer_cuesOk _ _ _ ?_
    cases a <;> dsimp only
    · unfold State.forceDisable
      split <;> first
        | exact h
        | exact idle _ _ h
        | exact idle _ _ (h.of_eq rfl rfl rfl)
        | exact State.leaveEarly_cuesOk _ _ h
    · unfold State.forceAbort
      split <;> first
        | exact h
        | exact State.leaveEarly_cuesOk _ _ h
        | exact State.latch_cuesOk _ (State.leaveEarly_cuesOk _ _ h)
    · unfold State.forceSkip State.skipActive
      (repeat' split) <;> first
        | exact h
        | exact he
        | exact State.enterRun_cuesOk _ he
        | exact State.afterEnd_cuesOk he
        | exact h.of_eq rfl rfl rfl
  · exact State.answer_cuesOk _ _ _ h

/-- `State.handOver` keeps `State.CuesOk`. -/
theorem State.handOver_cuesOk {s : State} (i : Instr) (h : s.CuesOk) : (s.handOver i).CuesOk := by
  cases i <;> simp only [State.handOver]
  all_goals first
    | exact h
    | exact h.of_eq (by simp) (by simp) (by simp)
    | exact State.takeSetupWrite_cuesOk _ h
    | exact State.takeCueAdd_cuesOk _ h
    | exact State.takeCueRewind_cuesOk h
    | exact State.takeRunClear_cuesOk h
    | exact State.takeRunStart_cuesOk h
    | exact State.takeRunResume_cuesOk h
    | exact State.takeForce_cuesOk _ h

/-- The taking of a frame keeps `State.CuesOk`. -/
theorem State.takeFrame_cuesOk {s : State} (kind tag : Byte) (payload : List Byte) (good : Bool) (h : s.CuesOk) :
    (s.takeFrame kind tag payload good).CuesOk := by
  have ho : (s.openRequest kind tag).CuesOk := h.of_eq (by simp) (by simp) (by simp)
  unfold State.takeFrame State.takeParsed
  dsimp only
  (repeat' split) <;> first
    | exact State.answer_cuesOk _ _ _ ho
    | exact State.handOver_cuesOk _ ho

/-- The state in which a full reset begins meets `State.CuesOk`. -/
theorem State.beginReset_cuesOk (s : State) : s.beginReset.CuesOk := by
  refine ⟨?_, ?_, [], [], [], ?_⟩ <;> simp [State.beginReset, State.reset, CueQueue.reset, Expander.reset]

/-- Receiving a byte keeps `State.CuesOk`. -/
theorem State.CuesOk.heard {s t : State} (h : s.CuesOk) (ht : Heard s t) : t.CuesOk := by
  have hs (rx : Receiver) : (s.setRx rx).CuesOk := h.of_eq (by simp) (by simp) (by simp)
  cases ht with
  | same => exact h
  | stored rx => exact hs rx
  | begun => exact h.of_eq (by simp) (by simp) (by simp)
  | discarded => exact h.of_eq (by simp) (by simp) (by simp)
  | dropped => exact hs _
  | taken => exact State.takeFrame_cuesOk _ _ _ _ (hs _)

end Sys2Proof.Machine
end

