-- ==== Sys2Proof/Laws/Decode.lean ====
section
/-! SUPPORT. Reading requests back: what each reader can answer, and the byte order's two directions. -/

namespace Sys2Proof

/-! ## Byte order -/

/-- A 16-bit field read back from its two bytes. -/
theorem half_le16 (h : Half) : half (h.setWidth 8) ((h >>> 8).setWidth 8) = h := by
  unfold half
  ext i hi
  simp only [BitVec.getElem_or, BitVec.getElem_shiftLeft, BitVec.getElem_setWidth, BitVec.getLsbD_setWidth,
    BitVec.getLsbD_ushiftRight, BitVec.getLsbD_eq_getElem hi]
  by_cases h8 : i < 8
  · simp [h8]
  · have h1 : 8 + (i - 8) = i := by omega
    have h2 : i - 8 < 8 := by omega
    simp [h8, h1, h2, hi]

/-! ## Readers -/

/-- Units read as a request are the units, and their number is allowed. -/
theorem Parsed.ofUnits_request {α : Type} {make : α → Instr} {units : Option α} {i : Instr}
    (h : Parsed.ofUnits make units = .request i) : ∃ x, units = some x ∧ i = make x ∧ i.lengthOk = true := by
  unfold Parsed.ofUnits at h
  split at h
  · simp at h
  · split at h
    · cases h; exact ⟨_, rfl, rfl, by assumption⟩
    · simp at h

/-- A request read from a payload of one byte. -/
theorem Parsed.ofOne_request {make : Byte → Parsed} {p : List Byte} {i : Instr}
    (h : Parsed.ofOne make p = .request i) : ∃ a, p = [a] ∧ make a = .request i := by
  unfold Parsed.ofOne at h
  split at h
  · exact ⟨_, rfl, h⟩
  · simp at h

/-- A request read from an action set has an action in it, and is a RUN_FORCE. -/
theorem Parsed.ofActionSet_request {tag set : Byte} {i : Instr} (h : Parsed.ofActionSet tag set = .request i) :
    ∃ q, i.request? = some (.runForce, tag, q) := by
  unfold Parsed.ofActionSet at h
  (repeat' split at h) <;> simp at h <;> subst h <;> exact ⟨_, rfl⟩

/-- A frame of a listed kind that reads as a request reads as one of that kind and tag. -/
theorem parseRequest_request {kind : Kind} {tag : Byte} {p : List Byte} {i : Instr}
    (h : parseRequest kind tag p = .request i) : ∃ q, i.request? = some (kind, tag, q) := by
  cases kind <;> simp only [parseRequest] at h
  case setupWrite => obtain ⟨x, -, rfl, -⟩ := Parsed.ofUnits_request h; exact ⟨_, rfl⟩
  case setupRead => obtain ⟨x, -, rfl, -⟩ := Parsed.ofUnits_request h; exact ⟨_, rfl⟩
  case templateDefine => obtain ⟨x, -, rfl, -⟩ := Parsed.ofUnits_request h; exact ⟨_, rfl⟩
  case cueAdd => obtain ⟨x, -, rfl, -⟩ := Parsed.ofUnits_request h; exact ⟨_, rfl⟩
  case noticeClear => unfold Parsed.ofTwo at h; split at h <;> simp at h; subst h; exact ⟨_, rfl⟩
  case noticeMask => unfold Parsed.ofThree at h; split at h <;> simp at h; subst h; exact ⟨_, rfl⟩
  case phraseDefine => unfold Parsed.ofThree at h; split at h <;> simp at h; subst h; exact ⟨_, rfl⟩
  case shapeSum => unfold Parsed.ofSum at h; split at h <;> simp at h; subst h; exact ⟨_, rfl⟩
  case shapeAppend =>
    unfold Parsed.ofAppend at h
    split at h
    · obtain ⟨x, -, rfl, -⟩ := Parsed.ofUnits_request h; exact ⟨_, rfl⟩
    · simp at h
  case shapeCompare =>
    unfold Parsed.ofCompare at h
    split at h
    · obtain ⟨x, -, rfl, -⟩ := Parsed.ofUnits_request h; exact ⟨_, rfl⟩
    · simp at h
  case runForce =>
    obtain ⟨a, -, ha⟩ := Parsed.ofOne_request h
    exact Parsed.ofActionSet_request ha
  all_goals first
    | (unfold Parsed.ofNone at h; split at h <;> simp at h; subst h; exact ⟨_, rfl⟩)
    | (obtain ⟨a, -, ha⟩ := Parsed.ofOne_request h; cases ha; exact ⟨_, rfl⟩)

end Sys2Proof
end

