-- ==== Sys2Proof/Laws/Leaving.lean ====
section
/-! SUPPORT. Entries to run states, ends of steps and early leaves, in the terms of Safety. -/

namespace Sys2Proof.Machine

/-- The end of the active step hands its record. -/
theorem State.endActive_results (reason : EndReason) (s : State) :
    (s.endActive reason).results = (s.handActive reason).results := by
  cases h : s.seq.active with
  | none => simp [State.endActive, State.handActive, h]
  | some a =>
    simp only [State.endActive, State.handActive, h, ActiveStep.result, State.handResult]
    split
    · rw [State.latchIf_frame _ _ _ |>.2.2.2.2.2.2.2.2.2.1, State.latchIf_frame _ _ _ |>.2.2.2.2.2.2.2.2.2.1]
    · rfl

/-- An entry to OFF, FAULT or DISABLED leaves the state at rest (R23, R138). -/
theorem State.enterIdle_rests (run : RunState) (s : State) : s.Rests (s.enterIdle run) := by
  constructor <;> simp [Synth.quiet, Monitor.rest, Config.unityGain]
  all_goals intro p; cases p <;> rfl

/-- An entry to STOPPING starts the stop ramp (R22). -/
theorem State.enterStopping_stops (s : State) : s.Stops s.enterStopping := by
  constructor <;> simp
  · intro h p; cases p <;> simp [PerPhase.get, PerPhase.map, SynthPhase.stop, h, Ramp.toward]
  · intro h p; cases p <;> simp [PerPhase.get, PerPhase.map, SynthPhase.stop, h]

/-- `State.Rests` depends on the synthesizers, the setup tables and the load monitor's gains and counters. -/
theorem State.Rests.of_eq {s s' t t' : State} (h : s.Rests t) (h1 : s'.synth = s.synth) (h2 : s'.setup = s.setup)
    (h3 : t'.synth = t.synth) (h4 : t'.monitor.gains = t.monitor.gains)
    (h5 : t'.monitor.counters = t.monitor.counters) : s'.Rests t' := by
  obtain ⟨a1, a2, a3, a4, a5, a6, a7⟩ := h
  constructor <;> simp_all

/-- `State.Stops` depends on the synthesizers and the first setup table. -/
theorem State.Stops.of_eq {s s' t t' : State} (h : s.Stops t) (h1 : s'.synth = s.synth) (h2 : s'.setup = s.setup)
    (h3 : t'.synth = t.synth) : s'.Stops t' := by
  obtain ⟨a1, a2, a3, a4, a5, a6⟩ := h
  constructor <;> simp_all

/-- A run left with its expansion discarded leaves nothing of it, and is in its new state (R81, R131). -/
theorem State.enterEnd_left (run : RunState) (s : State) (ha : s.seq.active = none) :
    (s.discardExpansion.enterEnd run).RunLeft ∧ (s.discardExpansion.enterEnd run).seq.run = run := by
  have hd := s.discardExpansion_changes
  unfold State.enterEnd
  split
  · rename_i h
    refine ⟨?_, by simp [h]⟩
    constructor <;> simp [hd, ha]
  · refine ⟨?_, by simp⟩
    constructor <;> simp [hd, ha]

/-- A run left for OFF, FAULT or DISABLED is at rest. -/
theorem State.enterEnd_rests (run : RunState) (hr : run ≠ .stopping) (s : State) :
    s.Rests (s.discardExpansion.enterEnd run) := by
  unfold State.enterEnd
  rw [if_neg hr]
  exact (s.discardExpansion.enterIdle_rests run).of_eq (by simp) (by simp) rfl rfl rfl

/-- A run left for STOPPING starts the stop ramp. -/
theorem State.enterEnd_stops (s : State) : s.Stops (s.discardExpansion.enterEnd .stopping) := by
  unfold State.enterEnd
  rw [if_pos rfl]
  exact s.discardExpansion.enterStopping_stops.of_eq (by simp) (by simp) rfl

/-- What an end marker does where a run is in progress (R121). -/
theorem State.takeMarker_cases (option : EndOption) (s : State) (hr : s.seq.run ≠ .armed) :
    (option = .off → (s.takeMarker option).seq.run = .stopping ∧ (s.takeMarker option).expander.slot = .empty ∧
      s.Stops (s.takeMarker option)) ∧
    (option = .hold → (s.takeMarker option).seq.run = .parked ∧
      (s.takeMarker option).latched .runEnded = true ∧ (s.takeMarker option).synth = s.synth) ∧
    (s.takeMarker option).monitor = s.monitor ∧ (s.takeMarker option).seq.active = s.seq.active := by
  unfold State.takeMarker
  rw [if_neg hr]
  cases option with
  | off =>
    simp only [reduceCtorEq, forall_const, IsEmpty.forall_iff, true_and]
    exact ⟨⟨by simp, by simp, s.clearSlot.enterStopping_stops.of_eq rfl rfl rfl⟩, by simp, by simp⟩
  | hold =>
    have hk := State.fillSlot_keeps ((s.clearSlot.enterRun .parked).latch .runEnded) .runEnded (by simp)
    simp only [reduceCtorEq, forall_const, IsEmpty.forall_iff, true_and]
    rcases ((s.clearSlot.enterRun .parked).latch .runEnded).fillSlot_cases with e | ⟨_, _, ⟨e, _⟩, _⟩
    · refine ⟨⟨?_, hk, by simp⟩, by simp, ?_⟩
      all_goals rw [e]; simp
    · refine ⟨⟨?_, hk, by simp⟩, by simp, ?_⟩
      all_goals rw [e]; simp

/-- The end of the active step and the handing of its record latch the same flags. -/
theorem State.endActive_notices (reason : EndReason) (s : State) :
    (s.endActive reason).notices = (s.handActive reason).notices := by
  cases h : s.seq.active with
  | none => simp [State.endActive, State.handActive, h]
  | some a =>
    simp only [State.endActive, State.handActive, h, ActiveStep.result, State.handResult]
    split
    · exact State.latchIf_notices _ _ rfl
    · exact State.latch_notices _ rfl

/-- The handing of the active step's record changes the result queue and the notices alone. -/
theorem State.handActive_eq (reason : EndReason) (s : State) :
    s.handActive reason =
      { s with results := (s.handActive reason).results, notices := (s.handActive reason).notices } := by
  have hand (b : ResultBody) :
      s.handResult b = { s with results := (s.handResult b).results, notices := (s.handResult b).notices } := by
    unfold State.handResult State.latchIf
    dsimp only
    (repeat' split) <;> rfl
  unfold State.handActive
  split
  · rfl
  · exact hand _

/-- `State.Parks` depends on the blocks it names. -/
theorem State.Parks.of_eq {s s' t : State} (h : s.Parks t) (h1 : s'.expander = s.expander) (h2 : s'.queue = s.queue)
    (h3 : s'.library = s.library) (h4 : s'.phrases = s.phrases) (h5 : s'.setup = s.setup)
    (h6 : s'.results = s.results) (h7 : s'.synth = s.synth) (h8 : s'.store = s.store) (h9 : s'.monitor = s.monitor)
    (h10 : s'.notices = s.notices) (h11 : s'.seq.debounce = s.seq.debounce) : s'.Parks t := by
  have h12 : (s'.latch .runEnded).notices = (s.latch .runEnded).notices := State.latch_notices _ h10
  unfold State.Parks
  rw [h1, h2, h3, h4, h5, h6, h7, h8, h9, h11, h12]
  exact h

/-- An end marker HOLD that is taken leaves what R121 says, and what the staging after it leaves. -/
theorem State.takeMarker_parks (s : State) (hr : s.seq.run ≠ .armed) : s.Parks (s.takeMarker .hold) := by
  unfold State.takeMarker
  rw [if_neg hr]
  exact ⟨(s.clearSlot.enterRun .parked).latch .runEnded, rfl, rfl, rfl, rfl, rfl, rfl, rfl, rfl, rfl, rfl, rfl, rfl, rfl,
    rfl, rfl, State.latch_notices _ rfl⟩

/-- The same behind a step that ends. -/
theorem State.endActive_parks (reason : EndReason) (s : State) (hr : s.seq.run ≠ .armed) :
    (s.handActive reason).Parks ((s.endActive reason).takeMarker .hold) := by
  have h := (s.endActive reason).takeMarker_parks (by simpa using hr)
  have e := s.handActive_eq reason
  exact h.of_eq (by rw [e]; simp) (by rw [e]; simp) (by rw [e]; simp) (by rw [e]; simp) (by rw [e]; simp)
    (s.endActive_results reason).symm (by rw [e]; simp) (by rw [e]; simp) (by rw [e]; simp)
    (s.endActive_notices reason).symm (by rw [e]; simp)

end Sys2Proof.Machine
end

