-- ==== Sys2Proof/Laws/Listening.lean ====
section
/-! SUPPORT. A request that arrives while the part is free to take it: its frame is the request opened and handed to
its block, and a block's reply is the state with that reply. -/

namespace Sys2Proof.Machine

/-- The request in progress as the link opens it. -/
theorem State.openRequest_eq (kind tag : Byte) (s : State) : s.openRequest kind tag = s.inProgress kind tag := rfl

/-- A reply formed by a block that has left the link as the request opened it. -/
theorem State.answer_eq {s t : State} {kind tag : Byte} (hl : t.link = (s.openRequest kind tag).link)
    (outcome : ReplyOutcome) (detail : Detail) (payload : List Byte) :
    t.answer outcome detail payload = State.replied kind tag outcome detail payload { t with link := s.link } := by
  unfold State.answer State.replied
  rw [hl]; rfl

/-- A reply of a request that changed nothing. -/
@[simp] theorem State.openRequest_answer (s : State) (kind tag : Byte) (outcome : ReplyOutcome) (detail : Detail)
    (payload : List Byte) :
    (s.openRequest kind tag).answer outcome detail payload = s.replied kind tag outcome detail payload :=
  State.answer_eq rfl outcome detail payload

/-- A refusal of a request that changed nothing. -/
@[simp] theorem State.openRequest_refuse (s : State) (kind tag : Byte) (detail : Detail) :
    (s.openRequest kind tag).refuse detail = s.replied kind tag .refused detail [] :=
  State.openRequest_answer s kind tag .refused detail []

/-- A reply DONE to a request that changed nothing. -/
@[simp] theorem State.openRequest_done (s : State) (kind tag : Byte) (detail : Detail) (payload : List Byte) :
    (s.openRequest kind tag).done detail payload = s.replied kind tag .done detail payload :=
  State.openRequest_answer s kind tag .done detail payload

/-- The frame of a request whose units are in number what its kind allows, while the part listens. -/
theorem State.Listening.requestFrame {s : State} (h : s.Listening) {i : Instr} {kind : Kind} {tag : Byte}
    {payload : List Byte} (hr : i.request? = some (kind, tag, payload)) (hp : payload.length ≤ 1024)
    (hl : i.lengthOk = true) : s.requestFrame i = (s.openRequest kind.code tag).handOver i := by
  simp [State.requestFrame, State.frameFits, fitsFrame, State.wholeFrame, State.takeRequest, h.outOfReset, h.ready,
    h.hunting, hr, hl, Config.maxPayload, hp]

/-- A request in progress is the state with its link in progress. -/
theorem State.openRequest_onLink (kind tag : Byte) (s : State) :
    s.openRequest kind tag = s.onLink (s.openRequest kind tag).link := rfl

/-- A reply formed by a block whose work does not depend on the link. -/
theorem State.onLink_answer {s t : State} (h : t.link = s.link) (kind tag : Byte) (outcome : ReplyOutcome)
    (detail : Detail) (payload : List Byte) :
    (t.onLink (s.openRequest kind tag).link).answer outcome detail payload =
      t.replied kind tag outcome detail payload := by
  have hl : (t.onLink (s.openRequest kind tag).link).link = (s.openRequest kind tag).link := rfl
  rw [State.answer_eq hl, ← h]
  rfl

end Sys2Proof.Machine
end

