-- ==== Sys2Proof/Laws/Forced.lean ====
section
/-! SUPPORT. Requests of the run sequencer: their work on a state without a request in progress, and what an early leave does. -/

namespace Sys2Proof.Machine

/-- RUN_START in OFF does not depend on the link. -/
theorem State.onLink_armRun (l : Link) (s : State) : (s.onLink l).armRun = s.armRun.onLink l := by
  unfold State.armRun
  rw [show (s.onLink l).enterRun .armed = (s.enterRun .armed).onLink l from rfl, State.onLink_stage]

/-- RUN_START in PARKED does not depend on the link. -/
theorem State.onLink_leaveParked (l : Link) (s : State) : (s.onLink l).leaveParked = s.leaveParked.onLink l := by
  unfold State.leaveParked
  rw [State.onLink_expander]
  split
  · rfl
  · rfl
  · rw [← State.onLink_takeMarker]; rfl

/-- A reply that carries the run state. -/
theorem State.onLink_doneWithState {s t : State} (h : t.link = s.link) (kind tag : Byte)
    : (t.onLink (s.openRequest kind tag).link).doneWithState = t.replied kind tag .done .none [t.seq.run.code] := by
  unfold State.doneWithState State.done
  rw [State.onLink_answer h]; rfl

/-- A forced disable does not depend on the link. -/
theorem State.onLink_forceDisable (l : Link) (s : State) : (s.onLink l).forceDisable = s.forceDisable.onLink l := by
  unfold State.forceDisable
  rw [State.onLink_seq]
  split <;> first | rfl | exact State.onLink_leaveEarly l _ _ s

/-- A forced abort does not depend on the link. -/
theorem State.onLink_forceAbort (l : Link) (s : State) : (s.onLink l).forceAbort = s.forceAbort.onLink l := by
  unfold State.forceAbort
  rw [State.onLink_seq]
  split <;> first | rfl | exact State.onLink_leaveEarly l _ _ s | (rw [State.onLink_leaveEarly]; rfl)

/-- A forced skip does not depend on the link. -/
theorem State.onLink_forceSkip (l : Link) (s : State) : (s.onLink l).forceSkip = s.forceSkip.onLink l := by
  unfold State.forceSkip
  rw [State.onLink_seq]
  split
  · exact State.onLink_skipActive l s
  · rfl

/-- RUN_FORCE in progress, in the terms of the state before it (R127). -/
theorem State.openRequest_takeForce (a : Action) (s : State) (tag : Byte) :
   (s.openRequest 0x3B#8 tag).takeForce a = if a.valid s.seq.run then
     let t := match a with
      | .disable => s.forceDisable
      | .abort => s.forceAbort
      | .skip => s.forceSkip
     t.replied 0x3B#8 tag .done .none [a.code, t.seq.run.code]
   else s.replied 0x3B#8 tag .refused .state [a.code, s.seq.run.code] := by
  rw [State.openRequest_onLink]
  unfold State.takeForce
  rw [State.onLink_seq]
  split
  · cases a
    · rw [State.onLink_forceDisable]
      exact State.onLink_answer (by simp) 0x3B#8 tag _ _ _
    · rw [State.onLink_forceAbort]
      exact State.onLink_answer (by simp) 0x3B#8 tag _ _ _
    · rw [State.onLink_forceSkip]
      exact State.onLink_answer (by simp) 0x3B#8 tag _ _ _
  · exact State.onLink_answer rfl 0x3B#8 tag _ _ _

/-- A record handed leaves RUN_ENDED. -/
theorem State.handResult_runEnded (s : State) (b : ResultBody)
    : (s.handResult b).latched .runEnded = s.latched .runEnded := by
  unfold State.handResult
  dsimp only
  split
  · rw [State.latched_latchIf]; simp; rfl
  · rw [State.latched_latch]; simp; rfl

/-- The end of the active step leaves RUN_ENDED. -/
theorem State.endActive_runEnded (r) (s : State) : (s.endActive r).latched .runEnded = s.latched .runEnded := by
  unfold State.endActive
  split
  · rfl
  · rw [State.handResult_runEnded]; rfl

/-- A cue that becomes SPENT leaves RUN_ENDED. -/
theorem State.spendLive_runEnded (s : State) : s.spendLive.latched .runEnded = s.latched .runEnded := by
  have hs : ∀ l (u : State), (u.setCues l).latched .runEnded = u.latched .runEnded := by
    intro l u; unfold State.setCues; rw [State.latched_latchIf, State.latched_latchIf]; simp; rfl
  unfold State.spendLive
  split
  · rfl
  · split
    · rw [State.latched_of_eq (s := s.setCues (dropLive s.queue.cues)) (by simp), hs]
    · rw [hs]

/-- A discarded expansion leaves RUN_ENDED. -/
theorem State.discardExpansion_runEnded (s : State)
    : s.discardExpansion.latched .runEnded = s.latched .runEnded := by
  unfold State.discardExpansion
  split
  · rfl
  · rw [State.spendLive_runEnded]; rfl

/-- What becomes of the cues when a run is left, by the state before it was (R81): with no cue EXPANDING the queue and the
refcounts stay, else the EXPANDING cue becomes SPENT. -/
theorem State.leave_spends (run : RunState) {s u : State} (he : u.expander = s.expander) (hq : u.queue = s.queue)
    (hl : u.library = s.library) (hp : u.phrases = s.phrases) (hs : u.setup = s.setup)
    (hw : u.latched .lowWater = s.latched .lowWater) :
    let t := u.discardExpansion.enterEnd run
    (s.expander.context = none → t.queue = s.queue ∧ t.library = s.library ∧ t.phrases = s.phrases) ∧
    ∀ context before c after, s.expander.context = some context → s.queue.cues = before ++ c :: after →
      (∀ x ∈ before, x.status = .spent) → c.status ≠ .spent → s.Spends t before c after := by
  intro t
  obtain ⟨-, -, e3, e4, e5, -, -, e8, -⟩ := State.enterEnd_frame run u.discardExpansion
  constructor
  · intro hc
    have hd : u.discardExpansion = u.resetExpander := by
      unfold State.discardExpansion; rw [he, hc]
    exact ⟨(e5.trans (by rw [hd]; rfl)).trans hq, (e3.trans (by rw [hd]; rfl)).trans hl,
      (e4.trans (by rw [hd]; rfl)).trans hp⟩
  · intro context before c after hc hcues hb hcs
    have hd : u.discardExpansion = u.resetExpander.spendLive := by
      unfold State.discardExpansion; rw [he, hc]
    have h2 := (State.spendLive_spends (s := u.resetExpander) (before := before) (c := c) (after := after)
      (by show u.queue.cues = _; rw [hq, hcues]) hb hcs).1
    rw [← hd] at h2
    constructor
    · intro hm
      have := h2.stream (hs ▸ hm)
      rw [show u.resetExpander.library = s.library from hl, show u.resetExpander.phrases = s.phrases from hp, ← e3, ← e4,
        ← e5] at this
      exact this
    · intro hm
      have := h2.retain (hs ▸ hm)
      rw [show u.resetExpander.library = s.library from hl, show u.resetExpander.phrases = s.phrases from hp, ← e3, ← e4,
        ← e5] at this
      exact this
    · exact (congrArg CueQueue.nextSerial e5).trans (h2.serial.trans (congrArg CueQueue.nextSerial hq))
    · exact (congrArg CueQueue.trial e5).trans (h2.trial.trans (congrArg CueQueue.trial hq))
    · have := h2.lowWater
      rw [show u.resetExpander.queue = s.queue from hq, show u.resetExpander.setup = s.setup from hs,
        show u.resetExpander.latched .lowWater = s.latched .lowWater from hw] at this
      rw [State.latched_of_eq e8]
      exact this

/-- A flag that latches later than LOW_WATER leaves what a SPENT cue leaves. -/
theorem State.Spends.latch {s t : State} {before : List Cue} {c : Cue} {after : List Cue} (n : Notice)
    (hn : n ≠ .lowWater) (h : s.Spends t before c after) : s.Spends (t.latch n) before c after := by
  obtain ⟨h1, h2, h3, h4, h5⟩ := h
  refine ⟨h1, h2, h3, h4, ?_⟩
  rw [State.latched_latch, ← h5]
  simp [hn.symm]

/-- A record handed leaves LOW_WATER. -/
theorem State.handResult_lowWater (s : State) (b : ResultBody) :
    (s.handResult b).latched .lowWater = s.latched .lowWater := by
  unfold State.handResult
  dsimp only
  split
  · rw [State.latched_latchIf]; simp; rfl
  · rw [State.latched_latch]; simp; rfl

/-- The end of the active step leaves LOW_WATER. -/
theorem State.endActive_lowWater (r) (s : State) : (s.endActive r).latched .lowWater = s.latched .lowWater := by
  unfold State.endActive
  split
  · rfl
  · rw [State.handResult_lowWater]; rfl

/-- What an early leave does (R81, R131). -/
theorem State.leaveEarly_leaves (reason : EndReason) (run : RunState) (s : State) :
   let t := s.leaveEarly reason run
   t.RunLeft ∧ t.seq.run = run ∧ t.results = (s.handActive reason).results ∧ t.seq.timeoutCount = 0 ∧
      (s.expander.context = none → t.queue = s.queue ∧ t.library = s.library ∧ t.phrases = s.phrases) ∧
      (∀ context before c after, s.expander.context = some context → s.queue.cues = before ++ c :: after →
        (∀ x ∈ before, x.status = .spent) → c.status ≠ .spent → s.Spends t before c after) ∧
   t.latched .runEnded = s.latched .runEnded ∧ t.ports = s.ports ∧ t.store = s.store ∧ t.setup = s.setup ∧
       t.pending = s.pending ∧
      t.seq.debounce = s.seq.debounce ∧ (run ≠ .stopping → s.Rests t) ∧ (run = .stopping → s.Stops t ∧
          t.monitor = s.monitor) ∧ t.monitor.fault = s.monitor.fault ∧ t.link = s.link := by
  intro t
  have hl := State.enterEnd_left run (s.endActive reason) (by simp)
  have hf := State.leaveEarly_frame reason run s
  have hfr := s.endActive_frame reason
  obtain ⟨f1, f2, f3, f4, f5, f6, f7, f8, f9, f10, f11, f12⟩ := hfr
  have hee := State.enterEnd_frame run (s.endActive reason).discardExpansion
  have hch := (s.endActive reason).discardExpansion_changes
  refine ⟨hl.1, hl.2, ?_, ?_, ?_, ?_, ?_, hf.1, hf.2.1, hf.2.2.1, hf.2.2.2.2, ?_, ?_, ?_, ?_, hf.2.2.2.1⟩
  · rw [← State.endActive_results]
    show ((s.endActive reason).discardExpansion.enterEnd run).results = _
    rw [hee.2.2.2.2.2.2.1]; simp
  · show ((s.endActive reason).discardExpansion.enterEnd run).seq.timeoutCount = _
    unfold State.enterEnd; split <;> simp [hch]
  · exact (State.leave_spends run f7 f6 f4 f5 f9 (State.endActive_lowWater _ _)).1
  · exact (State.leave_spends run f7 f6 f4 f5 f9 (State.endActive_lowWater _ _)).2
  · show ((s.endActive reason).discardExpansion.enterEnd run).latched .runEnded = _
    rw [State.latched_of_eq hee.2.2.2.2.2.2.2.1, State.discardExpansion_runEnded, State.endActive_runEnded]
  · show ((s.endActive reason).discardExpansion.enterEnd run).seq.debounce = _
    unfold State.enterEnd; split <;> simp [hch]
  · intro hr
    exact (State.enterEnd_rests run hr (s.endActive reason)).of_eq f1.symm f9.symm rfl rfl rfl
  · rintro rfl
    refine ⟨(State.enterEnd_stops (s.endActive reason)).of_eq f1.symm f9.symm rfl, ?_⟩
    show ((s.endActive reason).discardExpansion.enterEnd .stopping).monitor = _
    unfold State.enterEnd; rw [if_pos rfl]; simp
  · show ((s.endActive reason).discardExpansion.enterEnd run).monitor.fault = _
    unfold State.enterEnd; split <;> simp [Monitor.rest]

end Sys2Proof.Machine
end

