-- ==== Sys2Proof/Laws/Frames.lean ====
section
/-! SUPPORT. Bytes that make a frame: received in order, they do what the arrival of the whole frame does. -/

namespace Sys2Proof.Machine

/-- Commands that each receive one byte are the bytes received one after another. -/
theorem execAll_bytes (bytes : List Byte) (s : State) :
   execAll (bytes.map fun b => .byteReceived b false) s = .next (s.feed bytes) := by
  induction bytes generalizing s with
  | nil => rfl
  | cons b bs ih => simp only [List.map_cons, execAll, exec, execByteReceived]; rw [ih]; rfl

/-- A length read back from its two bytes. -/
theorem half_le16_toNat (n : Nat) (h : n ≤ 1024) : (half ((BitVec.ofNat 16 n).setWidth 8)
    ((BitVec.ofNat 16 n >>> 8).setWidth 8)).toNat = n := by
  rw [half_le16]; simp; omega

/-- The bytes of a payload join the frame in assembly (R166). -/
theorem State.feed_payload (rest : List Byte) (s : State) (h : s.link.inReset = false)
    (hs : s.link.rx.state = .payload) (hne : rest ≠ [])
    (hd : s.link.rx.declared = s.link.rx.payload.length + rest.length) :
    s.feed rest = s.setRx { s.link.rx with payload := s.link.rx.payload ++ rest, state := .check } := by
  induction rest generalizing s with
  | nil => exact absurd rfl hne
  | cons b bs ih =>
    have h1 : s.receiveByte b false = s.payloadByte b := by
      simp [State.receiveByte, h, State.goodByte, hs]
    show (s.receiveByte b false).feed bs = _
    rw [h1]
    by_cases hb : bs = []
    · subst hb
      simp [State.feed, State.payloadByte, State.setRx]
      simp at hd; omega
    · have hlen : 0 < bs.length := List.length_pos_iff.2 hb
      have hlt : s.link.rx.payload.length + 1 < s.link.rx.declared := by rw [hd]; simp; omega
      rw [ih (s.payloadByte b)]
      · simp [State.payloadByte, State.setRx]
      · simp [State.payloadByte, State.setRx, h]
      · simp [State.payloadByte, State.setRx, hlt]
      · exact hb
      · simp [State.payloadByte, State.setRx]
        have : ({ s.link.rx with payload := s.link.rx.payload ++ [b], state := if s.link.rx.payload.length + 1 < s.link.rx.declared then RxState.payload else RxState.check } : Receiver).declared = s.link.rx.declared := rfl
        rw [this, hd]; simp; omega

/-- The bytes of a frame that finds the receiver in HUNT (R166, R169, R172). -/
theorem State.feed_frameBytes (s : State) (kind tag : Byte) (payload : List Byte) (e : Half)
    (h : s.link.inReset = false) (hi : s.link.rx = Receiver.idle)
   (hp : payload.length ≤ 1024) : s.feed (frameBytes kind tag payload e) =
     if s.link.ready then s.takeFrame kind tag payload (e == 0#16) else s.latch .linkOverrun := by
  let lo := (BitVec.ofNat 16 payload.length).setWidth 8
  let hi8 := (BitVec.ofNat 16 payload.length >>> 8).setWidth 8
  have hfb : frameBytes kind tag payload e = [0x5A#8, kind, tag, lo, hi8] ++ payload ++
      le16 (crcBytes crcStart ([kind, tag, lo, hi8] ++ payload) ^^^ e) := by
    simp [frameBytes, Config.requestSync, bytes2, le16, lo, hi8]
  rw [hfb]
  let rx1 : Receiver := { state := if payload.length = 0 then .check else .payload, header := [kind, tag, lo, hi8], payload := [], check := [], gapRunning := true, marked := !s.link.ready }
  let s0 : State := State.latchIf (!s.link.ready) .linkOverrun s
  have h0 : s.feed [0x5A#8, kind, tag, lo, hi8] = s0.setRx rx1 := by
    have hst : s.link.rx.state = .hunt := by rw [hi]; rfl
    have hl : (half lo hi8).toNat = payload.length := half_le16_toNat _ hp
    have hng : ¬ Config.maxPayload < (half lo hi8).toNat := by rw [hl]; simp [Config.maxPayload]; omega
    simp only [State.feed, List.foldl_cons, List.foldl_nil]
    have r1 : s.receiveByte 0x5A#8 false = s.beginFrame := by
      simp [State.receiveByte, h, State.goodByte, hst, Config.requestSync]
    rw [r1]
    simp only [State.receiveByte, State.goodByte, State.headerByte, State.beginFrame, State.setRx,
        State.latchIf_frame, h, Receiver.idle, List.nil_append, List.cons_append, Bool.false_eq_true, if_false]
    simp only [hl]
    simp [s0, rx1]
    rw [if_neg (by simp [Config.maxPayload]; omega)]
    cases s.link.ready <;> simp [State.latchIf, State.latch, h]
  have h1 : (s0.setRx rx1).feed payload = s0.setRx { rx1 with payload := payload, state := .check } := by
    by_cases hpe : payload = []
    · subst hpe; rfl
    · have hl0 : payload.length ≠ 0 := by simpa using hpe
      rw [State.feed_payload payload]
      · simp [State.setRx, rx1]
      · simp [State.setRx, s0, h]
      · simp [State.setRx, rx1, hpe]
      · exact hpe
      · simp [State.setRx, rx1, Receiver.declared]
        have := half_le16_toNat _ hp
        exact this
  have happ : ∀ (a b : List Byte) (u : State), u.feed (a ++ b) = (u.feed a).feed b := by
    intro a b u; simp [State.feed, List.foldl_append]
  rw [happ, happ, h0, h1]
  generalize hc : crcBytes crcStart ([kind, tag, lo, hi8] ++ payload) = crc
  simp only [State.feed, le16, List.foldl_cons, List.foldl_nil]
  have hr0 : s0.link.inReset = false := by simp [s0, h]
  simp only [State.receiveByte, State.goodByte, State.setRx, State.checkByte, hr0, Bool.false_eq_true, if_false,
      rx1, State.completeFrame, half_le16, hc]
  have hback : ({ s0 with link := { s0.link with inReset := false, rx := Receiver.idle } } : State) = s0 := by
    have : s0.link.rx = Receiver.idle := by simp [s0, hi]
    have h2 : ({ s0.link with inReset := false, rx := Receiver.idle } : Link) = s0.link := by rw [← this, ← hr0]
    rw [h2]
  have hcrc : (crc == crc ^^^ e) = (e == 0#16) := by
    rw [Bool.eq_iff_iff]; simp only [beq_iff_eq]
    constructor
    · intro hx
      have := congrArg (crc ^^^ ·) hx
      simp at this
      exact this.symm
    · intro hx; simp [hx]
  cases hready : s.link.ready
  · simp only [Bool.not_false, if_true, Bool.false_eq_true, if_false]
    refine hback.trans ?_
    simp [s0, hready, State.latchIf]
  · simp only [Bool.not_true, Bool.false_eq_true, if_false, if_true]
    have : s0 = s := by simp [s0, hready, State.latchIf]
    have hb2 := hback
    rw [this] at hb2
    simp only [this, hcrc]
    congr 1

end Sys2Proof.Machine
end

