-- ==== Sys2Proof/Laws/LinkOk.lean ====
section
/-! SUPPORT. The link and the link-side work stay in agreement (`State.LinkOk`) under each operation. -/

namespace Sys2Proof.Machine

/-- How a block serves a request: it forms the reply, or it begins link-side work. -/
def State.Served (s t : State) : Prop :=
  (∃ outcome detail payload, t.link = (s.answer outcome detail payload).link ∧ t.store.job = s.store.job) ∨
  (t.link = s.link ∧ t.store.job.isSome = true)

/-- A reply formed over other blocks' changes serves the request. -/
theorem State.served_answer (s u : State) (o d p) (hl : u.link = s.link) (hj : u.store.job = s.store.job) :
    State.Served s (u.answer o d p) := by
  refine .inl ⟨o, d, p, ?_, by simp [hj]⟩
  unfold State.answer
  rw [hl]
  split <;> simp_all

/-- A reply DONE serves the request. -/
theorem State.served_done (s u : State) (d p) (hl : u.link = s.link) (hj : u.store.job = s.store.job) :
    State.Served s (u.done d p) := State.served_answer s u _ _ _ hl hj

/-- A refusal serves the request. -/
theorem State.served_refuse (s : State) (d) : State.Served s (s.refuse d)
    := State.served_answer s s _ _ _ rfl rfl

/-- The slots' refcounts do not touch link-side work. -/
@[simp] theorem State.moveSlotCounts_job (a b) (s : State) : (s.moveSlotCounts a b).store.job = s.store.job := by
  simp [State.moveSlotCounts]

/-- Either branch serves the request. -/
theorem State.served_ite {c : Prop} [Decidable c] {s t u : State} (ht : State.Served s t)
    (hu : State.Served s u) :
    State.Served s (if c then t else u) := by
  split
  · exact ht
  · exact hu

/-- Every block serves the requests it owns. -/
theorem State.handOver_served {i : Instr} {r} (hi : i.request? = some r) (s : State)
    : State.Served s (s.handOver i) := by
  cases i <;> simp only [Instr.request?, reduceCtorEq] at hi <;> simp only [State.handOver]
  case identify => exact State.served_done _ _ _ _ rfl rfl
  case status => exact State.served_done _ _ _ _ rfl rfl
  case reset => exact State.served_done _ _ _ _ rfl rfl
  case setupWrite =>
    unfold State.takeSetupWrite
    split
    · exact State.served_refuse _ _
    · split
      · exact State.served_refuse _ _
      · exact State.served_done _ _ _ _ rfl rfl
  case setupRead =>
    unfold State.takeSetupRead
    split
    · exact State.served_done _ _ _ _ rfl rfl
    · exact State.served_refuse _ _
  case noticeRead => exact State.served_done _ _ _ _ rfl rfl
  case noticeClear => exact State.served_done _ _ _ _ rfl rfl
  case noticeMask =>
    unfold State.takeNoticeMask
    split
    · exact State.served_refuse _ _
    · exact State.served_done _ _ _ _ rfl rfl
  case shapeOpen =>
    unfold State.takeShapeOpen State.clearShape
    repeat' split
    all_goals first | exact State.served_refuse _ _ | exact State.served_done _ _ _ _ (by simp) (by simp)
  case shapeErase =>
    unfold State.takeShapeErase State.clearShape
    repeat' split
    all_goals first | exact State.served_refuse _ _ | exact State.served_done _ _ _ _ (by simp) (by simp)
  case shapeInfo =>
    unfold State.takeShapeInfo
    repeat' split
    all_goals first | exact State.served_refuse _ _ | exact State.served_done _ _ _ _ (by simp) (by simp)
  case shapeAppend =>
    unfold State.takeShapeAppend
    repeat' split
    all_goals first | exact State.served_refuse _ _ | exact .inr (by simp)
  case shapeSum =>
    unfold State.takeShapeSum
    repeat' split
    all_goals first | exact State.served_refuse _ _ | exact .inr (by simp)
  case shapeCompare =>
    unfold State.takeShapeCompare
    repeat' split
    all_goals first | exact State.served_refuse _ _ | exact .inr (by simp)
  case templateDefine =>
    unfold State.takeTemplateDefine
    dsimp only
    split
    · exact State.served_refuse _ _
    · split
      · exact State.served_refuse _ _
      · split
        · exact State.served_done _ _ _ _ (by simp) (by simp)
        · exact State.served_refuse _ _
  case templateDelete =>
    unfold State.takeTemplateDelete
    repeat' split
    all_goals first | exact State.served_refuse _ _ | exact State.served_done _ _ _ _ (by simp) (by simp)
  case templateRead =>
    unfold State.takeTemplateRead
    repeat' split
    all_goals first | exact State.served_refuse _ _ | exact State.served_done _ _ _ _ (by simp) (by simp)
  case phraseDefine =>
    unfold State.takePhraseDefine
    dsimp only
    iterate 8 (refine State.served_ite (State.served_refuse _ _) ?_)
    exact State.served_done _ _ _ _ (by simp) (by simp)
  case phraseDelete =>
    unfold State.takePhraseDelete
    repeat' split
    all_goals first | exact State.served_refuse _ _ | exact State.served_done _ _ _ _ (by simp) (by simp)
  case phraseRead =>
    unfold State.takePhraseRead
    split
    · exact State.served_refuse _ _
    · split
      · exact State.served_refuse _ _
      · exact State.served_done _ _ _ _ (by simp) (by simp)
  case cueAdd =>
    unfold State.takeCueAdd
    dsimp only
    generalize s.acceptCues s.queue.cues.length _ = r
    obtain ⟨bodies, failure⟩ := r
    dsimp only
    split
    · exact State.served_answer _ _ _ _ _ rfl rfl
    · cases failure
      · exact State.served_done _ _ _ _ (by simp) (by simp)
      · exact State.served_answer _ _ _ _ _ (by simp) (by simp)
  case cueRewind =>
    unfold State.takeCueRewind
    dsimp only
    repeat' split
    all_goals first | exact State.served_refuse _ _ | exact State.served_done _ _ _ _ (by simp) (by simp)
  case runClear =>
    unfold State.takeRunClear
    dsimp only
    repeat' split
    all_goals first | exact State.served_refuse _ _ | exact State.served_done _ _ _ _ (by simp) (by simp)
  case runStart =>
    unfold State.takeRunStart
    repeat' split
    all_goals first | exact State.served_refuse _ _ | exact State.served_done _ _ _ _ (by simp) (by simp)
  case runPause =>
    unfold State.takeRunPause
    repeat' split
    all_goals first | exact State.served_refuse _ _ | exact State.served_done _ _ _ _ (by simp) (by simp)
  case runResume =>
    unfold State.takeRunResume
    repeat' split
    all_goals first | exact State.served_refuse _ _ | exact State.served_done _ _ _ _ (by simp) (by simp)
  case runForceDisable =>
    unfold State.takeForce
    split
    · exact State.served_done _ _ _ _ (by simp) (by simp)
    · exact State.served_answer _ _ _ _ _ rfl rfl
  case runForceAbort =>
    unfold State.takeForce
    split
    · exact State.served_done _ _ _ _ (by simp) (by simp)
    · exact State.served_answer _ _ _ _ _ rfl rfl
  case runForceSkip =>
    unfold State.takeForce
    split
    · exact State.served_done _ _ _ _ (by simp) (by simp)
    · exact State.served_answer _ _ _ _ _ rfl rfl
  case faultClear =>
    unfold State.takeFaultClear
    repeat' split
    all_goals first | exact State.served_refuse _ _ | exact State.served_done _ _ _ _ (by simp) (by simp)
  case outputEnable =>
    unfold State.takeOutputEnable
    repeat' split
    all_goals first | exact State.served_refuse _ _ | exact State.served_done _ _ _ _ (by simp) (by simp)
  case resultRead =>
    unfold State.takeResultRead
    dsimp only
    repeat' split
    all_goals first | exact State.served_refuse _ _ | exact State.served_done _ _ _ _ (by simp) (by simp)

/-- What a frame of a listed kind carries is served. -/
theorem State.takeParsed_served (k : Kind) (tag : Byte) (p : List Byte) (s : State) :
    State.Served s (s.takeParsed (parseRequest k tag p)) := by
  cases hp : parseRequest k tag p with
  | request i =>
    obtain ⟨q, hq⟩ := parseRequest_request hp
    exact State.handOver_served hq s
  | emptyForce => exact State.served_refuse _ _
  | badLength => exact State.served_refuse _ _

/-- A frame that is taken is served. -/
theorem State.takeFrame_served (k t p g) (s : State) : State.Served (s.openRequest k t) (s.takeFrame k t p g)
    := by
  unfold State.takeFrame
  dsimp only
  split
  · split
    · exact State.served_answer _ _ _ _ _ rfl rfl
    · exact State.takeParsed_served _ _ _ _
  · exact State.served_answer _ _ _ _ _ rfl rfl

/-- A request that is taken is served. -/
theorem State.takeRequest_served {i : Instr} {r} (hi : i.request? = some r) (s : State)
    : State.Served s (s.takeRequest i) := by
  unfold State.takeRequest
  split
  · exact State.handOver_served hi s
  · exact State.served_refuse _ _


/-- Serving a request that was taken while READY was high keeps `State.LinkOk`. -/
theorem State.LinkOk.served {s t : State} (h : s.LinkOk) (hr : s.link.ready = true)
    (hx : s.link.rx = Receiver.idle) (k tg)
    (hs : State.Served (s.openRequest k tg) t) : t.LinkOk := by
  obtain ⟨h1, h2, h3, h4, h5, h6, h7⟩ := h
  have hp := (h1.mp hr).2
  have hi := (h1.mp hr).1
  have hj : s.store.job = none := by
    rw [hp] at h3
    cases hrep : s.link.reply <;> simp_all
  rcases hs with ⟨o, d, p, hl, hjob⟩ | ⟨hl, hjob⟩
  · unfold State.answer at hl
    simp only [State.openRequest_changes] at hl
    constructor <;> simp_all [Receiver.idle]
  · constructor <;> simp_all [Receiver.idle]

/-- `State.LinkOk` depends on the link and on whether there is link-side work. -/
theorem State.LinkOk.of_eq {s t : State} (h : s.LinkOk) (hl : t.link = s.link)
    (hj : t.store.job.isSome = s.store.job.isSome) : t.LinkOk := by
  obtain ⟨h1, h2, h3, h4, h5, h6, h7⟩ := h
  constructor
  all_goals rw [hl]
  all_goals first | assumption | (rw [hj]; assumption)

/-- A receiver replaced in keeping with READY keeps `State.LinkOk`. -/
theorem State.LinkOk.setRx {s : State} (h : s.LinkOk) (rx : Receiver) (hr : s.link.inReset = true →
    rx = Receiver.idle)
   (hu : rx.state ≠ .hunt → rx.marked = false → s.link.ready = true) (hh : rx.state = .hunt →
       rx = Receiver.idle) : (s.setRx rx).LinkOk := by
  obtain ⟨h1, h2, h3, h4, h5, h6, h7⟩ := h
  constructor
  all_goals simp only [State.setRx_changes, State.setRx_frame]
  all_goals first | assumption | exact fun hi => ⟨(h2 hi).1, hr hi⟩

/-- The receiver returning to HUNT keeps `State.LinkOk`. -/
theorem State.LinkOk.idle {s : State} (h : s.LinkOk) : (s.setRx Receiver.idle).LinkOk :=
  h.setRx _ (fun _ => rfl) (fun h => absurd rfl h) (fun _ => rfl)

/-- Receiving a byte keeps `State.LinkOk`. -/
theorem State.LinkOk.heard {s t : State} (h : s.LinkOk) (ht : Heard s t) : t.LinkOk := by
  cases ht with
  | same => exact h
  | stored rx hm hs ht =>
    refine h.setRx rx ?_ ?_ ?_
    · intro hr; exact absurd (by rw [(h.inReset hr).2]; rfl) hs
    · intro _ hmk; exact h.unmarked hs (hm ▸ hmk)
    · intro hc; exact absurd hc ht
  | begun hs hr =>
    have hrx := h.setRx { Receiver.idle with state := .header, gapRunning := true, marked := !s.link.ready }
      (by simp [hr]) (by simp) (by simp)
    refine hrx.of_eq ?_ (by simp)
    simp [State.beginFrame, State.setRx]
  | discarded => exact h.idle.of_eq (by simp [State.discardFrame, State.setRx]) (by simp)
  | dropped => exact h.idle
  | taken k tg p g hs hm =>
    refine State.LinkOk.served h.idle ?_ (by simp) k tg (State.takeFrame_served _ _ _ _ _)
    simpa using h.unmarked hs hm

end Sys2Proof.Machine
end

