-- ==== Sys2Proof/Laws/Produce.lean ====
section
/-! SUPPORT. What the production of one sample does to each block, said once. -/

namespace Sys2Proof.Machine

/-- The state of a sample once the synthesizer has advanced, before the output. -/
def State.advanced (trig : Bool) (s : State) : State :=
  { (s.sampleTrigger trig).sampleTimeout with synth := s.synth.advance s.seq.run.ramps }

/-- The sampling of TRIG leaves the run state, the remembered state, the active step and the staged step's phase
and target. -/
theorem State.sampled_seq (trig : Bool) (s : State) :
    (s.sampleTrigger trig).sampleTimeout.seq.run = s.seq.run ∧
    (s.sampleTrigger trig).sampleTimeout.seq.remembered = s.seq.remembered ∧
    (s.sampleTrigger trig).sampleTimeout.seq.active = s.seq.active ∧
    (s.sampleTrigger trig).sampleTimeout.seq.startPhase = s.seq.startPhase ∧
    (s.sampleTrigger trig).sampleTimeout.seq.target = s.seq.target ∧
    (s.sampleTrigger trig).sampleTimeout.seq.debounce = s.seq.debounce.sampled trig := by
  unfold State.sampleTimeout
  split <;> simp [State.sampleTrigger]

/-- A step leaving HELD changes its phase, target and timeout count and the moments alone. -/
@[simp] theorem State.releaseHeld_frame' (s : State) :
    s.releaseHeld.seq.run = s.seq.run ∧ s.releaseHeld.seq.remembered = s.seq.remembered ∧
    s.releaseHeld.seq.active = s.seq.active ∧ s.releaseHeld.seq.debounce = s.seq.debounce ∧
    s.releaseHeld.moments.trip = s.moments.trip := by
  unfold State.releaseHeld
  (repeat' split) <;> simp [State.beginEvaluation, Moments.fresh]

/-- A sample is the output of the advanced state, with a HELD step released and the arbiter's share. -/
theorem State.produce_eq (trig : Bool) (currents : PerPhase Nat) (s : State) :
    s.produce trig currents = ((s.advanced trig).emit s.synth.theta currents).releaseHeld.serveWork := by
  unfold State.produce State.advanced
  simp

/-- The synthesizer after a sample. -/
@[simp] theorem State.produce_synth (trig : Bool) (currents : PerPhase Nat) (s : State) :
    (s.produce trig currents).synth = s.synth.advance s.seq.run.ramps := by
  simp [State.produce_eq, State.advanced]

/-- The lines after a sample. -/
theorem State.produce_ports (trig : Bool) (currents : PerPhase Nat) (s : State) :
    (s.produce trig currents).ports = (s.advanced trig).linesOf s.synth.theta := by
  simp [State.produce_eq, State.emit]

/-- The load monitor after a sample: a processed current sample where OUTEN is high, else as it was. -/
theorem State.produce_monitor (trig : Bool) (currents : PerPhase Nat) (s : State) :
    (s.produce trig currents).monitor =
      if s.seq.run.driven then
        { s.monitor with gains := s.gainsAfter currents, counters := s.countersAfter currents }
      else s.monitor := by
  have hr := (State.sampled_seq trig s).1
  simp only [State.produce_eq, State.serveWork_frame, State.releaseHeld_frame, State.emit, State.sampleMonitor,
    State.latchIf_frame, State.advanced, hr]
  split <;> simp [State.gainsAfter, State.countersAfter]

/-- The run state, the remembered state, the active step and the debounce after a sample. -/
theorem State.produce_seq (trig : Bool) (currents : PerPhase Nat) (s : State) :
    (s.produce trig currents).seq.run = s.seq.run ∧
    (s.produce trig currents).seq.remembered = s.seq.remembered ∧
    (s.produce trig currents).seq.active = (s.advanced trig).activeAfter currents ∧
    (s.produce trig currents).seq.debounce = s.seq.debounce.sampled trig := by
  have h := State.sampled_seq trig s
  simp [State.produce_eq, State.emit, State.advanced, h]

end Sys2Proof.Machine
end

