-- ==== Sys2Proof/Laws/QuietOk.lean ====
section
/-! SUPPORT. While OUTEN is low there is no level, no ramp, no fold-back and no count (`State.QuietOk`): each
operation keeps it. -/

namespace Sys2Proof.Machine

/-- `State.QuietOk` depends on OUTEN, the levels, the frequency ramp, the gains and the counters. -/
theorem State.QuietOk.of_eq {s t : State} (h : s.QuietOk) (hr : t.seq.run.driven = s.seq.run.driven)
    (hp : t.synth.phases = s.synth.phases) (hf : t.synth.freqRamp = s.synth.freqRamp)
    (hg : t.monitor.gains = s.monitor.gains) (hc : t.monitor.counters = s.monitor.counters) : t.QuietOk := by
  obtain ⟨h1, h2, h3, h4⟩ := h
  constructor <;> rw [hr]
  · rw [hp]; exact h1
  · rw [hf]; exact h2
  · rw [hg]; exact h3
  · rw [hc]; exact h4

/-- With OUTEN high `State.QuietOk` asks nothing. -/
theorem State.QuietOk.of_driven {s : State} (h : s.seq.run.driven = true) : s.QuietOk := by
  constructor <;> simp [h]

/-- A phase made quiet is quiet. -/
theorem SynthPhase.quiet_quiet (p : SynthPhase) : p.quiet.Quiet := by
  constructor <;> rfl

/-- `State.enterIdle` leaves `State.QuietOk`. -/
theorem State.enterIdle_quietOk (run : RunState) (s : State) : (s.enterIdle run).QuietOk := by
  constructor
  · intro _ p hp
    simp [Synth.quiet, PerPhase.map, PerPhase.toList] at hp
    rcases hp with rfl | rfl | rfl <;> exact SynthPhase.quiet_quiet _
  · simp [Synth.quiet]
  · simp [Monitor.rest, Config.unityGain]
  · simp [Monitor.rest]

/-- `State.latch` keeps `State.QuietOk`. -/
theorem State.latch_quietOk {s : State} (n : Notice) (h : s.QuietOk) : (s.latch n).QuietOk :=
  h.of_eq (by simp) (by simp) (by simp) (by simp) (by simp)

/-- `State.fillSlot` keeps `State.QuietOk`. -/
theorem State.fillSlot_quietOk {s : State} (h : s.QuietOk) : s.fillSlot.QuietOk := by
  refine h.of_eq ?_ (by simp) (by simp) (by simp) (by simp)
  rcases s.fillSlot_cases with e | ⟨_, _, ⟨hseq, _⟩, _⟩
  · rw [e]
  · rw [hseq]

/-- `State.takeMarker` leaves `State.QuietOk`. -/
theorem State.takeMarker_quietOk (o : EndOption) (s : State) : (s.takeMarker o).QuietOk := by
  unfold State.takeMarker
  split
  · exact State.latch_quietOk _ (State.enterIdle_quietOk _ _)
  · split
    · exact State.fillSlot_quietOk (State.QuietOk.of_driven (by simp [RunState.driven]))
    · exact State.QuietOk.of_driven (by simp [RunState.driven])

/-- `State.beginEvaluation` keeps `State.QuietOk`. -/
theorem State.beginEvaluation_quietOk {s : State} (c : StepCopy) (h : s.QuietOk)
    : (s.beginEvaluation c).QuietOk :=
  h.of_eq (by simp) (by simp) (by simp) (by simp) (by simp)

/-- `State.actOnStaged` keeps `State.QuietOk`. -/
theorem State.actOnStaged_quietOk {s : State} (h : s.QuietOk) : s.actOnStaged.QuietOk := by
  unfold State.actOnStaged
  repeat' split
  all_goals first
    | exact h
    | exact State.beginEvaluation_quietOk _ h
    | exact State.takeMarker_quietOk _ _
    | exact State.beginEvaluation_quietOk _ (State.QuietOk.of_driven (by simp [RunState.driven]))

/-- `State.stage` keeps `State.QuietOk`. -/
theorem State.stage_quietOk {s : State} (h : s.QuietOk) : s.stage.QuietOk := by
  unfold State.stage
  split
  · exact State.actOnStaged_quietOk (State.fillSlot_quietOk h)
  · exact h

/-- `State.endActive` keeps `State.QuietOk`. -/
theorem State.endActive_quietOk {s : State} (r : EndReason) (h : s.QuietOk) : (s.endActive r).QuietOk :=
  h.of_eq (by simp) (by simp) (by simp) (by simp) (by simp)

/-- `State.afterEnd` keeps `State.QuietOk`. -/
theorem State.afterEnd_quietOk {s : State} (h : s.QuietOk) : s.afterEnd.QuietOk := by
  unfold State.afterEnd
  repeat' split
  all_goals first
    | exact State.beginEvaluation_quietOk _ h
    | exact State.takeMarker_quietOk _ _
    | exact State.beginEvaluation_quietOk _ (State.QuietOk.of_driven (by simp [RunState.driven]))
    | exact State.QuietOk.of_driven (by simp [RunState.driven])

/-- `State.enterEnd` leaves `State.QuietOk`. -/
theorem State.enterEnd_quietOk (run : RunState) (s : State) : (s.enterEnd run).QuietOk := by
  unfold State.enterEnd
  split
  · exact State.QuietOk.of_driven (by simp [RunState.driven])
  · exact State.enterIdle_quietOk _ _

/-- `State.expire` leaves `State.QuietOk`. -/
theorem State.expire_quietOk (s : State) : s.expire.QuietOk := by
  unfold State.expire
  split
  · exact State.latch_quietOk _ (State.enterEnd_quietOk _ _)
  · exact State.enterEnd_quietOk _ _

/-- `State.releaseHeld` keeps `State.QuietOk`. -/
theorem State.releaseHeld_quietOk {s : State} (h : s.QuietOk) : s.releaseHeld.QuietOk := by
  unfold State.releaseHeld
  repeat' split
  all_goals first | exact h | exact State.beginEvaluation_quietOk _ h

/-- `State.take` keeps `State.QuietOk`. -/
theorem State.take_quietOk {s : State} (m : Moment) (h : s.QuietOk) : (s.take m).QuietOk := by
  cases m
  · refine State.QuietOk.of_eq (t := s.qualify) h ?_ (by simp) (by simp) (by simp) (by simp)
    unfold State.qualify State.takeEdge
    dsimp only
    (repeat' split) <;> simp
  · exact State.expire_quietOk s
  · exact State.afterEnd_quietOk (State.endActive_quietOk _ h)
  · unfold State.take State.takeTrip
    dsimp only
    split
    · exact h
    · exact State.enterEnd_quietOk _ _
  · exact State.latch_quietOk _ (State.enterIdle_quietOk _ _)
  · unfold State.take State.takeStart
    dsimp only
    split
    · exact State.latch_quietOk _ (State.stage_quietOk (State.QuietOk.of_driven (by simp [State.activate,
        RunState.driven])))
    · exact h
    · exact h
  · unfold State.take State.takeHandover
    dsimp only
    split
    · exact State.takeMarker_quietOk _ _
    · exact h
    · exact h

/-- No ramp of a quiet phase completes. -/
theorem SynthPhase.Quiet.finish {p : SynthPhase} (h : p.Quiet) : p.finishPrimary = p ∧ p.finishOverlay = p := by
  obtain ⟨a1, a2, a3, a4, a5⟩ := h
  cases p
  simp_all [SynthPhase.finishPrimary, SynthPhase.finishOverlay, rampCompleted]

/-- No ramp of a quiet synthesizer completes. -/
theorem Synth.finishRamp_quiet {y : Synth} (r : RampId) (hf : y.freqRamp = none) (hp : ∀ p ∈ y.phases.toList,
    p.Quiet) :
    (y.finishRamp r).freqRamp = none ∧ (y.finishRamp r).phases = y.phases := by
  have hg (q : Phase) : (y.phases.get q).Quiet := by
    cases q <;> exact hp _ (by simp [PerPhase.get, PerPhase.toList])
  have hset (q : Phase) : y.phases.set q (y.phases.get q) = y.phases := by cases q <;> rfl
  cases r
  · simp [Synth.finishRamp, Synth.finishFrequency, hf, rampCompleted]
  · simp [Synth.finishRamp, (hg _).finish, hset, hf]
  · simp [Synth.finishRamp, (hg _).finish, hset, hf]

/-- `State.settle` keeps `State.QuietOk`. -/
theorem State.settle_quietOk {s : State} (h : s.QuietOk) : s.settle.QuietOk := by
  have one {s : State} (h : s.QuietOk) : s.settleOne.QuietOk := by
    unfold State.settleOne
    split
    · exact h
    · exact State.take_quietOk _ h
    · split
      · exact h
      · exact State.take_quietOk _ (h.of_eq rfl rfl rfl rfl rfl)
  have all (n : Nat) : ∀ {s : State}, s.QuietOk → (State.settleMoments n s).QuietOk := by
    induction n with
    | zero => exact fun h => h
    | succ n ih => exact fun h => ih (one h)
  refine all _ ?_
  obtain ⟨h1, h2, h3, h4⟩ := h
  refine ⟨?_, ?_, h3, h4⟩
  · intro hd p hp
    have h1 := h1 hd
    simp [Synth.finishRamps, Synth.finishFrequency, PerPhase.map, PerPhase.toList] at hp h1
    obtain ⟨⟨a1, a2, a3, a4, a5⟩, ⟨b1, b2, b3, b4, b5⟩, ⟨c1, c2, c3, c4, c5⟩⟩ := h1
    rcases hp with rfl | rfl | rfl <;> constructor <;> simp_all [SynthPhase.finishPrimary,
        SynthPhase.finishOverlay, rampCompleted]
  · intro hd
    simp [Synth.finishRamps, Synth.finishFrequency, h2 hd, rampCompleted]

/-- `State.produce` keeps `State.QuietOk`. -/
theorem State.produce_quietOk {s : State} (trig : Bool) (c : PerPhase Nat) (h : s.QuietOk)
    : (s.produce trig c).QuietOk := by
  by_cases hd : s.seq.run.driven = true
  · exact State.QuietOk.of_driven (by rw [(State.produce_seq trig c s).1]; exact hd)
  · have hr : s.seq.run.ramps = false := by
      cases hs : s.seq.run <;> simp_all [RunState.driven, RunState.ramps]
    refine h.of_eq (by rw [(State.produce_seq trig c s).1]) ?_ ?_ ?_ ?_
    · simp [hr, Synth.advance, Synth.ramped, Synth.turned]
    · simp [hr, Synth.advance, Synth.ramped, Synth.turned]
    · simp [State.produce_monitor, hd]
    · simp [State.produce_monitor, hd]

/-- `State.armRun` keeps `State.QuietOk`. -/
theorem State.armRun_quietOk {s : State} (h : s.QuietOk) (hr : s.seq.run = .off) : s.armRun.QuietOk :=
  State.stage_quietOk (h.of_eq (by simp [hr, RunState.driven]) (by simp) (by simp) (by simp) (by simp))

/-- `State.takeRunStart` keeps `State.QuietOk`. -/
theorem State.takeRunStart_quietOk {s : State} (h : s.QuietOk) : s.takeRunStart.QuietOk := by
  have same (t : State) (hs : t.QuietOk) (d p) : (t.done d p).QuietOk :=
    hs.of_eq (by simp) (by simp) (by simp) (by simp) (by simp)
  have ref (d) : (s.refuse d).QuietOk := h.of_eq (by simp) (by simp) (by simp) (by simp) (by simp)
  unfold State.takeRunStart
  split <;> try exact ref _
  · rename_i hr
    split
    · exact ref _
    · exact same _ (State.armRun_quietOk h hr) _ _
  · split
    · exact ref _
    · refine same _ ?_ _ _
      unfold State.leaveParked
      split
      · exact h
      · exact State.beginEvaluation_quietOk _ (State.QuietOk.of_driven (by simp [RunState.driven]))
      · exact State.takeMarker_quietOk _ _

/-- `State.afterResume` keeps `State.QuietOk`. -/
theorem State.afterResume_quietOk {s : State} (h : s.QuietOk) : s.afterResume.QuietOk := by
  unfold State.afterResume
  repeat' split
  · exact State.afterEnd_quietOk (State.endActive_quietOk _ h)
  · exact State.expire_quietOk s
  · exact State.actOnStaged_quietOk h
  · exact State.releaseHeld_quietOk h

/-- `State.takeRunResume` keeps `State.QuietOk`. -/
theorem State.takeRunResume_quietOk {s : State} (h : s.QuietOk) : s.takeRunResume.QuietOk := by
  unfold State.takeRunResume
  split
  · rename_i hr
    have : (s.enterRun s.seq.resumed).QuietOk := by
      apply State.QuietOk.of_driven
      simp only [Sequencer.resumed, hr, State.enterRun_changes]
      split
      · rename_i r _
        cases r <;> rfl
      · rfl
    exact (State.afterResume_quietOk this).of_eq (by simp) (by simp) (by simp) (by simp) (by simp)
  · exact h.of_eq (by simp) (by simp) (by simp) (by simp) (by simp)

/-- `State.takeForce` keeps `State.QuietOk`. -/
theorem State.takeForce_quietOk {s : State} (a) (h : s.QuietOk) : (s.takeForce a).QuietOk := by
  have same (t : State) (hs : t.QuietOk) (o d p) : (t.answer o d p).QuietOk :=
    hs.of_eq (by simp) (by simp) (by simp) (by simp) (by simp)
  unfold State.takeForce
  split
  · refine same _ ?_ _ _ _
    cases a <;> dsimp only
    · unfold State.forceDisable
      split
      all_goals first | exact h | exact State.enterIdle_quietOk _ _
    · unfold State.forceAbort
      split
      all_goals first | exact h | exact State.enterEnd_quietOk _ _ | exact State.latch_quietOk _ (State.enterEnd_quietOk _ _)
    · have he := State.endActive_quietOk .skipped h
      unfold State.forceSkip State.skipActive
      repeat' split
      · exact h
      · exact he
      · exact State.QuietOk.of_driven (by simp [RunState.driven])
      · exact State.afterEnd_quietOk he
      · exact h.of_eq rfl rfl rfl rfl rfl
  · exact same _ h _ _ _

/-- `State.takeSetupWrite` keeps `State.QuietOk`. -/
theorem State.takeSetupWrite_quietOk {s : State} (pairs) (h : s.QuietOk) (hr : s.setup.InRange)
    : (s.takeSetupWrite pairs).QuietOk := by
  have hn := State.takeSetupWrite_inRange pairs hr
  revert hn
  unfold State.takeSetupWrite
  split
  · exact fun _ => h.of_eq (by simp) (by simp) (by simp) (by simp) (by simp)
  · split
    · exact fun _ => h.of_eq (by simp) (by simp) (by simp) (by simp) (by simp)
    · intro hn
      simp only [State.done_frame, State.applySetup] at hn
      have hg := hn .gainFloor (by decide)
      simp only [Param.range, Setup.get] at hg
      obtain ⟨h1, h2, h3, h4⟩ := h
      refine ⟨?_, ?_, ?_, ?_⟩
      all_goals simp only [State.done_frame, State.applySetup]
      · intro hd; split <;> exact h1 hd
      · intro hd
        split
        · rfl
        · exact h2 hd
      · intro hd
        split
        · simp [h3 hd, PerPhase.map, PerPhase.same]; omega
        · exact h3 hd
      · intro hd; split <;> exact h4 hd
/-- A reply keeps `State.QuietOk`. -/
theorem State.answer_quietOk {s : State} (o : ReplyOutcome) (d : Detail) (p : List Byte) (h : s.QuietOk) :
    (s.answer o d p).QuietOk :=
  h.of_eq (by simp) (by simp) (by simp) (by simp) (by simp)

/-- Every request keeps `State.QuietOk`, the setup table being in range. -/
theorem State.handOver_quietOk {s : State} (i : Instr) (h : s.QuietOk) (hr : s.setup.InRange) :
    (s.handOver i).QuietOk := by
  cases i <;> simp only [State.handOver]
  all_goals first
    | exact h
    | exact h.of_eq (by simp) (by simp) (by simp) (by simp) (by simp)
    | exact State.takeSetupWrite_quietOk _ h hr
    | exact State.takeRunStart_quietOk h
    | exact State.takeRunResume_quietOk h
    | exact State.takeForce_quietOk _ h
    | skip
  case cueAdd tag cues =>
    have hj (b : List CueBody) : (s.joinCues b).QuietOk := by
      unfold State.joinCues
      dsimp only
      exact State.stage_quietOk (h.of_eq (by simp) (by simp) (by simp) (by simp) (by simp))
    unfold State.takeCueAdd
    dsimp only
    split
    · exact h.of_eq (by simp) (by simp) (by simp) (by simp) (by simp)
    · split
      · exact State.answer_quietOk _ _ _ (hj _)
      · exact State.answer_quietOk _ _ _ (hj _)
  case cueRewind tag =>
    unfold State.takeCueRewind
    dsimp only
    split
    · exact h.of_eq (by simp) (by simp) (by simp) (by simp) (by simp)
    · split
      · exact h.of_eq (by simp) (by simp) (by simp) (by simp) (by simp)
      · exact State.answer_quietOk _ _ _
          (State.stage_quietOk (h.of_eq (by simp) (by simp) (by simp) (by simp) (by simp)))
  case runPause tag =>
    unfold State.takeRunPause
    split
    · exact h.of_eq (by simp) (by simp) (by simp) (by simp) (by simp)
    · exact State.QuietOk.of_driven (by simp [RunState.driven])
  case faultClear tag =>
    unfold State.takeFaultClear
    split
    · exact State.answer_quietOk _ _ _ (State.enterIdle_quietOk _ _)
    · exact h.of_eq (by simp) (by simp) (by simp) (by simp) (by simp)
  case outputEnable tag =>
    unfold State.takeOutputEnable
    split
    · exact State.answer_quietOk _ _ _ (State.enterIdle_quietOk _ _)
    · exact h.of_eq (by simp) (by simp) (by simp) (by simp) (by simp)
  case runClear tag =>
    unfold State.takeRunClear
    dsimp only
    split
    · exact State.answer_quietOk _ _ _ (h.of_eq (by simp) (by simp) (by simp) (by simp) (by simp))
    · exact State.answer_quietOk _ _ _ h

end Sys2Proof.Machine
end

