-- ==== Sys2Proof/Laws/LevelsOk.lean ====
section
/-! SUPPORT. The running values stay in their ranges (`State.LevelsOk`) under each operation. -/

namespace Sys2Proof.Machine

/-! ## Ramps -/

/-- A value without a ramp. -/
theorem Bounded.idle {lo hi value : Nat} (h : lo ≤ value ∧ value ≤ hi) : Bounded lo hi value none :=
  ⟨h, by simp, by simp⟩

/-- A ramp set running from a value to a goal, both within bounds (R19, R22). -/
theorem Bounded.toward {lo hi value goal : Nat} (length : Nat) (hv : lo ≤ value ∧ value ≤ hi)
    (hg : lo ≤ goal ∧ goal ≤ hi) : Bounded lo hi value (some (Ramp.toward value goal length)) := by
  refine ⟨hv, ?_, ?_⟩ <;> intro r hr <;> cases hr
  · exact hv
  · exact hg

/-- A ramp on its way stays between its start and its goal (R18). -/
theorem Ramp.valueAt_bounds {lo hi : Nat} {r : Ramp} {m : Nat} (hs : lo ≤ r.startValue ∧ r.startValue ≤ hi)
    (hg : lo ≤ r.target ∧ r.target ≤ hi) (hm : m < r.length) : lo ≤ r.valueAt m ∧ r.valueAt m ≤ hi := by
  have hlen : (0 : Int) < r.length := by omega
  have hmul (d : Int) (hd : 0 ≤ d) : 0 ≤ (d * m).tdiv r.length ∧ (d * m).tdiv r.length ≤ d := by
    have h0 : 0 ≤ d * m := Int.mul_nonneg hd (by omega)
    rw [Int.tdiv_eq_ediv_of_nonneg h0]
    refine ⟨Int.ediv_nonneg h0 hlen.le, ?_⟩
    have : d * m ≤ d * r.length := Int.mul_le_mul_of_nonneg_left (by omega) hd
    calc d * m / r.length ≤ d * r.length / r.length := Int.ediv_le_ediv hlen this
      _ = d := Int.mul_ediv_cancel _ hlen.ne'
  unfold Ramp.valueAt
  rcases Int.le_total r.startValue r.target with h | h
  · have := hmul (r.target - r.startValue) (by omega)
    omega
  · have h1 := hmul (r.startValue - r.target) (by omega)
    have h2 : ((r.target : Int) - r.startValue) * m = -(((r.startValue : Int) - r.target) * m) := by ring
    rw [h2, Int.neg_tdiv]
    omega

/-- A ramp sample keeps a value and its ramp within bounds (R18). -/
theorem Bounded.sample {lo hi value : Nat} {ramp : Option Ramp} (h : Bounded lo hi value ramp) :
    Bounded lo hi (rampSample value ramp).1 (rampSample value ramp).2 := by
  cases ramp with
  | none => exact h
  | some r =>
    have hs := h.start r rfl
    have hg := h.goal r rfl
    refine ⟨?_, ?_, ?_⟩
    · simp only [rampSample]
      split
      · exact Ramp.valueAt_bounds hs hg ‹_›
      · exact hg
    · intro x hx; cases hx; exact hs
    · intro x hx; cases hx; exact hg

/-- The completion of a ramp keeps a value and its ramp within bounds (R18). -/
theorem Bounded.completed {lo hi value : Nat} {ramp : Option Ramp} (h : Bounded lo hi value ramp) :
    Bounded lo hi (rampCompleted value ramp).1 (rampCompleted value ramp).2 := by
  cases ramp with
  | none => exact h
  | some r =>
    simp only [rampCompleted]
    split
    · exact .idle (h.goal r rfl)
    · exact h

/-- A frequency within its range gives a tuning word within its range (R3). -/
theorem tuningOf_bounds {f : Nat} (h : 4000 ≤ f ∧ f ≤ 45000) : 1717987 ≤ tuningOf f ∧ tuningOf f ≤ 19327353 := by
  unfold tuningOf
  omega

/-! ## The synthesizer -/

/-- A phase's two amplitudes and their ramps within bounds. -/
structure SynthPhase.InRange (p : SynthPhase) : Prop where
  primary : Bounded 0 15000 p.primary p.primaryRamp
  overlay : Bounded 0 3000 p.overlayAmp p.overlayRamp

/-- A synthesizer whose running values are in range. -/
structure Synth.InRange (y : Synth) : Prop where
  tuning : Bounded 1717987 19327353 y.tuning y.freqRamp
  phases : ∀ p, (y.phases.get p).InRange

/-- The running values of a state, by its synthesizer. -/
theorem State.levelsOk_iff (s : State) :
    s.LevelsOk ↔ (∀ (i : Nat) e, s.library[i]? = some (some e) → e.template.InRange) ∧
      (∀ copy, s.expander.slot = .step copy → copy.content.InRange) ∧ s.synth.InRange ∧
      ∀ p, s.setup.gainFloor ≤ s.monitor.gains.get p ∧ s.monitor.gains.get p ≤ 32768 :=
  ⟨fun h => ⟨h.library, h.staged, ⟨h.tuning, fun p => ⟨h.primary p, h.overlay p⟩⟩, h.gains⟩,
    fun h => ⟨h.1, h.2.1, h.2.2.1.tuning, fun p => (h.2.2.1.phases p).primary,
      fun p => (h.2.2.1.phases p).overlay, h.2.2.2⟩⟩

/-- The levels at the entry to OFF, FAULT or DISABLED are in range (R23). -/
theorem Synth.quiet_inRange (y : Synth) {f : Nat} (h : 4000 ≤ f ∧ f ≤ 45000) : (y.quiet f).InRange := by
  refine ⟨.idle (tuningOf_bounds h), fun p => ?_⟩
  cases p <;> exact ⟨.idle (by simp [Synth.quiet, PerPhase.map, PerPhase.get, SynthPhase.quiet]),
    .idle (by simp [Synth.quiet, PerPhase.map, PerPhase.get, SynthPhase.quiet])⟩

/-- The levels at the entry to STOPPING are in range (R22). -/
theorem Synth.InRange.stop {y : Synth} (h : y.InRange) (length : Nat) :
    ({ y with phases := y.phases.map (SynthPhase.stop length) } : Synth).InRange := by
  refine ⟨h.tuning, fun p => ?_⟩
  have hp := h.phases p
  have : (y.phases.map (SynthPhase.stop length)).get p = (y.phases.get p).stop length := by cases p <;> rfl
  rw [this]
  unfold SynthPhase.stop
  split
  · exact ⟨.idle (by simp), .idle (by simp)⟩
  · exact ⟨.toward _ hp.primary.value (by simp), .toward _ hp.overlay.value (by simp)⟩

/-- The levels at a step start are in range, the template being so (R19). -/
theorem Synth.InRange.startStep {y : Synth} (h : y.InRange) {t : Template} (ht : t.InRange) :
    (y.startStep t).InRange := by
  refine ⟨.toward _ h.tuning.value (tuningOf_bounds ht.frequency), fun p => ?_⟩
  have hp := h.phases p
  have hg : (y.startStep t).phases.get p =
      SynthPhase.startStep t.levelRamp (y.phases.get p) (t.phases.get p) := by cases p <;> rfl
  have hbase : 0 ≤ (if (y.phases.get p).overlay.isSome then (y.phases.get p).overlayAmp else 0) ∧
      (if (y.phases.get p).overlay.isSome then (y.phases.get p).overlayAmp else 0) ≤ 3000 := by
    have := hp.overlay.value
    split <;> omega
  rw [hg]
  refine ⟨.toward _ hp.primary.value ⟨Nat.zero_le _, ht.amplitude p⟩, ?_⟩
  cases ho : (t.phases.get p).overlay with
  | none => simpa [SynthPhase.startStep, ho] using Bounded.idle (lo := 0) (hi := 3000) (value := 0) (by simp)
  | some o =>
    simpa [SynthPhase.startStep, ho] using Bounded.toward t.levelRamp hbase ⟨Nat.zero_le _, ht.overlay p o ho⟩

/-- The completion of a ramp leaves the levels in range (R18). -/
theorem Synth.InRange.finishRamp {y : Synth} (h : y.InRange) (r : RampId) : (y.finishRamp r).InRange := by
  cases r with
  | frequency => exact ⟨h.tuning.completed, h.phases⟩
  | primary q =>
    refine ⟨h.tuning, fun p => ?_⟩
    have hp := h.phases p
    have hq := h.phases q
    cases p <;> cases q <;> first | exact hp | exact ⟨hq.primary.completed, hq.overlay⟩
  | overlay q =>
    refine ⟨h.tuning, fun p => ?_⟩
    have hp := h.phases p
    have hq := h.phases q
    cases p <;> cases q <;> first | exact hp | exact ⟨hq.primary, hq.overlay.completed⟩

/-- The completion of every ramp that has reached its length leaves the levels in range (R18). -/
theorem Synth.InRange.finishRamps {y : Synth} (h : y.InRange) : y.finishRamps.InRange := by
  refine ⟨h.tuning.completed, fun p => ?_⟩
  have hp := h.phases p
  cases p <;> exact ⟨hp.primary.completed, hp.overlay.completed⟩

/-- A sample leaves the levels in range (R18). -/
theorem Synth.InRange.advance {y : Synth} (h : y.InRange) (ramps : Bool) : (y.advance ramps).InRange := by
  cases ramps with
  | false => exact ⟨h.tuning, h.phases⟩
  | true =>
    refine ⟨h.tuning.sample, fun p => ?_⟩
    have hp := h.phases p
    cases p <;> exact ⟨hp.primary.sample, hp.overlay.sample⟩

/-! ## The state -/

/-- `State.LevelsOk` depends on the library's templates, the slot, the levels, GAIN_FLOOR and the gains. -/
theorem State.LevelsOk.of_synth {s t : State} (h : s.LevelsOk) (hl : t.library = s.library)
    (he : t.expander.slot = s.expander.slot ∨ ∀ copy, t.expander.slot ≠ .step copy) (hy : t.synth.InRange)
    (hg : t.monitor.gains = s.monitor.gains) (hf : t.setup.gainFloor = s.setup.gainFloor) : t.LevelsOk := by
  rw [State.levelsOk_iff] at h ⊢
  rw [hl, hg, hf]
  refine ⟨h.1, fun copy hc => ?_, hy, h.2.2.2⟩
  rcases he with he | he
  · exact h.2.1 copy (he ▸ hc)
  · exact absurd hc (he copy)

/-- The synthesizer of a state in range. -/
theorem State.LevelsOk.synth {s : State} (h : s.LevelsOk) : s.synth.InRange := ((State.levelsOk_iff s).mp h).2.2.1

/-- `State.LevelsOk` with the levels as they were. -/
theorem State.LevelsOk.of_eq {s t : State} (h : s.LevelsOk) (hl : t.library = s.library)
    (he : t.expander.slot = s.expander.slot) (hy : t.synth = s.synth) (hg : t.monitor.gains = s.monitor.gains)
    (hf : t.setup.gainFloor = s.setup.gainFloor) : t.LevelsOk :=
  h.of_synth hl (.inl he) (hy ▸ h.synth) hg hf

/-- `State.latch` keeps `State.LevelsOk`. -/
theorem State.latch_levelsOk {s : State} (n : Notice) (h : s.LevelsOk) : (s.latch n).LevelsOk :=
  h.of_eq (by simp) (by simp) (by simp) (by simp) (by simp)

/-- `State.clearSlot` keeps `State.LevelsOk`. -/
theorem State.clearSlot_levelsOk {s : State} (h : s.LevelsOk) : s.clearSlot.LevelsOk :=
  h.of_synth (by simp) (.inr (by simp)) (by simpa using h.synth) (by simp) (by simp)

/-- A change of the library that leaves every template keeps `State.LevelsOk`. -/
theorem State.LevelsOk.recount {s t : State} (h : s.LevelsOk)
    (hl : ∀ (i : Nat) e, t.library[i]? = some (some e) → ∃ e', s.library[i]? = some (some e') ∧
      e'.template = e.template)
    (he : t.expander.slot = s.expander.slot) (hy : t.synth = s.synth) (hg : t.monitor.gains = s.monitor.gains)
    (hf : t.setup.gainFloor = s.setup.gainFloor) : t.LevelsOk := by
  have h' := (State.levelsOk_iff s).mp h
  rw [State.levelsOk_iff, he, hy, hg, hf]
  refine ⟨fun i e hi => ?_, h'.2⟩
  obtain ⟨e', hi', ht⟩ := hl i e hi
  rw [← ht]
  exact h'.1 i e' hi'

/-- `State.countTemplate` keeps `State.LevelsOk`. -/
theorem State.countTemplate_levelsOk {s : State} (change : Nat → Nat) (index : Nat) (h : s.LevelsOk) :
    (s.countTemplate change index).LevelsOk := by
  refine h.recount (fun i e hi => ?_) (by simp) (by simp) (by simp) (by simp)
  rw [State.countTemplate_library] at hi
  cases hs : s.library[i]? with
  | none => simp [hs] at hi
  | some o =>
    cases o with
    | none => simp [hs] at hi
    | some e' =>
      simp [hs] at hi
      exact ⟨e', rfl, by rw [← hi]; rfl⟩

/-- `State.countPhrase` keeps `State.LevelsOk`. -/
theorem State.countPhrase_levelsOk {s : State} (change : Nat → Nat) (index : Nat) (h : s.LevelsOk) :
    (s.countPhrase change index).LevelsOk :=
  h.of_eq (by simp) (by simp) (by simp) (by simp) (by simp)

/-- `State.countCue` keeps `State.LevelsOk`. -/
theorem State.countCue_levelsOk {s : State} (change : Nat → Nat) (body : CueBody) (h : s.LevelsOk) :
    (s.countCue change body).LevelsOk := by
  unfold State.countCue
  split
  · exact State.countTemplate_levelsOk _ _ h
  · exact State.countPhrase_levelsOk _ _ h
  · exact h

/-- `State.countCues` keeps `State.LevelsOk`. -/
theorem State.countCues_levelsOk {s : State} (change : Nat → Nat) (bodies : List CueBody) (h : s.LevelsOk) :
    (s.countCues change bodies).LevelsOk := by
  unfold State.countCues
  induction bodies generalizing s with
  | nil => exact h
  | cons b bs ih => exact ih (State.countCue_levelsOk _ _ h)

/-- `State.spendLive` keeps `State.LevelsOk`. -/
theorem State.spendLive_levelsOk {s : State} (h : s.LevelsOk) : s.spendLive.LevelsOk := by
  have hq (l : List Cue) : (s.setCues l).LevelsOk := h.of_eq (by simp) (by simp) (by simp) (by simp) (by simp)
  unfold State.spendLive
  (repeat' split) <;> first
    | exact h
    | exact hq _
    | exact State.countCue_levelsOk _ _ (hq _)

/-- `State.endRepetition` keeps `State.LevelsOk`. -/
theorem State.endRepetition_levelsOk {s : State} (context : Context) (rep : Nat) (h : s.LevelsOk) :
    (s.endRepetition context rep).LevelsOk := by
  unfold State.endRepetition
  split
  · exact h.of_eq (by simp) (by simp) (by simp) (by simp) (by simp)
  · exact State.spendLive_levelsOk (h.of_eq (by simp) (by simp) (by simp) (by simp) (by simp))

/-- `State.stageStep` keeps `State.LevelsOk`, its step being in range. -/
theorem State.stageStep_levelsOk {s : State} {copy : StepCopy} (h : s.LevelsOk) (hc : copy.content.InRange) :
    (s.stageStep copy).LevelsOk := by
  have h' := (State.levelsOk_iff s).mp h
  rw [State.levelsOk_iff]
  refine ⟨by simpa using h'.1, fun c he => ?_, by simpa using h'.2.2.1, by simpa using h'.2.2.2⟩
  simp at he
  rwa [← he]

/-- A defined template is in range. -/
theorem State.LevelsOk.template {s : State} (h : s.LevelsOk) {index : Nat} {e : TemplateEntry}
    (he : s.template? index = some e) : e.template.InRange := by
  refine h.library index e ?_
  unfold State.template? at he
  cases hs : s.library[index]? with
  | none => simp [hs] at he
  | some o => simpa [hs] using he

/-- `State.stageElement` keeps `State.LevelsOk`. -/
theorem State.stageElement_levelsOk {s : State} (context : Context) (h : s.LevelsOk) :
    (s.stageElement context).LevelsOk := by
  unfold State.stageElement
  split
  · split
    · exact h
    · rename_i e he
      refine State.endRepetition_levelsOk _ _ (State.stageStep_levelsOk h ?_)
      obtain ⟨a, b, c⟩ := h.template he
      exact ⟨a, b, c⟩
  · split
    · exact h
    · split
      · exact h
      · rename_i t rest _ _ e he
        have hs (source : Source) : (s.stageStep { content := e.template, source := source }).LevelsOk :=
          State.stageStep_levelsOk h (h.template he)
        dsimp only
        split
        · exact State.endRepetition_levelsOk _ _ (hs _)
        · exact (hs ⟨context.serial, context.rep, context.element, t⟩).of_eq (by simp) (by simp) (by simp)
            (by simp) (by simp)
  · exact h

/-- `State.fillSlot` keeps `State.LevelsOk`. -/
theorem State.fillSlot_levelsOk {s : State} (h : s.LevelsOk) : s.fillSlot.LevelsOk := by
  unfold State.fillSlot
  (repeat' split) <;> first
    | exact h
    | exact State.stageElement_levelsOk _ h
    | exact State.spendLive_levelsOk
        (h.of_synth (by simp) (.inr (by simp)) (by simpa using h.synth) (by simp) (by simp))

/-- `State.discardExpansion` keeps `State.LevelsOk`. -/
theorem State.discardExpansion_levelsOk {s : State} (h : s.LevelsOk) : s.discardExpansion.LevelsOk := by
  have hr : s.resetExpander.LevelsOk :=
    (State.clearSlot_levelsOk h).of_eq (by simp) (by simp) (by simp) (by simp) (by simp)
  unfold State.discardExpansion
  split
  · exact hr
  · exact State.spendLive_levelsOk hr

/-! ## The run sequencer -/

/-- NOM_FREQ and GAIN_FLOOR in their ranges (R186). -/
theorem Setup.InRange.bounds {t : Setup} (h : t.InRange) :
    (4000 ≤ t.nomFreq ∧ t.nomFreq ≤ 45000) ∧ t.gainFloor ≤ 32768 :=
  ⟨h .nomFreq (by decide), (h .gainFloor (by decide)).2⟩

/-- `State.enterIdle` keeps `State.LevelsOk`. -/
theorem State.enterIdle_levelsOk {s : State} (run : RunState) (h : s.LevelsOk) (hr : s.setup.InRange) :
    (s.enterIdle run).LevelsOk := by
  have h' := (State.levelsOk_iff s).mp h
  rw [State.levelsOk_iff]
  refine ⟨by simpa using h'.1, by simpa using h'.2.1, by simpa using Synth.quiet_inRange _ hr.bounds.1, fun p => ?_⟩
  have := hr.bounds.2
  cases p <;> simpa [Monitor.rest, PerPhase.same, PerPhase.get, Config.unityGain] using this

/-- `State.enterStopping` keeps `State.LevelsOk`. -/
theorem State.enterStopping_levelsOk {s : State} (h : s.LevelsOk) : s.enterStopping.LevelsOk :=
  h.of_synth (by simp) (.inl (by simp)) (by simpa using h.synth.stop _) (by simp) (by simp)

/-- `State.enterRun` keeps `State.LevelsOk`. -/
theorem State.enterRun_levelsOk {s : State} (run : RunState) (h : s.LevelsOk) : (s.enterRun run).LevelsOk :=
  h.of_eq (by simp) (by simp) (by simp) (by simp) (by simp)

/-- `State.takeMarker` keeps `State.LevelsOk`. -/
theorem State.takeMarker_levelsOk {s : State} (o : EndOption) (h : s.LevelsOk) (hr : s.setup.InRange) :
    (s.takeMarker o).LevelsOk := by
  have hc := State.clearSlot_levelsOk h
  unfold State.takeMarker
  (repeat' split)
  · exact State.latch_levelsOk _ (State.enterIdle_levelsOk _ hc (by simpa using hr))
  · exact State.fillSlot_levelsOk (State.latch_levelsOk _ (State.enterRun_levelsOk _ hc))
  · exact State.enterStopping_levelsOk hc

/-- `State.beginEvaluation` keeps `State.LevelsOk`. -/
theorem State.beginEvaluation_levelsOk {s : State} (copy : StepCopy) (h : s.LevelsOk) :
    (s.beginEvaluation copy).LevelsOk :=
  h.of_eq (by simp) (by simp) (by simp) (by simp) (by simp)

/-- `State.actOnStaged` keeps `State.LevelsOk`. -/
theorem State.actOnStaged_levelsOk {s : State} (h : s.LevelsOk) (hr : s.setup.InRange) : s.actOnStaged.LevelsOk := by
  unfold State.actOnStaged
  (repeat' split) <;> first
    | exact h
    | exact State.beginEvaluation_levelsOk _ h
    | exact State.beginEvaluation_levelsOk _ (State.enterRun_levelsOk _ h)
    | exact State.takeMarker_levelsOk _ h hr

/-- `State.stage` keeps `State.LevelsOk`. -/
theorem State.stage_levelsOk {s : State} (h : s.LevelsOk) (hr : s.setup.InRange) : s.stage.LevelsOk := by
  unfold State.stage
  split
  · exact State.actOnStaged_levelsOk (State.fillSlot_levelsOk h) (by simpa using hr)
  · exact h

/-- `State.endActive` keeps `State.LevelsOk`. -/
theorem State.endActive_levelsOk {s : State} (reason : EndReason) (h : s.LevelsOk) : (s.endActive reason).LevelsOk :=
  h.of_eq (by simp) (by simp) (by simp) (by simp) (by simp)

/-- `State.afterEnd` keeps `State.LevelsOk`. -/
theorem State.afterEnd_levelsOk {s : State} (h : s.LevelsOk) (hr : s.setup.InRange) : s.afterEnd.LevelsOk := by
  unfold State.afterEnd
  (repeat' split) <;> first
    | exact State.beginEvaluation_levelsOk _ h
    | exact State.beginEvaluation_levelsOk _ (State.enterRun_levelsOk _ h)
    | exact State.takeMarker_levelsOk _ h hr
    | exact State.latch_levelsOk _ (State.enterRun_levelsOk _ h)

/-- `State.enterEnd` keeps `State.LevelsOk`. -/
theorem State.enterEnd_levelsOk {s : State} (run : RunState) (h : s.LevelsOk) (hr : s.setup.InRange) :
    (s.enterEnd run).LevelsOk := by
  unfold State.enterEnd
  split
  · exact State.enterStopping_levelsOk h
  · exact State.enterIdle_levelsOk _ h hr

/-- `State.leaveEarly` keeps `State.LevelsOk`. -/
theorem State.leaveEarly_levelsOk {s : State} (reason : EndReason) (run : RunState) (h : s.LevelsOk)
    (hr : s.setup.InRange) : (s.leaveEarly reason run).LevelsOk :=
  State.enterEnd_levelsOk _ (State.discardExpansion_levelsOk (State.endActive_levelsOk _ h)) (by simpa using hr)

/-- `State.expire` keeps `State.LevelsOk`. -/
theorem State.expire_levelsOk {s : State} (h : s.LevelsOk) (hr : s.setup.InRange) : s.expire.LevelsOk := by
  have timed (run : RunState) : ((s.latch .triggerTimeout).leaveTimedOut run).LevelsOk := by
    refine State.enterEnd_levelsOk _ (State.discardExpansion_levelsOk ?_) (by simpa using hr)
    exact (State.endActive_levelsOk .aborted (State.latch_levelsOk .triggerTimeout h)).of_eq (by simp) (by simp)
      (by simp) (by simp) (by simp)
  unfold State.expire
  split
  · exact State.latch_levelsOk _ (timed _)
  · exact timed _

/-- `State.completeStep` keeps `State.LevelsOk`. -/
theorem State.completeStep_levelsOk {s : State} (h : s.LevelsOk) (hr : s.setup.InRange) : s.completeStep.LevelsOk :=
  State.afterEnd_levelsOk (State.endActive_levelsOk _ h) (by simpa using hr)

/-- `State.take` keeps `State.LevelsOk`. -/
theorem State.take_levelsOk {s : State} (m : Moment) (h : s.LevelsOk) (hr : s.setup.InRange) :
    (s.take m).LevelsOk := by
  cases m <;> unfold State.take <;> dsimp only
  · exact h.of_eq (by simp) (by simp) (by simp) (by simp) (by simp)
  · exact State.expire_levelsOk h hr
  · exact State.completeStep_levelsOk h hr
  · unfold State.takeTrip
    split
    · exact h
    · exact State.leaveEarly_levelsOk _ _ (h.of_eq (by simp) (by simp) (by simp) (by simp) (by simp))
        (by simpa using hr)
  · exact State.latch_levelsOk _ (State.enterIdle_levelsOk _ h hr)
  · unfold State.takeStart
    split
    · rename_i copy hs
      refine State.latch_levelsOk _ (State.stage_levelsOk ?_ (by simpa using hr))
      have hc := State.clearSlot_levelsOk (State.endActive_levelsOk .handedOver h)
      exact hc.of_synth (by simp) (.inl (by simp [State.activate])) (by
        simpa [State.activate] using h.synth.startStep (h.staged copy hs)) (by simp) (by simp)
    · exact h
    · exact h
  · unfold State.takeHandover
    split
    · exact State.takeMarker_levelsOk _ (State.endActive_levelsOk _ h) (by simpa using hr)
    · exact h
    · exact h

/-- `State.settle` keeps `State.LevelsOk`. -/
theorem State.settle_levelsOk {s : State} (h : s.LevelsOk) (hr : s.setup.InRange) : s.settle.LevelsOk := by
  have one {s : State} (h : s.LevelsOk) (hr : s.setup.InRange) : s.settleOne.LevelsOk := by
    unfold State.settleOne
    (repeat' split)
    · exact h
    · exact State.take_levelsOk _ h hr
    · exact h
    · exact State.take_levelsOk _ (h.of_eq rfl rfl rfl rfl rfl) hr
  have all (n : Nat) : ∀ {s : State}, s.LevelsOk → s.setup.InRange → (State.settleMoments n s).LevelsOk := by
    induction n with
    | zero => exact fun h _ => h
    | succ n ih => exact fun h hr => ih (one h hr) (by simpa using hr)
  exact all _ (h.of_synth rfl (.inl rfl) h.synth.finishRamps rfl rfl) hr

/-- The limiter keeps a gain between GAIN_FLOOR and unity (R139). -/
theorem limiterGain_bounds {setup : Setup} (hr : setup.InRange) {gain : Nat} (level current : Nat)
    (h : setup.gainFloor ≤ gain ∧ gain ≤ 32768) :
    setup.gainFloor ≤ limiterGain setup level gain current ∧ limiterGain setup level gain current ≤ 32768 := by
  have := hr.bounds.2
  unfold limiterGain Config.unityGain
  split <;> omega

/-- `State.produce` keeps `State.LevelsOk`. -/
theorem State.produce_levelsOk {s : State} (trig : Bool) (currents : PerPhase Nat) (h : s.LevelsOk)
    (hr : s.setup.InRange) : (s.produce trig currents).LevelsOk := by
  have h' := (State.levelsOk_iff s).mp h
  rw [State.levelsOk_iff]
  refine ⟨by simpa using h'.1, by simpa using h'.2.1, by simpa using h'.2.2.1.advance _, fun p => ?_⟩
  rw [State.produce_monitor]
  have hp := h'.2.2.2 p
  simp only [State.produce_frame]
  split
  · cases p <;> exact limiterGain_bounds hr _ _ hp
  · exact hp

/-! ## Requests -/

/-- `State.answer` keeps `State.LevelsOk`. -/
theorem State.answer_levelsOk {s : State} (o : ReplyOutcome) (d : Detail) (p : List Byte) (h : s.LevelsOk) :
    (s.answer o d p).LevelsOk :=
  h.of_eq (by simp) (by simp) (by simp) (by simp) (by simp)

/-- An entry of the library replaced by none or by a template in range keeps `State.LevelsOk`. -/
theorem State.LevelsOk.setEntry {s t : State} (h : s.LevelsOk) (index : Nat) (new : Option TemplateEntry)
    (hl : t.library = s.library.setIfInBounds index new) (hn : ∀ e, new = some e → e.template.InRange)
    (he : t.expander.slot = s.expander.slot) (hy : t.synth = s.synth) (hg : t.monitor.gains = s.monitor.gains)
    (hf : t.setup.gainFloor = s.setup.gainFloor) : t.LevelsOk := by
  have h' := (State.levelsOk_iff s).mp h
  rw [State.levelsOk_iff, he, hy, hg, hf]
  refine ⟨fun i e hi => ?_, h'.2⟩
  rw [hl, Vector.getElem?_setIfInBounds] at hi
  split at hi
  · split at hi
    · exact hn e (by simpa using hi)
    · cases hi
  · exact h'.1 i e hi

/-- A carried template is stored in range (R52, R53, R54). -/
theorem storedTemplate_inRange {w : TemplateWire} {t : Template} (h : storedTemplate w = some t) : t.InRange := by
  unfold storedTemplate at h
  split at h
  · split at h
    · cases h
      refine ⟨⟨?_, ?_⟩, fun p => ?_, fun p o ho => ?_⟩
      · simp only [clampTo]; omega
      · simp only [clampTo]; omega
      · cases p <;> simp [PerPhase.map, PerPhase.get, storedPhase]
      · have key (q : PhaseWire) (ho : (storedPhase q).overlay = some o) : o.amplitude ≤ 3000 := by
          unfold storedPhase at ho
          dsimp only at ho
          split at ho
          · cases ho; simp
          · cases ho
        cases p <;> exact key _ ho
    · cases h
  · cases h

/-- `State.takeTemplateDefine` keeps `State.LevelsOk`. -/
theorem State.takeTemplateDefine_levelsOk {s : State} (w : TemplateWire) (h : s.LevelsOk) :
    (s.takeTemplateDefine w).LevelsOk := by
  unfold State.takeTemplateDefine
  dsimp only
  split
  · exact State.answer_levelsOk _ _ _ h
  · split
    · exact State.answer_levelsOk _ _ _ h
    · rename_i t ht
      split
      · refine State.answer_levelsOk _ _ _ (h.setEntry w.index.toNat _ rfl (fun e he => ?_) rfl rfl rfl rfl)
        cases he
        exact storedTemplate_inRange ht
      · exact State.answer_levelsOk _ _ _ h

/-- `State.takeTemplateDelete` keeps `State.LevelsOk`. -/
theorem State.takeTemplateDelete_levelsOk {s : State} (index : Byte) (h : s.LevelsOk) :
    (s.takeTemplateDelete index).LevelsOk := by
  unfold State.takeTemplateDelete
  dsimp only
  (repeat' split) <;> refine State.answer_levelsOk _ _ _ ?_ <;> try exact h
  exact h.setEntry index.toNat none rfl (by simp) rfl rfl rfl rfl

/-- A reference that moves keeps `State.LevelsOk`. -/
theorem State.moveCount_levelsOk {count : (Nat → Nat) → Nat → State → State}
    (hcount : ∀ change index (s : State), s.LevelsOk → (count change index s).LevelsOk) (old new : Option Nat)
    {s : State} (h : s.LevelsOk) : (moveCount count old new s).LevelsOk := by
  unfold moveCount countAt
  (repeat' split) <;> first
    | exact h
    | exact hcount _ _ _ h
    | exact hcount _ _ _ (hcount _ _ _ h)

/-- `State.takePhraseDefine` keeps `State.LevelsOk`. -/
theorem State.takePhraseDefine_levelsOk {s : State} (index pred template : Byte) (h : s.LevelsOk) :
    (s.takePhraseDefine index pred template).LevelsOk := by
  unfold State.takePhraseDefine
  dsimp only
  (repeat' split) <;> refine State.answer_levelsOk _ _ _ ?_ <;> try exact h
  all_goals
    refine State.LevelsOk.of_eq (State.moveCount_levelsOk (fun c i _ => State.countPhrase_levelsOk c i) _ _
      (State.moveCount_levelsOk (fun c i _ => State.countTemplate_levelsOk c i) _ _ h)) rfl rfl rfl rfl rfl

/-- `State.takePhraseDelete` keeps `State.LevelsOk`. -/
theorem State.takePhraseDelete_levelsOk {s : State} (index : Byte) (h : s.LevelsOk) :
    (s.takePhraseDelete index).LevelsOk := by
  unfold State.takePhraseDelete countAt
  dsimp only
  split
  · exact State.answer_levelsOk _ _ _ h
  · split
    · exact State.answer_levelsOk _ _ _ h
    · rename_i e _
      split
      · exact State.answer_levelsOk _ _ _ h
      · refine State.answer_levelsOk _ _ _ ?_
        have hc := State.countTemplate_levelsOk down e.template h
        split
        · exact hc.of_eq rfl rfl rfl rfl rfl
        · exact (State.countPhrase_levelsOk down _ hc).of_eq rfl rfl rfl rfl rfl

/-- GAIN_FLOOR stays where no pair writes it. -/
theorem Setup.gainFloor_kept (pairs : List (Byte × Word)) (t : Setup) (h : writes .gainFloor pairs = false) :
    (pairs.foldl Setup.write t).gainFloor = t.gainFloor := by
  induction pairs generalizing t with
  | nil => rfl
  | cons x xs ih =>
    simp only [writes, List.any_cons, Bool.or_eq_false_iff] at h
    rw [List.foldl_cons, ih _ h.2]
    unfold Setup.write
    split
    · rfl
    · rename_i p hp
      have := h.1
      rw [hp] at this
      cases p <;> first | rfl | simp at this

/-- `State.takeSetupWrite` keeps `State.LevelsOk` (R24, R142). -/
theorem State.takeSetupWrite_levelsOk {s : State} (pairs : List (Byte × Word)) (h : s.LevelsOk)
    (hr : s.setup.InRange) : (s.takeSetupWrite pairs).LevelsOk := by
  have hn := State.takeSetupWrite_inRange pairs hr
  revert hn
  unfold State.takeSetupWrite
  split
  · exact fun _ => State.answer_levelsOk _ _ _ h
  · rename_i hp
    split
    · exact fun _ => State.answer_levelsOk _ _ _ h
    · intro hn
      refine State.answer_levelsOk _ _ _ ?_
      simp only [State.done_frame, State.applySetup] at hn
      have h' := (State.levelsOk_iff s).mp h
      rw [State.levelsOk_iff]
      refine ⟨h'.1, h'.2.1, ?_, fun p => ?_⟩
      · simp only [State.applySetup]
        split
        · exact ⟨.idle (tuningOf_bounds hn.bounds.1), h'.2.2.1.phases⟩
        · exact h'.2.2.1
      · have hp := h'.2.2.2 p
        have hf := hn.bounds.2
        simp only [State.applySetup]
        split
        · cases p <;> simp only [PerPhase.map, PerPhase.get] at hp ⊢ <;> omega
        · rename_i hw
          rw [Setup.gainFloor_kept _ _ (by simpa using hw)]
          exact hp

/-- `State.takeCueAdd` keeps `State.LevelsOk`. -/
theorem State.takeCueAdd_levelsOk {s : State} (cues : List CueWire) (h : s.LevelsOk) (hr : s.setup.InRange) :
    (s.takeCueAdd cues).LevelsOk := by
  have hj (b : List CueBody) : (s.joinCues b).LevelsOk := by
    unfold State.joinCues
    refine State.stage_levelsOk ?_ (by simpa using hr)
    have hq : (s.setCues (s.queue.cues ++ numberCues s.queue.nextSerial b)).LevelsOk :=
      h.of_eq (by simp) (by simp) (by simp) (by simp) (by simp)
    exact (State.countCues_levelsOk up b hq).of_eq rfl rfl rfl rfl rfl
  unfold State.takeCueAdd
  dsimp only
  (repeat' split) <;> first
    | exact State.answer_levelsOk _ _ _ h
    | exact State.answer_levelsOk _ _ _ (hj _)

/-- `State.resetExpander` keeps `State.LevelsOk`. -/
theorem State.resetExpander_levelsOk {s : State} (h : s.LevelsOk) : s.resetExpander.LevelsOk :=
  (State.clearSlot_levelsOk h).of_eq (by simp) (by simp) (by simp) (by simp) (by simp)

/-- `State.takeCueRewind` keeps `State.LevelsOk`. -/
theorem State.takeCueRewind_levelsOk {s : State} (h : s.LevelsOk) (hr : s.setup.InRange) :
    s.takeCueRewind.LevelsOk := by
  unfold State.takeCueRewind
  dsimp only
  (repeat' split) <;> refine State.answer_levelsOk _ _ _ ?_ <;> try exact h
  exact State.stage_levelsOk ((State.resetExpander_levelsOk h).of_eq (by simp) (by simp) (by simp) (by simp)
    (by simp)) (by simpa using hr)

/-- `State.takeRunClear` keeps `State.LevelsOk`. -/
theorem State.takeRunClear_levelsOk {s : State} (h : s.LevelsOk) : s.takeRunClear.LevelsOk := by
  unfold State.takeRunClear
  dsimp only
  split
  · refine State.answer_levelsOk _ _ _ ?_
    have hq : (s.resetExpander.setCues []).LevelsOk :=
      (State.resetExpander_levelsOk h).of_eq (by simp) (by simp) (by simp) (by simp) (by simp)
    exact (State.countCues_levelsOk down (s.queue.cues.map Cue.body) hq).of_eq rfl rfl rfl rfl rfl
  · exact State.answer_levelsOk _ _ _ h

/-- `State.takeRunStart` keeps `State.LevelsOk`. -/
theorem State.takeRunStart_levelsOk {s : State} (h : s.LevelsOk) (hr : s.setup.InRange) :
    s.takeRunStart.LevelsOk := by
  unfold State.takeRunStart State.armRun State.leaveParked
  (repeat' split) <;> refine State.answer_levelsOk _ _ _ ?_ <;> first
    | exact h
    | exact State.stage_levelsOk (State.enterRun_levelsOk _ h) hr
    | exact State.beginEvaluation_levelsOk _ (State.enterRun_levelsOk _ h)
    | exact State.takeMarker_levelsOk _ (State.enterRun_levelsOk _ h) hr

/-- `State.takeRunResume` keeps `State.LevelsOk`. -/
theorem State.takeRunResume_levelsOk {s : State} (h : s.LevelsOk) (hr : s.setup.InRange) :
    s.takeRunResume.LevelsOk := by
  have h' := State.enterRun_levelsOk s.seq.resumed h
  unfold State.takeRunResume State.afterResume State.releaseHeld
  (repeat' split) <;> refine State.answer_levelsOk _ _ _ ?_ <;> first
    | exact h'
    | exact h
    | exact State.completeStep_levelsOk h' hr
    | exact State.expire_levelsOk h' hr
    | exact State.actOnStaged_levelsOk h' hr
    | exact State.beginEvaluation_levelsOk _ h'

/-- `State.takeForce` keeps `State.LevelsOk`. -/
theorem State.takeForce_levelsOk {s : State} (a : Action) (h : s.LevelsOk) (hr : s.setup.InRange) :
    (s.takeForce a).LevelsOk := by
  have he := State.endActive_levelsOk .skipped h
  unfold State.takeForce
  split
  · refine State.answer_levelsOk _ _ _ ?_
    cases a <;> dsimp only
    · unfold State.forceDisable
      split <;> first
        | exact h
        | exact State.enterIdle_levelsOk _ h hr
        | exact State.enterIdle_levelsOk _ (h.of_eq rfl rfl rfl rfl rfl) hr
        | exact State.leaveEarly_levelsOk _ _ h hr
    · unfold State.forceAbort
      split <;> first
        | exact h
        | exact State.leaveEarly_levelsOk _ _ h hr
        | exact State.latch_levelsOk _ (State.leaveEarly_levelsOk _ _ h hr)
    · unfold State.forceSkip State.skipActive
      (repeat' split) <;> first
        | exact h
        | exact he
        | exact State.enterRun_levelsOk _ he
        | exact State.afterEnd_levelsOk he (by simpa using hr)
        | exact h.of_eq rfl rfl rfl rfl rfl
  · exact State.answer_levelsOk _ _ _ h

/-- `State.handOver` keeps `State.LevelsOk`. -/
theorem State.handOver_levelsOk {s : State} (i : Instr) (h : s.LevelsOk) (hr : s.setup.InRange) :
    (s.handOver i).LevelsOk := by
  cases i <;> simp only [State.handOver]
  all_goals first
    | exact h
    | exact h.of_eq (by simp) (by simp) (by simp) (by simp) (by simp)
    | exact State.takeSetupWrite_levelsOk _ h hr
    | exact State.takeTemplateDefine_levelsOk _ h
    | exact State.takeTemplateDelete_levelsOk _ h
    | exact State.takePhraseDefine_levelsOk _ _ _ h
    | exact State.takePhraseDelete_levelsOk _ h
    | exact State.takeCueAdd_levelsOk _ h hr
    | exact State.takeCueRewind_levelsOk h hr
    | exact State.takeRunClear_levelsOk h
    | exact State.takeRunStart_levelsOk h hr
    | exact State.takeRunResume_levelsOk h hr
    | exact State.takeForce_levelsOk _ h hr
    | skip
  case faultClear =>
    unfold State.takeFaultClear
    split
    · exact State.answer_levelsOk _ _ _ (State.enterIdle_levelsOk _ (h.of_eq rfl rfl rfl rfl rfl) hr)
    · exact State.answer_levelsOk _ _ _ h
  case outputEnable =>
    unfold State.takeOutputEnable
    split
    · exact State.answer_levelsOk _ _ _ (State.enterIdle_levelsOk _ h hr)
    · exact State.answer_levelsOk _ _ _ h

/-- The taking of a frame keeps `State.LevelsOk`. -/
theorem State.takeFrame_levelsOk {s : State} (kind tag : Byte) (payload : List Byte) (good : Bool)
    (h : s.LevelsOk) (hr : s.setup.InRange) : (s.takeFrame kind tag payload good).LevelsOk := by
  have ho : (s.openRequest kind tag).LevelsOk := h.of_eq (by simp) (by simp) (by simp) (by simp) (by simp)
  unfold State.takeFrame State.takeParsed
  dsimp only
  (repeat' split) <;> first
    | exact State.answer_levelsOk _ _ _ ho
    | exact State.handOver_levelsOk _ ho (by simpa using hr)

/-- The state in which a full reset begins meets `State.LevelsOk`. -/
theorem State.beginReset_levelsOk (s : State) : s.beginReset.LevelsOk := by
  have phase (p : Phase) : (Synth.reset.phases.get p).primary = 0 ∧ (Synth.reset.phases.get p).primaryRamp = none ∧
      (Synth.reset.phases.get p).overlayAmp = 0 ∧ (Synth.reset.phases.get p).overlayRamp = none := by
    cases p <;> exact ⟨rfl, rfl, rfl, rfl⟩
  rw [State.levelsOk_iff]
  refine ⟨?_, by simp [State.beginReset, State.reset, Expander.reset], ⟨.idle ?_, fun p => ?_⟩, fun p => ?_⟩
  · intro i e hi
    have : ((State.reset.library)[i]?) = some (some e) := hi
    simp [State.reset, Vector.getElem?_replicate] at this
  · exact (by decide : 1717987 ≤ 2147484 ∧ 2147484 ≤ 19327353)
  · obtain ⟨h1, h2, h3, h4⟩ := phase p
    constructor
    · show Bounded _ _ (Synth.reset.phases.get p).primary (Synth.reset.phases.get p).primaryRamp
      rw [h1, h2]; exact .idle (by simp)
    · show Bounded _ _ (Synth.reset.phases.get p).overlayAmp (Synth.reset.phases.get p).overlayRamp
      rw [h3, h4]; exact .idle (by simp)
  · cases p <;> exact (by decide : 8192 ≤ 32768 ∧ 32768 ≤ 32768)

/-- Receiving a byte keeps `State.LevelsOk`. -/
theorem State.LevelsOk.heard {s t : State} (h : s.LevelsOk) (hr : s.setup.InRange) (ht : Heard s t) :
    t.LevelsOk := by
  have hs (rx : Receiver) : (s.setRx rx).LevelsOk := h.of_eq (by simp) (by simp) (by simp) (by simp) (by simp)
  cases ht with
  | same => exact h
  | stored rx => exact hs rx
  | begun => exact h.of_eq (by simp) (by simp) (by simp) (by simp) (by simp)
  | discarded => exact h.of_eq (by simp) (by simp) (by simp) (by simp) (by simp)
  | dropped => exact hs _
  | taken => exact State.takeFrame_levelsOk _ _ _ _ (hs _) (by simpa using hr)

end Sys2Proof.Machine
end

