-- ==== Sys2Proof/Laws/Named.lean ====
section
/-! SUPPORT. The names of slots and the checks of templates, in the terms of Safety; and the first difference of a compare. -/

namespace Sys2Proof.Machine

/-- A template names a slot, in the terms of Safety (R30). -/
theorem Template.names_iff (t : Template) (k : Nat) : t.names k = true ↔ t.Names k := by
  unfold Template.names Template.Names PhaseRecord.names
  constructor
  · intro h
    simp only [Bool.or_eq_true, decide_eq_true_eq] at h
    rcases h with (h | h) | h
    · refine ⟨.a, ?_⟩
      rcases h with h | h
      · exact Or.inl h
      · right; cases ho : t.phases.a.overlay with
        | none => simp [ho] at h
        | some o => exact ⟨o, ho, by simpa [ho] using h⟩
    · refine ⟨.b, ?_⟩
      rcases h with h | h
      · exact Or.inl h
      · right; cases ho : t.phases.b.overlay with
        | none => simp [ho] at h
        | some o => exact ⟨o, ho, by simpa [ho] using h⟩
    · refine ⟨.c, ?_⟩
      rcases h with h | h
      · exact Or.inl h
      · right; cases ho : t.phases.c.overlay with
        | none => simp [ho] at h
        | some o => exact ⟨o, ho, by simpa [ho] using h⟩
  · rintro ⟨p, h⟩
    simp only [Bool.or_eq_true, decide_eq_true_eq]
    cases p <;> simp only [PerPhase.get] at h
    · left; left; rcases h with h | ⟨o, ho, h⟩
      · exact Or.inl h
      · right; simp [ho, h]
    · left; right; rcases h with h | ⟨o, ho, h⟩
      · exact Or.inl h
      · right; simp [ho, h]
    · right; rcases h with h | ⟨o, ho, h⟩
      · exact Or.inl h
      · right; simp [ho, h]

/-- A slot is held, in the terms of Safety (R31). -/
theorem State.held_iff (s : State) (k : Nat) (record : Slot) : s.held k record.refcount = true ↔
    s.SlotHeld k record := by
  unfold State.held State.SlotHeld State.activeNames State.stagedNames
  simp only [Bool.or_eq_true, decide_eq_true_eq, or_assoc]
  refine or_congr Iff.rfl (or_congr ?_ ?_)
  · cases s.seq.active <;> simp [Template.names_iff]
  · cases s.expander.slot <;> simp [Template.names_iff]

/-- There is no slot above 15. -/
theorem State.noSlot (s : State) (slot : Byte) (h : 15 < slot.toNat) : s.store.slots[slot.toNat]? = none := by
  rw [Vector.getElem?_eq_none]; omega

/-- The checks of a phase record, in the terms of Safety (R51). -/
theorem phaseInRange_iff (w : PhaseWire) : phaseInRange w = true ↔ ¬ PhaseOutOfRange w := by
  have hov := w.overlaySlot.isLt
  have hh := w.harmonic.isLt
  unfold phaseInRange PhaseOutOfRange hasOverlay
  simp only [Bool.and_eq_true, Bool.or_eq_true, decide_eq_true_eq, Bool.not_eq_true', beq_iff_eq,
      ne_eq, bne_eq_false_iff_eq]
  simp only [byte_eq_iff w.overlaySlot 255 (by omega), byte_eq_iff w.harmonic 0 (by omega)]
  omega

/-- The start condition of a carried kind and angle (R49). -/
theorem startOf_eq (k : Byte) (a : Half) : (startOf k a = none ↔ 3 < k.toNat) ∧ (∀ x, startOf k a = some x →
    x = if k = 0#8 then .follow
                else if k = 1#8 then .angle (a.toNat % 3600)
                else if k = 2#8 then .trigger
                else .triggerAngle (a.toNat % 3600)) := by
  unfold startOf
  have := k.isLt
  simp only [byte_eq_iff k 0 (by omega), byte_eq_iff k 1 (by omega), byte_eq_iff k 2 (by omega),
      byte_eq_iff k 3 (by omega)]
  constructor
  · constructor
    · intro h; (repeat' split at h) <;> simp at h; omega
    · intro h; rw [if_neg (by omega), if_neg (by omega), if_neg (by omega), if_neg (by omega)]
  · intro x h
    (repeat' split at h) <;> simp at h <;> subst h
    · rw [if_pos (by assumption)]
    · rw [if_neg (by assumption), if_pos (by assumption)]
    · rw [if_neg (by assumption), if_neg (by assumption), if_pos (by assumption)]
    · rw [if_neg (by assumption), if_neg (by assumption), if_neg (by assumption)]

/-- The duration of a carried kind and value (R50). -/
theorem durationOf_eq (k : Byte) (a : Word) : (durationOf k a = none ↔ 1 < k.toNat) ∧ (∀ x,
    durationOf k a = some x → x = if k = 0#8 then .samples a.toNat else .degrees (min 3600000 a.toNat)) := by
  unfold durationOf
  have := k.isLt
  simp only [byte_eq_iff k 0 (by omega), byte_eq_iff k 1 (by omega), maxDegrees]
  constructor
  · constructor
    · intro h; (repeat' split at h) <;> simp at h; omega
    · intro h; rw [if_neg (by omega), if_neg (by omega)]
  · intro x h
    (repeat' split at h) <;> simp at h <;> subst h
    · rw [if_pos (by assumption)]
    · rw [if_neg (by assumption)]

/-- The checks of a template and what it is stored as, in the terms of Safety (R49 to R54). -/
theorem storedTemplate_iff (w : TemplateWire) (hi : w.index.toNat ≤ 63) :
   (TemplateOutOfRange w → storedTemplate w = none) ∧ (¬ TemplateOutOfRange w → ∃ t, storedTemplate w = some t ∧
       t.StoredFrom w) := by
  have ha := phaseInRange_iff w.phases.a
  have hb := phaseInRange_iff w.phases.b
  have hc := phaseInRange_iff w.phases.c
  have hs := startOf_eq w.startKind w.startAngle
  have hd := durationOf_eq w.durKind w.durValue
  have hall : (∃ p, PhaseOutOfRange (w.phases.get p)) ↔
      ¬ (phaseInRange w.phases.a && phaseInRange w.phases.b && phaseInRange w.phases.c) = true := by
    rw [Bool.and_eq_true, Bool.and_eq_true, ha, hb, hc]
    constructor
    · rintro ⟨p, hp⟩ ⟨⟨h1, h2⟩, h3⟩
      cases p
      · exact h1 hp
      · exact h2 hp
      · exact h3 hp
    · intro h
      by_contra hc
      push Not at hc
      exact h ⟨⟨hc .a, hc .b⟩, hc .c⟩
  constructor
  · rintro (h | h | h | h)
    · omega
    · unfold storedTemplate; rw [hs.1.2 h]
    · unfold storedTemplate; rw [hd.1.2 h]; cases startOf w.startKind w.startAngle <;> rfl
    · unfold storedTemplate
      cases startOf w.startKind w.startAngle <;> cases durationOf w.durKind w.durValue <;> simp only
      rw [if_neg (hall.1 h)]
  · intro h
    unfold TemplateOutOfRange at h
    push Not at h
    obtain ⟨-, h1, h2, h3⟩ := h
    cases hst : startOf w.startKind w.startAngle with
    | none => have := hs.1.1 hst; omega
    | some st =>
    cases hdu : durationOf w.durKind w.durValue with
    | none => have := hd.1.1 hdu; omega
    | some du =>
    have hin : (phaseInRange w.phases.a && phaseInRange w.phases.b && phaseInRange w.phases.c) = true := by
      by_contra hc; obtain ⟨p, hp⟩ := hall.2 hc; exact h3 p hp
    refine ⟨_, by unfold storedTemplate; rw [hst, hdu]; simp only; rw [if_pos hin], ?_⟩
    constructor
    · exact hs.2 _ hst
    · exact hd.2 _ hdu
    · rfl
    · rfl
    · rfl
    · intro p
      have hph : ∀ x : PhaseWire, storedPhase x = { amplitude := min 15000 x.amplitude.toNat, offset := x.offset.toNat % 3600, slot := x.slot.toNat, overlay := if x.overlaySlot = 255#8 then none else some { slot := x.overlaySlot.toNat, harmonic := x.harmonic.toNat, amplitude := min 3000 x.overlayAmp.toNat, phase := x.overlayPhase.toNat % 3600 } } := by
        intro x
        unfold storedPhase hasOverlay
        by_cases hx : x.overlaySlot = 255#8
        · simp [hx]
        · simp [hx]
      cases p <;> exact hph _

/-- A template that is clamped, in the terms of Safety. -/
theorem templateClamped_iff (w : TemplateWire) : templateClamped w = true ↔ TemplateClamped w := by
  have hp : ∀ x : PhaseWire, phaseClamped x = true ↔ (15000 < x.amplitude.toNat ∨ x.overlaySlot ≠ 255#8 ∧
      3000 < x.overlayAmp.toNat) := by
    intro x; simp [phaseClamped, hasOverlay]
  unfold templateClamped TemplateClamped durationClamped
  have hex : ∀ P : Phase → Prop, (∃ p, P p) ↔ (P .a ∨ P .b ∨ P .c) := fun P =>
    ⟨fun ⟨p, h⟩ => by cases p <;> simp [h], by rintro (h | h | h) <;> exact ⟨_, h⟩⟩
  rw [hex]
  simp only [Bool.or_eq_true, Bool.and_eq_true, decide_eq_true_eq, hp, PerPhase.get,
      show maxDegrees = 3600000 from rfl]
  tauto

/-- A stored template names no slot above 15. -/
theorem Template.names_lt {w : TemplateWire} {t : Template} (h : t.StoredFrom w) (hw : ¬ TemplateOutOfRange w)
    (k : Nat) (hk : t.Names k) : k < 16 := by
  unfold TemplateOutOfRange at hw; push Not at hw
  obtain ⟨-, -, -, h3⟩ := hw
  obtain ⟨p, hp⟩ := hk
  have hh := h3 p
  unfold PhaseOutOfRange at hh
  push Not at hh
  have hph := h.phases p
  simp only at hph
  rcases hp with hp | ⟨o, ho, hp⟩
  · rw [hph] at hp; simp only at hp; omega
  · rw [hph] at ho; simp only at ho
    split at ho
    · simp at ho
    · rename_i hne
      simp at ho; subst ho; simp at hp
      have := hh.2.1
      by_contra hc
      exact hne (hh.2.1 (by omega))

/-- The bytes of points. -/
theorem points_length (points : List Half) : (points.flatMap le16).length = 2 * points.length := by
  induction points with
  | nil => rfl
  | cons x xs ih => simp [List.flatMap_cons, le16]; omega

/-- The first unequal pair (R45). -/
theorem firstDifference_some (f g : Nat → Half) (n j : Nat) : firstDifference f g n = some j ↔ j < n ∧
    f j ≠ g j ∧ ∀ k < j, f k = g k := by
  induction n generalizing j with
  | zero => simp [firstDifference]
  | succ n ih =>
    unfold firstDifference
    cases hf : firstDifference f g n with
    | some i =>
      have hi := (ih i).1 hf
      simp only [Option.some.injEq]
      constructor
      · rintro rfl; exact ⟨by omega, hi.2.1, hi.2.2⟩
      · rintro ⟨h1, h2, h3⟩
        by_contra hc
        rcases Nat.lt_or_ge i j with h | h
        · exact hi.2.1 (h3 i h)
        · exact h2 (hi.2.2 j (by omega))
    | none =>
      have hn : ∀ k < n, f k = g k := by
        intro k hk
        by_contra hc
        -- least
        have : ∃ m, m < n ∧ f m ≠ g m := ⟨k, hk, hc⟩
        classical
        have hm := Nat.find_spec this
        have : firstDifference f g n = some (Nat.find this) := (ih _).2 ⟨hm.1, hm.2, fun q hq => by
          have := Nat.find_min this hq; push Not at this; exact this (by omega)⟩
        rw [hf] at this; cases this
      simp only
      split
      · rename_i he
        simp
        intro h1 h2
        rcases Nat.lt_or_ge j n with h | h
        · exact absurd (hn j h) h2
        · have : j = n := by omega
          subst this; exact absurd he h2
      · rename_i he
        simp only [Option.some.injEq]
        constructor
        · rintro rfl; exact ⟨by omega, he, hn⟩
        · rintro ⟨h1, h2, h3⟩
          rcases Nat.lt_or_ge j n with h | h
          · exact absurd (hn j h) h2
          · omega

end Sys2Proof.Machine
end

