-- ==== Sys2Proof/Laws/Payloads.lean ====
section
/-! SUPPORT. The payloads of requests read back: pairs, points, cues and templates. -/

namespace Sys2Proof.Machine

/-- A word read from its bytes. -/
theorem word_le32 (w : Word) : word (w.setWidth 8) ((w >>> 8).setWidth 8) ((w >>> 16).setWidth 8)
    ((w >>> 24).setWidth 8) = w := by
  unfold word half
  ext i hi
  simp only [BitVec.getElem_or, BitVec.getElem_shiftLeft, BitVec.getElem_setWidth, BitVec.getLsbD_setWidth,
    BitVec.getLsbD_ushiftRight, BitVec.getLsbD_or, BitVec.getLsbD_shiftLeft, BitVec.getLsbD_eq_getElem hi]
  by_cases h8 : i < 8
  · simp [h8, show i < 16 by omega]
  · by_cases h16 : i < 16
    · simp [h8, h16]
      rw [← BitVec.getLsbD_eq_getElem hi]
      simp [show 8 + (i - 8) = i by omega, show i - 8 < 8 by omega]
      try omega
    · by_cases h24 : i < 24
      · simp [h16, show i - 16 < 8 by omega, show i - 16 < 16 by omega]
        rw [← BitVec.getLsbD_eq_getElem hi]
        simp [show 16 + (i - 16) = i by omega]
        try omega
      · simp [h16, show ¬ i - 16 < 8 by omega, show i - 16 < 16 by omega]
        rw [← BitVec.getLsbD_eq_getElem hi]
        simp [show 24 + (i - 16 - 8) = i by omega, show i - 16 - 8 < 8 by omega]
        omega

/-- Pairs read back from their bytes. -/
theorem readPairs_flatMap (pairs : List (Byte × Word)) : readPairs (pairs.flatMap fun p => p.1 :: le32 p.2)
    = some pairs := by
  induction pairs with
  | nil => rfl
  | cons x xs ih =>
    simp [List.flatMap_cons, le32, readPairs, word_le32]
    simpa [le32] using ih

/-- Points read back from their bytes. -/
theorem readPoints_flatMap (points : List Half) : readPoints (points.flatMap le16) = some points := by
  induction points with
  | nil => rfl
  | cons x xs ih =>
    simp [List.flatMap_cons, le16, readPoints, half_le16]
    simpa [le16] using ih

/-- The overrides of a cue read back from its bytes. -/
theorem readOverrides_bytes (c : CueWire) (rest : List Byte) :
   readOverrides (cueFlags c) ((match c.duration with
        | none => []
        | some d => d.1 :: le32 d.2)
    ++ (match c.start with
        | none => []
        | some t => t.1 :: le16 t.2) ++ rest) = some (c.duration, c.start, rest) := by
  cases hd : c.duration <;> cases hs : c.start <;> simp [readOverrides, cueFlags, hd, hs, le32, le16, word_le32, half_le16]

/-- Cues read back from their bytes. -/
theorem readCues_flatMap (cues : List CueWire) (fuel : Nat) (h : cues.length ≤ fuel)
    : readCues fuel (cues.flatMap cueBytes) = some cues := by
  induction cues generalizing fuel with
  | nil => cases fuel <;> rfl
  | cons x xs ih =>
    cases fuel with
    | zero => simp at h
    | succ fuel =>
      have ih' := ih fuel (by simpa using h)
      obtain ⟨k, ix, rp, d, t⟩ := x
      cases d <;> cases t <;>
        simp [List.flatMap_cons, cueBytes, readCues, readOverrides, cueFlags, le32, le16, word_le32, half_le16, ih']

/-- Every cue takes at least one byte. -/
theorem cueBytes_length_le (cues : List CueWire) : cues.length ≤ (cues.flatMap cueBytes).length := by
  induction cues with
  | nil => simp
  | cons x xs ih => simp [List.flatMap_cons, cueBytes]; omega

/-- A template read back from its bytes. -/
theorem readTemplate_bytes (w : TemplateWire) : readTemplate (templateBytes w) = some w := by
  simp [templateBytes, le16, le32, readTemplate, readPhases, phaseBytes, readPhase, half_le16, word_le32]

end Sys2Proof.Machine
end

