-- ==== Sys2Proof/Laws/PerInstr.lean ====
section
/-! SUPPORT. One fact about every command as syntax: a command that is a request of the kind table carries a listed
kind, and is well formed when its units are in number what its kind allows. -/

namespace Sys2Proof.Laws

open Sys2Proof.Machine

/-- The kind of a request is listed (R170), and its payload fits a frame (R168) whenever its units are in number what
its kind allows (R33, R44, R89, R187, R190). -/
def FramePayload.Statement (i : Instr) : Prop :=
  ∀ (kind : Kind) (tag : Byte) (payload : List Byte), i.request? = some (kind, tag, payload) →
    Kind.ofCode kind.code = some kind ∧ (i.lengthOk = true → i.wf = true)

/-- Every kind is the one its code names. -/
theorem kind_ofCode (kind : Kind) : Kind.ofCode kind.code = some kind := by
  cases kind <;> decide

/-- A command with no request has nothing to show. -/
theorem framePayload_of_none {i : Instr} (h : i.request? = none) : FramePayload.Statement i := by
  intro kind tag payload hi
  rw [h] at hi
  cases hi

/-- A request whose payload is short enough is well formed. -/
theorem framePayload_of_some {i : Instr} {kind : Kind} {tag : Byte} {payload : List Byte}
    (_h : i.request? = some (kind, tag, payload)) (hw : i.wf = fitsFrame payload)
    (hl : i.lengthOk = true → payload.length ≤ 1024) : FramePayload.Statement i := by
  intro kind' tag' payload' hi
  refine ⟨kind_ofCode kind', fun ho => ?_⟩
  rw [hw, fitsFrame, decide_eq_true_eq]
  exact hl ho

/-- The bytes of pairs. -/
theorem pairs_length (pairs : List (Byte × Word)) :
    (pairs.flatMap fun p => p.1 :: le32 p.2).length = 5 * pairs.length := by
  induction pairs with
  | nil => rfl
  | cons p ps ih => simp only [List.flatMap_cons, List.length_append, ih, List.length_cons]; simp [le32]; omega

/-- The bytes of points. -/
theorem pointBytes_length (points : List Half) : (points.flatMap le16).length = 2 * points.length := by
  induction points with
  | nil => rfl
  | cons p ps ih => simp only [List.flatMap_cons, List.length_append, ih, List.length_cons]; simp [le16]; omega

/-- The bytes of cues. -/
theorem cues_length (cues : List CueWire) : (cues.flatMap cueBytes).length ≤ 12 * cues.length := by
  induction cues with
  | nil => simp
  | cons c cs ih =>
    have := cueBytes_length c
    simp only [List.flatMap_cons, List.length_append, List.length_cons]
    omega

/-- `FramePayload` of POWER_ON. -/
theorem FramePayload.powerOn : FramePayload.Statement .powerOn :=
  framePayload_of_none rfl

/-- `FramePayload` of RESET_N. -/
theorem FramePayload.resetN : FramePayload.Statement .resetN :=
  framePayload_of_none rfl

/-- `FramePayload` of FULL_RESET_COMPLETE. -/
theorem FramePayload.fullResetComplete (strap2 strap1 : Bool) :
    FramePayload.Statement (.fullResetComplete strap2 strap1) :=
  framePayload_of_none rfl

/-- `FramePayload` of SAMPLE. -/
theorem FramePayload.sample (trig : Bool) (iA iB iC : Half) : FramePayload.Statement (.sample trig iA iB iC) :=
  framePayload_of_none rfl

/-- `FramePayload` of RAMP_COMPLETE. -/
theorem FramePayload.rampComplete (ramp : RampId) : FramePayload.Statement (.rampComplete ramp) :=
  framePayload_of_none rfl

/-- `FramePayload` of QUALIFIED_EDGE. -/
theorem FramePayload.qualifiedEdge : FramePayload.Statement .qualifiedEdge :=
  framePayload_of_none rfl

/-- `FramePayload` of STEP_START. -/
theorem FramePayload.stepStart : FramePayload.Statement .stepStart :=
  framePayload_of_none rfl

/-- `FramePayload` of STEP_END. -/
theorem FramePayload.stepEnd : FramePayload.Statement .stepEnd :=
  framePayload_of_none rfl

/-- `FramePayload` of END_MARKER_HANDOVER. -/
theorem FramePayload.endMarkerHandover : FramePayload.Statement .endMarkerHandover :=
  framePayload_of_none rfl

/-- `FramePayload` of TRIGGER_TIMEOUT. -/
theorem FramePayload.triggerTimeout : FramePayload.Statement .triggerTimeout :=
  framePayload_of_none rfl

/-- `FramePayload` of TRIP. -/
theorem FramePayload.trip : FramePayload.Statement .trip :=
  framePayload_of_none rfl

/-- `FramePayload` of STOP_RAMP_COMPLETE. -/
theorem FramePayload.stopRampComplete : FramePayload.Statement .stopRampComplete :=
  framePayload_of_none rfl

/-- `FramePayload` of BYTE_RECEIVED. -/
theorem FramePayload.byteReceived (byte : Byte) (framingError : Bool) :
    FramePayload.Statement (.byteReceived byte framingError) :=
  framePayload_of_none rfl

/-- `FramePayload` of GAP_TIMEOUT. -/
theorem FramePayload.gapTimeout : FramePayload.Statement .gapTimeout :=
  framePayload_of_none rfl

/-- `FramePayload` of BADFRAME. -/
theorem FramePayload.badframe (kind tag : Byte) (payload : List Byte) (crcError : Half) :
    FramePayload.Statement (.badframe kind tag payload crcError) :=
  framePayload_of_none rfl

/-- `FramePayload` of UNKNOWN_KIND. -/
theorem FramePayload.unknownKind (kind tag : Byte) (payload : List Byte) :
    FramePayload.Statement (.unknownKind kind tag payload) :=
  framePayload_of_none rfl

/-- `FramePayload` of REPLY_SENT. -/
theorem FramePayload.replySent : FramePayload.Statement .replySent :=
  framePayload_of_none rfl

/-- `FramePayload` of IDENTIFY. -/
theorem FramePayload.identify (tag : Byte) : FramePayload.Statement (.identify tag) := by
  exact framePayload_of_some rfl rfl fun _ => by simp

/-- `FramePayload` of STATUS. -/
theorem FramePayload.status (tag : Byte) : FramePayload.Statement (.status tag) := by
  exact framePayload_of_some rfl rfl fun _ => by simp

/-- `FramePayload` of RESET. -/
theorem FramePayload.reset (tag : Byte) : FramePayload.Statement (.reset tag) := by
  exact framePayload_of_some rfl rfl fun _ => by simp

/-- `FramePayload` of SETUP_WRITE. -/
theorem FramePayload.setupWrite (tag : Byte) (pairs : List (Byte × Word)) :
    FramePayload.Statement (.setupWrite tag pairs) := by
  refine framePayload_of_some rfl rfl fun h => ?_
  simp only [Instr.lengthOk, Bool.and_eq_true, decide_eq_true_eq] at h
  rw [pairs_length]
  omega

/-- `FramePayload` of SETUP_READ. -/
theorem FramePayload.setupRead (tag : Byte) (ids : List Byte) : FramePayload.Statement (.setupRead tag ids) := by
  refine framePayload_of_some rfl rfl fun h => ?_
  simp only [Instr.lengthOk, Bool.and_eq_true, decide_eq_true_eq] at h
  omega

/-- `FramePayload` of NOTICE_READ. -/
theorem FramePayload.noticeRead (tag : Byte) : FramePayload.Statement (.noticeRead tag) := by
  exact framePayload_of_some rfl rfl fun _ => by simp

/-- `FramePayload` of NOTICE_CLEAR. -/
theorem FramePayload.noticeClear (tag : Byte) (flagSet : Half) :
    FramePayload.Statement (.noticeClear tag flagSet) := by
  exact framePayload_of_some rfl rfl fun _ => by simp [le16]

/-- `FramePayload` of NOTICE_MASK. -/
theorem FramePayload.noticeMask (tag : Byte) (masks : Half) (enable : Byte) :
    FramePayload.Statement (.noticeMask tag masks enable) := by
  exact framePayload_of_some rfl rfl fun _ => by simp [le16]

/-- `FramePayload` of SHAPE_OPEN. -/
theorem FramePayload.shapeOpen (tag slot : Byte) : FramePayload.Statement (.shapeOpen tag slot) := by
  exact framePayload_of_some rfl rfl fun _ => by simp

/-- `FramePayload` of SHAPE_APPEND. -/
theorem FramePayload.shapeAppend (tag slot : Byte) (points : List Half) :
    FramePayload.Statement (.shapeAppend tag slot points) := by
  refine framePayload_of_some rfl rfl fun h => ?_
  simp only [Instr.lengthOk, Bool.and_eq_true, decide_eq_true_eq] at h
  rw [List.length_cons, pointBytes_length]
  omega

/-- `FramePayload` of SHAPE_APPEND_COMPLETE. -/
theorem FramePayload.shapeAppendComplete : FramePayload.Statement .shapeAppendComplete :=
  framePayload_of_none rfl

/-- `FramePayload` of SHAPE_ERASE. -/
theorem FramePayload.shapeErase (tag slot : Byte) : FramePayload.Statement (.shapeErase tag slot) := by
  exact framePayload_of_some rfl rfl fun _ => by simp

/-- `FramePayload` of SHAPE_INFO. -/
theorem FramePayload.shapeInfo (tag slot : Byte) : FramePayload.Statement (.shapeInfo tag slot) := by
  exact framePayload_of_some rfl rfl fun _ => by simp

/-- `FramePayload` of SHAPE_SUM. -/
theorem FramePayload.shapeSum (tag slot gen : Byte) (start count crc : Half) :
    FramePayload.Statement (.shapeSum tag slot gen start count crc) := by
  exact framePayload_of_some rfl rfl fun _ => by simp [le16]

/-- `FramePayload` of SHAPE_SUM_COMPLETE. -/
theorem FramePayload.shapeSumComplete : FramePayload.Statement .shapeSumComplete :=
  framePayload_of_none rfl

/-- `FramePayload` of SHAPE_COMPARE. -/
theorem FramePayload.shapeCompare (tag slot gen : Byte) (start count pad : Half) (points : List Half) :
    FramePayload.Statement (.shapeCompare tag slot gen start count pad points) := by
  refine framePayload_of_some rfl rfl fun h => ?_
  simp only [Instr.lengthOk, decide_eq_true_eq] at h
  simp only [List.length_append, pointBytes_length, List.length_cons, List.length_nil, le16]
  omega

/-- `FramePayload` of SHAPE_COMPARE_COMPLETE. -/
theorem FramePayload.shapeCompareComplete : FramePayload.Statement .shapeCompareComplete :=
  framePayload_of_none rfl

/-- `FramePayload` of TEMPLATE_DEFINE. -/
theorem FramePayload.templateDefine (tag : Byte) (template : TemplateWire) :
    FramePayload.Statement (.templateDefine tag template) := by
  refine framePayload_of_some rfl rfl fun _ => ?_
  simp [templateBytes, phaseBytes, le16, le32]

/-- `FramePayload` of TEMPLATE_DELETE. -/
theorem FramePayload.templateDelete (tag index : Byte) : FramePayload.Statement (.templateDelete tag index) := by
  exact framePayload_of_some rfl rfl fun _ => by simp

/-- `FramePayload` of TEMPLATE_READ. -/
theorem FramePayload.templateRead (tag index : Byte) : FramePayload.Statement (.templateRead tag index) := by
  exact framePayload_of_some rfl rfl fun _ => by simp

/-- `FramePayload` of PHRASE_DEFINE. -/
theorem FramePayload.phraseDefine (tag index pred template : Byte) :
    FramePayload.Statement (.phraseDefine tag index pred template) := by
  exact framePayload_of_some rfl rfl fun _ => by simp

/-- `FramePayload` of PHRASE_DELETE. -/
theorem FramePayload.phraseDelete (tag index : Byte) : FramePayload.Statement (.phraseDelete tag index) := by
  exact framePayload_of_some rfl rfl fun _ => by simp

/-- `FramePayload` of PHRASE_READ. -/
theorem FramePayload.phraseRead (tag index : Byte) : FramePayload.Statement (.phraseRead tag index) := by
  exact framePayload_of_some rfl rfl fun _ => by simp

/-- `FramePayload` of CUE_ADD. -/
theorem FramePayload.cueAdd (tag : Byte) (cues : List CueWire) : FramePayload.Statement (.cueAdd tag cues) := by
  refine framePayload_of_some rfl rfl fun h => ?_
  simp only [Instr.lengthOk, Bool.and_eq_true, decide_eq_true_eq] at h
  have := cues_length cues
  omega

/-- `FramePayload` of CUE_REWIND. -/
theorem FramePayload.cueRewind (tag : Byte) : FramePayload.Statement (.cueRewind tag) := by
  exact framePayload_of_some rfl rfl fun _ => by simp

/-- `FramePayload` of RUN_CLEAR. -/
theorem FramePayload.runClear (tag : Byte) : FramePayload.Statement (.runClear tag) := by
  exact framePayload_of_some rfl rfl fun _ => by simp

/-- `FramePayload` of RUN_START. -/
theorem FramePayload.runStart (tag : Byte) : FramePayload.Statement (.runStart tag) := by
  exact framePayload_of_some rfl rfl fun _ => by simp

/-- `FramePayload` of RUN_PAUSE. -/
theorem FramePayload.runPause (tag : Byte) : FramePayload.Statement (.runPause tag) := by
  exact framePayload_of_some rfl rfl fun _ => by simp

/-- `FramePayload` of RUN_RESUME. -/
theorem FramePayload.runResume (tag : Byte) : FramePayload.Statement (.runResume tag) := by
  exact framePayload_of_some rfl rfl fun _ => by simp

/-- `FramePayload` of RUN_FORCE_DISABLE. -/
theorem FramePayload.runForceDisable (tag : Byte) (abortToo skipToo : Bool) :
    FramePayload.Statement (.runForceDisable tag abortToo skipToo) := by
  exact framePayload_of_some rfl rfl fun _ => by simp

/-- `FramePayload` of RUN_FORCE_ABORT. -/
theorem FramePayload.runForceAbort (tag : Byte) (skipToo : Bool) :
    FramePayload.Statement (.runForceAbort tag skipToo) := by
  exact framePayload_of_some rfl rfl fun _ => by simp

/-- `FramePayload` of RUN_FORCE_SKIP. -/
theorem FramePayload.runForceSkip (tag : Byte) : FramePayload.Statement (.runForceSkip tag) := by
  exact framePayload_of_some rfl rfl fun _ => by simp

/-- `FramePayload` of FAULT_CLEAR. -/
theorem FramePayload.faultClear (tag : Byte) : FramePayload.Statement (.faultClear tag) := by
  exact framePayload_of_some rfl rfl fun _ => by simp

/-- `FramePayload` of OUTPUT_ENABLE. -/
theorem FramePayload.outputEnable (tag : Byte) : FramePayload.Statement (.outputEnable tag) := by
  exact framePayload_of_some rfl rfl fun _ => by simp

/-- `FramePayload` of RESULT_READ. -/
theorem FramePayload.resultRead (tag count : Byte) : FramePayload.Statement (.resultRead tag count) := by
  exact framePayload_of_some rfl rfl fun _ => by simp

end Sys2Proof.Laws
end

