-- ==== Sys2Proof/Laws/RefsKept.lean ====
section
/-! SUPPORT. Every shared operation, every moment, every request and every sample keeps `State.RefsOk`. -/

namespace Sys2Proof.Machine

/-- The same cues keep the refcounts exact. -/
theorem State.RefsOk.same {s t : State} (h : s.RefsOk) (hs : t.store.slots = s.store.slots)
    (hl : t.library = s.library) (hp : t.phrases = s.phrases) (hq : t.queue = s.queue) : t.RefsOk :=
  h.of_eq hs hl hp (by rw [hq])

/-- Slots with the same refcounts keep them exact. -/
theorem State.RefsOk.ofSlots {s t : State} (h : s.RefsOk) (hl : t.library = s.library) (hp : t.phrases = s.phrases)
    (hq : t.queue = s.queue) (hs : ∀ (k : Nat) slot, t.store.slots[k]? = some slot →
      ∃ slot', s.store.slots[k]? = some slot' ∧ slot.refcount = slot'.refcount) : t.RefsOk := by
  have h' : ({ t with store := s.store } : State).RefsOk := h.same rfl hl hp hq
  obtain ⟨a, b, c, d, e, f⟩ := h'
  refine ⟨fun k slot hk => ?_, b, c, fun i x hx => ?_, e, f⟩
  · obtain ⟨slot', hk', hr⟩ := hs k slot hk
    rw [hr]
    exact a k slot' hk'
  · obtain ⟨d1, d2, d3, d4⟩ := d i x hx
    exact ⟨d1, d2, d3, d4⟩

/-! ## The expander and the run sequencer -/

/-- The end of a repetition keeps the refcounts exact. -/
theorem State.endRepetition_refsOk {s : State} (context : Context) (rep : Nat) (h : s.RefsOk) :
    (s.endRepetition context rep).RefsOk := by
  unfold State.endRepetition
  split
  · exact State.expandLive_refsOk (h.same rfl rfl rfl rfl)
  · exact State.spendLive_refsOk (h.same rfl rfl rfl rfl)

/-- The staging of an element keeps the refcounts exact. -/
theorem State.stageElement_refsOk {s : State} (context : Context) (h : s.RefsOk) : (s.stageElement context).RefsOk := by
  unfold State.stageElement
  split
  · split
    · exact h
    · exact State.endRepetition_refsOk _ _ (h.same rfl rfl rfl rfl)
  · split
    · exact h
    · split
      · exact h
      · dsimp only
        split
        · exact State.endRepetition_refsOk _ _ (h.same rfl rfl rfl rfl)
        · exact State.expandLive_refsOk (h.same rfl rfl rfl rfl)
  · exact h

/-- A staging keeps the refcounts exact. -/
theorem State.fillSlot_refsOk {s : State} (h : s.RefsOk) : s.fillSlot.RefsOk := by
  unfold State.fillSlot
  split
  · split
    · exact State.stageElement_refsOk _ h
    · split
      · exact h
      · split
        · exact State.spendLive_refsOk (h.same rfl rfl rfl rfl)
        · exact State.stageElement_refsOk _ h
        · exact State.stageElement_refsOk _ h
  · exact h

/-- A discarded expansion keeps the refcounts exact. -/
theorem State.discardExpansion_refsOk {s : State} (h : s.RefsOk) : s.discardExpansion.RefsOk := by
  unfold State.discardExpansion
  split
  · exact h.same rfl rfl rfl rfl
  · exact State.spendLive_refsOk (h.same rfl rfl rfl rfl)

/-- An end marker keeps the refcounts exact. -/
theorem State.takeMarker_refsOk {s : State} (option : EndOption) (h : s.RefsOk) : (s.takeMarker option).RefsOk := by
  unfold State.takeMarker
  split
  · exact h.same rfl rfl rfl rfl
  · split
    · exact State.fillSlot_refsOk (h.same rfl rfl rfl rfl)
    · exact h.same rfl rfl rfl rfl

/-- Acting on what is staged keeps the refcounts exact. -/
theorem State.actOnStaged_refsOk {s : State} (h : s.RefsOk) : s.actOnStaged.RefsOk := by
  unfold State.actOnStaged
  split
  · exact h
  · split <;> first | exact h | exact h.same rfl rfl rfl rfl | (split <;> first | exact h | exact h.same rfl rfl rfl rfl)
  · split <;> first | exact h | exact State.takeMarker_refsOk _ h

/-- A staging event keeps the refcounts exact. -/
theorem State.stage_refsOk {s : State} (h : s.RefsOk) : s.stage.RefsOk := by
  unfold State.stage
  split
  · exact State.actOnStaged_refsOk (State.fillSlot_refsOk h)
  · exact h

/-- A record handed keeps the refcounts exact. -/
theorem State.handResult_refsOk {s : State} (body : ResultBody) (h : s.RefsOk) : (s.handResult body).RefsOk :=
  h.same (by simp) (by simp) (by simp) (by simp)

/-- The end of the active step keeps the refcounts exact. -/
theorem State.endActive_refsOk {s : State} (reason : EndReason) (h : s.RefsOk) : (s.endActive reason).RefsOk :=
  h.same (by simp) (by simp) (by simp) (by simp)

/-- What follows the end of a step keeps the refcounts exact. -/
theorem State.afterEnd_refsOk {s : State} (h : s.RefsOk) : s.afterEnd.RefsOk := by
  unfold State.afterEnd
  split
  · split <;> exact h.same rfl rfl rfl rfl
  · exact State.takeMarker_refsOk _ h
  · exact h.same rfl rfl rfl rfl

/-- An entry at the end of a run keeps the refcounts exact. -/
theorem State.enterEnd_refsOk {s : State} (run : RunState) (h : s.RefsOk) : (s.enterEnd run).RefsOk :=
  h.same (by simp) (by simp) (by simp) (by simp)

/-- A run left early keeps the refcounts exact. -/
theorem State.leaveEarly_refsOk {s : State} (reason : EndReason) (run : RunState) (h : s.RefsOk) :
    (s.leaveEarly reason run).RefsOk :=
  State.enterEnd_refsOk _ (State.discardExpansion_refsOk (State.endActive_refsOk _ h))

/-- A run left by a trigger timeout keeps the refcounts exact. -/
theorem State.leaveTimedOut_refsOk {s : State} (run : RunState) (h : s.RefsOk) : (s.leaveTimedOut run).RefsOk := by
  have h1 : (s.endActive .aborted).handTimedOut.RefsOk :=
    (State.endActive_refsOk .aborted h).same (by simp) (by simp) (by simp) (by simp)
  exact State.enterEnd_refsOk _ (State.discardExpansion_refsOk h1)

/-- The end of a step keeps the refcounts exact. -/
theorem State.completeStep_refsOk {s : State} (h : s.RefsOk) : s.completeStep.RefsOk :=
  State.afterEnd_refsOk (State.endActive_refsOk _ h)

/-- The expiry of the trigger timeout keeps the refcounts exact. -/
theorem State.expire_refsOk {s : State} (h : s.RefsOk) : s.expire.RefsOk := by
  unfold State.expire
  split
  · exact (State.leaveTimedOut_refsOk .off (s := s.latch .triggerTimeout) (h.same rfl rfl rfl rfl)).same rfl rfl rfl rfl
  · exact State.leaveTimedOut_refsOk _ (h.same rfl rfl rfl rfl)

/-- The release of a HELD step keeps the refcounts exact. -/
theorem State.releaseHeld_refsOk {s : State} (h : s.RefsOk) : s.releaseHeld.RefsOk :=
  h.same (by simp) (by simp) (by simp) (by simp)

/-! ## Moments and samples -/

/-- A moment taken keeps the refcounts exact. -/
theorem State.take_refsOk {s : State} (m : Moment) (h : s.RefsOk) : (s.take m).RefsOk := by
  cases m with
  | edge => exact h.same (by simp [State.take]) (by simp [State.take]) (by simp [State.take]) (by simp [State.take])
  | timeout => exact State.expire_refsOk h
  | stepEnd => exact State.completeStep_refsOk h
  | trip =>
    show s.takeTrip.RefsOk
    unfold State.takeTrip
    split
    · exact h
    · exact State.leaveEarly_refsOk _ _ (h.same rfl rfl rfl rfl)
  | stop => exact h.same rfl rfl rfl rfl
  | start =>
    show s.takeStart.RefsOk
    unfold State.takeStart
    split
    · rename_i copy hs
      have : (s.activate copy).RefsOk := h.same (by simp) (by simp) (by simp) (by simp)
      exact (State.stage_refsOk this).same rfl rfl rfl rfl
    · exact h
    · exact h
  | handover =>
    show s.takeHandover.RefsOk
    unfold State.takeHandover
    split
    · exact State.takeMarker_refsOk _ (State.endActive_refsOk _ h)
    · exact h
    · exact h

/-- The moments that are due keep the refcounts exact. -/
theorem State.settleMoments_refsOk (fuel : Nat) {s : State} (h : s.RefsOk) : (State.settleMoments fuel s).RefsOk := by
  induction fuel generalizing s with
  | zero => exact h
  | succ fuel ih =>
    refine ih ?_
    unfold State.settleOne
    split
    · exact h
    · exact State.take_refsOk _ h
    · split
      · exact h
      · exact State.take_refsOk _ (h.same rfl rfl rfl rfl)

/-- The moments before a sample keep the refcounts exact. -/
theorem State.settle_refsOk {s : State} (h : s.RefsOk) : s.settle.RefsOk :=
  State.settleMoments_refsOk _ (h.same rfl rfl rfl rfl)

/-- A slot's record replaced by one of the same refcount keeps the refcounts exact. -/
theorem State.setSlot_refsOk {s : State} (k : Nat) (old new : Slot) (ho : s.store.slots[k]? = some old)
    (hr : new.refcount = old.refcount) (h : s.RefsOk) : (s.setSlot k new).RefsOk := by
  refine h.ofSlots rfl rfl rfl fun j slot hj => ?_
  simp only [State.setSlot, getElem?_set] at hj
  split at hj
  · rename_i e
    subst e
    rw [ho] at hj
    simp only [Option.map_some, Option.some.injEq] at hj
    subst hj
    exact ⟨old, ho, hr⟩
  · exact ⟨slot, hj, rfl⟩

/-- Link-side work that completes keeps the refcounts exact. -/
theorem State.completeWork_refsOk {s : State} (h : s.RefsOk) : s.completeWork.RefsOk := by
  have he : s.endWork.RefsOk := h.same rfl rfl rfl rfl
  unfold State.completeWork
  split
  · exact h
  · split
    · rename_i slot points hw
      unfold State.completeAppend
      split
      · exact he.same (by simp) (by simp) (by simp) (by simp)
      · rename_i record hr
        have := State.setSlot_refsOk (s := s.endWork) _ record (record.appended points) hr rfl he
        exact this.same (by simp) (by simp) (by simp) (by simp)
    · exact he.same (by simp [State.completeSum]) (by simp [State.completeSum])
        (by simp [State.completeSum]) (by simp [State.completeSum])
    · unfold State.completeCompare
      dsimp only
      split
      · exact he.same (by simp) (by simp) (by simp)
          (by simp)
      · split <;> exact he.same (by simp) (by simp)
          (by simp) (by simp)

/-- A sample keeps the refcounts exact. -/
theorem State.produce_refsOk {s : State} (trig : Bool) (currents : PerPhase Nat) (h : s.RefsOk) :
    (s.produce trig currents).RefsOk := by
  have hs : (s.produce trig currents).store.slots = s.store.slots := by
    unfold State.produce State.serveWork
    simp
  exact h.same hs (by simp) (by simp) (by simp)

/-! ## Requests -/

/-- A reply keeps the refcounts exact. -/
theorem State.answer_refsOk {s : State} (outcome : ReplyOutcome) (detail : Detail) (payload : List Byte)
    (h : s.RefsOk) : (s.answer outcome detail payload).RefsOk :=
  h.same (by simp) (by simp) (by simp) (by simp)

/-- SHAPE_OPEN and SHAPE_ERASE keep the refcounts exact. -/
theorem State.clearShape_refsOk {s : State} (state : SlotState) (slot : Byte) (h : s.RefsOk) :
    (s.clearShape state slot).RefsOk := by
  unfold State.clearShape
  split
  · exact State.answer_refsOk _ _ _ h
  · rename_i record hr
    split
    · exact State.answer_refsOk _ _ _ h
    · split
      · exact State.answer_refsOk _ _ _ h
      · exact State.answer_refsOk _ _ _ (State.setSlot_refsOk _ record (record.cleared state) hr rfl h)

/-- The entry that a place of the library holds. -/
theorem State.template?_eq (s : State) (k : Nat) (hk : k < 64) : s.library[k]? = some (s.template? k) := by
  unfold State.template?
  rw [Vector.getElem?_eq_getElem hk]
  rfl

/-- The entry that a place of the dictionary holds. -/
theorem State.phrase?_eq (s : State) (k : Nat) (hk : k < 128) : s.phrases[k]? = some (s.phrase? k) := by
  unfold State.phrase?
  rw [Vector.getElem?_eq_getElem hk]
  rfl

/-- TEMPLATE_DEFINE keeps the refcounts exact. -/
theorem State.takeTemplateDefine_refsOk {s : State} (w : TemplateWire) (h : s.RefsOk) :
    (s.takeTemplateDefine w).RefsOk := by
  unfold State.takeTemplateDefine
  split
  · exact State.answer_refsOk _ _ _ h
  · rename_i hk
    split
    · exact State.answer_refsOk _ _ _ h
    · rename_i t ht
      split
      · refine State.answer_refsOk _ _ _ ?_
        have ho := s.template?_eq w.index.toNat (by omega)
        refine h.setTemplate w.index.toNat (s.template? w.index.toNat)
          (some { template := t, refcount := ((s.template? w.index.toNat).map TemplateEntry.refcount).getD 0 })
          ho (by simp) (by simp) (by simp) rfl ?_ (by simp)
        intro e he
        cases he
        cases hold : s.template? w.index.toNat with
        | none =>
          rw [hold] at ho
          obtain ⟨a, b⟩ := h.unnamed ho
          simp [a, b]
        | some e =>
          rw [hold] at ho
          exact h.templates _ e ho
      · exact State.answer_refsOk _ _ _ h

/-- TEMPLATE_DELETE keeps the refcounts exact. -/
theorem State.takeTemplateDelete_refsOk {s : State} (index : Byte) (h : s.RefsOk) :
    (s.takeTemplateDelete index).RefsOk := by
  unfold State.takeTemplateDelete
  split
  · exact State.answer_refsOk _ _ _ h
  · rename_i hk
    split
    · exact State.answer_refsOk _ _ _ h
    · rename_i e he
      split
      · exact State.answer_refsOk _ _ _ h
      · rename_i hz
        refine State.answer_refsOk _ _ _ ?_
        have ho := s.template?_eq index.toNat (by omega)
        rw [he] at ho
        refine h.setTemplate index.toNat (some e) none ho (by simp) (by simp) (by simp) rfl (by simp) ?_
        intro _
        have := h.templates _ e ho
        unfold State.cuesOnTemplate
        omega

/-- What moving a template's reference does to the library. -/
theorem State.moveTemplate_library (old new : Option Nat) (s : State) (i : Nat) :
    (moveCount State.countTemplate old new s).library[i]? =
      (s.library[i]?).map (Option.map (TemplateEntry.counted fun n =>
        if old = new then n
        else if new = some i then (if old = some i then n - 1 else n) + 1
        else if old = some i then n - 1 else n)) := by
  unfold moveCount
  split
  · rw [TemplateEntry.counted_id]
  · cases old <;> cases new <;> simp only [countAt, State.countTemplate_library]
    · simp [TemplateEntry.counted_id]
    · simp [up]
    · simp [down]
    · rename_i a b hab
      rw [Option.map_map]
      congr 1
      funext o
      cases o with
      | none => rfl
      | some e => simp only [Function.comp_apply, Option.map_some, TemplateEntry.counted, up, down, Option.some.injEq]

/-- What moving a phrase's reference does to the dictionary. -/
theorem State.movePhrase_phrases (old new : Option Nat) (s : State) (i : Nat) :
    (moveCount State.countPhrase old new s).phrases[i]? =
      (s.phrases[i]?).map (Option.map (PhraseEntry.counted fun n =>
        if old = new then n
        else if new = some i then (if old = some i then n - 1 else n) + 1
        else if old = some i then n - 1 else n)) := by
  unfold moveCount
  split
  · rw [PhraseEntry.counted_id]
  · cases old <;> cases new <;> simp only [countAt, State.countPhrase_phrases]
    · simp [PhraseEntry.counted_id]
    · simp [up]
    · simp [down]
    · rename_i a b hab
      rw [Option.map_map]
      congr 1
      funext o
      cases o with
      | none => rfl
      | some e => simp only [Function.comp_apply, Option.map_some, PhraseEntry.counted, up, down, Option.some.injEq]

/-- Moving a template's reference changes the library alone. -/
theorem State.moveTemplate_eq (old new : Option Nat) (s : State) :
    moveCount State.countTemplate old new s =
      { s with library := (moveCount State.countTemplate old new s).library } := by
  unfold moveCount
  split
  · rfl
  · cases old <;> cases new <;> simp only [countAt]
    · exact State.countTemplate_eq _ _ _
    · exact State.countTemplate_eq _ _ _
    · rename_i a b _
      rw [State.countTemplate_eq (s.countTemplate down a) up b, State.countTemplate_eq s down a]

/-- Moving a phrase's reference changes the dictionary alone. -/
theorem State.movePhrase_eq (old new : Option Nat) (s : State) :
    moveCount State.countPhrase old new s =
      { s with phrases := (moveCount State.countPhrase old new s).phrases } := by
  unfold moveCount
  split
  · rfl
  · cases old <;> cases new <;> simp only [countAt]
    · exact State.countPhrase_eq _ _ _
    · exact State.countPhrase_eq _ _ _
    · rename_i a b _
      rw [State.countPhrase_eq (s.countPhrase down a) up b, State.countPhrase_eq s down a]

/-- A count after a reference has moved. -/
theorem moved_count (old new : Option Nat) (i n : Nat) (h : (if old = some i then 1 else 0) ≤ n) :
    (if old = new then n
      else if new = some i then (if old = some i then n - 1 else n) + 1
      else if old = some i then n - 1 else n) + (if old = some i then 1 else 0) =
      n + if new = some i then 1 else 0 := by
  by_cases h1 : old = some i
  · subst h1
    by_cases h2 : new = some i
    · subst h2; simp
    · rw [if_pos rfl] at h
      rw [if_neg (fun e => h2 e.symm), if_neg h2, if_pos rfl, if_pos rfl, if_neg h2]
      omega
  · by_cases h2 : new = some i
    · subst h2
      simp [h1]
    · simp [h1, h2]

/-- PHRASE_DEFINE keeps the refcounts exact. -/
theorem State.takePhraseDefine_refsOk {s : State} (index pred template : Byte) (h : s.RefsOk) :
    (s.takePhraseDefine index pred template).RefsOk := by
  unfold State.takePhraseDefine
  dsimp only
  split
  · exact State.answer_refsOk _ _ _ h
  rename_i hk
  split
  · exact State.answer_refsOk _ _ _ h
  rename_i hpr
  split
  · exact State.answer_refsOk _ _ _ h
  rename_i htr
  split
  · exact State.answer_refsOk _ _ _ h
  rename_i hor
  split
  · exact State.answer_refsOk _ _ _ h
  rename_i hin
  split
  · exact State.answer_refsOk _ _ _ h
  rename_i hnr
  split
  · exact State.answer_refsOk _ _ _ h
  rename_i htp
  split
  · exact State.answer_refsOk _ _ _ h
  rename_i hdp
  refine State.answer_refsOk _ _ _ ?_
  have ho := s.phrase?_eq index.toNat (by omega)
  have hz : s.phrasesOnPhrase index.toNat + s.cuesOnPhrase index.toNat = 0 := by
    cases hold : s.phrase? index.toNat with
    | none =>
      rw [hold] at ho
      obtain ⟨a, b⟩ := h.unnamedPhrase ho
      omega
    | some e =>
      rw [hold] at ho hin
      have := h.phrases _ e ho
      simp only [Option.map_some, Option.getD_some] at hin
      unfold State.cuesOnPhrase
      omega
  generalize hold : s.phrase? index.toNat = old at *
  generalize hq : carriedPred pred = q at *
  have hqn (i : Nat) (hi : q = some i) : i < index.toNat ∧ i < 128 := by
    subst hi
    unfold carriedPred at hq
    split at hq
    · cases hq
    · rename_i hne
      cases hq
      simp only [Option.isSome_some, Bool.true_and, decide_eq_true_eq] at hor
      omega
  have holdq (e : PhraseEntry) (i : Nat) (he : old = some e) (hi : e.pred = some i) : i < index.toNat :=
    ((h.dictionary _ e (by rw [ho, he])).chained i hi).1
  refine h.setPhrase index.toNat old
    (some { pred := q, template := template.toNat, depth := depthOver (q.bind s.phrase?), refcount := 0 })
    (fun i n => if old.map PhraseEntry.template = some template.toNat then n
      else if some template.toNat = some i then (if old.map PhraseEntry.template = some i then n - 1 else n) + 1
      else if old.map PhraseEntry.template = some i then n - 1 else n)
    (fun i n => if old.bind PhraseEntry.pred = q then n
      else if q = some i then (if old.bind PhraseEntry.pred = some i then n - 1 else n) + 1
      else if old.bind PhraseEntry.pred = some i then n - 1 else n) ho ?_ ?_ ?_ ?_ ?_ ?_ hz ?_ ?_
  · intro i
    dsimp only
    rw [State.movePhrase_eq]
    dsimp only
    rw [State.moveTemplate_library]
  · intro i
    dsimp only
    rw [getElem?_set, State.movePhrase_phrases, State.moveTemplate_eq]
    split
    · rename_i e
      subst e
      rw [ho]; rfl
    · rfl
  · rw [State.movePhrase_eq, State.moveTemplate_eq]
  · rw [State.movePhrase_eq, State.moveTemplate_eq]
  · intro i n
    have e1 : (old.any fun e => e.template == i) = decide (old.map PhraseEntry.template = some i) := by
      cases old <;> simp [Bool.beq_eq_decide_eq]
    simp only [e1, Option.any_some, decide_eq_true_eq, beq_iff_eq]
    intro hle
    rw [moved_count _ _ _ _ hle]
    simp
  · intro i n _
    have e1 : (old.any fun e => e.pred == some i) = decide (old.bind PhraseEntry.pred = some i) := by
      cases old <;> simp [Bool.beq_eq_decide_eq]
    simp only [e1, Option.any_some, decide_eq_true_eq, beq_iff_eq]
    intro hle
    exact moved_count _ _ _ _ hle
  · intro e he
    cases he
    rfl
  · intro e he
    cases he
    refine ⟨?_, ?_, ?_, ?_⟩
    · cases ht : s.template? template.toNat with
      | none => rw [ht] at htp; exact absurd rfl htp
      | some t => exact ⟨t, by rw [s.template?_eq template.toNat (by omega), ht]⟩
    · intro hn
      rw [show q = none from hn]; rfl
    · intro i hi
      have hi' : q = some i := hi
      obtain ⟨a, b⟩ := hqn i hi'
      refine ⟨a, ?_⟩
      rw [hi'] at hnr ⊢
      simp only [Option.bind_some] at hnr ⊢
      cases hb : s.phrase? i with
      | none => rw [hb] at hnr; simp at hnr
      | some before => exact ⟨before, by rw [s.phrase?_eq i b, hb], by simp [depthOver]⟩
    · show depthOver (q.bind s.phrase?) ≤ 32
      unfold depthOver
      cases hb : q.bind s.phrase? with
      | none => simp
      | some before =>
        rw [hb] at hdp
        obtain ⟨i, hi, hbi⟩ := Option.bind_eq_some_iff.1 hb
        have hd := (h.dictionary i before (by rw [s.phrase?_eq i (hqn i hi).2, hbi])).depth
        simp only [Option.map_some, Option.getD_some, Config.maxDepth] at hdp ⊢
        omega

/-- PHRASE_DELETE keeps the refcounts exact. -/
theorem State.takePhraseDelete_refsOk {s : State} (index : Byte) (h : s.RefsOk) :
    (s.takePhraseDelete index).RefsOk := by
  unfold State.takePhraseDelete
  split
  · exact State.answer_refsOk _ _ _ h
  · rename_i hk
    split
    · exact State.answer_refsOk _ _ _ h
    · rename_i e he
      split
      · exact State.answer_refsOk _ _ _ h
      · rename_i hz
        refine State.answer_refsOk _ _ _ ?_
        have ho := s.phrase?_eq index.toNat (by omega)
        rw [he] at ho
        have hm : countAt (State.countPhrase down) e.pred (s.countTemplate down e.template) =
            { s with library := (s.countTemplate down e.template).library,
                     phrases := (countAt (State.countPhrase down) e.pred (s.countTemplate down e.template)).phrases } := by
          cases e.pred with
          | none =>
            simp only [countAt]
            rw [State.countTemplate_eq s down e.template]
          | some q =>
            simp only [countAt]
            rw [State.countPhrase_eq, State.countTemplate_eq s down e.template]
        have hp (i : Nat) : (countAt (State.countPhrase down) e.pred (s.countTemplate down e.template)).phrases[i]? =
            (s.phrases[i]?).map (Option.map (PhraseEntry.counted fun n => if e.pred = some i then n - 1 else n)) := by
          cases e.pred with
          | none => simp [countAt, PhraseEntry.counted_id]
          | some q => simp [countAt, State.countPhrase_phrases, down]
        refine h.setPhrase index.toNat (some e) none (fun i n => if e.template = i then n - 1 else n)
          (fun i n => if e.pred = some i then n - 1 else n) ho ?_ ?_ ?_ ?_ ?_ ?_ ?_ (by simp) (by simp)
        · intro i
          dsimp only
          rw [hm]
          dsimp only
          rw [State.countTemplate_library]
          rfl
        · intro i
          dsimp only
          rw [getElem?_set, hp]
          split
          · rename_i e'
            subst e'
            rw [ho]; rfl
          · rfl
        · rw [hm]
        · rw [hm]
        · intro i n
          simp only [Option.any_some, Option.any_none, beq_iff_eq, Bool.false_eq_true, if_false]
          split <;> omega
        · intro i n _
          simp only [Option.any_some, Option.any_none, beq_iff_eq, Bool.false_eq_true, if_false]
          split <;> omega
        · have := h.phrases _ e ho
          unfold State.cuesOnPhrase
          omega

/-- The bodies of accepted cues name what is defined (R90, checks 6 and 7). -/
theorem State.checkCue_defined {s : State} {held : Nat} {w : CueWire} {body : CueBody}
    (hc : s.checkCue held w = .ok body) :
    (∀ i, body.onTemplate i = true → ∃ e, s.library[i]? = some (some e)) ∧
    ∀ i, body.onPhrase i = true → ∃ e, s.phrases[i]? = some (some e) := by
  unfold State.checkCue at hc
  dsimp only at hc
  split at hc
  · split at hc
    · cases hc
    · rename_i hk
      split at hc
      · cases hc
      · split at hc
        · cases hc
        · rename_i ht
          split at hc
          · cases hc
          · cases hc
            refine ⟨fun i hi => ?_, fun i hi => by (cases hi)⟩
            simp only [CueBody.onTemplate, beq_iff_eq] at hi
            subst hi
            cases hx : s.template? w.index.toNat with
            | none => rw [hx] at ht; exact absurd rfl ht
            | some e => exact ⟨e, by rw [s.template?_eq _ (by omega), hx]⟩
  · split at hc
    · split at hc
      · cases hc
      · rename_i hk
        split at hc
        · cases hc
        · split at hc
          · cases hc
          · rename_i ht
            split at hc
            · cases hc
            · cases hc
              refine ⟨fun i hi => by (cases hi), fun i hi => ?_⟩
              simp only [CueBody.onPhrase, beq_iff_eq] at hi
              subst hi
              cases hx : s.phrase? w.index.toNat with
              | none => rw [hx] at ht; exact absurd rfl ht
              | some e => exact ⟨e, by rw [s.phrase?_eq _ (by omega), hx]⟩
    · split at hc
      · split at hc
        · cases hc
        · split at hc
          · cases hc
          · split at hc
            · cases hc
            · cases hc
              exact ⟨fun i hi => by (cases hi), fun i hi => by (cases hi)⟩
      · cases hc

/-- Every accepted body is that of a cue that passed its checks. -/
theorem State.acceptCues_checked {s : State} {ws : List CueWire} {held : Nat} {body : CueBody}
    (hb : body ∈ (s.acceptCues held ws).1.map Prod.fst) : ∃ held w, s.checkCue held w = .ok body := by
  induction ws generalizing held with
  | nil => simp [State.acceptCues] at hb
  | cons w ws ih =>
    unfold State.acceptCues at hb
    split at hb
    · simp at hb
    · rename_i body' hc
      simp only [List.map_cons, List.mem_cons] at hb
      rcases hb with rfl | hb
      · exact ⟨held, w, hc⟩
      · exact ih hb

/-- The bodies of cues that join. -/
theorem numberCues_bodies (serial : Half) (bodies : List CueBody) :
    (numberCues serial bodies).map Cue.body = bodies := by
  induction bodies generalizing serial with
  | nil => rfl
  | cons b bs ih => simp [numberCues, ih]

/-- CUE_ADD keeps the refcounts exact. -/
theorem State.takeCueAdd_refsOk {s : State} (cues : List CueWire) (h : s.RefsOk) : (s.takeCueAdd cues).RefsOk := by
  have hj : (s.joinCues ((s.acceptCues s.queue.cues.length cues).1.map Prod.fst)).RefsOk := by
    generalize hbs : (s.acceptCues s.queue.cues.length cues).1.map Prod.fst = bodies
    have hd (c : Cue) (hc : c ∈ numberCues s.queue.nextSerial bodies) :
        ∃ held w, s.checkCue held w = .ok c.body := by
      have : c.body ∈ (numberCues s.queue.nextSerial bodies).map Cue.body := List.mem_map_of_mem hc
      rw [numberCues_bodies, ← hbs] at this
      exact State.acceptCues_checked this
    have hn := State.joined_refsOk h (numberCues s.queue.nextSerial bodies)
      (fun c hc i hi => by obtain ⟨held, w, hw⟩ := hd c hc; exact (State.checkCue_defined hw).1 i hi)
      (fun c hc i hi => by obtain ⟨held, w, hw⟩ := hd c hc; exact (State.checkCue_defined hw).2 i hi)
    rw [numberCues_bodies] at hn
    exact State.stage_refsOk (hn.of_eq rfl rfl rfl rfl)
  unfold State.takeCueAdd
  dsimp only
  split
  · exact State.answer_refsOk _ _ _ h
  · split
    · exact State.answer_refsOk _ _ _ hj
    · exact State.answer_refsOk _ _ _ hj

/-- CUE_REWIND keeps the refcounts exact. -/
theorem State.takeCueRewind_refsOk {s : State} (h : s.RefsOk) : s.takeCueRewind.RefsOk := by
  unfold State.takeCueRewind
  split
  · exact State.answer_refsOk _ _ _ h
  · split
    · exact State.answer_refsOk _ _ _ h
    · refine State.answer_refsOk _ _ _ (State.stage_refsOk ?_)
      refine h.of_eq (by simp) (by simp) (by simp) ?_
      simp [Function.comp_def]

/-- RUN_CLEAR keeps the refcounts exact. -/
theorem State.takeRunClear_refsOk {s : State} (h : s.RefsOk) : s.takeRunClear.RefsOk := by
  unfold State.takeRunClear
  split
  · refine State.answer_refsOk _ _ _ ?_
    have : s.resetExpander.RefsOk := h.same rfl rfl rfl rfl
    refine (State.emptied_refsOk this).of_eq rfl rfl rfl ?_
    rw [State.countCues_eq]; simp [CueQueue.reset]
  · exact State.answer_refsOk _ _ _ h

/-- The requests of the run sequencer keep the refcounts exact. -/
theorem State.takeRunStart_refsOk {s : State} (h : s.RefsOk) : s.takeRunStart.RefsOk := by
  unfold State.takeRunStart
  split <;> first | exact State.answer_refsOk _ _ _ h | skip
  · split
    · exact State.answer_refsOk _ _ _ h
    · exact State.answer_refsOk _ _ _ (State.stage_refsOk (h.same rfl rfl rfl rfl))
  · split
    · exact State.answer_refsOk _ _ _ h
    · refine State.answer_refsOk _ _ _ ?_
      unfold State.leaveParked
      split
      · exact h
      · exact h.same rfl rfl rfl rfl
      · exact State.takeMarker_refsOk _ (h.same rfl rfl rfl rfl)

/-- RUN_RESUME keeps the refcounts exact. -/
theorem State.takeRunResume_refsOk {s : State} (h : s.RefsOk) : s.takeRunResume.RefsOk := by
  unfold State.takeRunResume
  split
  · refine State.answer_refsOk _ _ _ ?_
    have : (s.enterRun s.seq.resumed).RefsOk := h.same rfl rfl rfl rfl
    unfold State.afterResume
    split
    · exact State.completeStep_refsOk this
    · split
      · exact State.expire_refsOk this
      · split
        · exact State.actOnStaged_refsOk this
        · exact State.releaseHeld_refsOk this
  · exact State.answer_refsOk _ _ _ h

/-- RUN_FORCE keeps the refcounts exact. -/
theorem State.takeForce_refsOk {s : State} (action : Action) (h : s.RefsOk) : (s.takeForce action).RefsOk := by
  unfold State.takeForce
  split
  · refine State.answer_refsOk _ _ _ ?_
    cases action with
    | disable =>
      show s.forceDisable.RefsOk
      unfold State.forceDisable
      split <;> first | exact h | exact State.leaveEarly_refsOk _ _ h | exact h.same rfl rfl rfl rfl
    | abort =>
      show s.forceAbort.RefsOk
      unfold State.forceAbort
      split <;> first | exact h | exact State.leaveEarly_refsOk _ _ h |
        exact (State.leaveEarly_refsOk _ _ h).same rfl rfl rfl rfl
    | skip =>
      show s.forceSkip.RefsOk
      unfold State.forceSkip
      split
      · unfold State.skipActive
        have he := State.endActive_refsOk .skipped h
        split
        · exact h
        · split
          · split
            · exact he
            · exact he.same rfl rfl rfl rfl
          · exact State.afterEnd_refsOk he
      · exact h.same rfl rfl rfl rfl
  · exact State.answer_refsOk _ _ _ h

/-- Every request keeps the refcounts exact. -/
theorem State.handOver_refsOk {s : State} (i : Instr) (h : s.RefsOk) : (s.handOver i).RefsOk := by
  cases i
  case shapeOpen => exact State.clearShape_refsOk _ _ h
  case shapeErase => exact State.clearShape_refsOk _ _ h
  case templateDefine => exact State.takeTemplateDefine_refsOk _ h
  case templateDelete => exact State.takeTemplateDelete_refsOk _ h
  case phraseDefine => exact State.takePhraseDefine_refsOk _ _ _ h
  case phraseDelete => exact State.takePhraseDelete_refsOk _ h
  case cueAdd => exact State.takeCueAdd_refsOk _ h
  case cueRewind => exact State.takeCueRewind_refsOk h
  case runClear => exact State.takeRunClear_refsOk h
  case runStart => exact State.takeRunStart_refsOk h
  case runResume => exact State.takeRunResume_refsOk h
  case runForceDisable => exact State.takeForce_refsOk _ h
  case runForceAbort => exact State.takeForce_refsOk _ h
  case runForceSkip => exact State.takeForce_refsOk _ h
  case shapeAppend =>
    simp only [State.handOver]
    unfold State.takeShapeAppend
    (repeat' split) <;> first | exact State.answer_refsOk _ _ _ h | exact h.same rfl rfl rfl rfl
  case shapeSum =>
    simp only [State.handOver]
    unfold State.takeShapeSum
    split <;> first | exact State.answer_refsOk _ _ _ h | exact h.same rfl rfl rfl rfl
  case shapeCompare =>
    simp only [State.handOver]
    unfold State.takeShapeCompare
    split <;> first | exact State.answer_refsOk _ _ _ h | exact h.same rfl rfl rfl rfl
  all_goals
    refine h.same ?_ ?_ ?_ ?_ <;> simp [State.handOver]

end Sys2Proof.Machine
end

