-- ==== Sys2Proof/Laws/StoreOk.lean ====
section
/-! SUPPORT. The shape store keeps its form (`Store.Ok`) under each operation, and the completion of link-side work
keeps `State.LinkOk`. -/

namespace Sys2Proof.Machine

/-- A request whose work is in progress has no reply yet. -/
theorem State.LinkOk.noReply {s : State} (h : s.LinkOk) (hj : s.store.job.isSome = true) :
    s.link.reply = none ∧ s.link.inProgress.isSome = true := by
  have h3 := h.progress
  have h4 := h.both
  cases hr : s.link.reply <;> simp_all

/-- With READY high there is no link-side work. -/
theorem State.LinkOk.noJob {s : State} (h : s.LinkOk) (hr : s.link.ready = true) : s.store.job = none := by
  have hp := (h.ready.mp hr).2
  have h3 := h.progress
  have h4 := h.both
  rw [hp] at h3
  cases hj : s.store.job <;> cases hl : s.link.reply <;> simp_all

/-- Work that ends with its reply formed keeps `State.LinkOk`. -/
theorem State.LinkOk.answered {s t : State} (h : s.LinkOk) (hj : s.store.job.isSome = true)
    (ht : t.store.job = none) (o : ReplyOutcome) (d : Detail) (p : List Byte)
    (hl : t.link = (s.answer o d p).link) : t.LinkOk := by
  obtain ⟨hr, hp⟩ := h.noReply hj
  obtain ⟨⟨kind, tag⟩, hk⟩ := Option.isSome_iff_exists.mp hp
  obtain ⟨h1, h2, h3, h4, h5, h6, h7⟩ := h
  unfold State.answer at hl
  rw [hk] at hl
  dsimp only at hl
  constructor
  case hunting => rw [hl]; exact h7
  all_goals simp_all

/-- The completion of link-side work keeps `State.LinkOk`. -/
theorem State.completeWork_linkOk {s : State} (h : s.LinkOk) : s.completeWork.LinkOk := by
  have answer (u : State) (hu : u.link = s.link) (o d p) : (u.answer o d p).link = (s.answer o d p).link := by
    unfold State.answer
    rw [hu]
    split <;> simp_all
  unfold State.completeWork
  split
  · exact h
  · rename_i job hj
    have hsome : s.store.job.isSome = true := by simp [hj]
    split
    · unfold State.completeAppend
      split
      · exact h.answered hsome (by simp) _ _ _ (answer _ (by simp) _ _ _)
      · exact h.answered hsome (by simp) _ _ _ (answer _ (by simp) _ _ _)
    · exact h.answered hsome (by simp [State.completeSum]) _ _ _ (answer _ (by simp) _ _ _)
    · unfold State.completeCompare
      dsimp only
      split
      · exact h.answered hsome (by simp) _ _ _ (answer _ (by simp) _ _ _)
      · split
        · exact h.answered hsome (by simp) _ _ _ (answer _ (by simp) _ _ _)
        · exact h.answered hsome (by simp) _ _ _ (answer _ (by simp) _ _ _)

/-! ## The store -/

/-- A slot's form does not depend on its generation and refcount. -/
theorem Slot.Ok.of_eq {a b : Slot} (h : a.Ok) (hs : b.state = a.state) (hp : b.points = a.points) : b.Ok := by
  unfold Slot.Ok at *
  rw [hs, hp]
  exact h

/-- A cleared slot has its form. -/
theorem Slot.cleared_ok (slot : Slot) (state : SlotState) (h : state ≠ .loaded) : (slot.cleared state).Ok := by
  cases state <;> simp_all [Slot.cleared, Slot.Ok]

/-- A FILLING slot with points appended has its form (R34). -/
theorem Slot.appended_ok (slot : Slot) (points : List Half) (h : slot.Ok) (hf : slot.state = .filling) :
    (slot.appended points).Ok := by
  unfold Slot.Ok at h
  rw [hf] at h
  have hlen : (slot.points ++ points.take (acceptedCount slot.points.length points.length)).length ≤ 1024 := by
    simp only [List.length_append, List.length_take, acceptedCount, Config.pointsPerShape]
    omega
  unfold Slot.appended
  dsimp only
  split
  · rename_i he
    exact he
  · rename_i hne
    rw [hf]
    exact lt_of_le_of_ne hlen hne

/-- The store keeps its form when one slot other than slot 0 is replaced by one that has it, and no work is in
progress afterwards. -/
theorem Store.Ok.setSlot {store : Store} (h : store.Ok) (index : Nat) (hi : index ≠ 0) (slot : Slot)
    (hs : slot.Ok) (hj : store.job = none) :
    Store.Ok { store with slots := store.slots.setIfInBounds index slot } := by
  constructor
  · intro r hr
    simp only [Vector.getElem?_setIfInBounds, hi, if_false] at hr
    exact h.sine r hr
  · intro k r hk hr
    simp only [Vector.getElem?_setIfInBounds] at hr
    split at hr
    · split at hr
      · cases hr; exact hs
      · cases hr
    · exact h.slots k r hk hr
  · simp [hj]
  · exact h.spare

/-- Work in progress that is over leaves no more of the present period than there was (R38). -/
theorem State.spareAfterWork_le (s : State) : s.spareAfterWork ≤ s.store.spare := by
  unfold State.spareAfterWork
  split
  · exact le_rfl
  · exact Nat.min_le_left _ _

/-- The synthesizer takes at least six of the 32 accesses of a sample's period (R38). -/
theorem Synth.leftover_le (y : Synth) : y.leftover ≤ 26 := by
  simp only [Synth.leftover, Synth.reads, Config.accessesPerSample]
  omega

/-- The store keeps its form when the work in progress ends. -/
theorem State.endWork_storeOk {s : State} (h : s.store.Ok) : s.endWork.store.Ok :=
  ⟨h.sine, h.slots, by simp, s.spareAfterWork_le.trans h.spare⟩

/-- The refcounts of the slots do not touch the store's form. -/
theorem State.moveSlotCounts_storeOk {s : State} (a b : Option Template) (h : s.store.Ok)
    (hj : s.store.job = none) : (s.moveSlotCounts a b).store.Ok := by
  unfold State.moveSlotCounts
  constructor
  · intro r hr
    simp only [Vector.getElem?_mapIdx, Option.map_eq_some_iff] at hr
    obtain ⟨r', hr', rfl⟩ := hr
    exact h.sine r' hr'
  · intro k r hk hr
    simp only [Vector.getElem?_mapIdx, Option.map_eq_some_iff] at hr
    obtain ⟨r', hr', rfl⟩ := hr
    exact (h.slots k r' hk hr').of_eq rfl rfl
  · simp [hj]
  · exact h.spare

/-- SHAPE_OPEN and SHAPE_ERASE keep the store's form. -/
theorem State.clearShape_storeOk {s : State} (state : SlotState) (hst : state ≠ .loaded) (slot : Byte)
    (h : s.store.Ok) (hj : s.store.job = none) : (s.clearShape state slot).store.Ok := by
  unfold State.clearShape
  split
  · simpa using h
  · split
    · simpa using h
    · rename_i hz
      split
      · simpa using h
      · have hz' : slot.toNat ≠ 0 := by
          intro e
          exact hz (BitVec.eq_of_toNat_eq (by simpa using e))
        simpa [State.setSlot] using h.setSlot slot.toNat hz' _ (Slot.cleared_ok _ _ hst) hj

/-- Every request keeps the store's form. -/
theorem State.handOver_storeOk {s : State} (i : Instr) (h : s.store.Ok) (hj : s.store.job = none) :
    (s.handOver i).store.Ok := by
  cases i
  case shapeOpen => exact State.clearShape_storeOk _ (by simp) _ h hj
  case shapeErase => exact State.clearShape_storeOk _ (by simp) _ h hj
  case shapeAppend tag slot points =>
    simp only [State.handOver]
    unfold State.takeShapeAppend
    split
    · simpa using h
    · rename_i record hr
      split
      · simpa using h
      · rename_i hz
        split
        · rename_i hf
          refine ⟨by simpa using h.sine, by simpa using h.slots, ?_, by simpa using h.spare⟩
          simp only [State.beginWork, Option.some.injEq, forall_eq', ShapeWork.fits]
          refine ⟨fun e => hz (BitVec.eq_of_toNat_eq (by simpa using e)), ?_⟩
          intro r' hr'
          rw [hr] at hr'
          cases hr'
          exact hf
        · simpa using h
  case shapeSum =>
    simp only [State.handOver]
    unfold State.takeShapeSum
    split
    · simpa using h
    · exact ⟨by simpa using h.sine, by simpa using h.slots, by simp [State.beginWork, ShapeWork.fits],
        by simpa using h.spare⟩
  case shapeCompare =>
    simp only [State.handOver]
    unfold State.takeShapeCompare
    split
    · simpa using h
    · exact ⟨by simpa using h.sine, by simpa using h.slots, by simp [State.beginWork, ShapeWork.fits],
        by simpa using h.spare⟩
  case templateDefine tag w =>
    simp only [State.handOver]
    unfold State.takeTemplateDefine
    dsimp only
    split
    · simpa using h
    · split
      · simpa using h
      · split
        · simpa using State.moveSlotCounts_storeOk _ _ h hj
        · simpa using h
  case templateDelete tag index =>
    simp only [State.handOver]
    unfold State.takeTemplateDelete
    dsimp only
    split
    · simpa using h
    · split
      · simpa using h
      · split
        · simpa using h
        · simpa using State.moveSlotCounts_storeOk _ _ h hj
  all_goals simpa [State.handOver] using h

/-- The taking of a frame keeps the store's form. -/
theorem State.takeFrame_storeOk {s : State} (k tag : Byte) (p : List Byte) (good : Bool) (h : s.store.Ok)
    (hj : s.store.job = none) : (s.takeFrame k tag p good).store.Ok := by
  unfold State.takeFrame
  dsimp only
  split
  · split
    · exact h
    · unfold State.takeParsed
      split
      · exact State.handOver_storeOk _ (by simpa using h) (by simpa using hj)
      · exact h
      · exact h
  · exact h

/-- The completion of link-side work keeps the store's form. -/
theorem State.completeWork_storeOk {s : State} (h : s.store.Ok) : s.completeWork.store.Ok := by
  have he : s.endWork.store.Ok := State.endWork_storeOk h
  unfold State.completeWork
  split
  · exact h
  · rename_i job hj
    split
    · rename_i slot points hw
      unfold State.completeAppend
      split
      · simpa using he
      · rename_i record hr
        have hfit := h.work job hj
        rw [hw] at hfit
        obtain ⟨hz, hf⟩ := hfit
        have hok := Slot.appended_ok record points (h.slots slot record hz hr) (hf record hr)
        simpa [State.setSlot] using he.setSlot slot hz _ hok (by simp)
    · simpa [State.completeSum] using he
    · unfold State.completeCompare
      dsimp only
      split
      · simpa using he
      · split
        · simpa using he
        · simpa using he

/-- The arbiter's share of a sample keeps the store's form. -/
theorem State.serveWork_storeOk {s : State} (h : s.store.Ok) : s.serveWork.store.Ok := by
  refine ⟨h.sine, h.slots, fun job hj => ?_, s.synth.leftover_le⟩
  obtain ⟨job', hj', rfl⟩ := Option.map_eq_some_iff.mp hj
  exact h.work job' hj'

/-- Receiving a byte keeps the store's form, with `State.LinkOk`. -/
theorem State.LinkOk.heard_storeOk {s t : State} (h : s.LinkOk) (hs : s.store.Ok) (ht : Heard s t) :
    t.store.Ok := by
  cases ht with
  | same => exact hs
  | stored rx hm hs' ht => simpa using hs
  | begun hs' hr => simpa using hs
  | discarded => simpa using hs
  | dropped => simpa using hs
  | taken k tag p g hs' hm =>
    have hr := h.unmarked hs' hm
    exact State.takeFrame_storeOk _ _ _ _ (by simpa using hs) (by simpa using h.noJob hr)

end Sys2Proof.Machine
end

