-- ==== Sys2Proof/Laws/ResultsOk.lean ====
section
/-! SUPPORT. The result queue keeps its bounds (`ResultQueue.Ok`) under each operation. -/

namespace Sys2Proof.Machine

/-- The empty result queue is within its bounds. -/
theorem ResultQueue.reset_ok : ResultQueue.reset.Ok := ⟨by decide, by decide⟩

/-- `State.handResult` keeps the result queue within its bounds. -/
theorem State.handResult_resultsOk {s : State} (body : ResultBody) (h : s.results.Ok)
    : (s.handResult body).results.Ok := by
  obtain ⟨h1, h2⟩ := h
  unfold State.handResult
  dsimp only
  split
  · rename_i hl
    simp only [State.latchIf_frame]
    constructor
    · simp [Config.resultCapacity] at *; omega
    · simp
  · simp only [State.latch_frame]
    constructor
    · exact h1
    · dsimp only; omega

/-- `State.endActive` keeps the result queue within its bounds. -/
theorem State.endActive_resultsOk {s : State} (r) (h : s.results.Ok) : (s.endActive r).results.Ok := by
  unfold State.endActive
  split
  · exact h
  · exact State.handResult_resultsOk _ (by simpa using h)

/-- `State.leaveEarly` keeps the result queue within its bounds. -/
theorem State.leaveEarly_resultsOk {s : State} (r run) (h : s.results.Ok)
    : (s.leaveEarly r run).results.Ok := by
  unfold State.leaveEarly
  simpa using State.endActive_resultsOk r h

/-- `State.leaveTimedOut` keeps the result queue within its bounds. -/
theorem State.leaveTimedOut_resultsOk {s : State} (run) (h : s.results.Ok)
    : (s.leaveTimedOut run).results.Ok := by
  have := State.endActive_resultsOk .aborted h
  unfold State.leaveTimedOut State.handTimedOut
  split
  · simpa using State.handResult_resultsOk _ this
  · simpa using this
  · simpa using this

/-- `State.expire` keeps the result queue within its bounds. -/
theorem State.expire_resultsOk {s : State} (h : s.results.Ok) : s.expire.results.Ok := by
  unfold State.expire
  split
  · simpa using State.leaveTimedOut_resultsOk .off (s := s.latch .triggerTimeout) (by simpa using h)
  · simpa using State.leaveTimedOut_resultsOk .stopping (s := s.latch .triggerTimeout) (by simpa using h)

/-- `State.completeStep` keeps the result queue within its bounds. -/
theorem State.completeStep_resultsOk {s : State} (h : s.results.Ok) : s.completeStep.results.Ok := by
  simpa [State.completeStep] using State.endActive_resultsOk .complete h

/-- `State.take` keeps the result queue within its bounds. -/
theorem State.take_resultsOk {s : State} (m : Moment) (h : s.results.Ok) : (s.take m).results.Ok := by
  cases m
  · unfold State.take State.qualify
    dsimp only
    split
    · exact h
    · split
      · split
        · exact h
        · simpa using h
      · exact h
  · exact State.expire_resultsOk h
  · exact State.completeStep_resultsOk h
  · unfold State.take State.takeTrip
    dsimp only
    split
    · exact h
    · exact State.leaveEarly_resultsOk _ _ (by simpa using h)
  · simpa [State.take, State.takeStop] using h
  · unfold State.take State.takeStart
    dsimp only
    split
    · have := State.endActive_resultsOk .handedOver h
      simpa [State.activate] using this
    · exact h
    · exact h
  · unfold State.take State.takeHandover
    dsimp only
    split
    · simpa using State.endActive_resultsOk .handedOver h
    · exact h
    · exact h

/-- `State.settle` keeps the result queue within its bounds. -/
theorem State.settle_resultsOk {s : State} (h : s.results.Ok) : s.settle.results.Ok := by
  have one {s : State} (h : s.results.Ok) : s.settleOne.results.Ok := by
    unfold State.settleOne
    split
    · exact h
    · exact State.take_resultsOk _ h
    · split
      · exact h
      · exact State.take_resultsOk _ h
  have all (n : Nat) : ∀ {s : State}, s.results.Ok → (State.settleMoments n s).results.Ok := by
    induction n with
    | zero => exact fun h => h
    | succ n ih => exact fun h => ih (one h)
  exact all _ h

/-- `State.takeForce` keeps the result queue within its bounds. -/
theorem State.takeForce_resultsOk {s : State} (a) (h : s.results.Ok) : (s.takeForce a).results.Ok := by
  unfold State.takeForce
  split
  · cases a <;> simp only [State.done_frame]
    · unfold State.forceDisable
      split
      all_goals first
        | exact State.leaveEarly_resultsOk _ _ h
        | simpa using h
    · unfold State.forceAbort
      split
      all_goals first
        | exact State.leaveEarly_resultsOk _ _ h
        | simpa using h
    · have := State.endActive_resultsOk .skipped h
      unfold State.forceSkip State.skipActive
      repeat' split
      all_goals first | exact h | simpa using this
  · simpa using h

/-- `State.handOver` keeps the result queue within its bounds. -/
theorem State.handOver_resultsOk {s : State} (i) (h : s.results.Ok) : (s.handOver i).results.Ok := by
  cases i <;> simp only [State.handOver]
  case runClear =>
    unfold State.takeRunClear
    dsimp only
    split
    · simpa using ResultQueue.reset_ok
    · simpa using h
  case runResume =>
    unfold State.takeRunResume
    split
    · simp only [State.doneWithState, State.done_frame]
      unfold State.afterResume
      split
      · exact State.completeStep_resultsOk (by simpa using h)
      · split
        · exact State.expire_resultsOk (by simpa using h)
        · split
          · simpa using h
          · simpa using h
    · simpa using h
  case runForceDisable => exact State.takeForce_resultsOk _ h
  case runForceAbort => exact State.takeForce_resultsOk _ h
  case runForceSkip => exact State.takeForce_resultsOk _ h
  case resultRead c =>
    unfold State.takeResultRead
    dsimp only
    split
    · simpa using h
    · obtain ⟨h1, h2⟩ := h
      simp only [State.done_frame]
      constructor <;> simp <;> omega
  all_goals simpa using h
end Sys2Proof.Machine
end

