-- ==== Sys2Proof/Laws/Settled.lean ====
section
/-! SUPPORT. A sample with nothing waiting before it is the production of the sample alone. -/

namespace Sys2Proof.Machine

/-- With no moment due none is taken. -/
theorem State.Settled.settleOne_eq {s : State} (h : s.Settled) : s.settleOne = s := by
  have : Moment.all.filter s.due = [] := by simp [h.noMoment]
  simp [State.settleOne, this]

/-- With nothing waiting, settling changes nothing. -/
theorem State.Settled.settle_eq {s : State} (h : s.Settled) : s.settle = s := by
  have hm : ∀ n, State.settleMoments n s = s := by
    intro n
    induction n with
    | zero => rfl
    | succ n ih => simp [State.settleMoments, h.settleOne_eq, ih]
  simp [State.settle, h.noRamp, hm]

/-- With nothing waiting, SAMPLE produces its sample and does nothing else. -/
theorem State.Settled.exec_sample {s : State} (h : s.Settled) (hr : s.link.inReset = false) (trig : Bool)
    (iA iB iC : Half) :
    exec (.sample trig iA iB iC) s = .next (s.produce trig (magnitudes iA iB iC)) := by
  simp [exec, execSample, hr, h.settle_eq, State.completeOverdue, h.noWork]

/-- With nothing waiting, no qualified change and no trip waits. -/
theorem State.Settled.noWaiting {s : State} (h : s.Settled) : s.moments.edge = none ∧ s.moments.trip = none := by
  have he := h.noMoment .edge
  have ht := h.noMoment .trip
  simp only [State.due, State.edgeDue, State.tripDue] at he ht
  exact ⟨by simpa using he, by simpa using ht⟩

end Sys2Proof.Machine
end

