-- ==== Sys2Proof/Laws/Settling.lean ====
section
/-! SUPPORT. Settling: every moment that is taken lowers a bound, so that nothing is due after settling; none of them
leaves a ramp at its length; and the order in which SAMPLE takes moments. -/

namespace Sys2Proof.Machine

/-! ## The bound -/

/-- How many of its own moments a run can still take, by its state alone: what each of them lowers. -/
def Sequencer.movesLeft (q : Sequencer) : Nat :=
  match q.run with
  | .off | .fault | .disabled => 0
  | .stopping => 1
  | .parked | .starved | .paused => 2
  | .armed | .waiting => 3
  | .active =>
    if q.closedMet then 4
    else if (q.startPhase = .none ∨ q.startPhase = .held) ∧ q.openBegun = false then 2 else 3

/-- What an edge, a trip and an expiry that wait add to that bound; an expiry may move the run on by one state. -/
def Moments.waiting (m : Moments) : Nat :=
  (if m.edge.isSome then 1 else 0) + (if m.trip.isSome then 1 else 0) + (if m.timeout then 2 else 0)

/-- A bound on the moments that can be taken one after another: every one taken lowers it. -/
def State.momentsLeft (s : State) : Nat := s.seq.movesLeft + s.moments.waiting

/-- The run's part of the bound is never above 4. -/
theorem Sequencer.movesLeft_le (q : Sequencer) : q.movesLeft ≤ 4 := by
  unfold Sequencer.movesLeft
  split <;> (try split) <;> (try split) <;> omega

/-- The bound is never above 8. -/
theorem State.momentsLeft_le (s : State) : s.momentsLeft ≤ 8 := by
  have := s.seq.movesLeft_le
  unfold State.momentsLeft Moments.waiting
  split <;> split <;> split <;> omega

/-- Where no new moment waits, the bound does not rise. -/
theorem Moments.waiting_mono {m m' : Moments} (he : m'.edge.isSome = true → m.edge.isSome = true)
    (ht : m'.trip.isSome = true → m.trip.isSome = true) (ho : m'.timeout = true → m.timeout = true) :
    m'.waiting ≤ m.waiting := by
  unfold Moments.waiting
  split <;> split <;> split <;> simp_all <;> split <;> omega

/-- A staging stays in the run state, and makes no moment wait. -/
theorem State.fillSlot_waiting (s : State) :
    s.fillSlot.seq.run = s.seq.run ∧ s.fillSlot.moments.waiting ≤ s.moments.waiting := by
  rcases s.fillSlot_cases with e | ⟨_, _, ⟨e, e', _⟩, _⟩
  · rw [e]; exact ⟨rfl, Nat.le_refl _⟩
  · rw [e, e']; exact ⟨rfl, Moments.waiting_mono (by simp) (by simp) (by simp)⟩

/-- An end marker taken leaves at most 2 moments to the run, and makes none wait. -/
theorem State.takeMarker_momentsLeft (option : EndOption) (s : State) :
    (s.takeMarker option).momentsLeft ≤ 2 + s.moments.waiting := by
  have bound (t : State) (hr : t.seq.movesLeft ≤ 2) (hm : t.moments.waiting ≤ s.moments.waiting) :
      t.momentsLeft ≤ 2 + s.moments.waiting := Nat.add_le_add hr hm
  unfold State.takeMarker
  split
  · exact bound _ (by simp [Sequencer.movesLeft]) (Moments.waiting_mono (by simp) (by simp) (by simp))
  · split
    · have h := State.fillSlot_waiting ((s.clearSlot.enterRun .parked).latch .runEnded)
      refine bound _ (by simp [Sequencer.movesLeft, h.1]) (Nat.le_trans h.2 ?_)
      exact Moments.waiting_mono (by simp) (by simp) (by simp)
    · exact bound _ (by simp [Sequencer.movesLeft]) (Moments.waiting_mono (by simp) (by simp) (by simp))

/-- A run that is left has at most the completion of a stop ramp before it, and no expiry waits. -/
theorem State.leave_momentsLeft (run : RunState) (hr : run = .off ∨ run = .fault ∨ run = .disabled ∨ run = .stopping)
    (s : State) : (s.discardExpansion.enterEnd run).momentsLeft ≤
      (if run = .stopping then 1 else 0) + Moments.waiting { s.moments with timeout := false } := by
  have hd := s.discardExpansion_changes
  refine Nat.add_le_add ?_ (Moments.waiting_mono ?_ ?_ ?_)
  · unfold State.enterEnd
    rcases hr with rfl | rfl | rfl | rfl <;> simp [Sequencer.movesLeft]
  all_goals
    unfold State.enterEnd
    rcases hr with rfl | rfl | rfl | rfl <;> simp [hd]

/-- What follows the end of a step leaves at most 3 moments to the run, and makes none wait. -/
theorem State.afterEnd_momentsLeft (s : State) (hr : s.seq.run = .active) (ha : s.seq.active = none) :
    s.afterEnd.momentsLeft ≤ 3 + s.moments.waiting := by
  have bound (t : State) (hr : t.seq.movesLeft ≤ 3) (hm : t.moments.waiting ≤ s.moments.waiting) :
      t.momentsLeft ≤ 3 + s.moments.waiting := Nat.add_le_add hr hm
  unfold State.afterEnd
  split
  · split
    · refine bound _ ?_ (Moments.waiting_mono ?_ ?_ ?_)
      · simp [Sequencer.movesLeft, hr, Sequencer.closedMet, ha]
        split <;> omega
      all_goals simp [Moments.fresh]
    · refine bound _ (by simp [Sequencer.movesLeft]) (Moments.waiting_mono ?_ ?_ ?_) <;> simp [Moments.fresh]
  · have := s.takeMarker_momentsLeft (by assumption)
    omega
  · refine bound _ (by simp [Sequencer.movesLeft]) (Moments.waiting_mono ?_ ?_ ?_) <;> simp

/-- A step at its start is not met (R115, R116). -/
theorem Duration.met_zero (d : Duration) : d.met 0 0 = false := by
  unfold Duration.met Duration.isOpen Duration.value travelDistance
  cases d with
  | samples v => simp
  | degrees v =>
    simp
    intro h
    omega

/-- A step that has just started leaves at most 2 moments to the run, and makes none wait. -/
theorem State.takeStart_momentsLeft (s : State) (copy : StepCopy) (hs : s.expander.slot = .step copy) :
    s.takeStart.momentsLeft ≤ 2 + s.moments.waiting := by
  have run (q : Sequencer) (hr : q.run = .active) (ha : q.active = some (s.newActive copy))
      (hp : q.startPhase = .none ∨ q.startPhase = .held) : q.movesLeft ≤ 2 := by
    simp [Sequencer.movesLeft, hr, Sequencer.closedMet, Sequencer.openBegun, ha, State.newActive, Duration.met_zero, hp]
  have stage (u : State) (hr : u.seq.run = .active) (ha : u.seq.active = some (s.newActive copy))
      (hp : u.seq.startPhase = .none) (hm : u.moments.waiting ≤ s.moments.waiting) :
      u.stage.seq.movesLeft ≤ 2 ∧ u.stage.moments.waiting ≤ s.moments.waiting := by
    unfold State.stage
    split
    · have act (t : State) (hr : t.seq.run = .active) (ha : t.seq.active = some (s.newActive copy)) :
          t.actOnStaged = t := by
        unfold State.actOnStaged
        simp [hr, Sequencer.openBegun, ha, State.newActive]
        split <;> rfl
      rcases u.fillSlot_cases with e | ⟨_, _, ⟨e, e', f⟩, _⟩
      · rw [e, act u hr ha]
        exact ⟨run _ hr ha (.inl hp), hm⟩
      · rw [act u.fillSlot (by rw [e]; exact hr) (by rw [e]; exact ha)]
        refine ⟨run _ (by rw [e]; exact hr) (by rw [e]; exact ha) ?_, Nat.le_trans ?_ hm⟩
        · rcases f with ⟨_, _, f, _⟩ | ⟨_, _, f, _⟩
          · exact .inr f
          · exact .inl f
        · rw [e']; exact Moments.waiting_mono (by simp) (by simp) (by simp)
    · exact ⟨run _ hr ha (.inl hp), hm⟩
  unfold State.takeStart
  simp only [hs]
  have := stage (s.activate copy) (by simp [State.activate]) (by simp [State.activate]) (by simp [State.activate])
    (Moments.waiting_mono (by simp [State.activate]) (by simp [State.activate]) (by simp [State.activate]))
  unfold State.momentsLeft
  simp only [State.latch_frame]
  omega

/-- A step that leaves its phase for another, in the same run with the same active step, raises no bound where it had
left HELD. -/
theorem Sequencer.movesLeft_phase (q : Sequencer) (phase : StartPhase) (count : Nat)
    (h1 : q.startPhase ≠ .none) (h2 : q.startPhase ≠ .held) :
    Sequencer.movesLeft { q with startPhase := phase, timeoutCount := count } ≤ q.movesLeft := by
  unfold Sequencer.movesLeft
  cases hr : q.run <;> simp only [Nat.le_refl]
  have hc : Sequencer.closedMet { q with run := .active, startPhase := phase, timeoutCount := count } =
      q.closedMet := rfl
  rw [hc]
  simp only [h1, h2, false_or, false_and, if_false]
  cases q.closedMet with
  | true => simp
  | false => simp; split <;> omega

/-! ## Taking moments -/

/-- Every moment that is due and taken lowers the bound. -/
theorem State.take_momentsLeft (m : Moment) (s : State) (h : s.due m = true) :
    (s.take m).momentsLeft < s.momentsLeft := by
  cases m <;> simp only [State.due, State.take] at h ⊢
  case edge =>
    have hq : s.qualify.moments.waiting < s.moments.waiting := by
      unfold State.qualify
      simp only [State.edgeDue, Option.isSome_iff_exists] at h
      obtain ⟨e, he⟩ := h
      simp only [he]
      split
      · split
        · cases hx : s.moments.timeout <;> cases hy : s.moments.trip <;>
            simp [State.takeEdge, Moments.waiting, he, hx, hy]
        · simp [Moments.waiting, he]
      · simp [Moments.waiting, he]
    have hr : s.qualify.seq.movesLeft ≤ s.seq.movesLeft := by
      unfold State.qualify
      split
      · exact Nat.le_refl _
      · split
        · split
          · rename_i he
            simp only [Bool.and_eq_true, beq_iff_eq] at he
            exact s.seq.movesLeft_phase _ 0 (by simp [he]) (by simp [he])
          · exact Nat.le_refl _
        · exact Nat.le_refl _
    unfold State.momentsLeft; omega
  case timeout =>
    simp only [State.timeoutDue, Bool.and_eq_true] at h
    have left (run : RunState) (hr : run = .off ∨ run = .fault ∨ run = .disabled ∨ run = .stopping) :
        ((s.latch .triggerTimeout).leaveTimedOut run).momentsLeft < s.momentsLeft := by
      have := State.leave_momentsLeft run hr ((s.latch .triggerTimeout).endActive .aborted).handTimedOut
      have hm : ((s.latch .triggerTimeout).endActive .aborted).handTimedOut.moments = s.moments := by simp
      rw [hm] at this
      refine Nat.lt_of_le_of_lt this ?_
      unfold State.momentsLeft
      have hw : Moments.waiting { s.moments with timeout := false } + 2 = s.moments.waiting := by
        simp [Moments.waiting, h]
      split <;> omega
    unfold State.expire
    split
    · exact left .off (.inl rfl)
    · exact left .stopping (.inr (.inr (.inr rfl)))
  case stepEnd =>
    simp only [State.stepEndDue, Bool.and_eq_true, beq_iff_eq] at h
    have := (s.endActive .complete).afterEnd_momentsLeft (by simp [h]) (by simp)
    unfold State.completeStep
    have h4 : s.seq.movesLeft = 4 := by simp [Sequencer.movesLeft, h]
    simp [State.momentsLeft, h4] at this ⊢
    omega
  case trip =>
    simp only [State.tripDue, Option.isSome_iff_exists] at h
    obtain ⟨p, hp⟩ := h
    have hr : s.takeTrip.seq.movesLeft = 0 := by
      simp [State.takeTrip, State.leaveEarly, State.enterEnd, hp, Sequencer.movesLeft]
    have hm : s.takeTrip.moments.waiting < s.moments.waiting := by
      have h1 : s.takeTrip.moments.trip = none := by
        simp [State.takeTrip, State.leaveEarly, State.enterEnd, hp]
      have h2 : s.takeTrip.moments.edge = s.moments.edge := by
        simp [State.takeTrip, State.leaveEarly, State.enterEnd, hp, State.discardExpansion_changes]
      have h3 : s.takeTrip.moments.timeout = false := by
        simp [State.takeTrip, State.leaveEarly, State.enterEnd, hp, State.discardExpansion_changes]
      unfold Moments.waiting
      rw [h1, h2, h3, hp]
      simp
      omega
    unfold State.momentsLeft; omega
  case stop =>
    simp only [State.stopDue, Bool.and_eq_true, beq_iff_eq] at h
    have hw : s.takeStop.moments.waiting ≤ s.moments.waiting :=
      Moments.waiting_mono (by simp [State.takeStop]) (by simp [State.takeStop]) (by simp [State.takeStop])
    have : s.takeStop.seq.movesLeft = 0 := by simp [State.takeStop, Sequencer.movesLeft]
    have h1 : s.seq.movesLeft = 1 := by simp [Sequencer.movesLeft, h]
    unfold State.momentsLeft; omega
  case start =>
    unfold State.startDue at h
    split at h
    · rename_i copy hs
      have := s.takeStart_momentsLeft copy hs
      simp only [Bool.and_eq_true] at h
      have h3 : 3 ≤ s.seq.movesLeft := by
        have hm : s.seq.startPhase ≠ .none ∧ s.seq.startPhase ≠ .held := by
          have := h.2
          unfold State.startMet at this
          cases hp : s.seq.startPhase <;> simp_all
        unfold Sequencer.movesLeft
        cases hr : s.seq.run <;> simp_all [RunState.evaluates]
        split <;> omega
      unfold State.momentsLeft at this ⊢; omega
    · cases h
    · cases h
  case handover =>
    unfold State.handoverDue at h
    split at h
    · rename_i option hs
      simp only [Bool.and_eq_true, beq_iff_eq] at h
      have := (s.endActive .handedOver).takeMarker_momentsLeft option
      have h3 : 3 ≤ s.seq.movesLeft := by
        simp [Sequencer.movesLeft, h]
        split <;> omega
      simp [State.takeHandover, State.momentsLeft, hs] at this ⊢
      omega
    · cases h
    · cases h

/-- One settling takes a due moment, with the next race's number where several are due, or finds none due. -/
theorem State.settleOne_cases (s : State) :
    (s.settleOne = s ∧ ∀ m, s.due m = false) ∨
    ∃ m races, s.due m = true ∧ s.settleOne = State.take { s with moments := { s.moments with races := races } } m := by
  unfold State.settleOne
  split
  · rename_i h
    refine .inl ⟨rfl, fun m => ?_⟩
    rw [List.filter_eq_nil_iff] at h
    have := h m (by cases m <;> decide)
    simpa using this
  · rename_i m h
    have hm : m ∈ Moment.all.filter s.due := by rw [h]; simp
    exact .inr ⟨m, s.moments.races, by simpa using (List.mem_filter.1 hm).2, rfl⟩
  · rename_i due hn h1
    have hne : Moment.all.filter s.due ≠ [] := fun h => hn h
    have hlt : Config.raceChoice s.moments.races % (Moment.all.filter s.due).length <
        (Moment.all.filter s.due).length :=
      Nat.mod_lt _ (List.length_pos_iff.2 hne)
    simp only [chooseMoment, List.getElem?_eq_getElem hlt]
    exact .inr ⟨_, s.moments.races + 1, (List.mem_filter.1 (List.getElem_mem hlt)).2, rfl⟩

/-- A race's number makes nothing due. -/
theorem State.due_races (s : State) (n : Nat) (m : Moment) :
    State.due { s with moments := { s.moments with races := n } } m = s.due m := by
  cases m <;> rfl

/-- One settling lowers the bound, unless nothing is due. -/
theorem State.settleOne_momentsLeft (s : State) :
    s.settleOne = s ∨ s.settleOne.momentsLeft < s.momentsLeft := by
  rcases s.settleOne_cases with h | ⟨m, n, hm, h⟩
  · exact .inl h.1
  · right
    rw [h]
    exact State.take_momentsLeft m { s with moments := { s.moments with races := n } }
      (by rw [State.due_races]; exact hm)

/-- With fuel for every moment that can be taken, more of it changes nothing. -/
theorem State.settleMoments_enough (n k : Nat) (s : State) (h : s.momentsLeft ≤ n) :
    State.settleMoments (n + k) s = State.settleMoments n s := by
  have still (k : Nat) (s : State) (h : s.settleOne = s) : State.settleMoments k s = s := by
    induction k with
    | zero => rfl
    | succ k ih => simp [State.settleMoments, h, ih]
  induction n generalizing s with
  | zero =>
    rcases s.settleOne_momentsLeft with e | e
    · rw [still _ _ e, still _ _ e]
    · omega
  | succ n ih =>
    rcases s.settleOne_momentsLeft with e | e
    · rw [still _ _ e, still _ _ e]
    · rw [show n + 1 + k = (n + k) + 1 by omega]
      simp only [State.settleMoments]
      exact ih _ (by omega)

/-- After settling, nothing is due: `mostMoments` is enough. -/
theorem State.settle_noMoment (s : State) (m : Moment) : s.settle.due m = false := by
  have none (n : Nat) (s : State) (h : s.momentsLeft ≤ n) : ∀ m, (State.settleMoments n s).due m = false := by
    induction n generalizing s with
    | zero =>
      rcases s.settleOne_cases with ⟨_, e⟩ | ⟨m, races, hm, _⟩
      · exact e
      · have := s.take_momentsLeft m hm; omega
    | succ n ih =>
      rcases s.settleOne_momentsLeft with e | e
      · rcases s.settleOne_cases with ⟨_, e'⟩ | ⟨m, races, hm, e'⟩
        · simp only [State.settleMoments, e]
          have still (k : Nat) : State.settleMoments k s = s := by
            induction k with
            | zero => rfl
            | succ k ih => simp [State.settleMoments, e, ih]
          rw [still]; exact e'
        · exfalso
          have := State.take_momentsLeft m { s with moments := { s.moments with races := races } }
            (by rw [State.due_races]; exact hm)
          rw [← e', e] at this
          exact Nat.lt_irrefl _ this
      · simp only [State.settleMoments]
        exact ih _ (by omega)
  exact none _ _ (Nat.le_trans (State.momentsLeft_le _) (by decide)) m

/-! ## Ramps -/

/-- No ramp has reached its length. -/
def Synth.Running (y : Synth) : Prop :=
  rampReached y.freqRamp = false ∧
  ∀ p, rampReached (y.phases.get p).primaryRamp = false ∧ rampReached (y.phases.get p).overlayRamp = false

/-- The completion of a ramp changes nothing exactly where it has not reached its length. -/
theorem rampCompleted_eq (value : Nat) (r : Option Ramp) :
    rampCompleted value r = (value, r) ↔ rampReached r = false := by
  cases r with
  | none => simp [rampCompleted, rampReached]
  | some r =>
    unfold rampCompleted rampReached
    cases h : r.reached <;> simp

/-- The completion of every ramp changes nothing exactly where none has reached its length. -/
theorem Synth.finishRamps_eq (y : Synth) : y.finishRamps = y ↔ y.Running := by
  have one (v : Nat) (r : Option Ramp) (h : rampReached r = false) : rampCompleted v r = (v, r) :=
    (rampCompleted_eq v r).2 h
  have two (v : Nat) (r : Option Ramp) (h : (rampCompleted v r).2 = r) : rampReached r = false := by
    cases r with
    | none => rfl
    | some r =>
      unfold rampCompleted at h
      cases hr : r.reached <;> simp_all [rampReached]
  constructor
  · intro h
    have hp : ∀ p, ((y.phases.map fun p => p.finishPrimary.finishOverlay).get p) = y.phases.get p := by
      intro p
      exact congrArg (fun z : Synth => z.phases.get p) h
    refine ⟨two y.tuning _ (congrArg Synth.freqRamp h), fun p => ?_⟩
    have := hp p
    have hm : (y.phases.map fun p => p.finishPrimary.finishOverlay).get p =
        (y.phases.get p).finishPrimary.finishOverlay := by
      cases p <;> rfl
    rw [hm] at this
    exact ⟨two (y.phases.get p).primary _ (congrArg SynthPhase.primaryRamp this),
      two (y.phases.get p).overlayAmp _ (congrArg SynthPhase.overlayRamp this)⟩
  · rintro ⟨hf, hp⟩
    have hq : ∀ p, (y.phases.get p).finishPrimary.finishOverlay = y.phases.get p := by
      intro p
      unfold SynthPhase.finishPrimary SynthPhase.finishOverlay
      simp [one _ _ (hp p).1, one _ _ (hp p).2]
    unfold Synth.finishRamps Synth.finishFrequency
    rw [one _ _ hf]
    have : y.phases.map (fun p => p.finishPrimary.finishOverlay) = y.phases := by
      have ha := hq .a; have hb := hq .b; have hc := hq .c
      simp only [PerPhase.get] at ha hb hc
      simp [PerPhase.map, ha, hb, hc]
    rw [this]

/-- A ramp that has just been set running has not reached its length. -/
theorem rampReached_toward (v w n : Nat) : rampReached (some (Ramp.toward v w n)) = false := by
  simp [rampReached, Ramp.reached, Ramp.toward]

/-- An entry to OFF, FAULT or DISABLED leaves every ramp idle (R23). -/
theorem State.enterIdle_running (run : RunState) (s : State) : (s.enterIdle run).synth.Running := by
  constructor
  · simp [Synth.quiet, rampReached]
  · intro p; cases p <;> simp [Synth.quiet, PerPhase.map, PerPhase.get, SynthPhase.quiet, rampReached]

/-- The entry to STOPPING sets ramps running (R22). -/
theorem State.enterStopping_running {s : State} (h : s.synth.Running) : s.enterStopping.synth.Running := by
  refine ⟨h.1, fun p => ?_⟩
  have : (s.enterStopping.synth.phases.get p) = (s.synth.phases.get p).stop s.setup.stopRamp := by cases p <;> rfl
  rw [this]
  unfold SynthPhase.stop
  split
  · exact ⟨rfl, rfl⟩
  · exact ⟨rampReached_toward _ _ _, rampReached_toward _ _ _⟩

/-- An end marker taken leaves no ramp at its length. -/
theorem State.takeMarker_running {s : State} (option : EndOption) (h : s.synth.Running) :
    (s.takeMarker option).synth.Running := by
  unfold State.takeMarker
  split
  · exact State.enterIdle_running .off s.clearSlot
  · split
    · simpa using h
    · exact State.enterStopping_running (s := s.clearSlot) h

/-- A staging event leaves no ramp at its length. -/
theorem State.stage_running {s : State} (h : s.synth.Running) : s.stage.synth.Running := by
  unfold State.stage
  split
  · unfold State.actOnStaged
    have hf : s.fillSlot.synth.Running := by simpa using h
    (repeat' split) <;> first | exact hf | exact State.takeMarker_running _ hf
  · exact h

/-- A run that is left leaves no ramp at its length. -/
theorem State.leave_running {s : State} (run : RunState) (h : s.synth.Running) :
    (s.discardExpansion.enterEnd run).synth.Running := by
  unfold State.enterEnd
  split
  · exact State.enterStopping_running (by simpa using h)
  · exact State.enterIdle_running run _

/-- A step start sets ramps running (R19). -/
theorem Synth.startStep_running (y : Synth) (t : Template) : (y.startStep t).Running := by
  refine ⟨rampReached_toward _ _ _, fun p => ?_⟩
  have : (y.startStep t).phases.get p = (y.phases.get p).startStep t.levelRamp (t.phases.get p) := by cases p <;> rfl
  rw [this]
  refine ⟨rampReached_toward _ _ _, ?_⟩
  unfold SynthPhase.startStep
  cases (t.phases.get p).overlay with
  | none => rfl
  | some o => exact rampReached_toward _ _ _

/-- A moment that is taken leaves no ramp at its length. -/
theorem State.take_running {s : State} (m : Moment) (h : s.synth.Running) : (s.take m).synth.Running := by
  cases m <;> simp only [State.take]
  · simpa using h
  · unfold State.expire State.leaveTimedOut
    split
    · simpa using State.leave_running (s := ((s.latch .triggerTimeout).endActive .aborted).handTimedOut) .off
        (by simpa using h)
    · exact State.leave_running .stopping (by simpa using h)
  · unfold State.completeStep State.afterEnd
    (repeat' split) <;> first | (simpa using h) | exact State.takeMarker_running _ (by simpa using h)
  · unfold State.takeTrip
    split
    · exact h
    · exact State.leave_running .fault (by simpa using h)
  · exact State.enterIdle_running .off s
  · unfold State.takeStart
    split
    · rename_i copy _
      have : (s.activate copy).synth.Running := Synth.startStep_running _ _
      simpa using State.stage_running this
    · exact h
    · exact h
  · unfold State.takeHandover
    split
    · exact State.takeMarker_running _ (by simpa using h)
    · exact h
    · exact h

/-! ## SAMPLE takes what is due -/

/-- Settling with no ramp at its length. -/
theorem State.settle_of_running {s : State} (h : s.synth.Running) : s.settle = State.settleMoments mostMoments s := by
  unfold State.settle
  rw [s.synth.finishRamps_eq.2 h]

/-- The settling after a first one. -/
theorem State.settle_settleOne {s : State} (h : s.synth.Running) (h1 : s.settleOne.synth.Running)
    (hm : s.settleOne.momentsLeft ≤ 8) : s.settle = s.settleOne.settle := by
  rw [State.settle_of_running h, State.settle_of_running h1]
  show State.settleMoments 11 s.settleOne = State.settleMoments (11 + 1) s.settleOne
  rw [State.settleMoments_enough 11 1 _ (by omega)]

/-- What every command that takes a moment does, where the moment is due. -/
theorem Moment.exec_command (m : Moment) (s : State) (h : s.due m = true) : exec m.command s = .next (s.take m) := by
  cases m <;>
    simp [Moment.command, exec, execQualifiedEdge, execTriggerTimeout, execStepEnd, execTrip, execStopRampComplete,
      execStepStart, execEndMarkerHandover, State.takeIfDue, h]

end Sys2Proof.Machine
end

