-- ==== Sys2Proof/Laws/SlotOk.lean ====
section
/-! SUPPORT. ARMED holds a staged step and STARVED an empty slot (`State.SlotOk`) under each operation. -/

namespace Sys2Proof.Machine

/-- `State.SlotOk` depends on the run state and the slot alone. -/
theorem State.SlotOk.of_eq {s t : State} (h : s.SlotOk) (hr : t.seq.run = s.seq.run)
    (he : t.expander.slot = s.expander.slot) : t.SlotOk := by
  obtain ⟨h1, h2⟩ := h
  constructor <;> simp_all

/-- Outside ARMED and STARVED `State.SlotOk` asks nothing. -/
theorem State.SlotOk.of_run {s : State} (h1 : s.seq.run ≠ .armed) (h2 : s.seq.run ≠ .starved) : s.SlotOk :=
  ⟨fun e => absurd e h1, fun e => absurd e h2⟩

/-- Latching a flag keeps `State.SlotOk`. -/
theorem State.latch_slotOk {s : State} (n : Notice) (h : s.SlotOk) : (s.latch n).SlotOk := h.of_eq (by simp) (by simp)

/-- A staging leaves the run state. -/
theorem State.fillSlot_run (s : State) : s.fillSlot.seq.run = s.seq.run := by
  rcases s.fillSlot_cases with e | ⟨-, -, ⟨hseq, -⟩, -⟩
  · rw [e]
  · rw [hseq]

/-- An end marker that is taken leads to OFF, PARKED or STOPPING. -/
theorem State.takeMarker_slotOk (o : EndOption) (s : State) : (s.takeMarker o).SlotOk := by
  unfold State.takeMarker
  (repeat' split) <;> apply State.SlotOk.of_run <;> simp [State.fillSlot_run]

/-- What is staged is acted on: from ARMED only with an item in the slot. -/
theorem State.actOnStaged_slotOk {s : State} (h : s.seq.run = .armed → s.expander.slot ≠ .empty) :
    s.actOnStaged.SlotOk := by
  unfold State.actOnStaged
  split
  · rename_i he
    exact ⟨fun e => absurd he (h e), fun _ => he⟩
  · rename_i copy hs
    (repeat' split) <;> constructor <;> simp_all [Staged.isStep]
  · split <;> first
      | exact State.takeMarker_slotOk _ _
      | exact State.SlotOk.of_run (by simp [*]) (by simp [*])

/-- `State.stage` keeps `State.SlotOk`. -/
theorem State.stage_slotOk {s : State} (h : s.SlotOk) : s.stage.SlotOk := by
  unfold State.stage
  split
  · rename_i he
    refine State.actOnStaged_slotOk fun hr => ?_
    have := h.armed (s.fillSlot_run ▸ hr)
    simp [he, Staged.isStep] at this
  · exact h

/-- The item acted on after a step has ended leaves `State.SlotOk`. -/
theorem State.afterEnd_slotOk {s : State} (hr : s.seq.run = .active) : s.afterEnd.SlotOk := by
  unfold State.afterEnd
  (repeat' split) <;> first
    | exact State.takeMarker_slotOk _ _
    | (constructor <;> simp_all)

/-- A run that is left is not ARMED or STARVED any more. -/
theorem State.enterEnd_slotOk {run : RunState} (s : State) (h1 : run ≠ .armed) (h2 : run ≠ .starved) :
    (s.enterEnd run).SlotOk := by
  unfold State.enterEnd
  split <;> apply State.SlotOk.of_run <;> simp_all

/-- `State.expire` leaves `State.SlotOk`. -/
theorem State.expire_slotOk (s : State) : s.expire.SlotOk := by
  unfold State.expire
  split
  · exact State.latch_slotOk _ (State.enterEnd_slotOk _ (by simp) (by simp))
  · exact State.enterEnd_slotOk _ (by simp) (by simp)

/-- `State.take` keeps `State.SlotOk`. -/
theorem State.take_slotOk {s : State} (m : Moment) (h : s.SlotOk) (hd : s.due m = true) : (s.take m).SlotOk := by
  cases m <;> unfold State.take <;> dsimp only
  · refine h.of_eq ?_ (by simp)
    unfold State.qualify State.takeEdge
    dsimp only
    (repeat' split) <;> simp
  · exact State.expire_slotOk s
  · refine State.afterEnd_slotOk ?_
    simp only [State.due, State.stepEndDue, Bool.and_eq_true, beq_iff_eq] at hd
    simpa using hd.1
  · unfold State.takeTrip
    split
    · exact h
    · exact State.enterEnd_slotOk _ (by simp) (by simp)
  · exact State.SlotOk.of_run (by simp [State.takeStop]) (by simp [State.takeStop])
  · unfold State.takeStart
    split
    · exact State.latch_slotOk _ (State.stage_slotOk (State.SlotOk.of_run (by simp [State.activate])
        (by simp [State.activate])))
    · exact h
    · exact h
  · unfold State.takeHandover
    split
    · exact State.takeMarker_slotOk _ _
    · exact h
    · exact h

/-- `State.settle` keeps `State.SlotOk`. -/
theorem State.settle_slotOk {s : State} (h : s.SlotOk) : s.settle.SlotOk := by
  have hdue (s : State) (m : Moment) (hm : m ∈ Moment.all.filter s.due) : s.due m = true := (List.mem_filter.mp hm).2
  have one {s : State} (h : s.SlotOk) : s.settleOne.SlotOk := by
    unfold State.settleOne
    split
    · exact h
    · rename_i m hm
      exact State.take_slotOk m h (hdue s m (by rw [hm]; simp))
    · split
      · exact h
      · rename_i m hm
        refine State.take_slotOk m (h.of_eq rfl rfl) ?_
        have := hdue s m (List.mem_of_getElem? hm)
        revert this
        cases m <;> exact id
  have all (n : Nat) : ∀ {s : State}, s.SlotOk → (State.settleMoments n s).SlotOk := by
    induction n with
    | zero => exact fun h => h
    | succ n ih => exact fun h => ih (one h)
  exact all _ (h.of_eq rfl rfl)

/-- `State.produce` keeps `State.SlotOk`. -/
theorem State.produce_slotOk {s : State} (trig : Bool) (currents : PerPhase Nat) (h : s.SlotOk) :
    (s.produce trig currents).SlotOk :=
  h.of_eq (State.produce_seq trig currents s).1 (by simp)

/-! ## The entry to ARMED (R105, R106) -/

/-- A defined phrase's expansion begins with a defined template (R66, R73). -/
theorem State.expansion_starts {s : State} (h : s.RefsOk) {index : Nat} {e : PhraseEntry}
    (he : s.phrases[index]? = some (some e)) :
    ∃ t rest x, s.expansion index = t :: rest ∧ s.library[t]? = some (some x) := by
  have walk (fuel : Nat) : ∀ (i : Nat) (e : PhraseEntry) (found : List Nat), s.phrases[i]? = some (some e) →
      ∃ t rest x, walkChain s.phrases (fuel + 1) i found = t :: rest ∧ s.library[t]? = some (some x) := by
    induction fuel with
    | zero =>
      intro i e found he
      obtain ⟨x, hx⟩ := (h.dictionary i e he).template
      unfold walkChain
      simp only [he, Option.join_some]
      split
      · exact ⟨_, _, x, rfl, hx⟩
      · exact ⟨_, _, x, rfl, hx⟩
    | succ fuel ih =>
      intro i e found he
      obtain ⟨x, hx⟩ := (h.dictionary i e he).template
      unfold walkChain
      simp only [he, Option.join_some]
      split
      · exact ⟨_, _, x, rfl, hx⟩
      · rename_i q hq
        obtain ⟨-, before, hb, -⟩ := (h.dictionary i e he).chained q hq
        exact ih q before _ hb
  exact walk 127 index e [] he

/-- A staging from an idle expander with a cue that is not SPENT fills the slot, what the cues name being defined
(R76 to R79). -/
theorem State.fillSlot_fills {s : State} (h : s.RefsOk) (hst : s.seq.run.stages = true)
    (he : s.expander.slot = .empty) (hx : s.expander.context = none) (hk : s.expander.stack = [])
    (hp : pendingCount s.queue.cues ≠ 0) : s.fillSlot.expander.slot ≠ .empty := by
  obtain ⟨c, hc⟩ : ∃ c, oldestLive s.queue.cues = some c := by
    obtain ⟨c, hm, hcs⟩ := List.countP_pos_iff.mp (Nat.pos_of_ne_zero hp)
    cases hf : oldestLive s.queue.cues with
    | some c => exact ⟨c, rfl⟩
    | none =>
      simp only [oldestLive, List.find?_eq_none] at hf
      exact absurd hcs (by simpa using hf c hm)
  have hmem : c ∈ s.queue.cues := List.mem_of_find?_eq_some hc
  unfold State.fillSlot
  rw [if_pos (by simp [hst, he]), hx]
  simp only [hc]
  cases hb : c.body with
  | endRun o => simp
  | template index rep duration start =>
    obtain ⟨e, hl⟩ := h.cueTemplates c hmem index (by simp [hb, CueBody.onTemplate])
    simp [State.stageElement, State.template?, hl]
  | phrase index rep =>
    obtain ⟨e, hl⟩ := h.cuePhrases c hmem index (by simp [hb, CueBody.onPhrase])
    obtain ⟨t, rest, x, hwalk, hlib⟩ := State.expansion_starts h hl
    simp only [State.stageElement, hk, List.isEmpty_nil, beq_self_eq_true, Bool.and_self, if_true, hwalk,
      State.template?, hlib, Option.join_some]
    split <;> simp

/-- The entry to ARMED holds a staged step, or the run is OFF again (R105, R106). -/
theorem State.armRun_slotOk {s : State} (h : s.RefsOk) (hrun : s.RunOk) (hr : s.seq.run = .off)
    (hp : pendingCount s.queue.cues ≠ 0) : s.armRun.SlotOk := by
  obtain ⟨he, hx, hk⟩ := hrun.idle (by simp [hr, RunState.stages])
  unfold State.armRun State.stage
  rw [if_pos (by simpa using he)]
  refine State.actOnStaged_slotOk fun _ => ?_
  exact State.fillSlot_fills (h.of_eq (by simp) (by simp) (by simp) (by simp)) (by simp [RunState.stages])
    (by simpa using he) (by simpa using hx) (by simpa using hk) (by simpa using hp)

/-! ## Requests -/

/-- `State.answer` keeps `State.SlotOk`. -/
theorem State.answer_slotOk {s : State} (o : ReplyOutcome) (d : Detail) (p : List Byte) (h : s.SlotOk) :
    (s.answer o d p).SlotOk :=
  h.of_eq (by simp) (by simp)

/-- `State.takeRunStart` keeps `State.SlotOk`. -/
theorem State.takeRunStart_slotOk {s : State} (hs : s.RefsOk) (hrun : s.RunOk) (h : s.SlotOk) :
    s.takeRunStart.SlotOk := by
  unfold State.takeRunStart
  split <;> try exact State.answer_slotOk _ _ _ h
  · rename_i hr
    split
    · exact State.answer_slotOk _ _ _ h
    · rename_i hp
      exact State.answer_slotOk _ _ _ (State.armRun_slotOk hs hrun hr hp)
  · split
    · exact State.answer_slotOk _ _ _ h
    · refine State.answer_slotOk _ _ _ ?_
      unfold State.leaveParked
      split
      · exact h
      · exact State.SlotOk.of_run (by simp) (by simp)
      · exact State.takeMarker_slotOk _ _

/-- `State.takeRunResume` keeps `State.SlotOk`. -/
theorem State.takeRunResume_slotOk {s : State} (hrun : s.RunOk) (h : s.SlotOk) : s.takeRunResume.SlotOk := by
  unfold State.takeRunResume
  split
  · rename_i hr
    refine State.answer_slotOk _ _ _ ?_
    have hm := hrun.remembered
    rw [hr] at hm
    obtain ⟨r, hm⟩ := Option.isSome_iff_exists.mp (hm.trans rfl)
    have hback : (s.enterRun s.seq.resumed).seq.run = r.run := by simp [Sequencer.resumed, hm]
    have hna : (s.enterRun s.seq.resumed).seq.run ≠ .armed := by rw [hback]; cases r <;> simp [Remembered.run]
    generalize s.enterRun s.seq.resumed = u at hna
    unfold State.afterResume
    split
    · rename_i hc
      simp only [Bool.and_eq_true, decide_eq_true_eq] at hc
      exact State.afterEnd_slotOk (by simpa using hc.1)
    · split
      · exact State.expire_slotOk u
      · split
        · exact State.actOnStaged_slotOk fun e => absurd e hna
        · rename_i hns
          exact State.SlotOk.of_run (by rwa [u.releaseHeld_frame'.1]) (by rwa [u.releaseHeld_frame'.1])
  · exact State.answer_slotOk _ _ _ h

/-- `State.takeForce` keeps `State.SlotOk`. -/
theorem State.takeForce_slotOk {s : State} (a : Action) (h : s.SlotOk) : (s.takeForce a).SlotOk := by
  have early (reason : EndReason) (run : RunState) (h1 : run ≠ .armed) (h2 : run ≠ .starved) :
      (s.leaveEarly reason run).SlotOk := State.enterEnd_slotOk _ h1 h2
  unfold State.takeForce
  split
  · rename_i hv
    refine State.answer_slotOk _ _ _ ?_
    cases a <;> dsimp only
    · unfold State.forceDisable
      split <;> first
        | exact h
        | exact early _ _ (by simp) (by simp)
        | exact State.SlotOk.of_run (by simp) (by simp)
    · unfold State.forceAbort
      split <;> first
        | exact h
        | exact early _ _ (by simp) (by simp)
        | exact State.latch_slotOk _ (early _ _ (by simp) (by simp))
    · unfold State.forceSkip State.skipActive
      split
      · rename_i hr
        (repeat' split) <;> first
          | exact h
          | exact State.afterEnd_slotOk (by simpa using hr)
          | exact State.SlotOk.of_run (by simp [hr]) (by simp [hr])
      · exact h.of_eq rfl rfl
  · exact State.answer_slotOk _ _ _ h

/-- `State.takeCueAdd` keeps `State.SlotOk`. -/
theorem State.takeCueAdd_slotOk {s : State} (cues : List CueWire) (h : s.SlotOk) : (s.takeCueAdd cues).SlotOk := by
  have hj (b : List CueBody) : (s.joinCues b).SlotOk := by
    unfold State.joinCues
    exact State.stage_slotOk (h.of_eq (by simp) (by simp))
  unfold State.takeCueAdd
  dsimp only
  (repeat' split) <;> first
    | exact State.answer_slotOk _ _ _ h
    | exact State.answer_slotOk _ _ _ (hj _)

/-- `State.takeCueRewind` keeps `State.SlotOk`. -/
theorem State.takeCueRewind_slotOk {s : State} (h : s.SlotOk) : s.takeCueRewind.SlotOk := by
  unfold State.takeCueRewind
  dsimp only
  split
  · exact State.answer_slotOk _ _ _ h
  · rename_i hr
    split
    · exact State.answer_slotOk _ _ _ h
    · have hr : s.seq.run = .off ∨ s.seq.run = .parked := by tauto
      exact State.answer_slotOk _ _ _ (State.stage_slotOk (State.SlotOk.of_run
        (by rcases hr with e | e <;> simp [e]) (by rcases hr with e | e <;> simp [e])))

/-- `State.takeRunClear` keeps `State.SlotOk`. -/
theorem State.takeRunClear_slotOk {s : State} (h : s.SlotOk) : s.takeRunClear.SlotOk := by
  unfold State.takeRunClear
  dsimp only
  split
  · rename_i hr
    exact State.answer_slotOk _ _ _ (State.SlotOk.of_run
      (by rcases hr with e | e | e <;> simp [e]) (by rcases hr with e | e | e <;> simp [e]))
  · exact State.answer_slotOk _ _ _ h

/-- `State.handOver` keeps `State.SlotOk`. -/
theorem State.handOver_slotOk {s : State} (i : Instr) (hs : s.RefsOk) (hrun : s.RunOk) (h : s.SlotOk) :
    (s.handOver i).SlotOk := by
  cases i <;> simp only [State.handOver]
  all_goals first
    | exact h
    | exact h.of_eq (by simp) (by simp)
    | exact State.takeCueAdd_slotOk _ h
    | exact State.takeCueRewind_slotOk h
    | exact State.takeRunClear_slotOk h
    | exact State.takeRunStart_slotOk hs hrun h
    | exact State.takeRunResume_slotOk hrun h
    | exact State.takeForce_slotOk _ h
    | skip
  case runPause =>
    unfold State.takeRunPause
    split
    · exact State.answer_slotOk _ _ _ h
    · exact State.answer_slotOk _ _ _ (State.SlotOk.of_run (by simp) (by simp))
  case faultClear =>
    unfold State.takeFaultClear
    split
    · exact State.answer_slotOk _ _ _ (State.SlotOk.of_run (by simp) (by simp))
    · exact State.answer_slotOk _ _ _ h
  case outputEnable =>
    unfold State.takeOutputEnable
    split
    · exact State.answer_slotOk _ _ _ (State.SlotOk.of_run (by simp) (by simp))
    · exact State.answer_slotOk _ _ _ h

/-- The taking of a frame keeps `State.SlotOk`. -/
theorem State.takeFrame_slotOk {s : State} (kind tag : Byte) (payload : List Byte) (good : Bool) (hs : s.RefsOk)
    (hrun : s.RunOk) (h : s.SlotOk) : (s.takeFrame kind tag payload good).SlotOk := by
  have ho : (s.openRequest kind tag).SlotOk := h.of_eq (by simp) (by simp)
  unfold State.takeFrame State.takeParsed
  dsimp only
  (repeat' split) <;> first
    | exact State.answer_slotOk _ _ _ ho
    | exact State.handOver_slotOk _ (hs.of_eq (by simp) (by simp) (by simp) (by simp))
        (hrun.of_eq (by simp) (by simp) (by simp) (by simp)) ho

/-- The state in which a full reset begins meets `State.SlotOk`. -/
theorem State.beginReset_slotOk (s : State) : s.beginReset.SlotOk :=
  State.SlotOk.of_run (by simp [State.beginReset, State.reset, Sequencer.reset])
    (by simp [State.beginReset, State.reset, Sequencer.reset])

/-- Receiving a byte keeps `State.SlotOk`. -/
theorem State.SlotOk.heard {s t : State} (hr : s.RefsOk) (hrun : s.RunOk) (h : s.SlotOk) (ht : Heard s t) :
    t.SlotOk := by
  have hs (rx : Receiver) : (s.setRx rx).SlotOk := h.of_eq (by simp) (by simp)
  cases ht with
  | same => exact h
  | stored rx => exact hs rx
  | begun => exact h.of_eq (by simp) (by simp)
  | discarded => exact h.of_eq (by simp) (by simp)
  | dropped => exact hs _
  | taken =>
    exact State.takeFrame_slotOk _ _ _ _ (hr.of_eq (by simp) (by simp) (by simp) (by simp))
      (hrun.of_eq (by simp) (by simp) (by simp) (by simp)) (hs _)

end Sys2Proof.Machine
end

