-- ==== Sys2Proof/Tests/Slice0.lean ====
section
/-! SUPPORT. Our own tests: the manual's worked arithmetic and worked sequences on single commands, the refusals of
the well-formedness check, and for every statement with hypotheses a state and operands that meet them. The
expected values are the manual's (the section stands beside each test) or computed by hand from its rules. -/

namespace Sys2Proof.Tests
open Sys2Proof.Machine

/-! ## Small states -/

/-- The state after commands, one after another; the state given where one of them does not answer a next state. -/
def after (cs : List Instr) (s : State) : State :=
  match execAll cs s with
  | .next t => t
  | .fault _ => s
  | .refused _ => s

/-- Outcome, detail and payload of the reply of the request in progress. -/
def replyOf (s : State) : Option (ReplyOutcome × Detail × List Byte) :=
  s.link.reply.map fun r => (r.outcome, r.detail, r.payload)

/-- The state with another run state. -/
def inRun (run : RunState) (s : State) : State := { s with seq := { s.seq with run := run } }

/-- The state with another start phase. -/
def inPhase (phase : StartPhase) (s : State) : State := { s with seq := { s.seq with startPhase := phase } }

/-- The state in a pause from a run state. -/
def pausedFrom (m : Remembered) (s : State) : State :=
  { s with seq := { s.seq with run := .paused, remembered := some m } }

/-- The state with an item in the staging slot. -/
def holding (item : Staged) (s : State) : State := { s with expander := { s.expander with slot := item } }

/-- A phase record of slot `slot` at 100 %, without an overlay. -/
def fullLevel (slot : Nat) : PhaseRecord := { amplitude := 10000, offset := 0, slot := slot, overlay := none }

/-- A template at 50 Hz without ramps, its three phases on slot 0. -/
def plain (start : StartCond) (duration : Duration) : Template :=
  { start := start, duration := duration, levelRamp := 0, frequency := 5000, freqRamp := 0,
    phases := PerPhase.same (fullLevel 0) }

/-- A step copied from template 5 for repetition 0, element 0 of cue 0. -/
def copyOf (t : Template) : StepCopy :=
  { content := t, source := { serial := 0#16, rep := 0, element := 0, template := 5 } }

/-- The state with an active step that started at sample 1, with its two counts. -/
def playing (duration : Duration) (elapsed travel : Nat) (begun : Bool) (s : State) : State :=
  let record : ActiveStep :=
    { copy := copyOf (plain .follow duration), startSample := 1#64, startAngle := 0, elapsed := elapsed,
      travel := travel, capture := PerPhase.same { peak := 0, minGain := 32768, clip := false }, begun := begun }
  { s with seq := { s.seq with active := some record } }

/-- The state with a template defined. -/
def withTemplate (index refcount : Nat) (s : State) : State :=
  let entry : TemplateEntry := { template := plain .follow (.samples 100), refcount := refcount }
  { s with library := s.library.setIfInBounds index (some entry) }

/-- The state with a phrase defined. -/
def withPhrase (index : Nat) (e : PhraseEntry) (s : State) : State :=
  { s with phrases := s.phrases.setIfInBounds index (some e) }

/-- The state with a slot's record replaced. -/
def withShape (index : Nat) (slot : Slot) (s : State) : State :=
  { s with store := { s.store with slots := s.store.slots.setIfInBounds index slot } }

/-- The state with accesses of the present sample's period left for link-side work. -/
def withSpare (spare : Nat) (s : State) : State := { s with store := { s.store with spare := spare } }

/-- The state with cues held. -/
def withCues (cues : List Cue) (s : State) : State := { s with queue := { s.queue with cues := cues } }

/-- The state with a link-side work in progress, of which `served` accesses have been served. -/
def working (kind tag : Byte) (work : ShapeWork) (served : Nat) (s : State) : State :=
  State.inProgress kind tag { s with store := { s.store with job := some ⟨work, served, 0⟩ } }

/-- A PENDING cue of template 5 or phrase 0, or an END cue. -/
def cueOf (body : CueBody) : Cue := { body := body, serial := 0#16, status := .pending }

/-- A cue as it is carried, without overrides. -/
def carried (kind index rep : Byte) : CueWire :=
  { kind := kind, index := index, rep := rep, duration := none, start := none }

/-! ## Arithmetic (R3, R6, R7, R9, R11, R13, R14, R15, R18, R42, R139) -/

/-- R3's table. -/
theorem test_tuning_words : [4000, 5000, 6000, 45000].map tuningOf = [1717987, 2147484, 2576980, 19327353] := by
  decide

/-- R6's table. -/
theorem test_phase_units : [0, 900, 1200, 1800, 2400].map phaseOf =
    [0#32, 1073741824#32, 1431655765#32, 2147483648#32, 2863311531#32] := by decide

/-- Section 6.11: the start angle at θ = 1,074,294,968 is 900. -/
theorem test_angle_floor : angleOf 1074294968#32 = 900 := by decide

/-- Points named in section 1.10, the crest and the trough. -/
theorem test_sine_points : [50, 51, 253, 254, 256, 512, 768].map sinePoint =
    [9896, 10087, 32761, 32765, 32767, 0, -32767] := by decide

/-- Section 1.10: the primary lookup, and the overlay lookup at five times the output phase. -/
theorem test_lookups : Store.reset.lookup 0 0x0CB00000#32 = 10039 ∧
    Store.reset.lookup 0 (Overlay.phaseAt { slot := 0, harmonic := 5, shift := 0#32 } 0x0CB00000#32) = 32764 := by
  decide

/-- The weighted sum of section 1.10. -/
theorem test_weighted_sum :
    SynthPhase.sum { SynthPhase.idle 0#32 with primary := 7000, overlay := some { slot := 0, harmonic := 5, shift := 0#32 },
                                               overlayAmp := 500 } Store.reset 0x0CB00000#32 = 86655000 := by decide

/-- Sections 1.10 and 7.8: the code at gains 30,720, 32,768 and 8,192. -/
theorem test_codes : [30720, 32768, 8192].map (fun g => scaleCode 86655000 g 20000) = [4959, 5289, 1322] := by decide

/-- Section 1.10, three checks: the crest is NOM_PEAK, −0.5 rounds to −1, and 54,000 saturates. -/
theorem test_scaling_checks : scaleCode 327670000 32768 20000 = 20000 ∧ scaleCode (-5000) 32768 32767 = -1 ∧
    scaleCode 589806000 32768 30000 = 54000 ∧ saturate 54000 = 32767 ∧ clips 54000 = true := by decide

/-- Section 1.11: the dip and its recovery. -/
theorem test_dip_ramp :
    [1, 2, 3].map (fun n => (rampSamples n (10000, some (Ramp.toward 10000 0 5))).1) = [8000, 6000, 4000] ∧
    [1, 2, 3, 4].map (fun n => (rampSamples n (4000, some (Ramp.toward 4000 10000 4))).1) =
      [5500, 7000, 8500, 10000] := by decide

/-- Section 1.11: truncation toward zero on a falling ramp. -/
theorem test_falling_ramp :
    [1, 2, 3].map (fun n => (rampSamples n (10000, some (Ramp.toward 10000 3333 3))).1) = [7778, 5556, 3333] := by
  decide

/-- R42: from FFFF hex, the two bytes of a point of 0 give 1D0F hex. -/
theorem test_crc_zero_point : crcPoint 0xFFFF#16 0#16 = 0x1D0F#16 := by
  decide +kernel

/-- Section 7.8: attack, floor and release of the limiter. -/
theorem test_limiter :
    limiterGain Setup.reset 20000 32768 24000 = 32256 ∧ limiterGain Setup.reset 20000 8192 21000 = 8192 ∧
    limiterGain Setup.reset 20000 8192 18000 = 8208 ∧ limiterGain Setup.reset 20000 32752 11000 = 32768 := by decide

/-- Section 7.8: a magnitude at the trip level counts, one below it sets the counter to 0. R135: −32,768. -/
theorem test_trip_count : tripCount 28000 28 28100 = 29 ∧ tripCount 28000 29 26000 = 0 ∧ tripCount 28000 4 28000 = 5 ∧
    magnitude 0x8000#16 = 32768 := by decide

/-- Section 6.11: the crossing test is met at sample 10,002 and not at 10,001. -/
theorem test_crossing : crosses 1072147484#32 1073741824#32 2147484 = false ∧
    crosses 1074294968#32 1073741824#32 2147484 = true := by decide

/-- Section 6.11: half a cycle of travel. -/
theorem test_travel : travelDistance 1800 = 2147483648 := by decide

/-! ## Resets and samples -/

/-- Power-on from a running state, and the completion with both straps low, give the reset state. -/
theorem test_full_reset : after [.powerOn, .fullResetComplete false false] (inRun .active State.reset) = State.reset :=
  rfl

/-- R165: the straps high and low, and low and high. -/
theorem test_straps : (after [.resetN, .fullResetComplete true false] State.reset).link.baud = 3000000 ∧
    (after [.resetN, .fullResetComplete false true] State.reset).link.baud = 921600 := by decide

/-- The first sample after a reset: index 1, θ_ref = F, ZX low (R1, R4, R17); TRIG's level becomes the settled one. -/
theorem test_first_sample : let t := after [.sample true 0#16 0#16 0#16] State.reset
    t.synth.sampleIndex = 1#64 ∧ t.synth.theta = 2147484#32 ∧ t.ports.zx = false ∧ t.ports.outen = false ∧
    t.seq.debounce.settled = true ∧ t.seq.debounce.first = false := by decide

/-- R17: ZX at a wrap. -/
theorem test_zx_at_wrap : let s := { State.reset with synth := { Synth.reset with theta := 0xFFFFFFFF#32 } }
    (after [.sample false 0#16 0#16 0#16] s).ports.zx = true := by decide

/-- Section 2.6's slot and the staged copy of section 6.3: a DUE step starts, its first sample pulses STEPMARK. -/
theorem test_step_start :
    let s := inPhase .due (holding (.step (copyOf (plain .follow (.samples 100)))) (inRun .armed State.reset))
    let t := after [.stepStart] s
    let u := after [.sample false 0#16 0#16 0#16] t
    t.seq.run = .active ∧ t.latched .stepBegun = true ∧ u.ports.stepmark = true ∧ u.ports.outen = true ∧
    (u.synth.phases.get .a).primary = 10000 ∧ u.seq.active.map ActiveStep.elapsed = some 1 := by decide

/-- Section 1.11, a stop ramp: from 7,000 over 4 samples. -/
theorem test_abort_stops :
    let synth : Synth := { Synth.reset with phases := PerPhase.same { SynthPhase.idle 0#32 with primary := 7000 } }
    let s := { inRun .waiting State.reset with synth := synth, setup := { Setup.reset with stopRamp := 4 } }
    let t := after [.runForceAbort 1#8 false, .sample false 0#16 0#16 0#16] s
    t.seq.run = .stopping ∧ (t.synth.phases.get .a).primary = 5250 := by decide

/-- R123: the stop ramp done, the run is OFF and RUN_ENDED latches. -/
theorem test_stop_complete : let t := after [.stopRampComplete] (inRun .stopping State.reset)
    t.seq.run = .off ∧ t.latched .runEnded = true := by decide

/-- R18: the frequency ramp at its length becomes idle at its target (the step from 50 Hz to 60 Hz of section 1.11). -/
theorem test_ramp_complete :
    let ramp : Ramp := { startValue := 2147484, target := 2576980, length := 4, progress := 4 }
    (after [.rampComplete .frequency] { State.reset with synth := { Synth.reset with freqRamp := some ramp } }).synth
      = { Synth.reset with tuning := 2576980, freqRamp := none } := by decide

/-- R115, R117: a step of one sample ends COMPLETE; with an empty slot the run is STARVED. -/
theorem test_step_end : let t := after [.stepEnd] (playing (.samples 1) 1 0 true (inRun .active State.reset))
    t.seq.run = .starved ∧ t.latched .starved = true ∧ t.results.records.length = 1 := by decide

/-- R118, R121: an end marker with HOLD behind an open step. -/
theorem test_handover :
    let t := after [.endMarkerHandover] (holding (.marker .hold) (playing (.samples 0) 7 0 true (inRun .active State.reset)))
    t.seq.run = .parked ∧ t.latched .runEnded = true := by decide

/-- Section 6.11, the debounced trigger: six samples of high qualify a rising change with TRIG_DEBOUNCE 5, which a
TRIGGER step in EDGE takes. -/
theorem test_trigger_edge :
    let debounce : Debounce := { settled := false, runCount := 5, first := false }
    let seq : Sequencer := { Sequencer.reset with run := .waiting, startPhase := .edge, debounce := debounce }
    let s := { holding (.step (copyOf (plain .trigger (.samples 9)))) State.reset with seq := seq }
    let t := after [.sample true 0#16 0#16 0#16] s
    t.moments.edge.isSome = true ∧ (after [.qualifiedEdge] t).seq.startPhase = .due := by decide

/-- Section 8.7: the expiry hands the open step's record, then the staged step's, and the run is STOPPING. -/
theorem test_trigger_timeout :
    let s := inPhase .edge (holding (.step (copyOf (plain .trigger (.samples 9))))
      (playing (.samples 0) 5 0 true (inRun .active State.reset)))
    let t := after [.triggerTimeout] { s with moments := { s.moments with timeout := true } }
    t.seq.run = .stopping ∧ t.latched .triggerTimeout = true ∧
    t.results.records.map (fun r => r.body.reason) = [.aborted, .timedOut] := by decide

/-- Section 7.9: a trip of phase B. -/
theorem test_trip :
    let s := playing (.samples 9) 5 0 true (inRun .active State.reset)
    let t := after [.trip] { s with moments := { s.moments with trip := some { a := false, b := true, c := false } } }
    t.seq.run = .fault ∧ t.latched .tripped = true ∧ t.results.records.map (fun r => r.body.reason) = [.tripped] ∧
    t.monitor.fault.map FaultRecord.phases = some { a := false, b := true, c := false } := by decide

/-! ## Link -/

/-- Section 9.7: the header bytes of a STATUS frame move the receiver from HUNT to CHECK. -/
theorem test_receiver_header :
    (after ([0x5A#8, 0x02#8, 17#8, 0#8, 0#8].map fun b => .byteReceived b false) State.reset).link.rx.state = .check := by
  decide

/-- R166 to R171: an IDENTIFY frame with tag 1, its CRC bytes by R169, lowers READY and is answered. -/
theorem test_identify_bytes :
    let t := after ((frameBytes 0x01#8 1#8 [] 0#16).map fun b => .byteReceived b false) State.reset
    t.link.ready = false ∧ t.link.inProgress = some (0x01#8, 1#8) := by decide +kernel

/-- Section 9.7: 2 ms without a byte. -/
theorem test_gap_timeout : let t := after [.byteReceived 0x5A#8 false, .gapTimeout] State.reset
    t.link.rx.state = .hunt ∧ t.latched .linkError = true := by decide

/-- Section 9.7: a frame begun while READY is low carries the overrun mark. -/
theorem test_overrun_mark : let t := after [.status 17#8, .byteReceived 0x5A#8 false] State.reset
    t.link.rx.marked = true ∧ t.latched .linkOverrun = true := by decide

/-- R169, R170: the two outcomes that no block sees, with the received kind and tag. -/
theorem test_turned_away :
    replyOf (after [.badframe 0x02#8 5#8 [] 1#16] State.reset) = some (.badframe, .none, []) ∧
    replyOf (after [.unknownKind 0x7F#8 5#8 [1#8]] State.reset) = some (.unknown, .none, []) := by decide

/-- R177, with the layout of section 9.6: codes low byte first. -/
theorem test_identify : replyOf (after [.identify 1#8] State.reset) =
    some (.done, .none, [0x61#8, 0x0C#8, 0x54#8, 0x01#8, 1#8, 16#8, 64#8, 128#8, 0#8, 1#8, 64#8]) := by decide

/-- The status block of the reset state: run state 9 (DISABLED), FF for the remembered state. -/
theorem test_status : (replyOf (after [.status 1#8] State.reset)).map (fun r => (r.2.2.take 4, r.2.2.length)) =
    some ([9#8, 0xFF#8, 0#8, 0#8], 76) := by decide

/-- R176: RESET is answered first, and the full reset follows the reply's last byte. -/
theorem test_reset_request : replyOf (after [.reset 1#8] State.reset) = some (.done, .none, []) ∧
    (after [.reset 1#8, .replySent] State.reset).link.inReset = true := by decide

/-- R171: READY rises with the last byte of a reply. -/
theorem test_reply_sent : (after [.noticeRead 1#8] State.reset).link.ready = false ∧
    (after [.noticeRead 1#8, .replySent] State.reset).link.ready = true := by decide

/-! ## Setup and notices -/

/-- Section 10.6, first and second request: TRIP_LEVEL_A (18 hex) with NOM_PEAK (02) in ACTIVE, then with 16 hex,
which is not listed. -/
theorem test_setup_write_refused :
    replyOf (after [.setupWrite 1#8 [(0x18#8, 28000#32), (0x02#8, 20000#32)]] (inRun .active State.reset)) =
      some (.refused, .state, []) ∧
    replyOf (after [.setupWrite 1#8 [(0x18#8, 28000#32), (0x16#8, 5#32)]] (inRun .active State.reset)) =
      some (.refused, .range, []) := by decide

/-- Section 10.6, third request: ATTACK (13 hex) 40,000 and TRIP_SAMPLES (1B hex) 0 are clamped. -/
theorem test_setup_write_clamps :
    let t := after [.setupWrite 1#8 [(0x13#8, 40000#32), (0x1B#8, 0#32)]] (inRun .active State.reset)
    replyOf t = some (.done, .clamped, []) ∧ t.setup.attack = 32768 ∧ t.setup.tripSamples = 1 := by decide

/-- Section 10.6, fourth request, on the reset values: ATTACK 512 and TRIP_SAMPLES 100. -/
theorem test_setup_read : replyOf (after [.setupRead 1#8 [0x13#8, 0x1B#8]] State.reset) =
    some (.done, .none, [0x13#8, 0#8, 2#8, 0#8, 0#8, 0x1B#8, 100#8, 0#8, 0#8, 0#8]) := by decide

/-- R185, after a full reset: RESTARTED (bit 0) alone, no mask, enable off. -/
theorem test_notice_read : replyOf (after [.noticeRead 1#8] State.reset) =
    some (.done, .none, [1#8, 0#8, 0#8, 0#8, 0#8]) := by decide

/-- R183: RESTARTED is cleared. -/
theorem test_notice_clear : replyOf (after [.noticeClear 1#8 1#16] State.reset) = some (.done, .none, [0#8, 0#8]) := by
  decide

/-- R182, R184: with the enable on and RESTARTED unmasked NOTICE is high; masked, it is low. -/
theorem test_notice_mask : (after [.noticeMask 1#8 0#16 1#8] State.reset).noticeLine = true ∧
    (after [.noticeMask 1#8 0xFFFF#16 1#8] State.reset).noticeLine = false ∧
    replyOf (after [.noticeMask 1#8 0#16 2#8] State.reset) = some (.refused, .range, []) := by decide

/-! ## Shapes -/

/-- Slot 3 LOADED with generation 6, as in section 2.6 (its points do not matter here). -/
def loaded3 : State :=
  withShape 3 { state := .loaded, points := List.replicate 4 1#16, gen := 6#8, refcount := 0 } State.reset

/-- Section 2.6: SHAPE_OPEN 3 gives generation 7. -/
theorem test_shape_open : replyOf (after [.shapeOpen 9#8 3#8] loaded3) = some (.done, .none, [3#8, 7#8]) ∧
    replyOf (after [.shapeOpen 9#8 0#8] loaded3) = some (.refused, .readOnly, []) := by decide

/-- R35: an erase leaves EMPTY, one generation on. -/
theorem test_shape_erase : let t := after [.shapeErase 9#8 3#8] loaded3
    replyOf t = some (.done, .none, [3#8, 7#8]) ∧ t.store.slots[3]?.map Slot.state = some .empty := by decide

/-- Section 2.6, the third append: cursor 1,022, four points, two accepted, TRUNCATED, LOADED. -/
theorem test_append_truncates :
    let s := withShape 3 { state := .filling, points := List.replicate 1022 5#16, gen := 7#8, refcount := 0 } State.reset
    let t := after [.shapeAppend 9#8 3#8 [1#16, 2#16, 3#16, 4#16], .shapeAppendComplete] (withSpare 2 s)
    replyOf t = some (.done, .truncated, [3#8, 2#8, 0#8, 0#8, 4#8]) ∧
    t.store.slots[3]?.map Slot.state = some .loaded ∧ t.store.spare = 0 := by decide +kernel

/-- An active step with three overlays, and slot 3 FILLING with no point yet. -/
def overlaid3 : State :=
  let slot : Slot := { state := .filling, points := [], gen := 7#8, refcount := 0 }
  let s := playing (.samples 9) 2 0 true (inRun .active (withShape 3 slot State.reset))
  let overlaid (p : SynthPhase) : SynthPhase := { p with overlay := some { slot := 0, harmonic := 5, shift := 0#32 } }
  { s with synth := { s.synth with phases := s.synth.phases.map overlaid } }

/-- R38: with three overlays the synthesizer makes twelve reads for a sample, and its period keeps 20 accesses for
link-side work when a disable clears the overlays before the next sample; an append of 21 points has to wait, and the
one of 20 points leaves nothing to a second append. -/
theorem test_append_waits_for_its_period :
    let s := after [.sample false 0#16 0#16 0#16, .runForceDisable 9#8 true false, .replySent] overlaid3
    let appended (count : Nat) : State :=
      after [.shapeAppend 9#8 3#8 (List.replicate count 5#16), .shapeAppendComplete] s
    overlaid3.synth.reads = 12 ∧ s.synth.reads = 6 ∧ s.store.spare = 20 ∧ replyOf (appended 21) = none ∧ (appended 20).store.spare = 0 ∧
    replyOf (appended 20) = some (.done, .none, [3#8, 20#8, 0#8, 20#8, 0#8]) := by decide +kernel

/-- Section 2.6, the fourth append: NOT_READY. -/
theorem test_append_not_ready :
    replyOf (after [.shapeAppend 9#8 3#8 [1#16]] loaded3) = some (.refused, .notReady, []) := by decide

/-- R36 on slot 0 of the reset state: LOADED (2), cursor 1,024, generation 0, refcount 0, no step copy. -/
theorem test_shape_info : replyOf (after [.shapeInfo 9#8 0#8] State.reset) =
    some (.done, .none, [0#8, 2#8, 0#8, 4#8, 0#8, 0#8, 0#8]) := by decide

/-- R40: a generation that is not the slot's is STALE. -/
theorem test_sum_stale : replyOf (after [.shapeSum 9#8 3#8 7#8 0#16 4#16 0xFFFF#16] loaded3) =
    some (.refused, .stale, []) := by decide

/-- R41, R42: one point of 0 in slot 0, at most 32 items, is always processed: CRC 1D0F hex. -/
theorem test_sum_completes :
    (after [.shapeSum 9#8 0#8 0#8 0#16 1#16 0xFFFF#16] State.reset).store.job.isSome = true ∧
    State.reset.store.sumPoints 0 0 1 0xFFFF#16 = 0x1D0F#16 := by decide +kernel

/-- Section 2.8, a list longer than its region: pads beyond the region, the first difference at offset 5. -/
theorem test_compare_offset :
    firstDifference (fun j => if j < 4 then 9#16 else 0#16) (fun j => [9#16, 9#16, 9#16, 9#16, 0#16, 7#16].getD j 0#16) 6
      = some 5 ∧
    compareBlock 1#8 5 0#16 7#16 1020 4 6 5 =
      [1#8, 5#8, 0#8, 0#8, 0#8, 7#8, 0#8, 0#8, 4#8, 0#8, 0#8, 5#8, 0#8] := by decide

/-- R44: SHAPE_COMPARE of slot 0 begins its work. -/
theorem test_compare_begins :
    (after [.shapeCompare 9#8 0#8 0#8 0#16 4#16 0#16 [0#16]] State.reset).store.job.isSome = true := by decide

/-! ## Templates and phrases -/

/-- A phase record as it is carried. -/
def wirePhase (amplitude offset : Half) (slot overlaySlot harmonic : Byte) (overlayAmp overlayPhase : Half) :
    PhaseWire :=
  { amplitude := amplitude, offset := offset, slot := slot, overlaySlot := overlaySlot, harmonic := harmonic,
    overlayAmp := overlayAmp, overlayPhase := overlayPhase }

/-- Template 7 of section 3.6, as sent. -/
def template7 : TemplateWire :=
  { index := 7#8, startKind := 1#8, startAngle := 4500#16, durKind := 1#8, durValue := 1800#32, levelRamp := 0#16,
    frequency := 3500#16, freqRamp := 0#16,
    phases := { a := wirePhase 4000#16 0#16 0#8 255#8 0#8 9999#16 0#16,
                b := wirePhase 10000#16 2400#16 0#8 0#8 5#8 3400#16 3600#16,
                c := wirePhase 10000#16 1200#16 0#8 255#8 0#8 0#16 0#16 } }

/-- Section 3.6: DONE, CLAMPED, not defined before, refcount 0; slot 0's refcount rises by one. -/
theorem test_template_define : let t := after [.templateDefine 9#8 template7] State.reset
    replyOf t = some (.done, .clamped, [7#8, 0#8, 0#8, 0#8]) ∧ t.store.slots[0]?.map Slot.refcount = some 1 := by decide

/-- Section 3.6: the stored fields. -/
theorem test_template_stored :
    let t := after [.templateDefine 9#8 template7] State.reset
    (t.library[7]?.bind id).map (fun e => (e.template.start, e.template.duration, e.template.frequency,
        e.template.phases.a.overlay, e.template.phases.b.overlay)) =
      some (.angle 900, .degrees 1800, 4000, none, some ⟨0, 5, 3000, 0⟩) := by decide

/-- R58: the read of template 7 returns the stored values in 48 bytes and the refcount. -/
theorem test_template_read :
    (replyOf (after [.templateDefine 9#8 template7, .replySent, .templateRead 9#8 7#8] State.reset)).map
        (fun r => (r.2.2.take 4, r.2.2.length)) = some ([7#8, 1#8, 0x84#8, 0x03#8], 50) := by decide

/-- R57: an undefined template, and one with a refcount. -/
theorem test_template_delete :
    replyOf (after [.templateDelete 9#8 7#8] State.reset) = some (.refused, .notReady, []) ∧
    replyOf (after [.templateDelete 9#8 7#8] (withTemplate 7 1 State.reset)) = some (.refused, .inUse, []) ∧
    replyOf (after [.templateDelete 9#8 7#8] (withTemplate 7 0 State.reset)) = some (.done, .none, [7#8]) := by decide

/-- Templates 10, 11 and 12, with the phrases 30 and 31 of section 4.4. -/
def chain : State :=
  after [.phraseDefine 1#8 30#8 255#8 10#8, .replySent, .phraseDefine 1#8 31#8 30#8 11#8, .replySent]
    (withTemplate 10 0 (withTemplate 11 0 (withTemplate 12 0 State.reset)))

/-- Section 4.4: phrase 32, and the ORDER refusal of phrase 29. -/
theorem test_phrase_define :
    replyOf (after [.phraseDefine 1#8 32#8 31#8 12#8] chain) = some (.done, .none, [32#8, 0#8, 3#8]) ∧
    replyOf (after [.phraseDefine 1#8 29#8 30#8 11#8] chain) = some (.refused, .order, []) ∧
    replyOf (after [.phraseDefine 1#8 30#8 255#8 12#8] chain) = some (.refused, .inUse, []) := by decide +kernel

/-- Section 4.4: the read of phrase 32: predecessor 31, template 12, depth 3, refcount 0, expansion 10, 11, 12. -/
theorem test_phrase_read :
    replyOf (after [.phraseDefine 1#8 32#8 31#8 12#8, .replySent, .phraseRead 1#8 32#8] chain) =
      some (.done, .none, [32#8, 31#8, 12#8, 3#8, 0#8, 0#8, 10#8, 11#8, 12#8]) := by decide +kernel

/-- R70: a phrase is deleted from the far end inward. -/
theorem test_phrase_delete : replyOf (after [.phraseDelete 1#8 30#8] chain) = some (.refused, .inUse, []) ∧
    replyOf (after [.phraseDelete 1#8 31#8] chain) = some (.done, .none, [31#8]) := by decide +kernel

/-! ## Cues, runs and results -/

/-- Templates 3 and 4 and phrase 31 defined, the next cue serial at 65,534, as in section 5.8. -/
def beforeCues : State :=
  let s := withTemplate 3 0 (withTemplate 4 0 chain)
  { s with queue := { s.queue with nextSerial := 65534#16 } }

/-- Section 5.8: the prefix of two cues is accepted, PARTIAL with BAD_CUE; the repeat of 0 is stored as 1 and the
duration as 3,600,000. -/
theorem test_cue_add :
    let t := after [.cueAdd 1#8 [carried 0#8 3#8 0#8, { carried 0#8 4#8 2#8 with duration := some (1#8, 4000000#32) },
        { carried 1#8 31#8 4#8 with start := some (1#8, 900#16) }, carried 0#8 5#8 1#8]] beforeCues
    replyOf t = some (.partly, .badCue, [2#8, 0xFE#8, 0xFF#8, 2#8, 0#8, 2#8, 0#8]) ∧
    t.queue.cues.map Cue.body =
      [.template 3 1 none none, .template 4 2 (some (.degrees 3600000)) none] ∧ t.queue.nextSerial = 0#16 := by decide +kernel

/-- A RETAIN queue in OFF with one SPENT cue of template 5. -/
def retained : State :=
  let s := withCues [{ cueOf (.template 5 1 none none) with status := .spent }] (withTemplate 5 1 (inRun .off State.reset))
  { s with setup := { s.setup with queueMode := .retain } }

/-- R99: a rewind makes the cue PENDING and the trial number 1. -/
theorem test_cue_rewind : let t := after [.cueRewind 1#8] retained
    replyOf t = some (.done, .none, [1#8, 1#8, 0#8]) ∧ t.queue.cues.map Cue.status = [.pending] := by decide

/-- R101: a clear empties the queue and releases the template. -/
theorem test_run_clear : let t := after [.runClear 1#8] retained
    replyOf t = some (.done, .none, []) ∧ t.queue.cues = [] ∧
    (t.library[5]?.bind id).map TemplateEntry.refcount = some 0 := by decide

/-- R104: OUTPUT_ENABLE in DISABLED, and again in OFF. -/
theorem test_output_enable : replyOf (after [.outputEnable 1#8] State.reset) = some (.done, .none, [0#8]) ∧
    replyOf (after [.outputEnable 1#8] (inRun .off State.reset)) = some (.refused, .state, []) := by decide

/-- R105: nothing pending is EMPTY; with a cue of one FOLLOW step the run is ARMED (1) with its step DUE. -/
theorem test_run_start : replyOf (after [.runStart 1#8] (inRun .off State.reset)) = some (.refused, .empty, []) ∧
    let t := after [.runStart 1#8]
      (withCues [cueOf (.template 5 1 none none)] (withTemplate 5 1 (inRun .off State.reset)))
    replyOf t = some (.done, .none, [1#8]) ∧ t.seq.startPhase = .due ∧ t.queue.cues = [] := by decide

/-- R124: a pause from WAITING, answered with the state it was taken from (3). -/
theorem test_run_pause : replyOf (after [.runPause 1#8] (inRun .waiting State.reset)) = some (.done, .none, [3#8]) ∧
    (after [.runPause 1#8] (inRun .waiting State.reset)).seq.remembered = some .waiting := by decide

/-- R126: a resume returns to the remembered state. -/
theorem test_run_resume : let t := after [.runResume 1#8] (pausedFrom .starved State.reset)
    t.seq.run = .starved ∧ replyOf t = some (.done, .none, [4#8]) := by decide

/-- Section 6.11, forced actions: DISABLE in FAULT. -/
theorem test_force_disable :
    let t := after [.runForceDisable 1#8 true false] (inRun .fault State.reset)
    t.seq.run = .disabled ∧ replyOf t = some (.done, .none, [0#8, 9#8]) := by decide

/-- Section 6.11, forced actions: ABORT in OFF. -/
theorem test_force_abort : replyOf (after [.runForceAbort 1#8 true] (inRun .off State.reset)) =
    some (.refused, .state, [1#8, 0#8]) := by decide

/-- Section 6.11, forced actions: SKIP in ACTIVE and in PARKED. -/
theorem test_force_skip :
    (after [.runForceSkip 1#8] (playing (.samples 9) 2 0 true (inRun .active State.reset))).results.records.map
      (fun r => r.body.reason) = [.skipped] ∧
    replyOf (after [.runForceSkip 1#8] (inRun .parked State.reset)) = some (.refused, .state, [2#8, 6#8]) := by decide

/-- R133: FAULT_CLEAR leads to OFF. -/
theorem test_fault_clear : (after [.faultClear 1#8] (inRun .fault State.reset)).seq.run = .off ∧
    replyOf (after [.faultClear 1#8] (inRun .off State.reset)) = some (.refused, .state, []) := by decide

/-- A record of a step of cue 26, and a queue that holds so many of them with a pending gap. -/
def recordOf (element : Nat) : ResultBody :=
  { source := { serial := 26#16, rep := 0, element := element, template := 5 }, trial := 0#8, reason := .complete,
    start := none, endSample := 0#64, capture := PerPhase.same { peak := 0, minGain := 32768, clip := false } }

/-- Section 8.6's queue with so many records held. -/
def withResults (count gap : Nat) : State :=
  { State.reset with results := { records := List.replicate count { serial := 0#16, body := recordOf 0, gap := none },
                                  nextSerial := 200#16, pendingGap := gap } }

/-- Section 8.6: the 64th record is stored as serial 200; the next is dropped. -/
theorem test_results_full : let t := (withResults 63 0).handResult (recordOf 3)
    let u := t.handResult (recordOf 4)
    t.results.records.length = 64 ∧ t.results.nextSerial = 201#16 ∧ u.results.records.length = 64 ∧
    u.results.pendingGap = 1 ∧ u.latched .resultsDropped = true := by decide

/-- Section 8.6: a read of 8 of 64, then a record with gap 2. -/
theorem test_result_read :
    (replyOf (after [.resultRead 1#8 8#8] (withResults 64 2))).map (fun r => r.2.2.take 6) =
      some [8#8, 56#8, 2#8, 0#8, 200#8, 0#8] ∧
    ((after [.resultRead 1#8 8#8] (withResults 64 2)).handResult (recordOf 6)).results.records.getLast?.map
      ResultRecord.gap = some (some 2) := by decide +kernel

/-! ## Well-formedness and the table's bits -/

/-- A BADFRAME has a wrong CRC and a payload that fits a frame (R168, R169). -/
theorem test_wf_badframe : Instr.wf (.badframe 1#8 0#8 [] 0#16) = false ∧
    Instr.wf (.badframe 1#8 0#8 (List.replicate 1025 0#8) 1#16) = false ∧
    Instr.wf (.badframe 1#8 0#8 [] 1#16) = true := by decide +kernel

/-- An UNKNOWN_KIND has a kind that is not listed and a payload that fits a frame (R168, R170). -/
theorem test_wf_unknown_kind : Instr.wf (.unknownKind 0x01#8 0#8 []) = false ∧
    Instr.wf (.unknownKind 0x7F#8 0#8 (List.replicate 1025 0#8)) = false ∧
    Instr.wf (.unknownKind 0x7F#8 0#8 []) = true := by decide +kernel

/-- The payload of a request fits a frame (R168): 513 points with their slot take 1,027 bytes, 511 take 1,023. -/
theorem test_wf_request : Instr.wf (.shapeAppend 0#8 3#8 (List.replicate 513 0#16)) = false ∧
    Instr.wf (.shapeAppend 0#8 3#8 (List.replicate 511 0#16)) = true ∧ Instr.wf .powerOn = true := by decide +kernel

/-- The table gives no row any bits: no word spells a command, and placing one leaves the queue. -/
theorem test_no_words : decodeTableWord 16 0x5A = none ∧ (State.reset.withFetchWord 16 0x5A).pending = [] := by decide

/-! ## The statements' hypotheses are met

One theorem for each statement that has hypotheses: a state and operands for each of its clauses, at the boundaries. -/

/-- The reset state can take a request; so can any state that differs from it off the link. -/
theorem test_hyp_listening : State.reset.Listening := ⟨rfl, rfl, rfl⟩

/-- A full reset in progress. -/
def inReset : State := State.reset.beginReset

/-- A DUE step staged in a run state. -/
def staged (run : RunState) (start : StartCond) (phase : StartPhase) : State :=
  inPhase phase (holding (.step (copyOf (plain start (.samples 9)))) (inRun run State.reset))

/-- An active step in ACTIVE with an item behind it. -/
def active (duration : Duration) (elapsed travel : Nat) (item : Staged) : State :=
  holding item (playing duration elapsed travel true (inRun .active State.reset))

theorem test_hyp_StepRunsFrontCommand :
    ({ State.reset with pending := [.powerOn] } : State).pending = .powerOn :: [] ∧ State.reset.pending = [] :=
  ⟨rfl, rfl⟩

theorem test_hyp_ResetAbandonsEverything :
    inReset.link.inReset = true ∧ (Instr.identify 0#8).request?.isSome = true := ⟨rfl, rfl⟩

theorem test_hyp_ReplySent :
    (State.reset.replied 0x01#8 0#8 .done .none []).link.reply = some ⟨0x01#8, 0#8, .done, .none, []⟩ ∧
    (State.reset.replied 0x03#8 0#8 .refused .length []).link.reply = some ⟨0x03#8, 0#8, .refused, .length, []⟩ ∧
    ReplyOutcome.refused ≠ .done := by decide

/-- The statements about SAMPLE: at reset (DISABLED), with a step active, in PAUSED, and with a step in EDGE. -/
theorem test_hyp_Sample : State.reset.Settled ∧ (active (.samples 9) 8 0 .empty).Settled ∧
    (pausedFrom .active (active (.samples 9) 9 0 .empty)).Settled ∧ (staged .armed .trigger .edge).Settled :=
  ⟨⟨fun m => by cases m <;> decide, by decide, by decide⟩, ⟨fun m => by cases m <;> decide, by decide, by decide⟩,
   ⟨fun m => by cases m <;> decide, by decide, by decide⟩, ⟨fun m => by cases m <;> decide, by decide, by decide⟩⟩

/-- A step start alone due, and a met step with a trip beside it. -/
theorem test_hyp_Sample_due :
    let s := staged .armed .follow .due
    let t := { active (.samples 1) 1 0 .empty with
      moments := { Moments.clear 0 0 with trip := some (PerPhase.same true) } }
    s.link.inReset = false ∧ s.synth.finishRamps = s.synth ∧ (∀ m, s.due m = decide (m = .start)) ∧
    t.link.inReset = false ∧ t.synth.finishRamps = t.synth ∧ t.due .stepEnd = true ∧ t.due .trip = true := by
  refine ⟨by decide, by decide, fun m => by cases m <;> decide, by decide, by decide, by decide, by decide⟩

/-- TRIP_SAMPLES 100: a counter of 99 trips with the next current at its level, one of 98 does not. -/
theorem test_hyp_Sample_trip :
    let s := { active (.samples 9) 8 0 .empty with
      monitor := { Monitor.reset with counters := { a := 99, b := 98, c := 0 } } }
    s.Settled ∧ (after [.sample false 32767#16 32767#16 0#16] s).moments.trip =
      some { a := true, b := false, c := false } :=
  ⟨⟨fun m => by cases m <;> decide, by decide, by decide⟩, by decide +kernel⟩

/-- A step HELD behind an open step whose first sample comes: settled, and released by it. -/
theorem test_hyp_Sample_released :
    let s := inPhase .held (active (.samples 0) 0 0 (.step (copyOf (plain .trigger (.samples 9)))))
    s.Settled ∧ s.seq.run = .active ∧ s.seq.startPhase = .held ∧
    s.seq.active.map (fun a => a.copy.content.duration) = some (.samples 0) ∧
    s.expander.slot = .step (copyOf (plain .trigger (.samples 9))) :=
  ⟨⟨fun m => by cases m <;> decide, by decide, by decide⟩, rfl, rfl, rfl, rfl⟩

/-- A ramp of length 0 after its first ramp sample, and one of length 5 after its fifth, each in its place. -/
theorem test_hyp_RampsRunAndComplete :
    let r : Ramp := { startValue := 0, target := 7, length := 0, progress := 1 }
    let r' : Ramp := { startValue := 10000, target := 0, length := 5, progress := 5 }
    let p : SynthPhase := { SynthPhase.idle 0#32 with primaryRamp := some r, overlayRamp := some r' }
    let s := { State.reset with synth := { Synth.reset with freqRamp := some r', phases := PerPhase.same p } }
    (1 ≤ r.progress ∧ r.length ≤ r.progress) ∧ (1 ≤ r'.progress ∧ r'.length ≤ r'.progress) ∧
    s.synth.freqRamp = some r' ∧ (s.synth.phases.get .b).primaryRamp = some r ∧
    (s.synth.phases.get .c).overlayRamp = some r' := by decide

/-- Ramps on their way, an idle one, one before its first ramp sample, one a sample short: no completion. -/
theorem test_hyp_RampsRunAndComplete_running :
    let r : Ramp := { startValue := 0, target := 7, length := 0, progress := 0 }
    let r' : Ramp := { startValue := 10000, target := 0, length := 5, progress := 4 }
    let p : SynthPhase := { SynthPhase.idle 0#32 with primaryRamp := some r, overlayRamp := none }
    let s := { State.reset with synth := { Synth.reset with freqRamp := some r', phases := PerPhase.same p } }
    (r.progress = 0 ∨ r.progress < r.length) ∧ (r'.progress = 0 ∨ r'.progress < r'.length) ∧
    s.synth.finishRamps = s.synth ∧ exec (.rampComplete .frequency) s = .next s ∧
    exec (.rampComplete (.primary .a)) s = .next s ∧ exec (.rampComplete (.overlay .b)) s = .next s :=
  ⟨by decide, by decide, by decide, rfl, rfl, rfl⟩

/-- The ends of the two ranges, and an angle that comes back one tenth lower (1,200). -/
theorem test_hyp_ConversionsRound : tuningOf 4000 = 1717987 ∧ tuningOf 45000 = 19327353 ∧
    angleOf (phaseOf 3599) ≤ 3599 ∧ angleOf (phaseOf 0) = 0 ∧ angleOf (phaseOf 1200) + 1 = 1200 := by decide

/-- The greatest tuning word of R3: its target at the far end is met, the phase before the sample is not. -/
theorem test_hyp_CrossingIsAnInterval : 19327353 < 2 ^ 32 ∧
    crosses (5#32 + BitVec.ofNat 32 19327353) (5#32 + BitVec.ofNat 32 19327353) 19327353 = true ∧
    crosses (5#32 + BitVec.ofNat 32 19327353) 5#32 19327353 = false := by decide

/-- A qualified change: counted and taken by a TRIGGER and a TRIGGER_ANGLE step, stray, and not counted. -/
theorem test_hyp_QualifiedEdge :
    let s := { staged .armed (.triggerAngle 900) .edge with moments := { Moments.clear 0 0 with edge := some ⟨true, true⟩ } }
    let t := { staged .armed .trigger .edge with moments := { Moments.clear 0 0 with edge := some ⟨true, true⟩ } }
    let u := { State.reset with moments := { Moments.clear 0 0 with edge := some ⟨true, false⟩ } }
    let v := { State.reset with moments := { Moments.clear 0 0 with edge := some ⟨false, false⟩ } }
    s.moments.edge = some ⟨true, true⟩ ∧ s.seq.startPhase = .edge ∧
    s.expander.slot = .step (copyOf (plain (.triggerAngle 900) (.samples 9))) ∧
    t.expander.slot = .step (copyOf (plain .trigger (.samples 9))) ∧ u.moments.edge = some ⟨true, false⟩ ∧
    v.moments.edge = some ⟨false, false⟩ := by decide

/-- Nothing is due at reset, and no command of a moment acts: no change, expiry or trip waits, no step, no end marker. -/
theorem test_nothing_due : (∀ m, State.reset.due m = false) ∧ State.reset.moments.edge = none ∧
    State.reset.moments.timeout = false ∧ State.reset.moments.trip = none ∧ exec .stepStart State.reset = .next State.reset ∧
    exec .stepEnd State.reset = .next State.reset ∧ exec .endMarkerHandover State.reset = .next State.reset ∧
    exec .stopRampComplete State.reset = .next State.reset := by
  exact ⟨fun m => by cases m <;> decide, rfl, rfl, rfl, rfl, rfl, rfl, rfl⟩

/-- A step start in each of the three run states, DUE, and CROSSING with its target 1 phase unit ahead. -/
theorem test_hyp_StepStart :
    (staged .armed .follow .due).seq.run ∈ [RunState.armed, RunState.waiting, RunState.active] ∧
    (staged .waiting .follow .due).seq.run ∈ [RunState.armed, RunState.waiting, RunState.active] ∧
    (holding (.step (copyOf (plain .follow (.samples 9)))) (active (.samples 0) 3 0 .empty)).seq.run ∈
      [RunState.armed, RunState.waiting, RunState.active] ∧
    let s := staged .waiting (.angle 0) .crossing
    let t := { s with seq := { s.seq with target := 1#32 } }
    (staged .armed .follow .due).expander.slot = .step (copyOf (plain .follow (.samples 9))) ∧
    (staged .armed .follow .due).seq.startPhase = .due ∧
    t.expander.slot = .step (copyOf (plain (.angle 0) (.samples 9))) ∧ t.seq.startPhase = .crossing ∧
    (t.prospectTheta - t.seq.target).toNat < t.prospectTuning := by decide

/-- No start: in EDGE and HELD, in CROSSING with the target one phase unit behind the prospective interval, DUE in
PAUSED, and with no step staged. -/
theorem test_no_start :
    let s := staged .waiting (.angle 0) .crossing
    let t := { s with seq := { s.seq with target := 0#32 } }
    t.due .start = false ∧ exec .stepStart t = .next t ∧ t.prospectTuning = 2147484 ∧ t.prospectTheta = 2147484#32 ∧
    (staged .armed .trigger .edge).due .start = false ∧ (staged .armed .follow .due).due .start = true ∧
    (inPhase .held (active (.samples 0) 0 0 (.step (copyOf (plain .trigger (.samples 9)))))).due .start = false ∧
    (pausedFrom .waiting (staged .waiting .follow .due)).due .start = false :=
  ⟨by decide, rfl, by decide, by decide, by decide, by decide, by decide, by decide⟩

/-- R5: in ACTIVE the prospective tuning word is the ramp's next ramp sample; in PAUSED the present word. -/
theorem test_prospect_ramp :
    let r : Ramp := { startValue := 2147484, target := 2147584, length := 10, progress := 0 }
    let s := { active (.samples 9) 3 0 .empty with synth := { Synth.reset with freqRamp := some r } }
    s.prospectTuning = 2147494 ∧ s.prospectTheta = 2147494#32 ∧
    (pausedFrom .active s).prospectTuning = 2147484 := by decide

/-- The last samples of a SAMPLES step of 1 and of a DEGREES step of one tenth (1,193,046 phase units), with each item
that can stand behind it. -/
theorem test_hyp_StepEnd :
    let s := active (.samples 1) 1 0 (.step (copyOf (plain .follow (.samples 9))))
    let t := active (.degrees 1) 1 1193046 (.step (copyOf (plain (.angle 0) (.samples 9))))
    s.seq.run = .active ∧ s.seq.active.isSome = true ∧ t.seq.active.map ActiveStep.travel = some 1193046 ∧
    1 * 2 ^ 32 / 3600 ≤ 1193046 ∧ (active (.samples 1) 1 0 .empty).expander.slot = .empty ∧
    (active (.samples 1) 1 0 (.marker .off)).expander.slot = .marker .off ∧
    (active (.samples 1) 1 0 (.marker .hold)).expander.slot = .marker .hold := by decide

/-- One sample and one phase unit short of the duration, an open step, and a met step in PAUSED: no step ends. -/
theorem test_no_end :
    (active (.samples 9) 8 0 .empty).due .stepEnd = false ∧ (active (.samples 9) 9 0 .empty).due .stepEnd = true ∧
    exec .stepEnd (active (.samples 9) 8 0 .empty) = .next (active (.samples 9) 8 0 .empty) ∧
    (active (.degrees 1) 9 1193045 .empty).due .stepEnd = false ∧
    (active (.degrees 1) 9 1193046 .empty).due .stepEnd = true ∧ (active (.samples 0) 9 0 .empty).due .stepEnd = false ∧
    (pausedFrom .active (active (.samples 9) 9 0 .empty)).due .stepEnd = false :=
  ⟨by decide, by decide, rfl, by decide, by decide, by decide, by decide⟩

/-- An end marker behind an open step before its first sample, behind a closed step, and in PAUSED: not taken. -/
theorem test_no_handover :
    let s := holding (.marker .off) (playing (.samples 0) 0 0 false (inRun .active State.reset))
    s.due .handover = false ∧ exec .endMarkerHandover s = .next s ∧
    (active (.samples 0) 1 0 (.marker .off)).due .handover = true ∧
    (active (.samples 9) 1 0 (.marker .off)).due .handover = false ∧
    (pausedFrom .active (active (.samples 0) 1 0 (.marker .off))).due .handover = false :=
  ⟨by decide, rfl, by decide, by decide, by decide⟩

theorem test_hyp_MarkerEndsAnOpenStep :
    (active (.samples 0) 1 0 (.marker .off)).seq.run = .active ∧
    (active (.samples 0) 1 0 (.marker .off)).expander.slot = .marker .off ∧
    (active (.degrees 0) 1 0 (.marker .hold)).seq.run = .active ∧
    (active (.degrees 0) 1 0 (.marker .hold)).expander.slot = .marker .hold ∧
    (active (.samples 0) 1 0 (.marker .off)).seq.active.map (fun a => (a.begun, a.copy.content.duration)) =
      some (true, .samples 0) ∧
    (active (.degrees 0) 1 0 (.marker .hold)).seq.active.map (fun a => (a.begun, a.copy.content.duration)) =
      some (true, .degrees 0) := by decide

theorem test_hyp_TriggerTimeout :
    let s := { staged .armed .trigger .edge with moments := { Moments.clear 0 0 with timeout := true } }
    let t := { staged .waiting .trigger .edge with moments := { Moments.clear 0 0 with timeout := true } }
    s.moments.timeout = true ∧ s.seq.run = .armed ∧ s.expander.slot = .step (copyOf (plain .trigger (.samples 9))) ∧
    t.moments.timeout = true ∧ t.seq.run ≠ .armed ∧
    t.seq.run ≠ .paused ∧ t.expander.slot = .step (copyOf (plain .trigger (.samples 9))) ∧
    (pausedFrom .waiting t).seq.run = .paused ∧ t.expander.context = none := by decide

theorem test_hyp_Trip :
    ({ inRun .parked State.reset with moments := { Moments.clear 0 0 with trip := some (PerPhase.same true) } } : State
      ).moments.trip = some (PerPhase.same true) := rfl

/-- An EXPANDING cue behind a SPENT one in a run that a timeout leaves, and in one that a trip leaves. -/
theorem test_hyp_leave_expanding :
    let spent : Cue := { cueOf (.endRun .off) with status := .spent }
    let cue : Cue := { cueOf (.template 5 2 none none) with status := .expanding }
    let context : Context := { serial := 0#16, body := .template 5 2 none none, rep := 1, element := 0 }
    let s := withCues [spent, cue] (staged .waiting .trigger .edge)
    let t := { s with expander := { s.expander with context := some context },
                      moments := { Moments.clear 0 0 with timeout := true, trip := some (PerPhase.same true) } }
    t.expander.context = some context ∧ t.queue.cues = [spent] ++ cue :: [] ∧ spent.status = .spent ∧
    cue.status ≠ .spent ∧ t.moments.timeout = true ∧ t.moments.trip = some (PerPhase.same true) ∧
    t.seq.run = .waiting ∧ t.expander.slot = .step (copyOf (plain .trigger (.samples 9))) := by decide

/-- In STOPPING with every ramp idle, and with a stop ramp at its length. -/
theorem test_hyp_StopRamp :
    let r : Ramp := { startValue := 7000, target := 0, length := 4, progress := 4 }
    let p : SynthPhase := { SynthPhase.idle 0#32 with primaryRamp := some r }
    let s := { inRun .stopping State.reset with synth := { Synth.reset with phases := PerPhase.same p } }
    (inRun .stopping State.reset).seq.run = .stopping ∧ s.stopDue = true ∧ 1 ≤ r.progress ∧
    r.length ≤ r.progress := by decide

/-- A stop ramp one sample short of its length, and idle ramps in PARKED: no stop. -/
theorem test_no_stop :
    let r : Ramp := { startValue := 7000, target := 0, length := 4, progress := 3 }
    let p : SynthPhase := { SynthPhase.idle 0#32 with primaryRamp := some r }
    let s := { inRun .stopping State.reset with synth := { Synth.reset with phases := PerPhase.same p } }
    s.due .stop = false ∧ exec .stopRampComplete s = .next s ∧ (inRun .stopping State.reset).due .stop = true ∧
    (inRun .parked State.reset).due .stop = false :=
  ⟨by decide, rfl, by decide, by decide⟩

/-- An expiry waits in PAUSED, where it is not due. -/
theorem test_no_timeout :
    let s := { staged .waiting .trigger .edge with moments := { Moments.clear 0 0 with timeout := true } }
    s.due .timeout = true ∧ (pausedFrom .waiting s).due .timeout = false ∧
    exec .triggerTimeout (pausedFrom .waiting s) = .next (pausedFrom .waiting s) :=
  ⟨by decide, by decide, rfl⟩

/-- Requests whose units fit and do not fit their kinds: 1 and 511 points; none and 512. -/
theorem test_hyp_PayloadsReadBack :
    (Instr.shapeAppend 0#8 3#8 (List.replicate 511 0#16)).lengthOk = true ∧
    (Instr.shapeAppend 0#8 3#8 [0#16]).lengthOk = true ∧ (Instr.shapeAppend 0#8 3#8 []).lengthOk = false ∧
    (Instr.shapeAppend 0#8 3#8 (List.replicate 512 0#16)).lengthOk = false ∧
    (Instr.shapeAppend 0#8 3#8 []).request?.isSome = true := by decide +kernel

/-- Frames that arrive from HUNT, with READY high and with READY low; an empty payload and one of 1,024 bytes. -/
theorem test_hyp_BytesMakeFrames :
    State.reset.link.rx = Receiver.idle ∧ (after [.identify 1#8] State.reset).link.rx = Receiver.idle ∧
    (after [.identify 1#8] State.reset).link.ready = false ∧ (List.replicate 1024 0#8).length ≤ 1024 ∧
    Kind.ofCode 0x7F#8 = none ∧ (Instr.identify 1#8).request? = some (.identify, 1#8, []) := by decide +kernel

/-- The receiver in each clause: HUNT with 5A hex and another byte, 0 and 2 header bytes, the second length byte at 1,024
and above, the last byte but one and the last of a payload of 2. -/
theorem test_hyp_BytesAreAssembled :
    let s := after [.byteReceived 0x5A#8 false] State.reset
    let t := after [.byteReceived 2#8 false, .byteReceived 0#8 false, .byteReceived 2#8 false] s
    let u := after [.byteReceived 0#8 false] t
    State.reset.link.rx.state = .hunt ∧ (0x59#8 : Byte) ≠ 0x5A#8 ∧ s.link.rx.state = .header ∧ s.link.rx.header = [] ∧
    t.link.rx.header = [2#8, 0#8, 2#8] ∧ 1024 < (4#8 : Byte).toNat * 256 + (2#8 : Byte).toNat ∧
    (3#8 : Byte).toNat * 256 + (2#8 : Byte).toNat ≤ 1024 ∧ u.link.rx.state = .payload ∧ u.link.rx.header.length = 4 ∧
    (after [.byteReceived 9#8 false] u).link.rx.state = .payload := by decide

/-- The receiver before the second CRC byte: of an IDENTIFY frame with READY high, whose last byte matches or does not,
and of a frame with the overrun mark that completes after READY has risen. -/
theorem test_hyp_BytesAreAssembled_check :
    let bytes := (frameBytes 0x01#8 7#8 [] 0#16).map fun b => Instr.byteReceived b false
    let s := after bytes.dropLast State.reset
    let t := after (bytes.dropLast.drop 1) (after [.identify 1#8, .byteReceived 0x5A#8 false, .replySent] State.reset)
    let crc := crcBytes 0xFFFF#16 [0x01#8, 7#8, 0#8, 0#8]
    s.link.rx.state = .check ∧ s.link.rx.check = [crc.setWidth 8] ∧ s.link.rx.header = [0x01#8, 7#8, 0#8, 0#8] ∧
    s.link.rx.marked = false ∧ s.link.ready = true ∧
    ((crc >>> 8).setWidth 8 : Byte).toNat * 256 + (crc.setWidth 8 : Byte).toNat = crc.toNat ∧
    Kind.identify.code = 0x01#8 ∧ (Instr.identify 7#8).request? = some (.identify, 7#8, s.link.rx.payload) ∧
    t.link.rx.state = .check ∧ t.link.rx.check.length = 1 ∧ t.link.rx.marked = true ∧ t.link.ready = true := by
  decide +kernel

/-- Payloads that their kinds do not admit: one byte over and one short of a whole pair, none and 33 ids, half a point,
one point too many, a byte for IDENTIFY, and a cue cut short; a set of actions with each highest one, and one whose named
bits are clear. -/
theorem test_hyp_not_admitted :
    ¬ Kind.setupWrite.Admits (List.replicate 6 0#8) ∧ ¬ Kind.setupWrite.Admits (List.replicate 4 0#8) ∧
    ¬ Kind.setupRead.Admits [] ∧ ¬ Kind.setupRead.Admits (List.replicate 33 0#8) ∧
    ¬ Kind.shapeAppend.Admits [0#8, 0#8] ∧ ¬ Kind.shapeCompare.Admits (List.replicate 522 0#8) ∧
    ¬ Kind.identify.Admits [0#8] ∧ ¬ Kind.cueAdd.Admits [0#8, 5#8, 1#8] ∧
    (7#8 : Byte).getLsbD 0 = true ∧ (6#8 : Byte).getLsbD 0 = false ∧ (6#8 : Byte).getLsbD 1 = true ∧
    (4#8 : Byte).getLsbD 1 = false ∧ (4#8 : Byte).getLsbD 2 = true ∧ (0xF8#8 : Byte).getLsbD 0 = false ∧
    (0xF8#8 : Byte).getLsbD 1 = false ∧ (0xF8#8 : Byte).getLsbD 2 = false := by
  refine ⟨by simp [Kind.Admits], by simp [Kind.Admits], by simp [Kind.Admits], by simp [Kind.Admits],
    by simp [Kind.Admits], fun h => absurd h.2.1 (by rw [List.length_replicate]; decide), by simp [Kind.Admits], ?_, by decide⟩
  rintro ⟨cues, hp, h1, -, hc⟩
  cases cues with
  | nil => cases h1
  | cons cue rest =>
    obtain ⟨k, i, r, f, o, rfl, -⟩ := hc cue (List.mem_cons_self ..)
    have := congrArg List.length hp
    simp at this

theorem test_hyp_FramesTurnedAway :
    (after [.byteReceived 0x5A#8 false] State.reset).link.rx.gapRunning = true ∧ (1#16 : Half) ≠ 0#16 ∧
    (∀ k : Kind, k.code ≠ 0x7F#8) ∧ (after [.identify 1#8] State.reset).link.ready = false ∧
    (Instr.setupRead 0#8 []).lengthOk = false := by
  refine ⟨by decide, by decide, fun k => by cases k <;> decide, by decide, by decide⟩

/-- STATUS with no record and no fault, with an active step, and in FAULT with its record. -/
theorem test_hyp_Status : State.reset.seq.active = none ∧ State.reset.seq.run ≠ .fault ∧
    (active (.samples 9) 1 0 .empty).seq.active.isSome = true ∧
    let f : FaultRecord := { phases := PerPhase.same true, sample := 9#64 }
    let s := { inRun .fault State.reset with monitor := { Monitor.reset with fault := some f } }
    s.seq.run = .fault ∧ s.monitor.fault = some f := by decide

/-- One id and thirty-two, ids that are listed and one that is not, none and thirty-three. -/
theorem test_hyp_SetupRead : (∀ i ∈ [0x01#8, 0x2B#8], Param.ofId i ≠ none) ∧ Param.ofId 0x16#8 = none ∧
    (List.replicate 32 0x01#8).length ≤ 32 ∧ 32 < (List.replicate 33 0x01#8).length := by decide

/-- The premise of SETUP_WRITE's statement for pairs out of range. -/
def outOfRange (pairs : List (Byte × Word)) : Prop :=
  ∃ pair ∈ pairs, ∀ p, Param.ofId pair.1 = some p → p.enumerated = true ∧ p.range.2 < pair.2.toNat

/-- The premise of SETUP_WRITE's statement for pairs that the state does not admit. -/
def outOfState (s : State) (pairs : List (Byte × Word)) : Prop :=
  ∃ pair ∈ pairs,
    (Param.ofId pair.1 = some .nomPeak ∧ ¬ (s.seq.run = .off ∨ s.seq.run = .fault ∨ s.seq.run = .disabled)) ∨
    (Param.ofId pair.1 = some .queueMode ∧ (s.seq.run ≠ .off ∨ s.queue.cues ≠ []))

/-- Pairs out of range: an unlisted id, and TRIG_EDGE of 3, one above its codes. -/
theorem test_hyp_SetupWrite_range : outOfRange [(0x16#8, 5#32)] ∧ outOfRange [(0x20#8, 3#32)] :=
  ⟨⟨_, List.mem_singleton.mpr rfl, fun p h => by cases h⟩,
   ⟨_, List.mem_singleton.mpr rfl, fun p h => by cases h; decide⟩⟩

/-- Pairs out of state: NOM_PEAK in ACTIVE; QUEUE_MODE in OFF with a cue held. Neither is out of range: QUEUE_MODE of 1 is
its top code. -/
theorem test_hyp_SetupWrite_state :
    outOfState (inRun .active State.reset) [(0x02#8, 20000#32)] ∧ ¬ outOfRange [(0x02#8, 20000#32)] ∧
    outOfState (withCues [cueOf (.endRun .off)] (inRun .off State.reset)) [(0x28#8, 1#32)] ∧
    ¬ outOfRange [(0x28#8, 1#32)] := by
  refine ⟨⟨_, List.mem_singleton.mpr rfl, Or.inl ⟨rfl, by decide⟩⟩, ?_,
    ⟨_, List.mem_singleton.mpr rfl, Or.inr ⟨rfl, Or.inr (by decide)⟩⟩, ?_⟩
  · rintro ⟨pair, hm, h⟩
    cases List.mem_singleton.mp hm
    exact absurd (h .nomPeak rfl) (by decide)
  · rintro ⟨pair, hm, h⟩
    cases List.mem_singleton.mp hm
    exact absurd (h .queueMode rfl) (by decide)

/-- Storable pairs in OFF: NOM_FREQ below its range, then GAIN_FLOOR at its top. -/
theorem test_hyp_SetupWrite_stored :
    let pairs : List (Byte × Word) := [(0x01#8, 3999#32), (0x15#8, 32768#32)]
    let s := inRun .off State.reset
    ¬ outOfRange pairs ∧ ¬ outOfState s pairs ∧ (∃ pair ∈ pairs, Param.ofId pair.1 = some .nomFreq) ∧
    ∃ pair ∈ pairs, Param.ofId pair.1 = some .gainFloor := by
  refine ⟨?_, ?_, ⟨_, List.mem_cons_self, rfl⟩, ⟨_, List.mem_cons_of_mem _ List.mem_cons_self, rfl⟩⟩
  · rintro ⟨pair, hm, h⟩
    rcases List.mem_cons.mp hm with rfl | hm
    · exact absurd (h .nomFreq rfl) (by decide)
    · cases List.mem_singleton.mp hm
      exact absurd (h .gainFloor rfl) (by decide)
  · rintro ⟨pair, hm, h⟩
    rcases List.mem_cons.mp hm with rfl | hm
    · rcases h with ⟨h, -⟩ | ⟨h, -⟩ <;> exact absurd h (by decide)
    · cases List.mem_singleton.mp hm
      rcases h with ⟨h, -⟩ | ⟨h, -⟩ <;> exact absurd h (by decide)

/-- Enable bytes 0, 1 and 2. -/
theorem test_hyp_NoticeMask : (2#8 : Byte) ≠ 0#8 ∧ (2#8 : Byte) ≠ 1#8 ∧ ((0#8 : Byte) = 0#8 ∨ (0#8 : Byte) = 1#8) := by
  decide

/-- Slot numbers 16 and 255, 0, and 15 held and free. -/
theorem test_hyp_OpenAndErase :
    let free : Slot := Slot.reset
    let held : Slot := { Slot.reset with refcount := 1 }
    15 < (16#8 : Byte).toNat ∧ (15#8 : Byte) ≠ 0#8 ∧ State.reset.store.slots[(15#8 : Byte).toNat]? = some free ∧
    ¬ State.reset.SlotHeld 15 free ∧ (withShape 15 held State.reset).store.slots[15]? = some held ∧
    (withShape 15 held State.reset).SlotHeld 15 held := by
  refine ⟨by decide, by decide, by decide, ?_, by decide, Or.inl (by decide)⟩
  rintro (h | ⟨a, h, -⟩ | ⟨c, h, -⟩)
  · exact absurd h (by decide)
  · simp [State.reset, Sequencer.reset] at h
  · simp [State.reset, Expander.reset] at h

/-- The two reads and SHAPE_INFO: the first number out of range, the last entry undefined, and defined. -/
theorem test_hyp_InfoAndReads :
    15 < (16#8 : Byte).toNat ∧ 63 < (64#8 : Byte).toNat ∧ 127 < (128#8 : Byte).toNat ∧
    State.reset.store.slots[15]?.isSome = true ∧ State.reset.library[63]? = some none ∧
    State.reset.phrases[127]? = some none ∧ (withTemplate 63 0 State.reset).library[63]?.map Option.isSome = some true ∧
    (withPhrase 127 ⟨none, 63, 1, 0⟩ State.reset).phrases[127]? = some (some ⟨none, 63, 1, 0⟩) := by decide +kernel

/-- R89: the unnamed bits of a cue's flags byte are not read; an END cue with all six of them set. -/
theorem test_hyp_BytesMakeFrames_flags :
    let cue := carried 2#8 0#8 1#8
    cueBytes cue = [2#8, 0#8, 1#8, 0#8] ∧
    ((cueBytes cue).take 3 ++ (((cueBytes cue).drop 3).take 1).map (· ||| (0xFF#8 &&& 0xFC#8)) ++
      (cueBytes cue).drop 4) = [2#8, 0#8, 1#8, 0xFC#8] ∧
    parseRequest .cueAdd 5#8 [2#8, 0#8, 1#8, 0xFC#8] = .request (.cueAdd 5#8 [cue]) := by decide +kernel

/-- Section 9.6: a SAMPLES duration override of 258 samples and a start override of 515 tenths in a cue. -/
theorem test_cue_layout :
    cueBytes { kind := 0#8, index := 5#8, rep := 1#8, duration := some (0#8, 258#32), start := some (1#8, 515#16) } =
      [0#8, 5#8, 1#8, 3#8, 0#8, 2#8, 1#8, 0#8, 0#8, 1#8, 3#8, 2#8] := by decide

/-- FILLING, EMPTY and LOADED slots; the slot's generation and another; a region that ends at 1,024 and one beyond. -/
theorem test_hyp_ShapeWorkBegins :
    let s := withShape 15 { Slot.reset with state := .filling } State.reset
    s.store.slots[15]?.map Slot.state = some .filling ∧ s.store.slots[14]?.map Slot.state = some .empty ∧
    s.store.slots[0]?.map Slot.state = some .loaded ∧ s.store.slots[0]?.map Slot.gen = some 0#8 ∧
    (1#8 : Byte) ≠ 0#8 ∧ (1000#16 : Half).toNat + (24#16 : Half).toNat ≤ 1024 ∧
    1024 < (1000#16 : Half).toNat + (25#16 : Half).toNat := by decide

/-- An append of two points into the last place, one access served. -/
theorem test_hyp_AppendCompletes :
    let record : Slot := { state := .filling, points := List.replicate 1023 0#16, gen := 1#8, refcount := 0 }
    let s := working 0x11#8 5#8 (.append 3 [1#16, 2#16]) 1 (withShape 3 record State.reset)
    s.store.job = some ⟨.append 3 [1#16, 2#16], 1, 0⟩ ∧ s.store.slots[3]? = some record ∧
    s.link.inProgress = some (0x11#8, 5#8) ∧ min 2 (1024 - record.points.length) ≤ 1 := by decide +kernel

/-- Appends of 20 and of 21 points after one sample period: the first has used its periods, the second has not. -/
theorem test_hyp_AppendCompletes_overdue :
    let job (count : Nat) : ShapeJob := { work := .append 3 (List.replicate count 0#16), served := 0, periods := 1 }
    let s (count : Nat) : State := { State.reset with store := { Store.reset with job := some (job count) } }
    (s 20).workOverdue = true ∧ (s 21).workOverdue = false ∧ (s 20).store.job = some (job 20) ∧
    (∀ m, (s 20).due m = false) ∧ (s 20).synth.finishRamps = (s 20).synth ∧ (s 20).link.inReset = false ∧
    State.reset.store.job = none ∧ (∀ m, State.reset.due m = false) := by
  refine ⟨by decide, by decide, by decide, fun m => by cases m <;> decide, by decide, by decide, by decide,
    fun m => by cases m <;> decide⟩

/-- Work not served yet, and completion commands of other work: an append of two points, a sum and a compare of 32
points with no access served, and a completion with no work at all. None acts. -/
theorem test_hyp_completions_wait :
    let record : Slot := { state := .filling, points := [], gen := 1#8, refcount := 0 }
    let s := working 0x11#8 5#8 (.append 3 [1#16, 2#16]) 1 (withShape 3 record State.reset)
    let t := working 0x14#8 5#8 (.sum 0 0 32 0#16) 0 State.reset
    let u := working 0x15#8 5#8 (.compare 0 0 32 0#16 [1#16]) 0 State.reset
    exec .shapeAppendComplete s = .next s ∧ exec .shapeSumComplete s = .next s ∧
    exec .shapeCompareComplete t = .next t ∧ exec .shapeAppendComplete u = .next u ∧
    exec .shapeSumComplete State.reset = .next State.reset ∧ t.link.inProgress = some (0x14#8, 5#8) ∧
    s.store.job = some ⟨.append 3 [1#16, 2#16], 1, 0⟩ ∧
    u.store.job = some ⟨.compare 0 0 32 0#16 [1#16], 0, 0⟩ :=
  ⟨rfl, rfl, rfl, rfl, rfl, rfl, rfl, rfl⟩

/-- R37, R41: a sum that a reset abandons has had its amount chosen; the next one has another chosen for it. -/
theorem test_engine_afresh :
    (after [.shapeSum 1#8 0#8 0#8 0#16 32#16 0#16] State.reset).moments.engine = 1 ∧
    (after [.shapeSum 1#8 0#8 0#8 0#16 32#16 0#16, .resetN, .fullResetComplete false false,
      .shapeSum 2#8 0#8 0#8 0#16 32#16 0#16] State.reset).moments.engine = 2 ∧
    (after [.shapeSum 1#8 1#8 0#8 0#16 32#16 0#16] State.reset).moments.engine = 0 := by decide +kernel

/-- A sum of nothing with no access served, and sums of 256 and 1,024 points with 256 served. -/
theorem test_hyp_SumCompletes :
    (working 0x14#8 5#8 (.sum 0 1024 0 0#16) 0 State.reset).store.job = some ⟨.sum 0 1024 0 0#16, 0, 0⟩ ∧
    (working 0x14#8 5#8 (.sum 0 0 1024 0#16) 256 State.reset).store.job = some ⟨.sum 0 0 1024 0#16, 256, 0⟩ ∧
    (working 0x14#8 5#8 (.sum 0 0 1024 0#16) 256 State.reset).link.inProgress = some (0x14#8, 5#8) ∧
    min 0 256 ≤ 0 ∧ min 256 256 ≤ 256 ∧ min 1024 256 ≤ 256 := by decide

/-- A compare of a region of one point with one point, one access served. -/
theorem test_hyp_CompareCompletes :
    (working 0x15#8 5#8 (.compare 0 0 1 0#16 [0#16]) 1 State.reset).store.job =
      some ⟨.compare 0 0 1 0#16 [0#16], 1, 0⟩ ∧
    (working 0x15#8 5#8 (.compare 0 0 1 0#16 [0#16]) 1 State.reset).link.inProgress = some (0x15#8, 5#8) ∧
    State.reset.store.pointBits 0 0 = 0#16 ∧ min 1 256 ≤ 1 := by decide

/-- A first difference at the first pair with one access served, and at the 32nd of points equal to the pad beyond an
empty region with none. -/
theorem test_hyp_CompareCompletes_early :
    State.reset.store.pointBits 0 0 ≠ [1#16].getD 0 0#16 ∧ min (0 + 1) 256 ≤ 1 ∧
    (working 0x15#8 5#8 (.compare 0 0 256 0#16 [1#16]) 1 State.reset).store.job =
      some ⟨.compare 0 0 256 0#16 [1#16], 1, 0⟩ ∧
    (let points : List Half := List.replicate 31 0#16 ++ [1#16]
     (∀ k < 31, (0#16 : Half) = points.getD k 0#16) ∧ (0#16 : Half) ≠ points.getD 31 0#16 ∧ min (31 + 1) 0 ≤ 0) := by
  decide +kernel

/-- R38, R45: a compare that differs at its first pair has read one point; R46: nothing of its region is consumed. -/
theorem test_compare_stops :
    replyOf (after [.shapeCompareComplete] (working 0x15#8 5#8 (.compare 0 0 4 0#16 [1#16]) 1 State.reset)) =
      some (.done, .none, [1#8, 0#8, 0#8, 0#8, 0#8, 1#8, 0#8, 0#8, 0#8, 4#8, 0#8, 0#8, 0#8]) := by decide +kernel

/-- What template 7 of section 3.6 is stored as. -/
def stored7 : Template :=
  { start := .angle 900, duration := .degrees 1800, levelRamp := 0, frequency := 4000, freqRamp := 0,
    phases := { a := { amplitude := 4000, offset := 0, slot := 0, overlay := none },
                b := { amplitude := 10000, offset := 2400, slot := 0, overlay := some ⟨0, 5, 3000, 0⟩ },
                c := { amplitude := 10000, offset := 1200, slot := 0, overlay := none } } }

theorem template7_inRange : ¬ TemplateOutOfRange template7 := by
  rintro (h | h | h | ⟨p, h⟩)
  · exact absurd h (by decide)
  · exact absurd h (by decide)
  · exact absurd h (by decide)
  · cases p <;> rcases h with h | h | h <;> exact absurd h (by decide)

theorem template7_stored : stored7.StoredFrom template7 :=
  { start := rfl, duration := rfl, frequency := rfl, levelRamp := rfl, freqRamp := rfl,
    phases := fun p => by cases p <;> rfl }

/-- Section 3.6's three requests: in range and clamped; phase C's overlay slot 20; an overlay slot 4 that is EMPTY. And
template 7 as a reader finds it. -/
theorem test_hyp_TemplateDefine : ¬ TemplateOutOfRange template7 ∧ TemplateClamped template7 ∧
    TemplateOutOfRange { template7 with phases := { template7.phases with c := wirePhase 0#16 0#16 0#8 20#8 1#8 0#16 0#16 } } ∧
    TemplateOutOfRange { template7 with index := 64#8 } ∧ stored7.Names 0 ∧
    State.reset.store.slots[0]?.map Slot.state = some .loaded ∧
    State.reset.store.slots[4]?.map Slot.state = some .empty :=
  ⟨template7_inRange, Or.inr (Or.inl (by decide)), Or.inr (Or.inr (Or.inr ⟨.c, Or.inr (Or.inl (by decide))⟩)),
   Or.inl (by decide), ⟨.a, Or.inl rfl⟩, by decide, by decide⟩

theorem test_hyp_TemplateReadsBack : ¬ TemplateOutOfRange template7 ∧ stored7.StoredFrom template7 ∧
    (7#8 : Byte).toNat ≤ 63 ∧ (after [.templateDefine 9#8 template7, .replySent] State.reset).library[7]? =
      some (some { template := stored7, refcount := 0 }) ∧
    (after [.templateDefine 9#8 template7, .replySent] State.reset).Listening :=
  ⟨template7_inRange, template7_stored, by decide, by decide, ⟨by decide, by decide, by decide⟩⟩

/-- Entries named and not named. -/
theorem test_hyp_Deletes :
    (withTemplate 63 1 State.reset).library[63]?.map (Option.map TemplateEntry.refcount) = some (some 1) ∧
    (withTemplate 63 0 State.reset).library[63]?.map (Option.map TemplateEntry.refcount) = some (some 0) ∧
    (withPhrase 127 ⟨some 0, 63, 2, 1⟩ State.reset).phrases[127]? = some (some ⟨some 0, 63, 2, 1⟩) ∧
    (withPhrase 127 ⟨some 0, 63, 2, 0⟩ State.reset).phrases[127]? = some (some ⟨some 0, 63, 2, 0⟩) := by decide +kernel

/-- Section 4.4's requests on the chain of phrases 30 and 31: accepted; out of range at 128, 254 and 64; ORDER at an equal
index; IN_USE; NOT_READY; and a predecessor of depth 32. -/
theorem test_hyp_PhraseDefine :
    (128#8 : Byte).toNat > 127 ∧ (127 < (254#8 : Byte).toNat ∧ (254#8 : Byte) ≠ 255#8) ∧ 63 < (64#8 : Byte).toNat ∧
    (31#8 : Byte).toNat ≤ (31#8 : Byte).toNat ∧ chain.phrases[30]? = some (some ⟨none, 10, 1, 1⟩) ∧
    chain.phrases[31]? = some (some ⟨some 30, 11, 2, 0⟩) ∧ chain.phrases[28]? = some none ∧
    chain.library[12]?.map Option.isSome = some true ∧
    (withPhrase 71 ⟨some 70, 12, 32, 0⟩ chain).phrases[71]? = some (some ⟨some 70, 12, 32, 0⟩) ∧
    chain.link.ready = true ∧ chain.link.rx = Receiver.idle := by decide +kernel

/-- The chain of section 4.4: every predecessor lies below its phrase and depths agree. -/
theorem test_hyp_Expansion :
    (∀ i : Fin 128, ∀ e, chain.phrases[i.val]? = some (some e) → e.pred = none ∨
      e.pred = some 30 ∧ i.val = 31 ∧ e.depth = 2) ∧
    chain.expansion 30 = [10] ∧ chain.expansion 31 = [10, 11] := by
  refine ⟨fun i e h => ?_, by decide +kernel, by decide +kernel⟩
  have hs : ∀ i : Fin 128, (match chain.phrases[i.val]? with
      | some (some e) => decide (e.pred = none ∨ e.pred = some 30 ∧ i.val = 31 ∧ e.depth = 2)
      | _ => true) = true := by decide +kernel
  have := hs i
  rw [h] at this
  exact of_decide_eq_true this

/-- Section 5.8: two good cues, then one that fails with BAD_CUE; FULL at 256 held and not at 255; NOT_READY. -/
theorem test_hyp_CueAdd :
    (∀ detail, ¬ beforeCues.CueFails 0 (carried 0#8 3#8 0#8) detail) ∧
    CueBody.StoredFrom (.template 3 1 none none) (carried 0#8 3#8 0#8) ∧
    beforeCues.CueFails 2 { carried 1#8 31#8 4#8 with start := some (1#8, 900#16) } .badCue ∧
    State.reset.CueFails 0 (carried 0#8 5#8 1#8) .notReady ∧ State.reset.CueFails 256 (carried 2#8 1#8 0#8) .full ∧
    (∀ detail, ¬ State.reset.CueFails 255 (carried 2#8 1#8 0#8) detail) := by
  refine ⟨?_, ?_, ?_, ?_, ?_, ?_⟩
  · have hd : beforeCues.library[3]?.map Option.isSome = some true := by decide +kernel
    rintro d (⟨h, -⟩ | ⟨-, h, -⟩ | ⟨-, -, h, -⟩)
    · simp [carried] at h
    · rcases h with ⟨-, h⟩ | ⟨h, -⟩
      · rw [show (carried 0#8 3#8 0#8).index.toNat = 3 from rfl] at h
        rw [h] at hd
        cases hd
      · cases h
    · omega
  · exact { template := fun _ => ⟨none, none, by simp [carried], by simp, by simp, by simp [carried],
              by simp [carried], by simp [carried], by simp [carried], by simp [carried], by simp [carried]⟩,
            phrase := fun h => absurd h (by decide), endRun := fun h => absurd h (by decide) }
  · exact Or.inl ⟨by simp [carried], rfl⟩
  · refine Or.inr (Or.inl ⟨by simp [carried], Or.inl ⟨rfl, by decide⟩, rfl⟩)
  · refine Or.inr (Or.inr ⟨by simp [carried], by simp [carried], by omega, rfl⟩)
  · rintro d (⟨h, -⟩ | ⟨-, h, -⟩ | ⟨-, -, h, -⟩)
    · simp [carried] at h
    · simp [carried] at h
    · omega

/-- An empty slot in ARMED with each kind of cue at the front, with a SPENT cue before it, and with a context at the
last and at an earlier repetition; and states that stage nothing. -/
theorem test_hyp_Staging :
    let s := withTemplate 5 1 (inRun .armed State.reset)
    let spent : Cue := { cueOf (.endRun .off) with status := .spent }
    let cue := cueOf (.template 5 2 none none)
    let context : Context := { serial := 0#16, body := .template 5 2 none none, rep := 1, element := 0 }
    let t := withCues [spent, { cue with status := .expanding }] s
    (withCues [cueOf (.endRun .hold)] s).queue.cues = [] ++ cueOf (.endRun .hold) :: [] ∧
    (withCues [spent, cue] s).queue.cues = [spent] ++ cue :: [] ∧ cue.status ≠ .spent ∧ s.expander.slot = .empty ∧
    s.expander.context = none ∧ s.library[5]?.map Option.isSome = some true ∧
    ({ t with expander := { t.expander with context := some context } } : State).expander.context = some context ∧
    2 ≤ context.rep + 1 ∧ 0 + 1 < 2 ∧ State.reset.seq.run = .disabled ∧
    chain.expansion 31 = [10, 11] ∧ chain.expander.stack = [] := by decide +kernel

/-- An empty slot, and what a staging fills it with: a step and both markers, in the states that act on them. -/
theorem test_hyp_StagedItem :
    (inRun .starved (withCues [cueOf (.template 5 1 none none)] (withTemplate 5 1 State.reset))).expander.slot = .empty ∧
    (State.fillSlot (inRun .starved (withCues [cueOf (.template 5 1 none none)] (withTemplate 5 1 State.reset)))).expander.slot
      = .step (copyOf (plain .follow (.samples 100))) ∧
    (State.fillSlot (inRun .armed (withCues [cueOf (.endRun .off)] State.reset))).expander.slot = .marker .off ∧
    (State.fillSlot (inRun .starved (withCues [cueOf (.endRun .hold)] State.reset))).expander.slot = .marker .hold ∧
    (State.fillSlot (inRun .waiting (withCues [cueOf (.endRun .off)] State.reset))).expander.slot = .marker .off ∧
    (active (.samples 0) 1 0 .empty).seq.active.map (fun a => (a.begun, a.copy.content.duration)) =
      some (true, .samples 0) := by decide +kernel

theorem test_hyp_RewindAndClear : retained.Listening ∧ retained.seq.run = .off ∧ retained.setup.queueMode = .retain ∧
    State.reset.setup.queueMode = .stream ∧ (inRun .parked retained).seq.run = .parked ∧
    (inRun .armed retained).seq.run ∉ [RunState.off, RunState.fault, RunState.disabled] :=
  ⟨⟨rfl, rfl, rfl⟩, rfl, rfl, rfl, rfl, by decide⟩

theorem test_hyp_RunStart : (inRun .off State.reset).seq.run = .off ∧ State.reset.seq.run ∉ [RunState.off, .parked] ∧
    (inRun .parked State.reset).expander.slot = .empty ∧
    pendingCount (withCues [cueOf (.endRun .off)] (inRun .off State.reset)).queue.cues = 1 ∧
    pendingCount retained.queue.cues = 0 ∧
    (holding (.marker .off) (inRun .parked State.reset)).expander.slot = .marker .off ∧
    (staged .parked .trigger .held).expander.slot = .step (copyOf (plain .trigger (.samples 9))) := by decide

/-- A pause from each remembered state; behind it a met step, a waiting expiry, and a HELD step behind an open one. -/
theorem test_hyp_PauseAndResume :
    (∀ m : Remembered, (pausedFrom m State.reset).seq.run = .paused ∧
      (pausedFrom m State.reset).seq.remembered = some m ∧ (inRun m.run State.reset).seq.run = m.run) ∧
    (pausedFrom .active (active (.samples 1) 1 0 .empty)).seq.active.map ActiveStep.elapsed = some 1 ∧
    (let s := pausedFrom .waiting (staged .waiting .trigger .edge)
     ({ s with moments := { s.moments with timeout := true } } : State).moments.timeout = true) ∧
    (let s := pausedFrom .active (inPhase .held (active (.degrees 0) 1 0 (.step (copyOf (plain .trigger (.samples 9))))))
     s.seq.startPhase = .held ∧ s.seq.active.isSome = true ∧ s.moments.timeout = false) := by
  refine ⟨fun m => by cases m <;> decide, by decide, by decide, by decide⟩

/-- The states of a forced action: a run in progress with and without a cue in expansion, and FAULT with its record. -/
theorem test_hyp_ForcedDisableAndAbort :
    let context : Context := { serial := 0#16, body := .template 5 2 none none, rep := 1, element := 0 }
    let cue : Cue := { cueOf (.template 5 2 none none) with status := .expanding }
    let s := withCues [cue] (inRun .paused State.reset)
    let t := { s with expander := { s.expander with context := some context } }
    t.expander.context = some context ∧ t.queue.cues = [] ++ cue :: [] ∧ cue.status ≠ .spent ∧
    s.expander.context = none ∧ (inRun .stopping State.reset).seq.run = .stopping ∧
    s.seq.run ∈ [RunState.armed, RunState.active, RunState.waiting, RunState.starved, RunState.paused,
      RunState.parked] := by decide

/-- A skip in ACTIVE behind a closed and an open step with each item, and with no step active. -/
theorem test_hyp_ForcedSkip :
    (active (.samples 9) 1 0 (.step (copyOf (plain .trigger (.samples 9))))).seq.active.isSome = true ∧
    (inPhase .due (active (.degrees 0) 1 0 (.step (copyOf (plain .follow (.samples 9)))))).seq.startPhase = .due ∧
    (inPhase .edge (active (.samples 0) 1 0 (.step (copyOf (plain .trigger (.samples 9)))))).seq.startPhase = .edge ∧
    (inPhase .held (active (.samples 0) 0 0 (.step (copyOf (plain .trigger (.samples 9)))))).seq.startPhase = .held ∧
    (active (.samples 0) 1 0 (.marker .hold)).expander.slot = .marker .hold ∧
    (inRun .active State.reset).seq.active = none := by decide

theorem test_hyp_FaultClearAndOutputEnable : (inRun .fault State.reset).Listening ∧ State.reset.Listening ∧
    (inRun .fault State.reset).seq.run = .fault ∧ State.reset.seq.run = .disabled :=
  ⟨⟨rfl, rfl, rfl⟩, ⟨rfl, rfl, rfl⟩, rfl, rfl⟩

/-- 63 and 64 records held; counts 0, 1, 8 and 9. -/
theorem test_hyp_Results : (withResults 63 0).results.records.length < 64 ∧
    64 ≤ (withResults 64 65535).results.records.length ∧ (1#8 : Byte) ≠ 0#8 ∧ (8#8 : Byte).toNat ≤ 8 ∧
    8 < (9#8 : Byte).toNat ∧ (withResults 2 0).Listening :=
  ⟨by decide, by decide, by decide, by decide, by decide, ⟨rfl, rfl, rfl⟩⟩

/-- The reset state with one command waiting. -/
def oneWaits : State := { State.reset with pending := [.outputEnable 1#8] }

theorem test_hyp_StepKeepsLinkAndStore : oneWaits.LinkOk ∧ oneWaits.store.Ok ∧
    step oneWaits = .next (after [.outputEnable 1#8] State.reset) := by
  refine ⟨?_, ?_, rfl⟩
  · exact { ready := by decide, inReset := fun h => absurd h (by decide), progress := by decide, both := by decide,
            names := fun r h => by simp [oneWaits, State.reset, Link.resetting] at h,
            unmarked := fun h => absurd rfl h, hunting := fun _ => rfl }
  · refine ⟨fun slot h => ?_, fun k slot hk h => ?_, fun job h => (by cases h), by decide⟩
    · have h0 : oneWaits.store.slots[0]? = some Slot.sine := by decide
      rw [h0] at h
      cases h
      decide
    · have hs : oneWaits.store.slots[k]? = (Vector.replicate 16 Slot.reset)[k]? := by
        simp only [oneWaits, State.reset, Store.reset]
        rw [Vector.getElem?_setIfInBounds, if_neg (Ne.symm hk)]
      rw [hs, Vector.getElem?_replicate] at h
      split at h <;> cases h
      rfl

theorem test_hyp_StepKeepsRun : oneWaits.RunOk ∧ oneWaits.CuesOk ∧ oneWaits.SlotOk := by
  refine ⟨?_, ⟨by decide, fun _ c hc => (by cases hc), [], [], [], rfl, fun c hc => (by cases hc),
    fun c hc => (by cases hc), fun _ => rfl, fun c hc => (by cases hc)⟩,
    ⟨fun h => absurd h (by decide), fun h => absurd h (by decide)⟩⟩
  exact { remembered := by decide, active := fun h => absurd h (by decide), fault := by decide,
          idle := fun _ => by decide, phase := by decide, waiting := fun h => absurd h (by decide),
          marker := fun o h => (by cases h), stack := fun _ => rfl, timeout := fun h => absurd h (by decide) }

/-- A SPENT, the EXPANDING and a PENDING cue in RETAIN, the context naming the second. -/
theorem test_hyp_StepKeepsRun_cues :
    let body (index : Nat) : CueBody := .template index 2 none none
    let s : State := withCues [⟨body 5, 0#16, .spent⟩, ⟨body 6, 1#16, .expanding⟩, ⟨body 7, 2#16, .pending⟩]
      { State.reset with setup := { Setup.reset with queueMode := .retain },
                         expander := { State.reset.expander with context := some ⟨1#16, body 6, 1, 0⟩ } }
    s.CuesOk := by
  intro body s
  refine ⟨by decide, fun h => absurd h (by decide), [⟨body 5, 0#16, .spent⟩], [⟨body 6, 1#16, .expanding⟩],
    [⟨body 7, 2#16, .pending⟩], rfl, by simp, by simp, fun h => absurd h (by decide), fun context h => ?_⟩
  cases h
  rfl

/-- ARMED with a staged step, and STARVED with an empty slot. -/
theorem test_hyp_StepKeepsRun_slot :
    (staged .armed .follow .due).SlotOk ∧ (inRun .starved State.reset).SlotOk :=
  ⟨⟨fun _ => rfl, fun h => absurd h (by decide)⟩, ⟨fun h => absurd h (by decide), fun _ => rfl⟩⟩

/-- The reset values with one command waiting, a frequency ramp from end to end of R3's range and a step staged. -/
theorem test_hyp_StepKeepsRestAndRanges_levels :
    let r : Ramp := { startValue := 1717987, target := 19327353, length := 10, progress := 0 }
    oneWaits.LevelsOk ∧
    ({ staged .armed .follow .due with synth := { Synth.reset with freqRamp := some r } } : State).LevelsOk := by
  have library : ∀ (i : Nat) e, State.reset.library[i]? = some (some e) → e.template.InRange := by
    intro i e h
    simp only [State.reset] at h
    rw [Vector.getElem?_replicate] at h
    split at h <;> simp_all
  have level (hi : Nat) : Bounded 0 hi 0 none := ⟨by omega, fun r h => (by cases h), fun r h => (by cases h)⟩
  refine ⟨⟨library, fun copy h => (by cases h), ⟨by decide, fun r h => (by cases h), fun r h => (by cases h)⟩,
    fun p => ?_, fun p => ?_, fun p => by cases p <;> decide⟩,
    ⟨library, fun copy h => ?_, ⟨by decide, fun r h => ?_, fun r h => ?_⟩,
    fun p => ?_, fun p => ?_, fun p => by cases p <;> decide⟩⟩
  · cases p <;> exact level _
  · cases p <;> exact level _
  · cases h
    exact ⟨by decide, fun p => by cases p <;> decide, fun p o h => by cases p <;> cases h⟩
  · cases h
    decide
  · cases h
    decide
  · cases p <;> exact level _
  · cases p <;> exact level _

theorem test_hyp_StepKeepsRestAndRanges :
    oneWaits.QuietOk ∧ oneWaits.setup.InRange ∧ oneWaits.results.Ok ∧ oneWaits.ports.Ok := by
  refine ⟨⟨fun _ p hp => ?_, fun _ => rfl, fun _ => rfl, fun _ => rfl⟩, ?_, ⟨by decide, by decide⟩,
    ⟨by decide, fun _ => rfl⟩⟩
  · simp only [oneWaits, State.reset, Synth.reset, PerPhase.toList, List.mem_cons, List.not_mem_nil, or_false] at hp
    rcases hp with rfl | rfl | rfl <;> exact ⟨rfl, rfl, rfl, rfl, rfl⟩
  · unfold Setup.InRange
    decide

theorem test_hyp_StepKeepsRefcounts :
    oneWaits.RefsOk := by
  have hl : ∀ (i : Nat) e, oneWaits.library[i]? ≠ some (some e) := by
    intro i e h
    simp only [oneWaits, State.reset] at h
    rw [Vector.getElem?_replicate] at h
    split at h <;> simp_all
  have hp : ∀ (i : Nat) e, oneWaits.phrases[i]? ≠ some (some e) := by
    intro i e h
    simp only [oneWaits, State.reset] at h
    rw [Vector.getElem?_replicate] at h
    split at h <;> simp_all
  refine ⟨fun k slot h => ?_, fun i e h => absurd h (hl i e), fun i e h => absurd h (hp i e),
    fun i e h => absurd h (hp i e), fun c hc => (by cases hc), fun c hc => (by cases hc)⟩
  have hs : slot.refcount = 0 := by
    simp only [oneWaits, State.reset, Store.reset] at h
    rw [Vector.getElem?_setIfInBounds, Vector.getElem?_replicate] at h
    split at h
    · split at h <;> cases h
      rfl
    · split at h <;> cases h
      rfl
  rw [hs]
  symm
  unfold State.templatesOnSlot
  rw [List.countP_eq_zero]
  intro o ho
  simp [oneWaits, State.reset] at ho
  rw [ho]
  simp

end Sys2Proof.Tests
end

section
/-! The shape lookup of R9: the range of the stored points, the interpolation between two of them, and what a lookup
answers. -/

namespace Sys2Proof.Proofs

open Sys2Proof Sys2Proof.Machine

/-! ## The points of a shape are signed 16-bit values (R26, R27) -/

/-- Beyond the end of the quarter the read answers 0, so the bound holds for every index. -/
theorem sineQuarter_getD_le (k : Nat) : sineQuarter.getD k 0 ≤ 32767 := by
  have entries_le : ∀ v ∈ sineQuarter, v ≤ 32767 := by
    simp only [sineQuarter, List.forall_mem_append]
    decide
  by_cases hk : k < sineQuarter.length
  · rw [List.getD_eq_getElem _ _ hk]
    exact entries_le _ (List.getElem_mem hk)
  · rw [List.getD_eq_default _ _ (Nat.le_of_not_lt hk)]
    exact Nat.zero_le _

/-- Every quarter of the fixed sine mirrors the first (R27), so its points keep the first quarter's bound. -/
theorem sinePoint_range (k : Nat) : -32767 ≤ sinePoint k ∧ sinePoint k ≤ 32767 := by
  have first := sineQuarter_getD_le k
  have second := sineQuarter_getD_le (512 - k)
  have third := sineQuarter_getD_le (k - 512)
  have fourth := sineQuarter_getD_le (1024 - k)
  unfold sinePoint
  split_ifs <;> omega

theorem point_range (store : Store) (slot k : Nat) :
    -32768 ≤ store.point slot k ∧ store.point slot k ≤ 32767 := by
  unfold Store.point
  split
  case isTrue => -- the fixed sine
    have := sinePoint_range k
    omega
  case isFalse =>
    split
    case h_1 s _ => -- a slot's stored half-word
      have low := BitVec.le_toInt (s.points.getD k 0#16)
      have high := BitVec.toInt_lt (x := s.points.getD k 0#16)
      omega
    case h_2 => -- no such slot
      omega

/-! ## Interpolation with floor rounding (R9) -/

/-- A fraction below 1 of a difference, rounded down, lies between 0 and the difference: on a rising segment the floor
stays at or above 0, and on a falling one, at or above the whole difference, which is an integer. -/
theorem floor_fraction_between (d fr : Int) (nonneg : 0 ≤ fr) (le : fr ≤ 256) :
    min d 0 ≤ d * fr / 256 ∧ d * fr / 256 ≤ max d 0 := by
  rcases Int.le_total 0 d with rising | falling
  · have low : 0 ≤ d * fr := Int.mul_nonneg rising nonneg
    have high : d * fr ≤ d * 256 := Int.mul_le_mul_of_nonneg_left le rising
    omega
  · have low : d * 256 ≤ d * fr := Int.mul_le_mul_of_nonpos_left falling le
    have high : d * fr ≤ 0 := Int.mul_nonpos_of_nonpos_of_nonneg falling nonneg
    omega

/-- The point at a phase's index i, where its segment begins (R9). -/
abbrev segmentStart (store : Store) (slot : Nat) (theta : Word) : Int :=
  store.point slot (theta.toNat / 2 ^ 22)

/-- The point after it, taken modulo 1,024, where the segment ends (R9). -/
abbrev segmentEnd (store : Store) (slot : Nat) (theta : Word) : Int :=
  store.point slot ((theta.toNat / 2 ^ 22 + 1) % 1024)

section
variable (store : Store) (slot : Nat) (theta : Word)

/-- R9's formula; the model's division rounds down because its divisor is positive. -/
theorem lookup_eq_fdiv :
    store.lookup slot theta = segmentStart store slot theta +
      ((segmentEnd store slot theta - segmentStart store slot theta) *
        ((theta.toNat / 2 ^ 14 % 256 : Nat) : Int)).fdiv 256 := by
  rw [Int.fdiv_eq_ediv_of_nonneg _ (by decide)]
  rfl

theorem lookup_between :
    min (segmentStart store slot theta) (segmentEnd store slot theta) ≤ store.lookup slot theta ∧
      store.lookup slot theta ≤ max (segmentStart store slot theta) (segmentEnd store slot theta) := by
  have between := floor_fraction_between (segmentEnd store slot theta - segmentStart store slot theta)
    ((theta.toNat / 2 ^ 14 % 256 : Nat) : Int) (by omega) (by omega)
  rw [lookup_eq_fdiv, Int.fdiv_eq_ediv_of_nonneg _ (by decide)]
  omega

theorem lookup_range : -32768 ≤ store.lookup slot theta ∧ store.lookup slot theta ≤ 32767 := by
  obtain ⟨above_min, below_max⟩ := lookup_between store slot theta
  obtain ⟨start_low, start_high⟩ := point_range store slot (theta.toNat / 2 ^ 22)
  obtain ⟨end_low, end_high⟩ := point_range store slot ((theta.toNat / 2 ^ 22 + 1) % 1024)
  exact ⟨(le_min start_low end_low).trans above_min, below_max.trans (max_le start_high end_high)⟩

theorem lookup_of_fraction_eq_zero (fraction : theta.toNat / 2 ^ 14 % 256 = 0) :
    store.lookup slot theta = segmentStart store slot theta := by
  rw [lookup_eq_fdiv, fraction, Nat.cast_zero, mul_zero, Int.zero_fdiv, add_zero]

theorem pointIndex_le : theta.toNat / 2 ^ 22 ≤ 1023 := by
  have := theta.isLt
  omega

end

/-- Settles O14: the formula, its bounds from the two points and from the range of all points, and R9's example. -/
theorem lookupInterpolates : Obligations.LookupInterpolates := by
  unfold Obligations.LookupInterpolates
  refine ⟨fun store slot theta => ?_, by decide⟩
  obtain ⟨above_min, below_max⟩ := lookup_between store slot theta
  obtain ⟨low, high⟩ := lookup_range store slot theta
  have fraction_le : theta.toNat / 2 ^ 14 % 256 ≤ 255 := by omega
  exact ⟨pointIndex_le theta, fraction_le, lookup_eq_fdiv store slot theta, above_min, below_max, low, high,
    lookup_of_fraction_eq_zero store slot theta⟩

end Sys2Proof.Proofs
end

section
/-! IDENTIFY (R177): the 11 bytes of its reply, and its whole effect on a part that listens. -/

namespace Sys2Proof.Proofs

open Sys2Proof Sys2Proof.Machine

/-- R177's codes and capacities as they stand in the reply: half-words low byte first, so the queue's 256 cues are
0 and 1. -/
theorem identityBlock_bytes :
    identityBlock = [0x61#8, 0x0C#8] ++ [0x54#8, 0x01#8] ++ [1#8] ++ [16#8, 64#8, 128#8, 0#8, 1#8, 64#8] := by
  decide

theorem exec_identify (tag : Byte) (s : State) : exec (.identify tag) s = .next (s.requestFrame (.identify tag)) := by
  rfl

/-- The block reads nothing of the state and writes nothing but the reply. -/
theorem openRequest_takeIdentify (s : State) (kind tag : Byte) :
    (s.openRequest kind tag).takeIdentify = s.replied kind tag .done .none identityBlock :=
  State.openRequest_done s kind tag .none identityBlock

/-- While the part listens, the frame of IDENTIFY goes straight to its block: the payload is empty, so it passes the
length checks of the link and of the kind. -/
theorem requestFrame_identify {s : State} (listening : s.Listening) (tag : Byte) :
    s.requestFrame (.identify tag) = (s.openRequest Kind.identify.code tag).takeIdentify :=
  listening.requestFrame rfl (Nat.zero_le _) rfl

/-- Settles O28: the frame reaches the block, whose reply is the fixed block of R177 over the unchanged state. -/
theorem identifyAnswersFixedCodes : Obligations.IdentifyAnswersFixedCodes := by
  unfold Obligations.IdentifyAnswersFixedCodes
  intro s tag listening
  rw [exec_identify, requestFrame_identify listening, openRequest_takeIdentify, identityBlock_bytes]
  rfl -- the kind byte of IDENTIFY is 01 hex

end Sys2Proof.Proofs
end

section
/-! The notice unit (R180 to R185): its masks and its line bit by bit, NOTICE_READ, and NOTICE_MASK. -/

namespace Sys2Proof.Proofs

open Sys2Proof Sys2Proof.Machine

/-! ## Flag sets bit by bit -/

/-- A flag set is read in its fifteen low bits (R183, R184). -/
@[simp] theorem getLsbD_readFlags (set : Half) (n : Nat) :
    (readFlags set).getLsbD n = (set.getLsbD n && n < 15) := by
  have mask_bit : (0x7FFF#16).getLsbD n = (decide (n < 16) && decide (n < 15)) := by
    rw [BitVec.getLsbD_ofNat, show 0x7FFF = 2 ^ 15 - 1 from rfl, Nat.testBit_two_pow_sub_one]
  have bounds : (decide (n < 16) && decide (n < 15)) = decide (n < 15) := by
    rw [← Bool.decide_and]
    exact decide_eq_decide.mpr (by omega)
  rw [readFlags, BitVec.getLsbD_and, mask_bit, bounds]

theorem getLsbD_and_not_eq_true_iff (flags masks : Half) (n : Nat) :
    (flags &&& ~~~masks).getLsbD n = true ↔ flags.getLsbD n = true ∧ masks.getLsbD n = false := by
  rw [BitVec.getLsbD_and, BitVec.getLsbD_not, Bool.and_eq_true, Bool.and_eq_true, decide_eq_true_iff,
    Bool.not_eq_true']
  exact ⟨fun ⟨latched, _, unmasked⟩ => ⟨latched, unmasked⟩,
    fun ⟨latched, unmasked⟩ => ⟨latched, BitVec.lt_of_getLsbD latched, unmasked⟩⟩

theorem and_not_ne_zero_iff (flags masks : Half) :
    flags &&& ~~~masks ≠ 0#16 ↔ ∃ n : Nat, flags.getLsbD n = true ∧ masks.getLsbD n = false := by
  simp only [ne_eq, BitVec.zero_iff_eq_false, not_forall, Bool.not_eq_false, getLsbD_and_not_eq_true_iff]

/-- R182: the line asks for the enable and for one flag that is latched and unmasked. -/
theorem noticeLine_iff (s : State) :
    s.noticeLine = true ↔ s.notices.enable = true ∧
      ∃ n : Nat, s.notices.flags.getLsbD n = true ∧ s.notices.masks.getLsbD n = false := by
  rw [State.noticeLine, Bool.and_eq_true, bne_iff_ne, and_not_ne_zero_iff]

/-! ## NOTICE_READ (R185) -/

theorem exec_noticeRead {s : State} (listening : s.Listening) (tag : Byte) :
    exec (.noticeRead tag) s = .next (s.openRequest Kind.noticeRead.code tag).takeNoticeRead :=
  congrArg Host.Outcome.next (listening.requestFrame (i := .noticeRead tag) rfl (Nat.zero_le _) rfl)

/-- Opening the request leaves the notice unit as it stands, so the reply shows the flags, masks and enable of `s`. -/
theorem openRequest_takeNoticeRead (s : State) (kind tag : Byte) :
    (s.openRequest kind tag).takeNoticeRead = s.replied kind tag .done .none
      (le16 s.notices.flags ++ le16 s.notices.masks ++ [if s.notices.enable then 1#8 else 0#8]) :=
  State.openRequest_done s kind tag .none _

/-- Settles O32: the frame reaches the notice unit, whose reply is its two half-words, low byte first, and the enable,
over the unchanged state. -/
theorem noticeReadReportsFlags : Obligations.NoticeReadReportsFlags := by
  unfold Obligations.NoticeReadReportsFlags
  intro s tag listening
  rw [exec_noticeRead listening, openRequest_takeNoticeRead]
  rfl -- the kind byte of NOTICE_READ is 06 hex

/-! ## NOTICE_MASK (R184) -/

theorem exec_noticeMask {s : State} (listening : s.Listening) (tag : Byte) (masks : Half) (enable : Byte) :
    exec (.noticeMask tag masks enable) s =
      .next ((s.openRequest Kind.noticeMask.code tag).takeNoticeMask masks enable) :=
  have fits : (le16 masks ++ [enable]).length ≤ 1024 := by simp [le16]
  congrArg Host.Outcome.next (listening.requestFrame (i := .noticeMask tag masks enable) rfl fits rfl)

theorem openRequest_takeNoticeMask_of_bad_enable (s : State) (kind tag : Byte) (masks : Half) {enable : Byte}
    (bad : 1 < enable.toNat) :
    (s.openRequest kind tag).takeNoticeMask masks enable = s.replied kind tag .refused .range [] := by
  rw [State.takeNoticeMask, if_pos bad, State.openRequest_refuse]

/-- A reply DONE to a request that changed the notice unit alone. -/
theorem openRequest_done_with_notices (s : State) (kind tag : Byte) (n : Notices) (payload : List Byte) :
    State.done .none payload { s.openRequest kind tag with notices := n } =
      State.replied kind tag .done .none payload { s with notices := n } :=
  State.onLink_answer (s := s) (t := { s with notices := n }) rfl kind tag .done .none payload

/-- The masks of the set as it is read and the enable take their values together; the flags stay. -/
theorem openRequest_takeNoticeMask_of_good_enable (s : State) (kind tag : Byte) (masks : Half) {enable : Byte}
    (good : ¬ 1 < enable.toNat) :
    (s.openRequest kind tag).takeNoticeMask masks enable = State.replied kind tag .done .none []
      { s with notices := { flags := s.notices.flags, masks := readFlags masks, enable := decide (enable = 1#8) } } := by
  rw [State.takeNoticeMask, if_neg good]
  exact openRequest_done_with_notices s kind tag _ []

/-- Settles O34: the range check on the enable byte decides between the two outcomes, the masks kept are the set as it
is read, and the line follows the notice unit as the request leaves it. -/
theorem noticeMaskReplacesMasks : Obligations.NoticeMaskReplacesMasks := by
  unfold Obligations.NoticeMaskReplacesMasks
  intro s tag masks enable listening
  rw [exec_noticeMask listening]
  constructor
  · intro not_off not_on
    have bad : 1 < enable.toNat := by bv_omega
    rw [openRequest_takeNoticeMask_of_bad_enable s _ tag masks bad]
    rfl -- the kind byte of NOTICE_MASK is 08 hex
  · intro off_or_on
    have good : ¬ 1 < enable.toNat := by rcases off_or_on with rfl | rfl <;> decide
    rw [openRequest_takeNoticeMask_of_good_enable s _ tag masks good]
    refine ⟨readFlags masks, getLsbD_readFlags masks, _, rfl, rfl, ?_⟩
    rw [noticeLine_iff]
    exact and_congr_left' decide_eq_true_iff

end Sys2Proof.Proofs
end

section
/-! SETUP_READ (R190): the count of its ids, the ids it refuses, and the pairs it reports. -/

namespace Sys2Proof.Proofs

open Sys2Proof Sys2Proof.Machine

/-! ## From the frame to the setup table -/

/-- While the part listens, a frame that passes the receiver's length check opens its request (R168, R171), whatever
the number of its units. -/
theorem requestFrame_eq_takeRequest {s : State} (listening : s.Listening) {i : Instr} {kind : Kind} {tag : Byte}
    {payload : List Byte} (carries : i.request? = some (kind, tag, payload)) (fits : payload.length ≤ 1024) :
    s.requestFrame i = (s.openRequest kind.code tag).takeRequest i := by
  have received : s.frameFits payload = true := by
    simp [State.frameFits, fitsFrame, Config.maxPayload, listening.hunting, fits]
  simp [State.requestFrame, State.wholeFrame, listening.outOfReset, listening.ready, carries, received]

/-- The link refuses a request with too few or too many units itself: it reaches no block (R170). -/
theorem requestFrame_of_lengthOk_eq_false {s : State} (listening : s.Listening) {i : Instr} {kind : Kind} {tag : Byte}
    {payload : List Byte} (carries : i.request? = some (kind, tag, payload)) (fits : payload.length ≤ 1024)
    (bad : i.lengthOk = false) : s.requestFrame i = s.replied kind.code tag .refused .length [] := by
  rw [requestFrame_eq_takeRequest listening carries fits, State.takeRequest, bad, if_neg Bool.false_ne_true,
    State.openRequest_refuse]

theorem setupRead_lengthOk_iff (tag : Byte) (ids : List Byte) :
    (Instr.setupRead tag ids).lengthOk = true ↔ 1 ≤ ids.length ∧ ids.length ≤ 32 := by
  rw [Instr.lengthOk, Bool.and_eq_true, decide_eq_true_iff, decide_eq_true_iff]

theorem exec_setupRead {s : State} (listening : s.Listening) (tag : Byte) {ids : List Byte} (some_id : 1 ≤ ids.length)
    (at_most : ids.length ≤ 32) :
    exec (.setupRead tag ids) s = .next ((s.openRequest Kind.setupRead.code tag).takeSetupRead ids) :=
  have fits : ids.length ≤ 1024 := by omega
  have counted := (setupRead_lengthOk_iff tag ids).mpr ⟨some_id, at_most⟩
  congrArg Host.Outcome.next (listening.requestFrame (i := .setupRead tag ids) rfl fits counted)

theorem exec_setupRead_of_bad_count {s : State} (listening : s.Listening) (tag : Byte) {ids : List Byte}
    (fits : ids.length ≤ 1024) (bad : ids.length = 0 ∨ 32 < ids.length) :
    exec (.setupRead tag ids) s = .next (s.replied Kind.setupRead.code tag .refused .length []) :=
  have miscounted : (Instr.setupRead tag ids).lengthOk = false := by
    rw [Bool.eq_false_iff, ne_eq, setupRead_lengthOk_iff]
    omega
  congrArg Host.Outcome.next
    (requestFrame_of_lengthOk_eq_false listening (i := .setupRead tag ids) rfl fits miscounted)

/-! ## The setup table's answer -/

theorem all_ids_listed_iff (ids : List Byte) :
    (ids.all fun i => (Param.ofId i).isSome) = true ↔ ∀ i ∈ ids, Param.ofId i ≠ none := by
  simp only [List.all_eq_true, Option.isSome_iff_ne_none]

/-- Opening the request leaves the table as it stands, so the pairs are those of `s`. -/
theorem openRequest_takeSetupRead_of_listed (s : State) (kind tag : Byte) {ids : List Byte}
    (listed : ∀ i ∈ ids, Param.ofId i ≠ none) :
    (s.openRequest kind tag).takeSetupRead ids =
      s.replied kind tag .done .none (ids.flatMap s.setup.pairBytes) := by
  rw [State.takeSetupRead, if_pos ((all_ids_listed_iff ids).mpr listed), State.openRequest_done]
  rfl

theorem openRequest_takeSetupRead_of_unlisted (s : State) (kind tag : Byte) {ids : List Byte}
    (unlisted : ∃ i ∈ ids, Param.ofId i = none) :
    (s.openRequest kind tag).takeSetupRead ids = s.replied kind tag .refused .range [] := by
  obtain ⟨i, mem, no_param⟩ := unlisted
  have not_all : ¬ (ids.all fun i => (Param.ofId i).isSome) = true :=
    fun all_listed => (all_ids_listed_iff ids).mp all_listed i mem no_param
  rw [State.takeSetupRead, if_neg not_all, State.openRequest_refuse]

/-- A pair is the id and the stored value's four bytes, low byte first. -/
theorem pairBytes_eq (t : Setup) (i : Byte) :
    t.pairBytes i = i :: le32 (BitVec.ofNat 32
      (match Param.ofId i with
       | some p => t.get p
       | none => 0)) := by
  unfold Setup.pairBytes bytes4
  cases Param.ofId i <;> rfl

/-- Settles O30: a wrong count is refused by the link; else the table refuses an id that is not listed, and otherwise
answers one pair per id. -/
theorem setupReadReportsStoredValues : Obligations.SetupReadReportsStoredValues := by
  unfold Obligations.SetupReadReportsStoredValues
  intro s tag ids listening fits
  refine ⟨fun some_id at_most listed => ?_, fun some_id at_most unlisted => ?_, fun bad => ?_⟩
  · rw [exec_setupRead listening tag some_id at_most, openRequest_takeSetupRead_of_listed s _ tag listed,
      funext (pairBytes_eq s.setup)]
    rfl -- the kind byte of SETUP_READ is 05 hex, here and below
  · rw [exec_setupRead listening tag some_id at_most, openRequest_takeSetupRead_of_unlisted s _ tag unlisted]
    rfl
  · rw [exec_setupRead_of_bad_count listening tag fits bad]
    rfl

end Sys2Proof.Proofs
end

section
/-! What every step keeps: the cases of `Took` taken once, and each invariant carried through them. -/

namespace Sys2Proof.Proofs

open Sys2Proof Sys2Proof.Machine

/-! ## From the parts of the model to a step -/

/-- What it takes for a property to be kept by every step: it does not look at the link, the notice unit or the waiting
commands, a full reset brings it about, and each thing a command can do to the other blocks keeps it. -/
structure KeptByParts (P : State → Prop) : Prop where
  blind    : ∀ (s : State) (l : Link) (n : Notices) (q : List Instr), P s →
               P { s with link := l, notices := n, pending := q }
  reset    : ∀ s : State, P s.beginReset
  moment   : ∀ (s : State) (m : Moment), s.due m = true → P s → P (s.take m)
  ramp     : ∀ (s : State) (r : RampId), P s → P { s with synth := s.synth.finishRamp r }
  settle   : ∀ s : State, P s → P s.settle
  produce  : ∀ (s : State) (trig : Bool) (currents : PerPhase Nat), P s → P (s.produce trig currents)
  work     : ∀ s : State, P s → P s.completeWork
  handOver : ∀ (s : State) (i : Instr), P s → P (s.handOver i)

section
variable {P : State → Prop}

theorem KeptByParts.onLink (keeps : KeptByParts P) {s : State} (h : P s) (l : Link) : P { s with link := l } :=
  keeps.blind s l s.notices s.pending h

theorem KeptByParts.latch (keeps : KeptByParts P) {s : State} (h : P s) (n : Notice) : P (s.latch n) :=
  keeps.blind s s.link _ s.pending h

theorem KeptByParts.answer (keeps : KeptByParts P) {s : State} (h : P s) (outcome : ReplyOutcome) (detail : Detail)
    (payload : List Byte) : P (s.answer outcome detail payload) := by
  unfold State.answer
  split
  · exact h
  · exact keeps.onLink h _

theorem KeptByParts.takeRequest (keeps : KeptByParts P) {s : State} (h : P s) (i : Instr) : P (s.takeRequest i) := by
  unfold State.takeRequest
  split
  · exact keeps.handOver s i h
  · exact keeps.answer h _ _ _

theorem KeptByParts.takeParsed (keeps : KeptByParts P) {s : State} (h : P s) (p : Parsed) : P (s.takeParsed p) := by
  cases p with
  | request i => exact keeps.handOver s i h
  | emptyForce => exact keeps.answer h _ _ _
  | badLength => exact keeps.answer h _ _ _

theorem KeptByParts.takeFrame (keeps : KeptByParts P) {s : State} (h : P s) (kind tag : Byte) (payload : List Byte)
    (good : Bool) : P (s.takeFrame kind tag payload good) := by
  have opened : P (s.openRequest kind tag) := keeps.onLink h _
  unfold State.takeFrame
  dsimp only
  split
  · split
    · exact keeps.answer opened _ _ _
    · exact keeps.takeParsed opened _
  · exact keeps.answer opened _ _ _

theorem KeptByParts.discardFrame (keeps : KeptByParts P) {s : State} (h : P s) : P s.discardFrame :=
  keeps.latch (keeps.onLink h _) _

theorem KeptByParts.heard (keeps : KeptByParts P) {s t : State} (h : P s) (heard : Heard s t) : P t := by
  cases heard with
  | same => exact h
  | stored rx => exact keeps.onLink h _
  | begun =>
    unfold State.beginFrame State.latchIf
    split
    · exact keeps.latch (keeps.onLink h _) _
    · exact keeps.onLink h _
  | discarded => exact keeps.discardFrame h
  | dropped => exact keeps.onLink h _
  | taken => exact keeps.takeFrame (keeps.onLink h _) _ _ _ _

theorem KeptByParts.completeOverdue (keeps : KeptByParts P) {s : State} (h : P s) : P s.completeOverdue := by
  unfold State.completeOverdue
  split
  · exact keeps.work s h
  · exact h

theorem KeptByParts.took (keeps : KeptByParts P) {s t : State} (h : P s) (took : Took s t) : P t := by
  cases took with
  | same => exact h
  | reset => exact keeps.reset s
  | restart => exact keeps.latch (keeps.onLink h _) _
  | moment m due => exact keeps.moment s m due h
  | ramp r => exact keeps.ramp s r h
  | sample trig currents => exact keeps.produce _ trig currents (keeps.completeOverdue (keeps.settle s h))
  | work => exact keeps.work s h
  | request i => exact keeps.takeRequest (keeps.onLink h _) i
  | frame kind tag payload good => exact keeps.takeFrame h kind tag payload good
  | overrun => exact keeps.latch h _
  | bytes bs => exact State.feed_keeps (fun _ _ => keeps.heard) bs s h
  | broken =>
    unfold State.brokenByte
    split
    · exact h
    all_goals exact keeps.discardFrame h
  | gap => exact keeps.discardFrame h
  | sent => exact keeps.onLink h _

end

/-- A step idles, or has one of the results of `Took` with the queue's rest. -/
theorem step_cases {s t : State} (h : step s = .next t) :
    t = s ∨ ∃ rest, Took (s.withPending rest) t := by
  unfold step at h
  split at h
  · cases h
    exact .inl rfl
  · exact .inr ⟨_, exec_took h⟩

theorem KeptByParts.step {P : State → Prop} (keeps : KeptByParts P) {s t : State} (h : P s)
    (hstep : step s = .next t) : P t := by
  obtain rfl | ⟨rest, took⟩ := step_cases hstep
  · exact h
  · exact keeps.took (keeps.blind s s.link s.notices rest h) took

/-- Two properties of which the second is kept where the first holds. -/
theorem KeptByParts.and {P Q : State → Prop} (hP : KeptByParts P)
    (blind : ∀ (s : State) (l : Link) (n : Notices) (q : List Instr), Q s →
      Q { s with link := l, notices := n, pending := q })
    (reset : ∀ s : State, Q s.beginReset)
    (moment : ∀ (s : State) (m : Moment), P s → s.due m = true → Q s → Q (s.take m))
    (ramp : ∀ (s : State) (r : RampId), P s → Q s → Q { s with synth := s.synth.finishRamp r })
    (settle : ∀ s : State, P s → Q s → Q s.settle)
    (produce : ∀ (s : State) (trig : Bool) (currents : PerPhase Nat), P s → Q s → Q (s.produce trig currents))
    (work : ∀ s : State, P s → Q s → Q s.completeWork)
    (handOver : ∀ (s : State) (i : Instr), P s → Q s → Q (s.handOver i)) :
    KeptByParts fun s => P s ∧ Q s where
  blind s l n q h := ⟨hP.blind s l n q h.1, blind s l n q h.2⟩
  reset s := ⟨hP.reset s, reset s⟩
  moment s m due h := ⟨hP.moment s m due h.1, moment s m h.1 due h.2⟩
  ramp s r h := ⟨hP.ramp s r h.1, ramp s r h.1 h.2⟩
  settle s h := ⟨hP.settle s h.1, settle s h.1 h.2⟩
  produce s trig currents h := ⟨hP.produce s trig currents h.1, produce s trig currents h.1 h.2⟩
  work s h := ⟨hP.work s h.1, work s h.1 h.2⟩
  handOver s i h := ⟨hP.handOver s i h.1, handOver s i h.1 h.2⟩

/-! ## The state after a full reset -/

theorem reset_slot {k : Nat} {slot : Slot} (h : Store.reset.slots[k]? = some slot) :
    k = 0 ∧ slot = Slot.sine ∨ k ≠ 0 ∧ slot = Slot.reset := by
  rw [Store.reset, getElem?_set, Vector.getElem?_replicate] at h
  by_cases hk : 0 = k
  · subst hk
    simpa [eq_comm] using h
  · rw [if_neg hk] at h
    split at h
    · exact .inr ⟨Ne.symm hk, (Option.some.inj h).symm⟩
    · cases h

theorem reset_library (i : Nat) (e : TemplateEntry) : State.reset.library[i]? ≠ some (some e) := by
  simp [State.reset, Vector.getElem?_replicate]

theorem reset_phrases (i : Nat) (e : PhraseEntry) : State.reset.phrases[i]? ≠ some (some e) := by
  simp [State.reset, Vector.getElem?_replicate]

/-- The library is empty after a full reset, so no slot is named. -/
theorem reset_templatesOnSlot (k : Nat) : State.reset.templatesOnSlot k = 0 := by
  simp [State.templatesOnSlot, State.reset]

theorem reset_refsOk (s : State) : s.beginReset.RefsOk where
  slots k slot h := by
    have named : s.beginReset.templatesOnSlot k = 0 := reset_templatesOnSlot k
    rw [named]
    rcases reset_slot h with ⟨_, rfl⟩ | ⟨_, rfl⟩ <;> rfl
  templates i e h := absurd h (reset_library i e)
  phrases i e h := absurd h (reset_phrases i e)
  dictionary i e h := absurd h (reset_phrases i e)
  cueTemplates c h := absurd h List.not_mem_nil
  cuePhrases c h := absurd h List.not_mem_nil

theorem reset_storeOk : Store.reset.Ok where
  sine slot h := by
    rcases reset_slot h with ⟨_, rfl⟩ | ⟨absurd_index, _⟩
    · exact ⟨rfl, rfl, rfl⟩
    · exact absurd rfl absurd_index
  slots k slot hk h := by
    rcases reset_slot h with ⟨zero, _⟩ | ⟨_, rfl⟩
    · exact absurd zero hk
    · rfl
  work job h := by cases h
  spare := Nat.zero_le _

theorem reset_inRange : Setup.reset.InRange := by
  unfold Setup.InRange
  decide

theorem reset_quietOk (s : State) : s.beginReset.QuietOk where
  phases _ p h := by
    simp only [State.beginReset, State.reset, Synth.reset, PerPhase.toList, List.mem_cons, List.not_mem_nil,
      or_false] at h
    rcases h with rfl | rfl | rfl <;> exact ⟨rfl, rfl, rfl, rfl, rfl⟩
  freqRamp _ := rfl
  gains _ := rfl
  counters _ := rfl

theorem reset_linkOk (s : State) : s.beginReset.LinkOk := by
  constructor <;> simp [State.beginReset, State.reset, Link.resetting, Store.reset, Receiver.idle]

theorem reset_portsOk : Ports.reset.Ok := by
  constructor <;> decide

/-! ## Each invariant through the parts -/

theorem runOk_kept : KeptByParts State.RunOk where
  blind _ _ _ _ h := h.of_eq rfl rfl rfl rfl
  reset := State.beginReset_runOk
  moment _ m due h := State.take_runOk m h due
  ramp _ _ h := h.of_eq rfl rfl rfl rfl
  settle _ h := State.settle_runOk h
  produce _ trig currents h := State.produce_runOk trig currents h
  work _ h := State.completeWork_runOk h
  handOver _ i h := State.handOver_runOk i h

theorem cuesOk_kept : KeptByParts State.CuesOk where
  blind _ _ _ _ h := h.of_eq rfl rfl rfl
  reset := State.beginReset_cuesOk
  moment _ m _ h := State.take_cuesOk m h
  ramp _ _ h := h.of_eq rfl rfl rfl
  settle _ h := State.settle_cuesOk h
  produce _ _ _ h := h.of_eq (by simp) (by simp) (by simp)
  work _ h := h.of_eq (by simp) (by simp) (by simp)
  handOver _ i h := State.handOver_cuesOk i h

theorem refsOk_kept : KeptByParts State.RefsOk where
  blind _ _ _ _ h := h.of_eq rfl rfl rfl rfl
  reset := reset_refsOk
  moment _ m _ h := State.take_refsOk m h
  ramp _ _ h := h.of_eq rfl rfl rfl rfl
  settle _ h := State.settle_refsOk h
  produce _ trig currents h := State.produce_refsOk trig currents h
  work _ h := State.completeWork_refsOk h
  handOver _ i h := State.handOver_refsOk i h

/-- ARMED takes its first staged step from what the refcounts keep defined (R61), so the slot's invariant is kept with
those of the run and the refcounts. -/
theorem slotOk_kept : KeptByParts fun s => (s.RunOk ∧ s.RefsOk) ∧ s.SlotOk :=
  .and
    (runOk_kept.and refsOk_kept.blind refsOk_kept.reset (fun s m _ => refsOk_kept.moment s m)
      (fun s r _ => refsOk_kept.ramp s r) (fun s _ => refsOk_kept.settle s)
      (fun s trig currents _ => refsOk_kept.produce s trig currents) (fun s _ => refsOk_kept.work s)
      fun s i _ => refsOk_kept.handOver s i)
    (blind := fun _ _ _ _ h => h.of_eq rfl rfl)
    (reset := State.beginReset_slotOk)
    (moment := fun _ m _ due h => State.take_slotOk m h due)
    (ramp := fun _ _ _ h => h.of_eq rfl rfl)
    (settle := fun _ _ h => State.settle_slotOk h)
    (produce := fun _ trig currents _ h => State.produce_slotOk trig currents h)
    (work := fun _ _ h => h.of_eq (by simp) (by simp))
    (handOver := fun _ i kept h => State.handOver_slotOk i kept.2 kept.1 h)

theorem handOver_inRange {s : State} (i : Instr) (h : s.setup.InRange) : (s.handOver i).setup.InRange := by
  cases i
  case setupWrite tag pairs => exact State.takeSetupWrite_inRange pairs h
  all_goals simpa [State.handOver] using h

theorem inRange_kept : KeptByParts fun s => s.setup.InRange where
  blind _ _ _ _ h := h
  reset _ := reset_inRange
  moment _ _ _ h := by simpa using h
  ramp _ _ h := h
  settle _ h := by simpa using h
  produce _ _ _ h := by simpa using h
  work _ h := by simpa using h
  handOver _ i h := handOver_inRange i h

theorem ramp_quietOk {s : State} (r : RampId) (h : s.QuietOk) :
    State.QuietOk { s with synth := s.synth.finishRamp r } where
  phases low := by
    rw [(Synth.finishRamp_quiet r (h.freqRamp low) (h.phases low)).2]
    exact h.phases low
  freqRamp low := (Synth.finishRamp_quiet r (h.freqRamp low) (h.phases low)).1
  gains := h.gains
  counters := h.counters

theorem quietOk_kept : KeptByParts fun s => s.setup.InRange ∧ s.QuietOk :=
  inRange_kept.and
    (blind := fun _ _ _ _ h => h.of_eq rfl rfl rfl rfl rfl)
    (reset := reset_quietOk)
    (moment := fun _ m _ _ h => State.take_quietOk m h)
    (ramp := fun _ r _ h => ramp_quietOk r h)
    (settle := fun _ _ h => State.settle_quietOk h)
    (produce := fun _ trig currents _ h => State.produce_quietOk trig currents h)
    (work := fun _ _ h => h.of_eq (by simp) (by simp) (by simp) (by simp) (by simp))
    (handOver := fun _ i inRange h => State.handOver_quietOk i h inRange)

theorem levelsOk_kept : KeptByParts fun s => s.setup.InRange ∧ s.LevelsOk :=
  inRange_kept.and
    (blind := fun _ _ _ _ h => h.of_eq rfl rfl rfl rfl rfl)
    (reset := State.beginReset_levelsOk)
    (moment := fun _ m inRange _ h => State.take_levelsOk m h inRange)
    (ramp := fun _ r _ h => h.of_synth rfl (.inl rfl) (h.synth.finishRamp r) rfl rfl)
    (settle := fun _ inRange h => State.settle_levelsOk h inRange)
    (produce := fun _ trig currents inRange h => State.produce_levelsOk trig currents h inRange)
    (work := fun _ _ h => h.of_eq (by simp) (by simp) (by simp) (by simp) (by simp))
    (handOver := fun _ i inRange h => State.handOver_levelsOk i h inRange)

theorem resultsOk_kept : KeptByParts fun s => s.results.Ok where
  blind _ _ _ _ h := h
  reset _ := ResultQueue.reset_ok
  moment _ m _ h := State.take_resultsOk m h
  ramp _ _ h := h
  settle _ h := State.settle_resultsOk h
  produce _ _ _ h := by simpa using h
  work _ h := by simpa using h
  handOver _ i h := State.handOver_resultsOk i h

theorem saturate_range (code : Int) : -32768 ≤ saturate code ∧ saturate code ≤ 32767 := by
  unfold saturate
  omega

/-- The codes are saturated where they are computed, and 0 where OUTEN is low (R15, R16). -/
theorem linesOf_ok (before : Word) (s : State) : (s.linesOf before).Ok where
  range x h := by
    simp only [State.linesOf, State.emitted] at h
    split at h
    · simp only [PerPhase.toList, PerPhase.map, List.mem_cons, List.not_mem_nil, or_false] at h
      rcases h with rfl | rfl | rfl <;> exact saturate_range _
    · simp only [PerPhase.toList, PerPhase.same, List.mem_cons, List.not_mem_nil, or_false, or_self] at h
      subst h
      decide
  quiet low := by
    have not_driven : ¬ s.seq.run.driven = true := by simpa [State.linesOf] using low
    simp only [State.linesOf, State.emitted, if_neg not_driven]

theorem portsOk_kept : KeptByParts fun s => s.ports.Ok where
  blind _ _ _ _ h := h
  reset _ := reset_portsOk
  moment _ _ _ h := by simpa using h
  ramp _ _ h := h
  settle _ h := by simpa using h
  produce s trig currents _ := by
    rw [State.produce_ports]
    exact linesOf_ok _ _
  work _ h := by simpa using h
  handOver _ i h := by simpa using h

/-! ## The link and the link-side work -/

/-- A sample serves the work in progress and neither begins nor ends any (R38). -/
theorem produce_job (s : State) (trig : Bool) (currents : PerPhase Nat) :
    (s.produce trig currents).store.job.isSome = s.store.job.isSome := by
  simp [State.produce]

theorem produce_linkOk {s : State} (trig : Bool) (currents : PerPhase Nat) (h : s.LinkOk) :
    (s.produce trig currents).LinkOk :=
  h.of_eq (by simp) (produce_job s trig currents)

theorem produce_storeOk {s : State} (trig : Bool) (currents : PerPhase Nat) (h : s.store.Ok) :
    (s.produce trig currents).store.Ok := by
  unfold State.produce
  exact State.serveWork_storeOk (by simpa using h)

theorem completeOverdue_linkOk {s : State} (h : s.LinkOk) : s.completeOverdue.LinkOk := by
  unfold State.completeOverdue
  split
  · exact State.completeWork_linkOk h
  · exact h

theorem completeOverdue_storeOk {s : State} (h : s.store.Ok) : s.completeOverdue.store.Ok := by
  unfold State.completeOverdue
  split
  · exact State.completeWork_storeOk h
  · exact h

theorem brokenByte_heard (s : State) : Heard s s.brokenByte := by
  unfold State.brokenByte
  split
  · exact .same
  all_goals exact .discarded

/-- READY rises with the completion of a full reset (R171). -/
theorem restart_linkOk {s : State} (h : s.LinkOk) (inReset : s.link.inReset = true) (baud : Nat) :
    (State.latch .restarted
      { s with link := { s.link with ready := true, inReset := false, baud := baud } }).LinkOk := by
  obtain ⟨none_in_progress, idle⟩ := h.inReset inReset
  constructor
  case ready => simp [none_in_progress]
  case inReset => simp
  case progress => simpa using h.progress
  case both => simpa using h.both
  case names => simpa using h.names
  case unmarked => simp
  case hunting => simp [idle]

/-- READY rises with the last byte of a reply, and the request that it answered ends (R171). -/
theorem sent_linkOk {s : State} (h : s.LinkOk) {r : Reply} (replied : s.link.reply = some r) :
    State.LinkOk { s with link := { s.link with ready := true, inProgress := none, reply := none } } := by
  have no_job : s.store.job = none := by
    have not_both := h.both
    simpa [replied] using not_both
  have out_of_reset : s.link.inReset = false := by
    by_contra in_reset
    have none_in_progress := (h.inReset (by simpa using in_reset)).1
    simpa [none_in_progress] using h.names r replied
  constructor
  case ready => simp [out_of_reset]
  case inReset => simp [out_of_reset]
  case progress => simp [no_job]
  case both => simp
  case names => simp
  case unmarked => simp
  case hunting => exact h.hunting

theorem takeRequest_storeOk {s : State} (i : Instr) (h : s.store.Ok) (no_job : s.store.job = none) :
    (s.takeRequest i).store.Ok := by
  unfold State.takeRequest
  split
  · exact State.handOver_storeOk i h no_job
  · simpa using h

/-- The link and the shape store together: while READY is high no work is in progress, so a request that clears a slot
meets no append to it. -/
theorem linkAndStore_took {s t : State} (link : s.LinkOk) (store : s.store.Ok) (took : Took s t) :
    t.LinkOk ∧ t.store.Ok := by
  cases took with
  | same => exact ⟨link, store⟩
  | reset => exact ⟨reset_linkOk s, reset_storeOk⟩
  | restart baud inReset => exact ⟨restart_linkOk link inReset baud, by simpa using store⟩
  | moment m => exact ⟨link.of_eq (by simp) (by simp), by simpa using store⟩
  | ramp r => exact ⟨link.of_eq rfl rfl, store⟩
  | sample trig currents =>
    have settled : s.settle.LinkOk := link.of_eq (by simp) (by simp)
    exact ⟨produce_linkOk _ _ (completeOverdue_linkOk settled),
      produce_storeOk _ _ (completeOverdue_storeOk (by simpa using store))⟩
  | work => exact ⟨State.completeWork_linkOk link, State.completeWork_storeOk store⟩
  | request i kind tag payload carries listening =>
    exact ⟨link.served listening.ready listening.hunting kind.code tag (State.takeRequest_served carries _),
      takeRequest_storeOk i store (link.noJob listening.ready)⟩
  | frame kind tag payload good listening =>
    exact ⟨link.served listening.ready listening.hunting kind tag (State.takeFrame_served kind tag payload good s),
      State.takeFrame_storeOk kind tag payload good store (link.noJob listening.ready)⟩
  | overrun => exact ⟨link.of_eq rfl rfl, store⟩
  | bytes bs =>
    exact State.feed_keeps (P := fun u => u.LinkOk ∧ u.store.Ok)
      (fun _ _ kept heard => ⟨kept.1.heard heard, kept.1.heard_storeOk kept.2 heard⟩) bs s ⟨link, store⟩
  | broken => exact ⟨link.heard (brokenByte_heard s), link.heard_storeOk store (brokenByte_heard s)⟩
  | gap => exact ⟨link.heard .discarded, link.heard_storeOk store .discarded⟩
  | sent r replied => exact ⟨sent_linkOk link replied, store⟩

/-! ## The statements -/

/-- Settles O57: a step idles or takes one of the cases of `Took`, and each of these keeps the two invariants
together. -/
theorem stepKeepsLinkAndStore : Obligations.StepKeepsLinkAndStore := by
  unfold Obligations.StepKeepsLinkAndStore
  intro s t link store hstep
  obtain rfl | ⟨rest, took⟩ := step_cases hstep
  · exact ⟨link, store⟩
  · exact linkAndStore_took (s := s.withPending rest) (link.of_eq rfl rfl) store took

/-- Settles O58: the three invariants are kept by the parts; the slot's goes with those of the run and the refcounts. -/
theorem stepKeepsRun : Obligations.StepKeepsRun := by
  unfold Obligations.StepKeepsRun
  refine ⟨fun s t h => runOk_kept.step h, fun s t h => cuesOk_kept.step h, fun s t run refs slot hstep => ?_⟩
  exact (slotOk_kept.step ⟨⟨run, refs⟩, slot⟩ hstep).2

/-- Settles O59: each invariant is kept by the parts; rest and levels go with the ranges of the setup table, whose
nominal frequency and gain floor they take. -/
theorem stepKeepsRestAndRanges : Obligations.StepKeepsRestAndRanges := by
  unfold Obligations.StepKeepsRestAndRanges
  refine ⟨fun s t quiet inRange results ports hstep => ?_, fun s t inRange levels hstep => ?_⟩
  · obtain ⟨inRange', quiet'⟩ := quietOk_kept.step ⟨inRange, quiet⟩ hstep
    exact ⟨quiet', inRange', resultsOk_kept.step results hstep, portsOk_kept.step ports hstep⟩
  · exact (levelsOk_kept.step ⟨inRange, levels⟩ hstep).2

/-- Settles O60: the refcounts are kept by the parts. -/
theorem stepKeepsRefcounts : Obligations.StepKeepsRefcounts := by
  unfold Obligations.StepKeepsRefcounts
  exact fun s t h => refsOk_kept.step h

/-- A full reset brings about what the parts keep, and `State.reset` differs from it in the link and RESTARTED alone. -/
theorem KeptByParts.initially {P : State → Prop} (keeps : KeptByParts P) : P State.reset :=
  keeps.blind _ State.reset.link State.reset.notices [] (keeps.reset State.reset)

/-- Settles O56: what the parts keep holds after a full reset; the link's and the store's invariants are read off the
reset values. -/
theorem resetMeetsInvariants : Obligations.ResetMeetsInvariants := by
  unfold Obligations.ResetMeetsInvariants
  have link : State.reset.LinkOk := restart_linkOk (reset_linkOk State.reset) rfl 115200
  exact ⟨link, reset_storeOk, runOk_kept.initially, quietOk_kept.initially.2, inRange_kept.initially,
    resultsOk_kept.initially, portsOk_kept.initially, refsOk_kept.initially, cuesOk_kept.initially,
    slotOk_kept.initially.2, levelsOk_kept.initially.2⟩

end Sys2Proof.Proofs
end

section
/-! Steps, resets and whole requests: every command answers a next state, a full reset abandons everything, and a request
that arrives while the part listens is handed to its block. -/

namespace Sys2Proof.Proofs

open Sys2Proof Sys2Proof.Machine

/-! ## Every command answers a next state -/

/-- A command that is a request is its frame arriving whole. -/
theorem exec_request {c : Instr} (is_request : c.request?.isSome = true) (s : State) :
    exec c s = .next (s.requestFrame c) := by
  cases c
  case powerOn | resetN | fullResetComplete | sample | rampComplete | qualifiedEdge | stepStart | stepEnd |
      endMarkerHandover | triggerTimeout | trip | stopRampComplete | byteReceived | gapTimeout | badframe | unknownKind |
      replySent | shapeAppendComplete | shapeSumComplete | shapeCompareComplete => simp [Instr.request?] at is_request
  all_goals rfl

theorem exec_answers (c : Instr) (s : State) : ∃ t, exec c s = .next t := by
  by_cases is_request : c.request?.isSome = true
  · exact ⟨_, exec_request is_request s⟩
  · cases c
    case replySent =>
      simp only [exec, execReplySent]
      split
      · exact ⟨_, rfl⟩
      · exact ⟨_, rfl⟩
    case shapeAppendComplete =>
      simp only [exec, execShapeAppendComplete]
      split <;> exact ⟨_, rfl⟩
    case shapeSumComplete =>
      simp only [exec, execShapeSumComplete]
      split <;> exact ⟨_, rfl⟩
    case shapeCompareComplete =>
      simp only [exec, execShapeCompareComplete]
      split <;> exact ⟨_, rfl⟩
    case powerOn | resetN | fullResetComplete | sample | rampComplete | qualifiedEdge | stepStart | stepEnd |
        endMarkerHandover | triggerTimeout | trip | stopRampComplete | byteReceived | gapTimeout | badframe |
        unknownKind => exact ⟨_, rfl⟩
    all_goals exact absurd rfl is_request

/-- No result of a command touches the waiting commands. -/
theorem took_pending {s t : State} (took : Took s t) : t.pending = s.pending := by
  cases took with
  | reset => rfl
  | moment m => simp
  | sample trig currents => simp
  | request i => simp
  | frame => simp
  | bytes bs => simp
  | broken => simp
  | gap => simp
  | work => simp
  | restart => simp
  | overrun => simp
  | same | ramp | sent => rfl

/-- Settles O2: no arm of `exec` stops, and none of the results of `Took` touches the queue. -/
theorem everyCommandRuns : Obligations.EveryCommandRuns := by
  unfold Obligations.EveryCommandRuns
  intro c s
  obtain ⟨t, answered⟩ := exec_answers c s
  exact ⟨t, answered, took_pending (exec_took answered)⟩

/-- Settles O1: `step` takes the front of the queue, and idles when there is none. -/
theorem stepRunsFrontCommand : Obligations.StepRunsFrontCommand := by
  unfold Obligations.StepRunsFrontCommand
  constructor
  · intro s c rest waiting
    unfold step
    rw [waiting]
    rfl
  · intro s idle
    unfold step
    rw [idle]

/-! ## Full resets -/

theorem requestFrame_in_reset {s : State} (in_reset : s.link.inReset = true) (c : Instr) : s.requestFrame c = s := by
  rw [State.requestFrame, if_pos in_reset]

theorem receiveByte_in_reset {s : State} (in_reset : s.link.inReset = true) (byte : Byte) (framingError : Bool) :
    s.receiveByte byte framingError = s := by
  rw [State.receiveByte, if_pos in_reset]

/-- Settles O3: `State.beginReset` gives the values at its beginning, and each command that needs a sample or a byte asks
first whether the reset is in progress. -/
theorem resetAbandonsEverything : Obligations.ResetAbandonsEverything := by
  unfold Obligations.ResetAbandonsEverything
  refine ⟨fun s => ⟨s.beginReset, rfl, rfl, rfl, rfl, rfl, rfl, rfl, rfl, rfl, rfl, rfl⟩, fun s in_reset => ?_⟩
  refine ⟨fun trig iA iB iC => ?_, fun byte framingError => ?_, fun c is_request => ?_,
    fun kind tag payload crcError => ?_, fun kind tag payload => ?_⟩
  · simp only [exec, execSample, if_pos in_reset]
  · simp only [exec, execByteReceived, receiveByte_in_reset in_reset]
  · rw [exec_request is_request, requestFrame_in_reset in_reset]
  · simp only [exec, execBadframe, if_pos in_reset]
  · simp only [exec, execUnknownKind, if_pos in_reset]

theorem exec_fullResetComplete {s : State} (in_reset : s.link.inReset = true) (strap2 strap1 : Bool) :
    exec (.fullResetComplete strap2 strap1) s = .next (State.latch .restarted
      { s with link := { s.link with ready := true, inReset := false, baud := strapRate strap2 strap1 } }) := by
  simp only [exec, execFullResetComplete, if_pos in_reset]

theorem reset_slots {k : Nat} (hk : k < 16) :
    Store.reset.slots[k]? =
      some { state := if k = 0 then .loaded else .empty, points := [], gen := 0#8, refcount := 0 } := by
  obtain ⟨slot, present⟩ : ∃ slot, Store.reset.slots[k]? = some slot := ⟨_, Vector.getElem?_eq_getElem hk⟩
  rcases reset_slot present with ⟨rfl, rfl⟩ | ⟨nonzero, rfl⟩
  · rfl
  · rw [present, if_neg nonzero]
    rfl

/-- Settles O4: the reset state of each block is read off its definition; RESTARTED alone latches. -/
theorem fullResetValues : Obligations.FullResetValues := by
  unfold Obligations.FullResetValues
  intro s strap2 strap1
  refine ⟨s.beginReset, _, rfl, exec_fullResetComplete rfl strap2 strap1, rfl, rfl, rfl, rfl, fun p => ?_,
    fun k hk => reset_slots hk, rfl, rfl, fun i hi => ?_, fun i hi => ?_, rfl, rfl, rfl, rfl, rfl, rfl, rfl, rfl, rfl,
    rfl, rfl, fun n => ?_, rfl, rfl, rfl, ?_, rfl⟩
  · cases p <;> rfl
  · exact (Vector.getElem?_replicate ..).trans (if_pos hi)
  · exact (Vector.getElem?_replicate ..).trans (if_pos hi)
  · have none_latched : State.latched n { s.beginReset with link := s.link } = false := BitVec.getLsbD_zero
    rw [State.latched_latch]
    exact (congrArg (· || decide (n = .restarted)) none_latched).trans (Bool.false_or _)
  · cases strap2 <;> cases strap1 <;> rfl

/-! ## Requests that arrive while the part listens -/

/-- A request with a number of units that its kind allows fits a frame (R168). -/
theorem request_fits {i : Instr} {kind : Kind} {tag : Byte} {payload : List Byte}
    (carries : i.request? = some (kind, tag, payload)) (counted : i.lengthOk = true) : payload.length ≤ 1024 := by
  cases i
  case setupWrite pairs =>
    cases carries
    simp only [Instr.lengthOk, Bool.and_eq_true, decide_eq_true_eq] at counted
    rw [Laws.pairs_length]
    omega
  case setupRead ids =>
    cases carries
    simp only [Instr.lengthOk, Bool.and_eq_true, decide_eq_true_eq] at counted
    omega
  case shapeAppend points =>
    cases carries
    simp only [Instr.lengthOk, Bool.and_eq_true, decide_eq_true_eq] at counted
    rw [List.length_cons, points_length]
    omega
  case shapeCompare points =>
    cases carries
    simp only [Instr.lengthOk, decide_eq_true_eq] at counted
    simp only [List.length_append, points_length, List.length_cons, List.length_nil, le16]
    omega
  case cueAdd cues =>
    cases carries
    simp only [Instr.lengthOk, Bool.and_eq_true, decide_eq_true_eq] at counted
    have bound := Laws.cues_length cues
    omega
  case templateDefine template =>
    cases carries
    simp [templateBytes, phaseBytes, le16, le32]
  all_goals
    cases carries
    try simp [le16]

/-- A request with the right units, arriving while the part listens, is handed to its block. -/
theorem exec_of_listening {s : State} (listening : s.Listening) {i : Instr} {kind : Kind} {tag : Byte}
    {payload : List Byte} (carries : i.request? = some (kind, tag, payload)) (counted : i.lengthOk = true) :
    exec i s = .next ((s.openRequest kind.code tag).handOver i) := by
  rw [exec_request (by rw [carries]; rfl), listening.requestFrame carries (request_fits carries counted) counted]

/-- Settles O5: RESET is answered DONE by the link itself; REPLY_SENT then asks whether the reply is that one. -/
theorem replySentRaisesReadyOrResets : Obligations.ReplySentRaisesReadyOrResets := by
  unfold Obligations.ReplySentRaisesReadyOrResets
  refine ⟨fun s tag listening => ⟨?_, rfl⟩, fun s r replied other => ?_⟩
  · rw [exec_of_listening listening (i := .reset tag) rfl rfl]
    exact congrArg Host.Outcome.next (State.openRequest_done s _ tag .none [])
  · have no_reset : ¬ r.resets = true := by
      simp only [Reply.resets, Bool.and_eq_true, beq_iff_eq, not_and]
      exact other
    simp only [exec, execReplySent, replied, if_neg no_reset]

end Sys2Proof.Proofs
end

section
/-! The arithmetic of the part: conversions, the crossing test, the CRC and the seven ramps. -/

namespace Sys2Proof.Proofs

open Sys2Proof Sys2Proof.Machine

/-! ## Conversions (R3, R6, R7) -/

/-- An angle below a full turn rounds to less than 2^32, so the stored phase is the rounded value itself (R6). -/
theorem phaseOf_toNat {t : Nat} (h : t < 3600) : (phaseOf t).toNat = (t * 2 ^ 32 + 1800) / 3600 := by
  unfold phaseOf
  rw [BitVec.toNat_ofNat, Nat.add_comm 1800, Nat.mul_comm (2 ^ 32)]
  omega

/-- Settles O13: each conversion is a rounded division of bounded numbers, and half a tenth is more than 2^32 / 7,200
phase units. -/
theorem conversionsRound : Obligations.ConversionsRound := by
  unfold Obligations.ConversionsRound
  refine ⟨fun f low high => ⟨?_, tuningOf_bounds ⟨low, high⟩⟩, fun t => phaseOf_toNat, fun theta => ?_, fun t h => ?_⟩
  · unfold tuningOf
    omega
  · have bound := theta.isLt
    unfold angleOf
    omega
  · have there := phaseOf_toNat h
    unfold angleOf
    omega

/-! ## The crossing test (R5, R109) -/

/-- Settles O16: the distance from the target to the prospective phase is below the tuning word exactly when the target
is one of the phases the sample turns through, counted back from the prospective one. -/
theorem crossingIsAnInterval : Obligations.CrossingIsAnInterval := by
  unfold Obligations.CrossingIsAnInterval
  intro before target tuning bound
  rw [crosses, decide_eq_true_iff]
  constructor
  · intro near
    refine ⟨tuning - (before + BitVec.ofNat 32 tuning - target).toNat, by omega, by omega, ?_⟩
    bv_omega
  · rintro ⟨k, positive, within, rfl⟩
    bv_omega

/-! ## The CRC (R42, R43, R47) -/

theorem sumPoints_add (store : Store) (slot m n start : Nat) (crc : Half) :
    store.sumPoints slot start (m + n) crc =
      store.sumPoints slot (start + m) n (store.sumPoints slot start m crc) := by
  induction m generalizing start crc with
  | zero => rw [Nat.zero_add]; rfl
  | succ m ih =>
    rw [Nat.succ_add, Store.sumPoints, ih, Store.sumPoints, Nat.add_assoc, Nat.add_comm 1 m]

theorem crcShift_eq (crc : Half) :
    crcShift crc = if crc.getLsbD 15 then (crc <<< 1) ^^^ 0x1021#16 else crc <<< 1 := by
  rw [crcShift, BitVec.msb_eq_getLsbD_last]

/-- Settles O15: a range is summed point by point from the running CRC, so it may be left and taken up anywhere. -/
theorem crcContinues : Obligations.CrcContinues := by
  unfold Obligations.CrcContinues
  refine ⟨fun store slot start m n crc => sumPoints_add store slot m n start crc, fun _ _ _ _ => rfl,
    fun _ _ _ _ => rfl, fun crc byte => ?_, by simp [crcPoint, crcByte, crcShift_eq]⟩
  have shifts : (fun c : Half => if c.getLsbD 15 then (c <<< 1) ^^^ 0x1021#16 else c <<< 1) = crcShift :=
    funext fun c => (crcShift_eq c).symm
  rw [shifts]
  rfl

/-! ## Ramps (R18) -/

/-- A ramp does not fall below 0 on its way, so its value is the rule's integer itself. -/
theorem valueAt_eq {r : Ramp} {m : Nat} (h : m < r.length) :
    (r.valueAt m : Int) = (r.startValue : Int) + (((r.target : Int) - r.startValue) * (m : Nat)).tdiv r.length := by
  have part_le (d : Int) (hd : 0 ≤ d) : 0 ≤ (d * m).tdiv r.length ∧ (d * m).tdiv r.length ≤ d := by
    have product : 0 ≤ d * m := Int.mul_nonneg hd (Int.natCast_nonneg m)
    rw [Int.tdiv_eq_ediv_of_nonneg product]
    refine ⟨Int.ediv_nonneg product (Int.natCast_nonneg _), Int.ediv_le_of_le_mul (by omega) ?_⟩
    exact Int.mul_le_mul_of_nonneg_left (by omega) hd
  unfold Ramp.valueAt
  refine Int.toNat_of_nonneg ?_
  rcases Int.le_total r.startValue r.target with rising | falling
  · have := part_le (r.target - r.startValue) (by omega)
    omega
  · have := part_le (r.startValue - r.target) (by omega)
    have negated : ((r.target : Int) - r.startValue) * m = -(((r.startValue : Int) - r.target) * m) := by ring
    rw [negated, Int.neg_tdiv]
    omega

/-- One ramp sample is the rule's. -/
theorem rampSample_step (value : Nat) (ramp : Option Ramp) :
    RampStep value ramp (rampSample value ramp).1 (rampSample value ramp).2 where
  idle h := by subst h; exact ⟨rfl, rfl⟩
  running r h := by subst h; rfl
  onWay r h on_way := by
    subst h
    simp only [rampSample, if_pos on_way]
    exact valueAt_eq on_way
  atEnd r h at_end := by
    subst h
    simp only [rampSample, if_neg (Nat.not_lt.mpr at_end)]

/-- After `n` ramp samples a running ramp has taken `n` more, and its value depends on the progress alone. -/
theorem rampSamples_running (n : Nat) (value : Nat) (r : Ramp) :
    rampSamples (n + 1) (value, some r) =
      (if r.progress + (n + 1) < r.length then r.valueAt (r.progress + (n + 1)) else r.target,
        some { r with progress := r.progress + (n + 1) }) := by
  induction n generalizing value r with
  | zero => rfl
  | succ n ih =>
    rw [rampSamples, rampSample, ih]
    simp only [Ramp.valueAt, Nat.add_assoc, Nat.add_comm 1]

theorem reached_eq_false_iff (r : Ramp) : r.reached = false ↔ r.progress = 0 ∨ r.progress < r.length := by
  rw [Ramp.reached, Bool.and_eq_false_iff, decide_eq_false_iff_not, decide_eq_false_iff_not]
  omega

theorem rampReached_eq_false_iff (ramp : Option Ramp) :
    rampReached ramp = false ↔ ∀ r, ramp = some r → r.progress = 0 ∨ r.progress < r.length := by
  cases ramp with
  | none => simp [rampReached]
  | some r => simp [rampReached, reached_eq_false_iff]

theorem set_get_self {α : Type} (t : PerPhase α) (p : Phase) : t.set p (t.get p) = t := by
  cases p <;> rfl

/-- The completion of a running ramp changes nothing. -/
theorem finishFrequency_of_running {y : Synth} (running : rampReached y.freqRamp = false) : y.finishFrequency = y := by
  rw [Synth.finishFrequency, (rampCompleted_eq _ _).mpr running]

theorem finishPrimary_of_running {p : SynthPhase} (running : rampReached p.primaryRamp = false) :
    p.finishPrimary = p := by
  rw [SynthPhase.finishPrimary, (rampCompleted_eq _ _).mpr running]

theorem finishOverlay_of_running {p : SynthPhase} (running : rampReached p.overlayRamp = false) :
    p.finishOverlay = p := by
  rw [SynthPhase.finishOverlay, (rampCompleted_eq _ _).mpr running]

theorem rampCompleted_of_reached (value : Nat) {r : Ramp} (started : 1 ≤ r.progress) (ended : r.length ≤ r.progress) :
    rampCompleted value (some r) = (r.target, none) := by
  have reached : r.reached = true := by simp [Ramp.reached, started, ended]
  rw [rampCompleted, if_pos reached]

/-- Settles O12: the samples of a ramp by induction on their number, its bounds from those of one value, and the
completion from `rampCompleted` on a ramp that has and one that has not reached its length. -/
theorem rampsRunAndComplete : Obligations.RampsRunAndComplete := by
  unfold Obligations.RampsRunAndComplete
  refine ⟨fun v0 v1 length j => ?_, fun s => ⟨?_, fun running => ?_, fun p => ⟨fun running => ?_, fun running => ?_⟩⟩,
    fun s r started ended => ⟨fun ramp => ?_, fun p ramp => ?_, fun p ramp => ?_⟩⟩
  · simp only [rampSamples_running, Nat.zero_add]
    refine ⟨fun on_way => ?_, fun at_end => ?_, ?_⟩
    · rw [if_pos on_way]
      exact valueAt_eq (r := Ramp.toward v0 v1 length) on_way
    · rw [if_neg (Nat.not_lt.mpr at_end)]
    · split
      · rename_i on_way
        exact Ramp.valueAt_bounds (r := Ramp.toward v0 v1 length) ⟨min_le_left .., le_max_left ..⟩
          ⟨min_le_right .., le_max_right ..⟩ on_way
      · exact ⟨min_le_right .., le_max_right ..⟩
  · simp only [Synth.finishRamps_eq, Synth.Running, rampReached_eq_false_iff]
  · exact congrArg (fun y => Host.Outcome.next { s with synth := y })
      (finishFrequency_of_running ((rampReached_eq_false_iff _).mpr running))
  · have left := finishPrimary_of_running ((rampReached_eq_false_iff _).mpr running)
    simp only [exec, execRampComplete, Synth.finishRamp, left, set_get_self]
  · have left := finishOverlay_of_running ((rampReached_eq_false_iff _).mpr running)
    simp only [exec, execRampComplete, Synth.finishRamp, left, set_get_self]
  · simp only [exec, execRampComplete, Synth.finishRamp, Synth.finishFrequency, ramp,
      rampCompleted_of_reached _ started ended]
  · simp only [exec, execRampComplete, Synth.finishRamp, SynthPhase.finishPrimary, ramp,
      rampCompleted_of_reached _ started ended]
  · simp only [exec, execRampComplete, Synth.finishRamp, SynthPhase.finishOverlay, ramp,
      rampCompleted_of_reached _ started ended]

end Sys2Proof.Proofs
end

section
/-! SAMPLE: what is due falls before it, and what producing one sample does to each block. -/

namespace Sys2Proof.Proofs

open Sys2Proof Sys2Proof.Machine

/-! ## What is due falls before the sample -/

/-- Two synthesizers at the same sample with the same reference phase. -/
structure SameTurn (y z : Synth) : Prop where
  theta       : z.theta = y.theta
  sampleIndex : z.sampleIndex = y.sampleIndex

theorem SameTurn.refl (y : Synth) : SameTurn y y := ⟨rfl, rfl⟩

theorem SameTurn.of_eq {y z : Synth} (h : z = y) : SameTurn y z := h ▸ .refl y

theorem SameTurn.trans {x y z : Synth} (h : SameTurn x y) (g : SameTurn y z) : SameTurn x z :=
  ⟨g.theta.trans h.theta, g.sampleIndex.trans h.sampleIndex⟩

theorem takeMarker_turn (option : EndOption) (s : State) : SameTurn s.synth (s.takeMarker option).synth := by
  unfold State.takeMarker
  split
  · exact ⟨rfl, rfl⟩
  · cases option with
    | hold => exact .of_eq (by simp)
    | off => exact ⟨rfl, rfl⟩

theorem stage_turn (s : State) : SameTurn s.synth s.stage.synth := by
  have filled : SameTurn s.synth s.fillSlot.synth := .of_eq (by simp)
  unfold State.stage
  split
  · unfold State.actOnStaged
    (repeat' split) <;> first | exact filled | exact filled.trans (takeMarker_turn _ _)
  · exact .refl _

theorem leave_turn (run : RunState) (s : State) : SameTurn s.synth (s.discardExpansion.enterEnd run).synth := by
  have discarded : s.discardExpansion.synth = s.synth := by simp
  unfold State.enterEnd
  split
  · exact (SameTurn.of_eq discarded).trans ⟨rfl, rfl⟩
  · exact (SameTurn.of_eq discarded).trans ⟨rfl, rfl⟩

/-- A moment of the part falls between two samples: it moves neither the reference phase nor the sample index. -/
theorem take_turn (m : Moment) (s : State) : SameTurn s.synth (s.take m).synth := by
  cases m <;> simp only [State.take]
  case edge => exact .of_eq (by simp)
  case timeout =>
    unfold State.expire State.leaveTimedOut
    split
    · refine SameTurn.trans (.of_eq ?_) (leave_turn .off _)
      simp
    · refine SameTurn.trans (.of_eq ?_) (leave_turn .stopping _)
      simp
  case stepEnd =>
    have ended : SameTurn s.synth (s.endActive .complete).synth := .of_eq (by simp)
    unfold State.completeStep State.afterEnd
    (repeat' split) <;> first | exact ended | exact ended.trans (takeMarker_turn _ _)
  case trip =>
    unfold State.takeTrip
    split
    · exact .refl _
    · refine SameTurn.trans (.of_eq ?_) (leave_turn .fault _)
      simp
  case stop => exact ⟨rfl, rfl⟩
  case start =>
    unfold State.takeStart
    split
    · rename_i copy _
      have ended : ((s.endActive .handedOver).clearSlot).synth = s.synth := by simp
      have started : SameTurn s.synth (s.activate copy).synth :=
        (SameTurn.of_eq ended).trans ⟨rfl, rfl⟩
      exact started.trans (stage_turn _)
    · exact .refl _
    · exact .refl _
  case handover =>
    have ended : SameTurn s.synth (s.endActive .handedOver).synth := .of_eq (by simp)
    unfold State.takeHandover
    split
    · exact ended.trans (takeMarker_turn _ _)
    · exact .refl _
    · exact .refl _

theorem settleMoments_turn (fuel : Nat) (s : State) : SameTurn s.synth (State.settleMoments fuel s).synth := by
  induction fuel generalizing s with
  | zero => exact .refl _
  | succ fuel ih =>
    have one : SameTurn s.synth s.settleOne.synth := by
      obtain ⟨none_due, _⟩ | ⟨m, races, _, taken⟩ := State.settleOne_cases s
      · rw [none_due]
        exact .refl _
      · rw [taken]
        exact take_turn m { s with moments := { s.moments with races := races } }
    exact one.trans (ih _)

theorem settle_turn (s : State) : SameTurn s.synth s.settle.synth :=
  have completed : SameTurn s.synth s.synth.finishRamps := ⟨rfl, rfl⟩
  completed.trans (settleMoments_turn _ { s with synth := s.synth.finishRamps })

theorem exec_sample {s : State} (out_of_reset : s.link.inReset = false) (trig : Bool) (iA iB iC : Half) :
    exec (.sample trig iA iB iC) s =
      .next (s.settle.completeOverdue.produce trig (magnitudes iA iB iC)) := by
  simp only [exec, execSample, out_of_reset, Bool.false_eq_true, if_false]

/-- States that the same moments settle alike have the same sample. -/
theorem exec_sample_congr {s u : State} (out_of_reset : s.link.inReset = false) (link : u.link = s.link)
    (settled : u.settle = s.settle) (trig : Bool) (iA iB iC : Half) :
    exec (.sample trig iA iB iC) s = exec (.sample trig iA iB iC) u := by
  rw [exec_sample out_of_reset, exec_sample (by rw [link]; exact out_of_reset), settled]

/-- A completed ramp is idle, and completes no further. -/
theorem rampCompleted_idem (value : Nat) (ramp : Option Ramp) :
    rampCompleted (rampCompleted value ramp).1 (rampCompleted value ramp).2 = rampCompleted value ramp := by
  cases ramp with
  | none => rfl
  | some r => by_cases reached : r.reached <;> simp [rampCompleted, reached]

theorem finishBoth_finishPrimary (p : SynthPhase) :
    p.finishPrimary.finishPrimary.finishOverlay = p.finishPrimary.finishOverlay := by
  simp only [SynthPhase.finishPrimary, rampCompleted_idem]

theorem finishBoth_finishOverlay (p : SynthPhase) :
    p.finishOverlay.finishPrimary.finishOverlay = p.finishPrimary.finishOverlay := by
  simp only [SynthPhase.finishPrimary, SynthPhase.finishOverlay, rampCompleted_idem]

/-- A ramp that completes early completes with the others all the same (R18). -/
theorem finishRamps_finishRamp (y : Synth) (r : RampId) : (y.finishRamp r).finishRamps = y.finishRamps := by
  cases r with
  | frequency =>
    simp only [Synth.finishRamp, Synth.finishRamps, Synth.finishFrequency, rampCompleted_idem]
  | primary p =>
    cases p <;> simp only [Synth.finishRamp, Synth.finishRamps, Synth.finishFrequency, PerPhase.set, PerPhase.get,
      PerPhase.map, finishBoth_finishPrimary]
  | overlay p =>
    cases p <;> simp only [Synth.finishRamp, Synth.finishRamps, Synth.finishFrequency, PerPhase.set, PerPhase.get,
      PerPhase.map, finishBoth_finishOverlay]

/-- With one moment taken first, the others settle as they would have after it. -/
theorem settle_of_settleOne {s : State} (running : s.synth.Running) : s.settleOne.settle = s.settle := by
  have running_after : s.settleOne.synth.Running := by
    obtain ⟨none_due, _⟩ | ⟨m, races, _, taken⟩ := State.settleOne_cases s
    · rw [none_due]
      exact running
    · rw [taken]
      exact State.take_running m running
  exact (State.settle_settleOne running running_after (State.momentsLeft_le _)).symm

/-- The one moment that is due is taken without a choice. -/
theorem settleOne_of_only {s : State} {m : Moment} (due : s.due m = true)
    (only : ∀ m', s.due m' = true → m' = m) : s.settleOne = s.take m := by
  have filtered : Moment.all.filter s.due = Moment.all.filter (· == m) := by
    refine List.filter_congr fun m' _ => ?_
    by_cases same : m' = m
    · subst same
      simp [due]
    · have not_due : s.due m' = false := by simpa using fun h => same (only m' h)
      simp [not_due, same]
  have single : Moment.all.filter (· == m) = [m] := by cases m <;> rfl
  simp only [State.settleOne, filtered, single]

/-- Settles O6: settling keeps the turn, so the production of the sample gives its advance; a ramp completed or a moment
taken first is one that settling takes anyway, and where several are due `State.settleOne` takes one of them. -/
theorem sampleAdvances : Obligations.SampleAdvances := by
  unfold Obligations.SampleAdvances
  intro s trig iA iB iC out_of_reset
  have settled : s.settle.completeOverdue.synth = s.settle.synth := by simp
  refine ⟨⟨_, exec_sample out_of_reset trig iA iB iC, ?_, ?_, ?_, by simp, by simp⟩, fun ramp => ?_,
    fun running m due => ⟨fun only => ?_, ?_⟩⟩
  · rw [State.produce_synth, settled, ← (settle_turn s).sampleIndex]
    unfold Synth.advance Synth.ramped
    split <;> rfl
  · rw [State.produce_synth, settled, ← (settle_turn s).theta]
    unfold Synth.advance Synth.ramped
    split <;> rfl
  · rw [State.produce_ports, State.produce_synth, State.linesOf, decide_eq_true_iff, State.advanced, settled,
      (settle_turn s).theta]
  · refine ⟨_, rfl, exec_sample_congr (u := { s with synth := s.synth.finishRamp ramp }) out_of_reset rfl ?_ trig iA iB
      iC⟩
    simp only [State.settle, finishRamps_finishRamp]
  · refine ⟨_, m.exec_command s due, exec_sample_congr out_of_reset (by simp) ?_ trig iA iB iC⟩
    rw [← settleOne_of_only due only, settle_of_settleOne (s.synth.finishRamps_eq.mp running)]
  · obtain ⟨_, none_due⟩ | ⟨first, races, first_due, taken⟩ := State.settleOne_cases s
    · exact absurd due (by rw [none_due m]; exact Bool.false_ne_true)
    · refine ⟨first, races, _, first_due, first.exec_command _ ?_, exec_sample_congr out_of_reset (by simp) ?_ trig iA
        iB iC⟩
      · rw [State.due_races]
        exact first_due
      · rw [← taken, settle_of_settleOne (s.synth.finishRamps_eq.mp running)]

end Sys2Proof.Proofs
end

section
/-! SAMPLE with nothing waiting: the codes, the load monitor, the active step record, TRIG and the ramps. -/

namespace Sys2Proof.Proofs

open Sys2Proof Sys2Proof.Machine

/-! ## The items of the three phases -/

theorem get_map {α β : Type} (f : α → β) (t : PerPhase α) (p : Phase) : (t.map f).get p = f (t.get p) := by
  cases p <;> rfl

theorem get_map2 {α β γ : Type} (f : α → β → γ) (t : PerPhase α) (u : PerPhase β) (p : Phase) :
    (PerPhase.map2 f t u).get p = f (t.get p) (u.get p) := by
  cases p <;> rfl

theorem get_map3 {α β γ δ : Type} (f : α → β → γ → δ) (t : PerPhase α) (u : PerPhase β) (v : PerPhase γ) (p : Phase) :
    (PerPhase.map3 f t u v).get p = f (t.get p) (u.get p) (v.get p) := by
  cases p <;> rfl

theorem get_same {α : Type} (x : α) (p : Phase) : (PerPhase.same x).get p = x := by
  cases p <;> rfl

theorem forall_phase {P : Phase → Prop} : (∀ p, P p) ↔ P .a ∧ P .b ∧ P .c :=
  ⟨fun h => ⟨h .a, h .b, h .c⟩, fun ⟨a, b, c⟩ p => by cases p <;> assumption⟩

theorem any_eq_true_iff (t : PerPhase Bool) : t.any = true ↔ ∃ p, t.get p = true := by
  constructor
  · intro h
    simp only [PerPhase.any, Bool.or_eq_true] at h
    obtain (h | h) | h := h
    · exact ⟨.a, h⟩
    · exact ⟨.b, h⟩
    · exact ⟨.c, h⟩
  · rintro ⟨p, h⟩
    cases p <;> simp_all [PerPhase.any, PerPhase.get]

theorem get_magnitudes (iA iB iC : Half) (p : Phase) :
    (magnitudes iA iB iC).get p = ((PerPhase.mk iA iB iC).get p).toInt.natAbs := by
  cases p <;> rfl

/-! ## The codes (R13, R14, R15) -/

theorem sumByRule_eq (store : Store) (y : Synth) (p : Phase) :
    sumByRule store y p = (y.phases.get p).sum store y.theta := rfl

/-- Where gain or peak is 0 the scaled code is 0, so the sign of the sum and of the product serve alike (R14). -/
theorem codeByRule_eq (sum : Int) (gain peak : Nat) : codeByRule sum gain peak = scaleCode sum gain peak := by
  have scale_nonneg : (0 : Int) ≤ (gain : Int) * (peak : Int) := Int.mul_nonneg (Int.natCast_nonneg _) (Int.natCast_nonneg _)
  have product : sum * (gain : Int) * (peak : Int) = sum * ((gain : Int) * (peak : Int)) := Int.mul_assoc ..
  simp only [codeByRule, scaleCode, codeDenominator, product]
  rcases scale_nonneg.eq_or_lt with zero | positive
  · simp [← zero]
  · by_cases negative : sum < 0
    · rw [if_pos negative, if_pos (Int.mul_neg_of_neg_of_pos negative positive)]
    · rw [if_neg negative, if_neg (Int.not_lt.mpr (Int.mul_nonneg (Int.not_lt.mp negative) positive.le))]

theorem get_scaledCodes (s : State) (p : Phase) :
    s.scaledCodes.get p = codeByRule (sumByRule s.store s.synth p) (s.monitor.gains.get p) s.setup.nomPeak := by
  rw [codeByRule_eq, sumByRule_eq]
  exact get_map2 ..

theorem driven_iff (r : RunState) : r.driven = true ↔
    r ∈ [RunState.active, RunState.waiting, RunState.starved, RunState.paused, RunState.parked, RunState.stopping] := by
  cases r <;> decide

theorem clips_iff (code : Int) : clips code = true ↔ code < -32768 ∨ 32767 < code := by
  simp [clips]

/-! ## The state of a sample once the synthesizer has advanced -/

theorem advanced_run (trig : Bool) (s : State) : (s.advanced trig).seq.run = s.seq.run := (State.sampled_seq trig s).1

theorem advanced_active (trig : Bool) (s : State) : (s.advanced trig).seq.active = s.seq.active :=
  (State.sampled_seq trig s).2.2.1

theorem advanced_frame (trig : Bool) (s : State) :
    (s.advanced trig).store = s.store ∧ (s.advanced trig).monitor = s.monitor ∧ (s.advanced trig).setup = s.setup ∧
    (s.advanced trig).notices = s.notices ∧ (s.advanced trig).expander = s.expander ∧
    (s.advanced trig).synth = s.synth.advance s.seq.run.ramps := by
  simp [State.advanced]

/-- The code of a phase before saturation, by the levels of the sample and the gains formed before it (R13, R14,
R140). -/
theorem advanced_scaledCodes (trig : Bool) (currents : PerPhase Nat) (s : State) (p : Phase) :
    (s.advanced trig).scaledCodes.get p =
      codeByRule (sumByRule s.store (s.produce trig currents).synth p) (s.monitor.gains.get p) s.setup.nomPeak := by
  obtain ⟨store, monitor, setup, _, _, synth⟩ := advanced_frame trig s
  rw [get_scaledCodes, store, monitor, setup, synth, State.produce_synth]

/-- A phase of a sample is clipped exactly where its code is computed and out of range (R15). -/
theorem advanced_clipped (trig : Bool) (currents : PerPhase Nat) (s : State) (p : Phase) :
    (s.advanced trig).clipped.get p = true ↔ s.seq.run.driven = true ∧
      (codeByRule (sumByRule s.store (s.produce trig currents).synth p) (s.monitor.gains.get p) s.setup.nomPeak < -32768 ∨
       32767 < codeByRule (sumByRule s.store (s.produce trig currents).synth p) (s.monitor.gains.get p)
        s.setup.nomPeak) := by
  rw [State.clipped, advanced_run]
  by_cases driven : s.seq.run.driven = true
  · rw [if_pos driven, get_map, clips_iff, advanced_scaledCodes trig currents]
    simp only [driven, true_and]
  · rw [if_neg driven, get_same]
    simp [driven]

theorem produce_outen (trig : Bool) (currents : PerPhase Nat) (s : State) :
    (s.produce trig currents).ports.outen = s.seq.run.driven := by
  rw [State.produce_ports, State.linesOf, advanced_run]

/-! ## The output of a sample -/

theorem sampleMonitor_latched (currents : PerPhase Nat) (s : State) (n : Notice) :
    (s.sampleMonitor currents).latched n = (s.latched n || (s.seq.run.driven &&
      ((PerPhase.map2 leavesUnity s.monitor.gains (s.gainsAfter currents)).any && decide (n = .limiting)))) := by
  unfold State.sampleMonitor
  split
  · rename_i driven
    rw [State.latched_latchIf, driven, Bool.true_and]
    rfl
  · rename_i not_driven
    rw [Bool.eq_false_iff.mpr not_driven, Bool.false_and, Bool.or_false]

/-- A sample latches CLIPPED and LIMITING alone (R15, R141). -/
theorem produce_latched (trig : Bool) (currents : PerPhase Nat) (s : State) (n : Notice) :
    (s.produce trig currents).latched n = (s.latched n || ((s.advanced trig).clipped.any && decide (n = .clipped)) ||
      (s.seq.run.driven && ((PerPhase.map2 leavesUnity s.monitor.gains (s.gainsAfter currents)).any &&
        decide (n = .limiting)))) := by
  obtain ⟨_, monitor, setup, notices, _, _⟩ := advanced_frame trig s
  have same_notices : (s.produce trig currents).notices = ((s.advanced trig).emit s.synth.theta currents).notices := by
    simp [State.produce_eq]
  have before : ∀ q a, State.latched n { s.advanced trig with ports := q, seq := a } = s.latched n :=
    fun _ _ => State.latched_of_eq notices n
  rw [State.latched_of_eq same_notices, State.emit, sampleMonitor_latched, State.latched_latchIf, before]
  simp only [State.gainsAfter, State.latchIf_frame, advanced_run, monitor, setup]

theorem produce_isFirst (s : State) (trig : Bool) :
    (s.advanced trig).seq.isFirst = true ↔ ∃ a, s.seq.active = some a ∧ a.begun = false := by
  rw [Sequencer.isFirst, advanced_active]
  cases s.seq.active <;> simp

theorem produce_store_slots (trig : Bool) (currents : PerPhase Nat) (s : State) :
    (s.produce trig currents).store.slots = s.store.slots := by
  simp [State.produce]

/-- Settles O7: the lines of a sample are those of the advanced state, whose codes are the rule's. -/
theorem sampleEmitsCodes : Obligations.SampleEmitsCodes := by
  unfold Obligations.SampleEmitsCodes
  intro s trig iA iB iC out_of_reset settled
  refine ⟨_, settled.exec_sample out_of_reset trig iA iB iC, (State.produce_seq ..).1, ?_, ?_, fun p => ?_, ?_,
    produce_store_slots .., by simp, by simp, by simp, by simp, by simp, by simp, by simp⟩
  · rw [produce_outen, driven_iff]
  · rw [State.produce_ports]
    exact produce_isFirst s trig
  · rw [produce_outen, State.produce_ports, State.linesOf, State.emitted, advanced_run]
    split
    · rw [get_map, advanced_scaledCodes trig (magnitudes iA iB iC)]
      rfl
    · exact get_same 0 p
  · rw [produce_latched, produce_outen]
    simp [any_eq_true_iff, advanced_clipped trig (magnitudes iA iB iC)]

/-! ## The load monitor (R135, R139, R141, R143) -/

theorem produce_trip (trig : Bool) (currents : PerPhase Nat) (s : State) :
    (s.produce trig currents).moments.trip = if s.seq.run.driven then s.tripsAt currents else s.moments.trip := by
  obtain ⟨_, monitor, setup, _, _, _⟩ := advanced_frame trig s
  have no_trip : (s.advanced trig).moments.trip = s.moments.trip := by
    unfold State.advanced State.sampleTimeout State.sampleTrigger
    split <;> dsimp only <;> split <;> rfl
  rw [State.produce_eq, State.serveWork]
  dsimp only
  rw [(State.releaseHeld_frame' _).2.2.2.2, State.emit, State.sampleMonitor]
  simp only [State.latchIf_frame, advanced_run]
  split
  · simp only [State.latchIf_frame, State.tripsAt, State.countersAfter, monitor, setup]
    rfl
  · simp only [State.latchIf_frame, no_trip]

theorem tripsAt_eq_none_iff (currents : PerPhase Nat) (s : State) :
    s.tripsAt currents = none ↔ ∀ p, (s.countersAfter currents).get p < s.setup.tripSamples := by
  rw [State.tripsAt]
  simp only [ite_eq_right_iff, reduceCtorEq, imp_false, any_eq_true_iff, get_map, decide_eq_true_iff, not_exists,
    Nat.not_le]

theorem tripsAt_eq_some {currents : PerPhase Nat} {s : State} {tripped : PerPhase Bool}
    (h : s.tripsAt currents = some tripped) (p : Phase) :
    tripped.get p = decide (s.setup.tripSamples ≤ (s.countersAfter currents).get p) := by
  simp only [State.tripsAt, Option.ite_none_right_eq_some, Option.some.injEq] at h
  rw [← h.2, get_map]

theorem leavesUnity_iff (before after : Nat) : leavesUnity before after = true ↔ before = 32768 ∧ after < 32768 := by
  rw [leavesUnity, Bool.and_eq_true, beq_iff_eq, decide_eq_true_iff]
  rfl

/-- Settles O8: the monitor after a sample where OUTEN is high and where it is low, phase by phase. -/
theorem sampleLimitsAndTrips : Obligations.SampleLimitsAndTrips := by
  unfold Obligations.SampleLimitsAndTrips
  intro s trig iA iB iC out_of_reset settled
  refine ⟨_, settled.exec_sample out_of_reset trig iA iB iC, ?_⟩
  simp only [State.produce_monitor, produce_trip, produce_latched, produce_outen, ← get_magnitudes]
  refine ⟨by split <;> rfl, fun low => ?_, fun high => ?_⟩
  · simp [low, settled.noWaiting.2]
  · simp only [high, if_true]
    refine ⟨fun p => get_map3 .., fun p => get_map3 .., tripsAt_eq_none_iff _ s, fun tripped h => tripsAt_eq_some h, ?_⟩
    simp [any_eq_true_iff, get_map2, leavesUnity_iff]

/-! ## TRIG, the trigger timeout and the staged step (R107, R110, R112) -/

theorem emit_seq (before : Word) (currents : PerPhase Nat) (s : State) :
    (s.emit before currents).seq = { s.seq with active := s.activeAfter currents } := by
  simp [State.emit]

theorem emit_waiting (before : Word) (currents : PerPhase Nat) (s : State) :
    (s.emit before currents).moments.edge = s.moments.edge ∧
    (s.emit before currents).moments.timeout = s.moments.timeout := by
  unfold State.emit State.sampleMonitor
  split <;> simp

/-- A sample of a step begins it, so after the sample any open active step is behind its first sample (R107). -/
theorem advanced_openBegun (trig : Bool) (currents : PerPhase Nat) (s : State) :
    ((s.advanced trig).emit s.synth.theta currents).seq.openBegun = true ↔
      ∃ a, s.seq.active = some a ∧ (a.copy.content.duration = .samples 0 ∨ a.copy.content.duration = .degrees 0) := by
  rw [emit_seq, Sequencer.openBegun, State.activeAfter, advanced_active]
  cases s.seq.active with
  | none => simp
  | some a => cases h : a.copy.content.duration <;> simp [ActiveStep.after, Duration.isOpen, Duration.value, h]

/-- In ACTIVE a step staged HELD behind an open step: a sample releases it (R107). -/
def ReleasedBySample (s : State) : Prop :=
  s.seq.run = .active ∧ s.seq.startPhase = .held ∧
    ∃ a, s.seq.active = some a ∧ (a.copy.content.duration = .samples 0 ∨ a.copy.content.duration = .degrees 0)

theorem release_condition (trig : Bool) (currents : PerPhase Nat) (s : State) :
    let out := (s.advanced trig).emit s.synth.theta currents
    (decide (out.seq.run = .active) && out.seq.openBegun && out.seq.startPhase == .held) = true ↔
      ReleasedBySample s := by
  obtain ⟨run, _, _, phase, _⟩ := State.sampled_seq trig s
  have same_run : ((s.advanced trig).emit s.synth.theta currents).seq.run = s.seq.run := by
    rw [emit_seq]
    exact run
  have same_phase : ((s.advanced trig).emit s.synth.theta currents).seq.startPhase = s.seq.startPhase := by
    rw [emit_seq]
    exact phase
  dsimp only
  rw [Bool.and_eq_true, Bool.and_eq_true, advanced_openBegun, same_run, same_phase, decide_eq_true_iff, beq_iff_eq]
  exact ⟨fun ⟨⟨a, o⟩, h⟩ => ⟨a, h, o⟩, fun ⟨a, h, o⟩ => ⟨⟨a, o⟩, h⟩⟩

/-- After a sample that releases no step the staged step's evaluation stands as TRIG's sampling left it. -/
theorem produce_of_not_released {s : State} (kept : ¬ ReleasedBySample s) (trig : Bool) (currents : PerPhase Nat) :
    (s.produce trig currents).seq = { (s.advanced trig).seq with active := (s.advanced trig).activeAfter currents } ∧
    (s.produce trig currents).moments.edge = (s.advanced trig).moments.edge ∧
    (s.produce trig currents).moments.timeout = (s.advanced trig).moments.timeout := by
  rw [State.produce_eq, State.releaseHeld, if_neg (fun h => kept ((release_condition trig currents s).mp h))]
  exact ⟨emit_seq .., emit_waiting ..⟩

/-- A sample that releases a staged step begins its evaluation (R107). -/
theorem produce_of_released {s : State} (released : ReleasedBySample s) {copy : StepCopy}
    (staged : s.expander.slot = .step copy) (trig : Bool) (currents : PerPhase Nat) :
    s.produce trig currents =
      (((s.advanced trig).emit s.synth.theta currents).beginEvaluation copy).serveWork := by
  have same_slot : ((s.advanced trig).emit s.synth.theta currents).expander.slot = .step copy := by
    rw [← staged]
    simp [State.advanced]
  rw [State.produce_eq, State.releaseHeld, if_pos ((release_condition trig currents s).mpr released), same_slot]

/-- The active step record after a sample of the step (R113, R115, R116, R150, R151). -/
theorem produce_active {s : State} {a : ActiveStep} (present : s.seq.active = some a) (trig : Bool)
    (currents : PerPhase Nat) :
    (s.produce trig currents).seq.active =
      some (a.after (s.seq.run == .active) (s.produce trig currents).synth
        (captureAfter (inWindow s.setup.captureWindow a.startSample (s.produce trig currents).synth.sampleIndex)
          a.capture s.monitor.gains currents (s.advanced trig).clipped)) := by
  obtain ⟨_, monitor, setup, _, _, synth⟩ := advanced_frame trig s
  rw [(State.produce_seq trig currents s).2.2.1, State.activeAfter, advanced_active, present]
  simp only [advanced_run, monitor, setup, synth, State.produce_synth]

theorem get_captureAfter (window : Bool) (c : PerPhase Capture) (gains currents : PerPhase Nat) (clip : PerPhase Bool)
    (p : Phase) : (captureAfter window c gains currents clip).get p =
      (c.get p).after window (gains.get p) (currents.get p) (clip.get p) := by
  cases p <;> rfl

theorem inWindow_iff (window : Nat) (start sample : Long) :
    inWindow window start sample = true ↔ window = 0 ∨ (sample - start).toNat < window := by
  rw [inWindow, Bool.or_eq_true, decide_eq_true_iff, decide_eq_true_iff]

/-- Settles O9: the record after a sample is `ActiveStep.after` of the record before, and HELD is left exactly where
`State.releaseHeld` finds its condition. -/
theorem sampleCountsActiveStep : Obligations.SampleCountsActiveStep := by
  unfold Obligations.SampleCountsActiveStep
  intro s trig iA iB iC out_of_reset settled
  refine ⟨_, settled.exec_sample out_of_reset trig iA iB iC, (State.produce_seq ..).2.1,
    ⟨fun released copy staged => ?_, fun kept => ?_⟩, fun none_active => ?_,
    fun a present => ⟨_, produce_active present .., rfl, rfl, rfl, ?_, ?_, ?_, fun p => ?_⟩⟩
  · rw [produce_of_released released staged]
    exact State.beginEvaluation_begins _ copy
  · obtain ⟨_, _, _, phase, target, _⟩ := State.sampled_seq trig s
    rw [(produce_of_not_released kept trig _).1]
    exact ⟨phase, target⟩
  · rw [(State.produce_seq ..).2.2.1, State.activeAfter, advanced_active, none_active]
  · simp only [ActiveStep.after, angleOf, Nat.mul_comm]
  · simp only [ActiveStep.after, beq_iff_eq, maxElapsed]
  · simp only [ActiveStep.after, beq_iff_eq]
  · simp only [ActiveStep.after, get_captureAfter, Capture.after, inWindow_iff, get_magnitudes, Bool.or_eq_true,
      advanced_clipped trig (magnitudes iA iB iC), produce_outen, true_and]

/-- A qualified change of this sample waits; none of an earlier one does where nothing waited (R110). -/
theorem advanced_edge (trig : Bool) (s : State) :
    (s.advanced trig).moments.edge =
      if s.seq.debounce.qualifies trig s.setup.trigDebounce then
        some { counted := s.setup.trigEdge.counts trig, evaluated := s.seq.inEdge }
      else s.moments.edge := by
  have sampled : (s.advanced trig).moments.edge = (s.sampleTrigger trig).moments.edge := by
    unfold State.advanced State.sampleTimeout
    split <;> rfl
  rw [sampled, State.sampleTrigger]
  dsimp only
  split <;> rfl

theorem inEdge_sampleTrigger (trig : Bool) (s : State) : (s.sampleTrigger trig).seq.inEdge = s.seq.inEdge := rfl

theorem advanced_timeout_of_inEdge {s : State} (evaluated : s.seq.inEdge = true) (trig : Bool) :
    (s.advanced trig).seq.timeoutCount = s.seq.timeoutCount + 1 ∧
    (s.advanced trig).moments.timeout = s.setup.timedOut (s.seq.timeoutCount + 1) := by
  rw [State.advanced, State.sampleTimeout, if_pos (by rw [inEdge_sampleTrigger]; exact evaluated)]
  exact ⟨rfl, rfl⟩

theorem advanced_timeout_of_not_inEdge {s : State} (not_evaluated : s.seq.inEdge = false) (trig : Bool) :
    (s.advanced trig).seq.timeoutCount = s.seq.timeoutCount ∧
    (s.advanced trig).moments.timeout = s.moments.timeout := by
  rw [State.advanced, State.sampleTimeout,
    if_neg (by rw [inEdge_sampleTrigger, not_evaluated]; exact Bool.false_ne_true), State.sampleTrigger]
  refine ⟨rfl, ?_⟩
  dsimp only
  split <;> rfl

/-- A change that waits is left by the release of a HELD step as it is: no step was in EDGE at this sample (R111). -/
theorem produce_edge (trig : Bool) (currents : PerPhase Nat) {s : State} (no_edge : s.moments.edge = none) :
    (s.produce trig currents).moments.edge = (s.advanced trig).moments.edge := by
  by_cases released : ReleasedBySample s
  · have not_evaluated : s.seq.inEdge = false := by
      simp [Sequencer.inEdge, released.2.1]
    cases staged : s.expander.slot with
    | step copy =>
      rw [produce_of_released released staged]
      show (((s.advanced trig).emit _ _).moments.edge.map _) = _
      rw [(emit_waiting ..).1, advanced_edge, not_evaluated, no_edge]
      split <;> rfl
    | empty | marker option =>
      have same_slot : ((s.advanced trig).emit s.synth.theta currents).expander.slot = s.expander.slot := by
        simp [State.advanced]
      rw [State.produce_eq, State.releaseHeld, same_slot, staged]
      dsimp only
      rw [ite_self]
      exact (emit_waiting ..).1
  · exact (produce_of_not_released released trig currents).2.1

theorem qualifies_iff (d : Debounce) (trig : Bool) (trigDebounce : Nat) :
    d.qualifies trig trigDebounce = true ↔
      d.first = false ∧ trig ≠ d.settled ∧ trigDebounce + 1 ≤ d.runCount + 1 := by
  rw [Debounce.qualifies, Bool.and_eq_true, Bool.and_eq_true, Bool.not_eq_true', bne_iff_ne, decide_eq_true_iff,
    and_assoc]

theorem inEdge_eq (q : Sequencer) :
    q.inEdge = (q.startPhase == .edge && (q.run == .armed || q.run == .waiting || q.run == .active)) := by
  rw [Sequencer.inEdge, Bool.and_comm]
  congr 1
  cases q.run <;> rfl

theorem counts_eq (e : TrigEdge) (trig : Bool) :
    e.counts trig = match e with | .rising => trig | .falling => !trig | .both => true := by
  cases e <;> rfl

/-- Settles O10: what the sampling of TRIG leaves waiting stands after the sample, whose release of a HELD step finds
nothing of it to forget. -/
theorem sampleReadsTrigger : Obligations.SampleReadsTrigger := by
  unfold Obligations.SampleReadsTrigger
  intro s trig iA iB iC out_of_reset settled
  refine ⟨_, settled.exec_sample out_of_reset trig iA iB iC, ?_⟩
  simp only [← inEdge_eq]
  refine ⟨(State.produce_seq ..).2.2.2, ?_, fun evaluated => ?_, fun not_evaluated not_held => ?_⟩
  · rw [produce_edge trig _ settled.noWaiting.1, advanced_edge, settled.noWaiting.1, counts_eq]
    simp only [qualifies_iff] <;> rfl
  · have kept : ¬ ReleasedBySample s := fun released => by simp [Sequencer.inEdge, released.2.1] at evaluated
    obtain ⟨seq, _, timeout⟩ := produce_of_not_released kept trig (magnitudes iA iB iC)
    obtain ⟨count, expiry⟩ := advanced_timeout_of_inEdge evaluated trig
    rw [seq, timeout, expiry, Setup.timedOut, Bool.and_eq_true, decide_eq_true_iff, decide_eq_true_iff,
      Nat.mul_comm 100]
    exact ⟨count, Iff.rfl⟩
  · have kept : ¬ ReleasedBySample s := fun released => not_held released.2.1
    obtain ⟨seq, _, timeout⟩ := produce_of_not_released kept trig (magnitudes iA iB iC)
    obtain ⟨count, expiry⟩ := advanced_timeout_of_not_inEdge not_evaluated trig
    rw [seq, timeout, expiry]
    exact ⟨count, rfl⟩

/-! ## Ramps (R18, R21) -/

theorem ramps_iff (r : RunState) : r.ramps = true ↔
    r ∈ [RunState.active, RunState.waiting, RunState.starved, RunState.parked, RunState.stopping] := by
  cases r <;> decide

theorem ramps_eq_false_iff (r : RunState) : r.ramps = false ↔
    r ∈ [RunState.off, RunState.armed, RunState.paused, RunState.fault, RunState.disabled] := by
  cases r <;> decide

/-- Settles O11: where ramps advance each takes one ramp sample, and elsewhere the synthesizer but turns. -/
theorem sampleMovesRamps : Obligations.SampleMovesRamps := by
  unfold Obligations.SampleMovesRamps
  intro s trig iA iB iC out_of_reset settled
  refine ⟨_, settled.exec_sample out_of_reset trig iA iB iC, fun advance => ?_, fun hold => ?_⟩
  · rw [State.produce_synth, (ramps_iff _).mpr advance]
    refine ⟨rampSample_step .., fun p => ?_⟩
    have moved : (s.synth.advance true).phases.get p = (s.synth.phases.get p).ramped := get_map ..
    dsimp only
    rw [moved]
    exact ⟨rampSample_step .., rampSample_step .., rfl, rfl, rfl⟩
  · rw [State.produce_synth, (ramps_eq_false_iff _).mpr hold]
    exact ⟨rfl, rfl, rfl⟩

end Sys2Proof.Proofs
end

section
/-! The part's own moments: when each is due, and what its command does. -/

namespace Sys2Proof.Proofs

open Sys2Proof Sys2Proof.Machine

/-- The command of a moment that is not due does nothing. -/
theorem exec_command_of_not_due {m : Moment} {s : State} (not_due : ¬ s.due m = true) :
    exec m.command s = .next s := by
  have nothing : s.takeIfDue m = s := if_neg not_due
  cases m <;> exact congrArg Host.Outcome.next nothing

theorem latched_latch_self (n : Notice) (s : State) : (s.latch n).latched n = true := by
  rw [State.latched_latch, decide_eq_true rfl, Bool.or_true]

/-! ## QUALIFIED_EDGE (R110, R111) -/

theorem edge_due_iff (s : State) : s.due .edge = true ↔ s.moments.edge ≠ none :=
  Option.isSome_iff_ne_none

/-- The state whose settled level has changed, before the change is judged (R110). -/
def settledAnew (s : State) : State :=
  { s with seq := { s.seq with debounce :=
             { settled := !s.seq.debounce.settled, runCount := 0, first := s.seq.debounce.first } },
           moments := { s.moments with edge := none } }

theorem qualify_uncounted {s : State} {e : EdgeMoment} (waits : s.moments.edge = some e) (uncounted : e.counted = false) :
    s.qualify = settledAnew s := by
  simp only [State.qualify, waits, uncounted, Bool.false_eq_true, if_false]
  rfl

theorem qualify_stray {s : State} {e : EdgeMoment} (waits : s.moments.edge = some e) (counted : e.counted = true)
    (stray : e.evaluated = false ∨ s.seq.startPhase ≠ .edge) : s.qualify = (settledAnew s).latch .strayTrigger := by
  have not_taken : ¬ (e.evaluated && s.seq.startPhase == .edge) = true := by
    rw [Bool.and_eq_true, beq_iff_eq]
    rintro ⟨evaluated, phase⟩
    rcases stray with unevaluated | other
    · exact Bool.false_ne_true (unevaluated.symm.trans evaluated)
    · exact other phase
  simp only [State.qualify, waits, counted, if_true, if_neg not_taken]
  rfl

theorem qualify_taken {s : State} {e : EdgeMoment} (waits : s.moments.edge = some e) (counted : e.counted = true)
    (evaluated : e.evaluated = true) (phase : s.seq.startPhase = .edge) : s.qualify = (settledAnew s).takeEdge := by
  simp only [State.qualify, waits, counted, evaluated, phase, if_true, beq_self_eq_true, Bool.and_self]
  rfl

/-- Settles O17: a waiting change is uncounted, stray or taken, and each of the three leaves what it says. -/
theorem qualifiedEdgeIsTakenOrStray : Obligations.QualifiedEdgeIsTakenOrStray := by
  unfold Obligations.QualifiedEdgeIsTakenOrStray
  refine ⟨fun s => ⟨edge_due_iff s, fun none_waits => ?_⟩, fun s e waits => ?_⟩
  · exact exec_command_of_not_due (m := .edge) fun due => (edge_due_iff s).mp due none_waits
  have due : s.due .edge = true := (edge_due_iff s).mpr (by rw [waits]; exact Option.some_ne_none e)
  refine ⟨s.qualify, Moment.exec_command .edge s due, ?_⟩
  by_cases counted : e.counted = true
  · by_cases taken : e.evaluated = true ∧ s.seq.startPhase = .edge
    · rw [qualify_taken waits counted taken.1 taken.2]
      refine ⟨rfl, rfl, rfl, rfl, rfl, rfl, rfl, rfl, rfl, rfl, rfl, rfl, rfl, rfl, rfl, rfl,
        fun _ _ _ => ⟨rfl, rfl, rfl, fun copy staged => ⟨fun start => ?_, fun angle start => ?_⟩⟩,
        fun _ stray => ?_, fun uncounted => ?_⟩
      · simp [State.takeEdge, settledAnew, staged, start, StartCond.target?]
      · simp [State.takeEdge, settledAnew, staged, start, StartCond.target?]
      · rcases stray with unevaluated | other
        · exact absurd (unevaluated.symm.trans taken.1) Bool.false_ne_true
        · exact absurd taken.2 other
      · exact absurd (uncounted.symm.trans counted) Bool.false_ne_true
    · have stray : e.evaluated = false ∨ s.seq.startPhase ≠ .edge := by
        rw [← Bool.not_eq_true]
        exact Decidable.not_and_iff_or_not.mp taken
      rw [qualify_stray waits counted stray]
      refine ⟨rfl, rfl, rfl, rfl, rfl, rfl, rfl, rfl, rfl, rfl, rfl, rfl, rfl, rfl, rfl, rfl,
        fun _ evaluated phase => absurd ⟨evaluated, phase⟩ taken,
        fun _ _ => ⟨latched_latch_self _ (settledAnew s), rfl, rfl⟩,
        fun uncounted => absurd (uncounted.symm.trans counted) Bool.false_ne_true⟩
  · have uncounted : e.counted = false := by simpa using counted
    rw [qualify_uncounted waits uncounted]
    exact ⟨rfl, rfl, rfl, rfl, rfl, rfl, rfl, rfl, rfl, rfl, rfl, rfl, rfl, rfl, rfl, rfl,
      fun h => absurd h counted, fun h => absurd h counted, fun _ => ⟨rfl, rfl, rfl⟩⟩

/-! ## STEP_START (R19, R109, R113) -/

theorem evaluates_iff (r : RunState) :
    r.evaluates = true ↔ r ∈ [RunState.armed, RunState.waiting, RunState.active] := by
  cases r <;> decide

theorem startMet_iff (s : State) : s.startMet = true ↔ s.seq.startPhase = .due ∨
    s.seq.startPhase = .crossing ∧ (s.prospectTheta - s.seq.target).toNat < s.prospectTuning := by
  rw [State.startMet]
  cases s.seq.startPhase <;> simp [crosses]

theorem start_due_iff (s : State) : s.due .start = true ↔ (∃ copy, s.expander.slot = .step copy) ∧
    s.seq.run ∈ [RunState.armed, RunState.waiting, RunState.active] ∧
    (s.seq.startPhase = .due ∨
      s.seq.startPhase = .crossing ∧ (s.prospectTheta - s.seq.target).toNat < s.prospectTuning) := by
  rw [State.due, State.startDue, ← evaluates_iff, ← startMet_iff]
  cases s.expander.slot <;> simp

theorem fillSlot_seq (s : State) :
    s.fillSlot.seq.run = s.seq.run ∧ s.fillSlot.seq.remembered = s.seq.remembered ∧
    s.fillSlot.seq.active = s.seq.active := by
  rcases s.fillSlot_cases with same | ⟨_, _, ⟨seq, _⟩, _⟩
  · rw [same]
    exact ⟨rfl, rfl, rfl⟩
  · rw [seq]
    exact ⟨rfl, rfl, rfl⟩

/-- An item staged in ACTIVE with no open step begun waits as it is (R107). -/
theorem actOnStaged_of_active {s : State} (active : s.seq.run = .active) (not_begun : s.seq.openBegun = false) :
    s.actOnStaged = s := by
  unfold State.actOnStaged
  split
  · rfl
  · simp only [active, not_begun, Bool.false_eq_true, if_false]
  · simp only [active]

theorem activate_active (copy : StepCopy) (s : State) :
    (s.activate copy).seq.run = .active ∧ (s.activate copy).seq.remembered = none ∧
    (s.activate copy).seq.active = some (s.newActive copy) := ⟨rfl, rfl, rfl⟩

/-- The step that has just started has no sample yet, so what is staged behind it waits. -/
theorem activate_stage (copy : StepCopy) (s : State) : (s.activate copy).stage = (s.activate copy).fillSlot := by
  obtain ⟨run, _, active⟩ := fillSlot_seq (s.activate copy)
  have not_begun : (s.activate copy).fillSlot.seq.openBegun = false := by
    rw [Sequencer.openBegun, active, (activate_active copy s).2.2]
    simp [State.newActive]
  have emptied : (s.activate copy).expander.slot = .empty := rfl
  rw [State.stage, if_pos emptied, actOnStaged_of_active run not_begun]

theorem activate_synth (copy : StepCopy) (s : State) :
    (s.activate copy).synth = s.synth.startStep copy.content := by
  have ended : ((s.endActive .handedOver).clearSlot).synth = s.synth := by simp
  exact congrArg (Synth.startStep · copy.content) ended

theorem activate_results (copy : StepCopy) (s : State) :
    (s.activate copy).results = (s.handActive .handedOver).results :=
  State.endActive_results .handedOver s

theorem startStep_phase (y : Synth) (t : Template) (p : Phase) :
    (y.startStep t).phases.get p = (y.phases.get p).startStep t.levelRamp (t.phases.get p) := get_map2 ..

theorem prospectTuning_of_ramps {s : State} (ramps : s.seq.run.ramps = true) :
    ∃ ramp, RampStep s.synth.tuning s.synth.freqRamp s.prospectTuning ramp := by
  rw [State.prospectTuning, if_pos ramps]
  exact ⟨_, rampSample_step ..⟩

/-- Settles O18: the start is due by its phase in a state that evaluates; the step is activated, and the staging behind
it touches neither record nor synthesizer. -/
theorem stepStartTakesOver : Obligations.StepStartTakesOver := by
  unfold Obligations.StepStartTakesOver
  refine ⟨fun s => ⟨fun ramps => prospectTuning_of_ramps ((ramps_iff _).mpr ramps), fun hold => ?_, rfl, start_due_iff s,
    fun not_due => exec_command_of_not_due (m := .start) (mt (start_due_iff s).mp not_due)⟩,
    fun s copy staged starts => ?_⟩
  · rw [State.prospectTuning, (ramps_eq_false_iff _).mpr hold]
    rfl
  have due : s.due .start = true := (start_due_iff s).mpr ⟨⟨copy, staged⟩, starts⟩
  have taken : s.take .start = (s.activate copy).stage.latch .stepBegun := by
    simp only [State.take, State.takeStart, staged]
  obtain ⟨run, remembered, active⟩ := fillSlot_seq (s.activate copy)
  have synth : (s.take .start).synth = s.synth.startStep copy.content := by
    rw [taken, activate_stage, ← activate_synth copy s]
    exact (State.fillSlot_frame _).1
  have kept : (s.take .start).seq.active = some (s.newActive copy) := by
    rw [taken, activate_stage]
    exact active
  refine ⟨s.take .start, Moment.exec_command .start s due, ?_, ?_, ?_, ⟨s.activate copy, taken, ?_, ?_, ?_, ?_, ?_, ?_,
    rfl, kept.symm, rfl, rfl, ?_, ?_⟩, ?_, ?_, ?_⟩
  · rw [taken, activate_stage]
    exact run
  · rw [taken, activate_stage]
    exact remembered
  · rw [taken]
    exact latched_latch_self _ _
  · simp [State.activate]
  · simp
  · simp
  · simp
  · simp
  · exact State.endActive_notices .handedOver s
  · simp [State.activate]
  · simp [State.activate]
  · rw [kept, State.newActive, angleOf, Nat.mul_comm]
    rfl
  · rw [taken, ← activate_results copy s]
    simp
  · rw [synth]
    refine ⟨rfl, rfl, rfl, rfl, fun p => ?_, ?_, ?_, ?_, ?_, ?_⟩
    · dsimp only
      rw [startStep_phase]
      refine ⟨rfl, rfl, rfl, rfl, fun absent => ?_, fun o present => ?_⟩
      · simp [SynthPhase.startStep, absent]
      · simp [SynthPhase.startStep, present, Ramp.toward]
    · simp [taken]
    · simp [taken]
    · rw [taken, activate_stage]
      simp
    · simp [taken]
    · simp [taken]

/-! ## STEP_END (R115, R116, R117) -/

theorem met_iff (d : Duration) (elapsed travel : Nat) : d.met elapsed travel = true ↔
    (∃ n, 1 ≤ n ∧ d = .samples n ∧ n ≤ elapsed) ∨
      ∃ v, 1 ≤ v ∧ d = .degrees v ∧ v * 2 ^ 32 / 3600 ≤ travel := by
  have closed : (!d.isOpen) = true ↔ 1 ≤ d.value := by
    rw [Bool.not_eq_true', Duration.isOpen, decide_eq_false_iff_not, Nat.one_le_iff_ne_zero]
  rw [Duration.met.eq_def, Bool.and_eq_true, closed]
  cases d with
  | samples n =>
    simp only [Duration.value, decide_eq_true_iff, Duration.samples.injEq, reduceCtorEq, false_and, and_false,
      exists_false, or_false]
    exact ⟨fun ⟨positive, reached⟩ => ⟨n, positive, rfl, reached⟩, fun ⟨_, positive, same, reached⟩ => by
      subst same; exact ⟨positive, reached⟩⟩
  | degrees v =>
    simp only [Duration.value, travelDistance, decide_eq_true_iff, Duration.degrees.injEq, reduceCtorEq, false_and,
      and_false, exists_false, false_or, Nat.mul_comm (2 ^ 32)]
    exact ⟨fun ⟨positive, reached⟩ => ⟨v, positive, rfl, reached⟩, fun ⟨_, positive, same, reached⟩ => by
      subst same; exact ⟨positive, reached⟩⟩

theorem stepEnd_due_iff (s : State) : s.due .stepEnd = true ↔ s.seq.run = .active ∧ ∃ a, s.seq.active = some a ∧
    ((∃ n, 1 ≤ n ∧ a.copy.content.duration = .samples n ∧ n ≤ a.elapsed) ∨
      ∃ v, 1 ≤ v ∧ a.copy.content.duration = .degrees v ∧ v * 2 ^ 32 / 3600 ≤ a.travel) := by
  rw [State.due, State.stepEndDue, Bool.and_eq_true, beq_iff_eq, Sequencer.closedMet]
  cases s.seq.active with
  | none => simp
  | some a => simp only [met_iff, Option.some.injEq, exists_eq_left']

theorem endActive_active (reason : EndReason) (s : State) : (s.endActive reason).seq.active = none := by simp

/-- What follows the end of a step, by the staging slot (R117). -/
theorem afterEnd_step {s : State} {copy : StepCopy} (staged : s.expander.slot = .step copy) :
    s.afterEnd = if copy.content.start = .follow then s.beginEvaluation copy
      else (s.enterRun .waiting).beginEvaluation copy := by
  rw [State.afterEnd, staged]

theorem afterEnd_marker {s : State} {option : EndOption} (staged : s.expander.slot = .marker option) :
    s.afterEnd = s.takeMarker option := by
  rw [State.afterEnd, staged]

theorem afterEnd_empty {s : State} (staged : s.expander.slot = .empty) :
    s.afterEnd = (s.enterRun .starved).latch .starved := by
  rw [State.afterEnd, staged]

/-- The monitor and the active step are not touched by what follows an end in ACTIVE. -/
theorem afterEnd_keeps {s : State} (active : s.seq.run = .active) :
    s.afterEnd.monitor = s.monitor ∧ s.afterEnd.seq.active = s.seq.active := by
  cases staged : s.expander.slot with
  | empty => rw [afterEnd_empty staged]; exact ⟨rfl, rfl⟩
  | step copy => rw [afterEnd_step staged]; split <;> exact ⟨rfl, rfl⟩
  | marker option =>
    rw [afterEnd_marker staged]
    exact (State.takeMarker_cases option s (by rw [active]; decide)).2.2

/-- Settles O19: the end is due by the record, and what follows is `State.afterEnd`, slot by slot. -/
theorem stepEndActsOnTheSlot : Obligations.StepEndActsOnTheSlot := by
  unfold Obligations.StepEndActsOnTheSlot
  refine ⟨fun s => ⟨stepEnd_due_iff s,
    fun not_due => exec_command_of_not_due (m := .stepEnd) (mt (stepEnd_due_iff s).mp not_due)⟩,
    fun s a run present met => ?_⟩
  have due : s.due .stepEnd = true := (stepEnd_due_iff s).mpr ⟨run, a, present, met⟩
  have ended_run : (s.endActive .complete).seq.run = .active := by simp [run]
  have ended_slot : (s.endActive .complete).expander.slot = s.expander.slot := by simp
  have not_armed : (s.endActive .complete).seq.run ≠ .armed := by rw [ended_run]; decide
  obtain ⟨monitor, active⟩ := afterEnd_keeps ended_run
  refine ⟨s.completeStep, Moment.exec_command .stepEnd s due, active.trans (endActive_active ..), ?_,
    fun copy staged => ?_, fun staged => ?_, fun staged => ?_, fun staged => ?_, by simp, by simp,
    monitor.trans (by simp), by simp, by simp⟩
  · rw [State.completeStep, (State.afterEnd_frame _).2.2.1, State.endActive_results]
  · rw [State.completeStep, afterEnd_step (ended_slot.trans staged)]
    split
    · rename_i follow
      exact ⟨by simp, by simp, by simp, State.beginEvaluation_begins _ copy, fun _ => ended_run,
        fun other => absurd follow other⟩
    · rename_i other
      exact ⟨by simp, by simp, by simp, State.beginEvaluation_begins _ copy, fun follow => absurd follow other,
        fun _ => rfl⟩
  · rw [State.completeStep, afterEnd_marker (ended_slot.trans staged)]
    obtain ⟨stopping, slot, stops⟩ := (State.takeMarker_cases .off _ not_armed).1 rfl
    exact ⟨stopping, slot, stops.of_eq (by simp) (by simp) rfl⟩
  · rw [State.completeStep, afterEnd_marker (ended_slot.trans staged)]
    obtain ⟨parked, ended, synth⟩ := (State.takeMarker_cases .hold _ not_armed).2.1 rfl
    exact ⟨parked, ended, synth.trans (by simp), State.endActive_parks .complete s (by rw [run]; decide)⟩
  · rw [State.completeStep, afterEnd_empty (ended_slot.trans staged)]
    exact ⟨rfl, latched_latch_self _ _, by simp, by simp⟩

/-! ## END_MARKER_HANDOVER (R118, R121) -/

theorem handover_due_iff (s : State) : s.due .handover = true ↔ (∃ option, s.expander.slot = .marker option) ∧
    s.seq.run = .active ∧ ∃ a, s.seq.active = some a ∧ a.begun = true ∧
      (a.copy.content.duration = .samples 0 ∨ a.copy.content.duration = .degrees 0) := by
  rw [State.due, State.handoverDue, ← Sequencer.openBegun_iff]
  cases s.expander.slot <;> simp

/-- Settles O20: the marker is due behind an open step begun; the step ends and the marker is taken. -/
theorem markerEndsAnOpenStep : Obligations.MarkerEndsAnOpenStep := by
  unfold Obligations.MarkerEndsAnOpenStep
  refine ⟨fun s => ⟨handover_due_iff s,
    fun not_due => exec_command_of_not_due (m := .handover) (mt (handover_due_iff s).mp not_due)⟩,
    fun s option hands_over staged => ?_⟩
  have due : s.due .handover = true := (handover_due_iff s).mpr ⟨⟨option, staged⟩, hands_over⟩
  have taken : s.take .handover = (s.endActive .handedOver).takeMarker option := by
    simp only [State.take, State.takeHandover, staged]
  have not_armed : s.seq.run ≠ .armed := by rw [hands_over.1]; decide
  obtain ⟨off, hold, monitor, active⟩ :=
    State.takeMarker_cases option (s.endActive .handedOver) (by simpa using not_armed)
  refine ⟨s.take .handover, Moment.exec_command .handover s due, ?_⟩
  rw [taken]
  refine ⟨active.trans (endActive_active ..), ?_, fun is_off => ?_, fun is_hold => ?_, by simp, by simp,
    monitor.trans (by simp), by simp, by simp⟩
  · rw [(State.takeMarker_frame ..).2.2.1, State.endActive_results]
  · obtain ⟨stopping, slot, stops⟩ := off is_off
    exact ⟨stopping, slot, stops.of_eq (by simp) (by simp) rfl⟩
  · obtain ⟨parked, ended, synth⟩ := hold is_hold
    subst is_hold
    exact ⟨parked, ended, synth.trans (by simp), State.endActive_parks .handedOver s not_armed⟩

/-! ## TRIGGER_TIMEOUT (R112, R131, R154) -/

theorem timeout_due_iff (s : State) : s.due .timeout = true ↔ s.moments.timeout = true ∧ s.seq.run ≠ .paused := by
  rw [State.due, State.timeoutDue, Bool.and_eq_true, bne_iff_ne]

/-- What a record handed leaves in the result queue depends on that queue alone. -/
theorem handResult_results_congr {s t : State} (same : t.results = s.results) (body : ResultBody) :
    (t.handResult body).results = (s.handResult body).results := by
  unfold State.handResult
  rw [same]
  dsimp only
  split
  · simp only [State.latchIf_frame]
  · rfl

theorem latch_handActive_results (n : Notice) (reason : EndReason) (s : State) :
    ((s.latch n).handActive reason).results = (s.handActive reason).results := by
  unfold State.handActive
  have same : (s.latch n).seq.active = s.seq.active := rfl
  rw [same]
  split
  · rfl
  · exact handResult_results_congr (s := s) (t := s.latch n) rfl _

/-- The state of an expiry whose records have been handed, before the expansion is discarded. -/
def timeoutHanded (s : State) : State := ((s.latch .triggerTimeout).endActive .aborted).handTimedOut

theorem expire_eq (s : State) :
    s.expire = if s.seq.run = .armed then ((timeoutHanded s).discardExpansion.enterEnd .off).latch .runEnded
      else (timeoutHanded s).discardExpansion.enterEnd .stopping := rfl

theorem timeoutHanded_results {s : State} {copy : StepCopy} (staged : s.expander.slot = .step copy) :
    (timeoutHanded s).results =
      ((s.handActive .aborted).handResult (copy.timedOut s.queue.trial s.synth.sampleIndex)).results := by
  have same_slot : ((s.latch .triggerTimeout).endActive .aborted).expander.slot = .step copy := by
    rw [← staged]
    simp
  have handed : ((s.latch .triggerTimeout).endActive .aborted).results = (s.handActive .aborted).results := by
    rw [State.endActive_results, latch_handActive_results]
  rw [timeoutHanded, State.handTimedOut, same_slot]
  dsimp only
  rw [handResult_results_congr handed]
  simp

theorem handTimedOut_keeps (s : State) : s.Keeps s.handTimedOut := by
  unfold State.handTimedOut
  split
  · exact State.handResult_keeps _ s
  · exact fun _ h => h
  · exact fun _ h => h

theorem handTimedOut_lowWater (s : State) : s.handTimedOut.latched .lowWater = s.latched .lowWater := by
  unfold State.handTimedOut
  split
  · exact State.handResult_lowWater s _
  · rfl
  · rfl

theorem timeoutHanded_frame (s : State) :
    (timeoutHanded s).synth = s.synth ∧ (timeoutHanded s).expander = s.expander ∧
    (timeoutHanded s).queue = s.queue ∧ (timeoutHanded s).library = s.library ∧
    (timeoutHanded s).phrases = s.phrases ∧ (timeoutHanded s).setup = s.setup ∧
    (timeoutHanded s).monitor = s.monitor ∧ (timeoutHanded s).seq.active = none ∧
    (timeoutHanded s).moments = s.moments := by
  simp [timeoutHanded]

theorem timeoutHanded_latched (s : State) : (timeoutHanded s).latched .triggerTimeout = true :=
  handTimedOut_keeps _ _ (State.endActive_keeps .aborted _ _ (latched_latch_self _ s))

theorem timeoutHanded_lowWater (s : State) : (timeoutHanded s).latched .lowWater = s.latched .lowWater := by
  rw [timeoutHanded, handTimedOut_lowWater, State.endActive_lowWater, State.latched_latch]
  exact Bool.or_false _

theorem enterEnd_latched (run : RunState) (s : State) (n : Notice) :
    (s.enterEnd run).latched n = s.latched n := by
  unfold State.enterEnd
  split <;> rfl

/-- What the discarding of an expansion and the entry after it leave of the trigger's evaluation (R107, R112). -/
theorem leave_evaluation (run : RunState) (s : State) :
    (s.discardExpansion.enterEnd run).seq.timeoutCount = 0 ∧
    (s.discardExpansion.enterEnd run).moments.timeout = false := by
  have discarded := s.discardExpansion_changes
  unfold State.enterEnd
  split <;> simp [discarded]

/-- An early leave keeps every latched flag. -/
theorem leave_keeps (run : RunState) (s : State) : s.Keeps (s.discardExpansion.enterEnd run) := by
  intro n latched
  rw [enterEnd_latched]
  exact State.discardExpansion_keeps s n latched

theorem enterEnd_stopping_monitor (s : State) : (s.discardExpansion.enterEnd .stopping).monitor = s.monitor := by
  simp [State.enterEnd]

theorem runLeft_latch {s : State} (n : Notice) (left : s.RunLeft) : (s.latch n).RunLeft := by
  obtain ⟨active, slot, phase, remembered, rewound, context⟩ := left
  exact ⟨active, slot, phase, remembered, rewound, context⟩

/-- Settles O21: the records are handed to the state that the early leave then discards; ARMED and the other states
differ in the state entered and in RUN_ENDED. -/
theorem triggerTimeoutLeavesTheRun : Obligations.TriggerTimeoutLeavesTheRun := by
  unfold Obligations.TriggerTimeoutLeavesTheRun
  refine ⟨fun s => ⟨timeout_due_iff s, fun not_due => exec_command_of_not_due (m := .timeout) fun due => ?_⟩,
    fun s copy waits staged not_paused => ?_⟩
  · obtain ⟨waits, not_paused⟩ := (timeout_due_iff s).mp due
    rcases not_due with none_waits | paused
    · exact Bool.false_ne_true (none_waits.symm.trans waits)
    · exact not_paused paused
  have due : s.due .timeout = true := (timeout_due_iff s).mpr ⟨waits, not_paused⟩
  obtain ⟨synth, expander, queue, library, phrases, setup, monitor, active, moments⟩ := timeoutHanded_frame s
  have results := timeoutHanded_results staged
  refine ⟨s.expire, Moment.exec_command .timeout s due, ?_⟩
  have left (run : RunState) := State.enterEnd_left run (timeoutHanded s) active
  have spends (run : RunState) :=
    State.leave_spends run expander queue library phrases setup (timeoutHanded_lowWater s)
  have latched (run : RunState) := leave_keeps run (timeoutHanded s) _ (timeoutHanded_latched s)
  have kept (run : RunState) : ((timeoutHanded s).discardExpansion.enterEnd run).results = (timeoutHanded s).results := by
    simp
  by_cases armed : s.seq.run = .armed
  · rw [expire_eq, if_pos armed]
    refine ⟨State.latch_keeps .runEnded _ _ (latched .off), runLeft_latch _ (left .off).1, (leave_evaluation .off _).1,
      (leave_evaluation .off _).2, (kept .off).trans results,
      fun _ => ⟨(left .off).2, latched_latch_self _ _, ?_⟩, fun other => absurd armed other, (spends .off).1,
      fun context before c after h1 h2 h3 h4 => ((spends .off).2 context before c after h1 h2 h3 h4).latch _ (by decide),
      by simp [timeoutHanded], by simp [timeoutHanded], by simp [timeoutHanded], by simp [timeoutHanded]⟩
    exact (State.enterEnd_rests .off (by decide) (timeoutHanded s)).of_eq synth.symm setup.symm rfl rfl rfl
  · rw [expire_eq, if_neg armed]
    refine ⟨latched .stopping, (left .stopping).1, (leave_evaluation .stopping _).1,
      (leave_evaluation .stopping _).2, (kept .stopping).trans results, fun h => absurd h armed,
      fun _ => ⟨(left .stopping).2, ?_, (enterEnd_stopping_monitor _).trans monitor⟩, (spends .stopping).1,
      (spends .stopping).2, by simp [timeoutHanded], by simp [timeoutHanded], by simp [timeoutHanded],
      by simp [timeoutHanded]⟩
    exact (State.enterEnd_stops (timeoutHanded s)).of_eq synth.symm setup.symm rfl

/-! ## TRIP (R131, R133, R144, R147) -/

theorem trip_due_iff (s : State) : s.due .trip = true ↔ s.moments.trip ≠ none :=
  Option.isSome_iff_ne_none

/-- The state of a trip with its fault record, before the run is left. -/
def tripRecorded (tripped : PerPhase Bool) (s : State) : State :=
  State.latch .tripped { s with monitor := { s.monitor with
    fault := some { phases := tripped, sample := s.synth.sampleIndex } } }

theorem takeTrip_eq {s : State} {tripped : PerPhase Bool} (waits : s.moments.trip = some tripped) :
    s.take .trip = (tripRecorded tripped s).leaveEarly .tripped .fault := by
  simp only [State.take, State.takeTrip, waits]
  rfl

theorem tripRecorded_handActive (tripped : PerPhase Bool) (reason : EndReason) (s : State) :
    ((tripRecorded tripped s).handActive reason).results = (s.handActive reason).results := by
  unfold State.handActive
  have same : (tripRecorded tripped s).seq.active = s.seq.active := rfl
  rw [same]
  split
  · rfl
  · exact handResult_results_congr (s := s) (t := tripRecorded tripped s) rfl _

theorem leaveEarly_keeps (reason : EndReason) (run : RunState) (s : State) : s.Keeps (s.leaveEarly reason run) :=
  (State.endActive_keeps reason s).trans (leave_keeps run _)

/-- Where no LOW_WATER is latched between, what becomes of the cues reads the same from the state before (R81). -/
theorem Spends.of_eq {s s' t : State} {before : List Cue} {c : Cue} {after : List Cue}
    (h : s'.Spends t before c after) (queue : s'.queue = s.queue) (library : s'.library = s.library)
    (phrases : s'.phrases = s.phrases) (setup : s'.setup = s.setup)
    (low_water : s'.latched .lowWater = s.latched .lowWater) : s.Spends t before c after := by
  obtain ⟨stream, retain, serial, trial, lowWater⟩ := h
  rw [setup, library, phrases] at stream retain
  rw [queue] at serial trial
  rw [queue, setup, low_water] at lowWater
  exact ⟨stream, retain, serial, trial, lowWater⟩

/-- Settles O22: the trip records its phases and leaves the run early to FAULT. -/
theorem tripEntersFault : Obligations.TripEntersFault := by
  unfold Obligations.TripEntersFault
  refine ⟨fun s => ⟨trip_due_iff s, fun none_waits =>
      exec_command_of_not_due (m := .trip) fun due => (trip_due_iff s).mp due none_waits⟩,
    fun s tripped waits => ?_⟩
  have due : s.due .trip = true := (trip_due_iff s).mpr (by rw [waits]; exact Option.some_ne_none tripped)
  obtain ⟨left, run, results, _, no_context, spends, ended, ports, store, setup, _, _, rests, _, fault, link⟩ :=
    State.leaveEarly_leaves .tripped .fault (tripRecorded tripped s)
  have low_water : (tripRecorded tripped s).latched .lowWater = s.latched .lowWater := by
    rw [tripRecorded, State.latched_latch]
    exact Bool.or_false _
  refine ⟨s.take .trip, Moment.exec_command .trip s due, ?_⟩
  rw [takeTrip_eq waits]
  refine ⟨run, left, (rests (by decide)).of_eq rfl rfl rfl rfl rfl, fault, ?_, ended.trans ?_,
    results.trans (tripRecorded_handActive ..), rfl, no_context, fun context before c after h1 h2 h3 h4 => ?_, ports,
    store, setup, link⟩
  · exact leaveEarly_keeps .tripped .fault _ _ (latched_latch_self .tripped _)
  · rw [tripRecorded, State.latched_latch]
    exact Bool.or_false _
  · exact Spends.of_eq (spends context before c after h1 h2 h3 h4) rfl rfl rfl rfl low_water

/-! ## STOP_RAMP_COMPLETE (R22, R123) -/

theorem every_eq_true_iff (t : PerPhase Bool) : t.every = true ↔ ∀ p, t.get p = true := by
  rw [forall_phase, PerPhase.every, Bool.and_eq_true, Bool.and_eq_true, and_assoc]
  rfl

theorem rampOver_iff (ramp : Option Ramp) :
    rampOver ramp = true ↔ ∀ r, ramp = some r → 1 ≤ r.progress ∧ r.length ≤ r.progress := by
  cases ramp <;> simp [rampOver, Ramp.reached]

theorem stop_due_iff (s : State) : s.due .stop = true ↔ s.seq.run = .stopping ∧
    ∀ p, ∀ r, ((s.synth.phases.get p).primaryRamp = some r ∨ (s.synth.phases.get p).overlayRamp = some r) →
      1 ≤ r.progress ∧ r.length ≤ r.progress := by
  rw [State.due, State.stopDue, Bool.and_eq_true, beq_iff_eq, every_eq_true_iff]
  simp only [get_map, SynthPhase.rampsOver, Bool.and_eq_true, rampOver_iff]
  exact and_congr_right' ⟨fun ended p r present => Or.elim present ((ended p).1 r) ((ended p).2 r),
    fun ended p => ⟨fun r present => ended p r (.inl present), fun r present => ended p r (.inr present)⟩⟩

/-- Settles O23: the stop is due by the six amplitude ramps, and enters OFF with RUN_ENDED. -/
theorem stopRampLeadsToOff : Obligations.StopRampLeadsToOff := by
  unfold Obligations.StopRampLeadsToOff
  refine ⟨fun s => ⟨stop_due_iff s,
    fun not_due => exec_command_of_not_due (m := .stop) (mt (stop_due_iff s).mp not_due)⟩, fun s stopped => ?_⟩
  have due : s.due .stop = true := (stop_due_iff s).mpr stopped
  exact ⟨s.takeStop, Moment.exec_command .stop s due, rfl, (State.enterIdle_rests .off s).of_eq rfl rfl rfl rfl rfl,
    latched_latch_self _ _, rfl, rfl, rfl, rfl, rfl, rfl, rfl, rfl, rfl, rfl⟩

end Sys2Proof.Proofs
end

section
/-! Requests that read the state or move one record of it: notices, slots, reads, shape work, FAULT_CLEAR and
OUTPUT_ENABLE. -/

namespace Sys2Proof.Proofs

open Sys2Proof Sys2Proof.Machine

/-! ## NOTICE_CLEAR (R183) -/

theorem getLsbD_clear (n : Notices) (flagSet : Half) (k : Nat) :
    (n.clear flagSet).flags.getLsbD k = (n.flags.getLsbD k && !(flagSet.getLsbD k && k < 15)) := by
  rw [Notices.clear, BitVec.getLsbD_and, BitVec.getLsbD_not, getLsbD_readFlags]
  by_cases in_word : k < 16
  · rw [decide_eq_true in_word, Bool.true_and]
  · rw [BitVec.getLsbD_of_ge n.flags k (Nat.le_of_not_lt in_word), Bool.false_and, Bool.false_and]

/-- Settles O33: the flags after the clear are `Notices.clear`, bit by bit. -/
theorem noticeClearClearsNamedFlags : Obligations.NoticeClearClearsNamedFlags := by
  unfold Obligations.NoticeClearClearsNamedFlags
  intro s tag flagSet listening
  refine ⟨(s.notices.clear flagSet).flags, getLsbD_clear s.notices flagSet, ?_⟩
  exact (exec_of_listening listening (i := .noticeClear tag flagSet) rfl rfl).trans rfl

/-! ## SHAPE_OPEN and SHAPE_ERASE (R29, R31, R32, R35) -/

theorem slot_exists (s : State) {k : Nat} (low : k < 16) : ∃ record, s.store.slots[k]? = some record :=
  ⟨s.store.slots[k], Vector.getElem?_eq_getElem low⟩

section
variable {s : State} {slot : Byte} (kind tag : Byte) (state : SlotState)

theorem openRequest_clearShape_of_above (above : 15 < slot.toNat) :
    (s.openRequest kind tag).clearShape state slot = s.replied kind tag .refused .range [] := by
  have absent : (s.openRequest kind tag).store.slots[slot.toNat]? = none := s.noSlot slot above
  rw [State.clearShape, absent]
  exact State.openRequest_refuse ..

theorem openRequest_clearShape_of_zero (zero : slot = 0#8) :
    (s.openRequest kind tag).clearShape state slot = s.replied kind tag .refused .readOnly [] := by
  obtain ⟨record, present⟩ := slot_exists (s.openRequest kind tag) (k := slot.toNat) (by rw [zero]; decide)
  rw [State.clearShape, present]
  exact (if_pos zero).trans (State.openRequest_refuse ..)

theorem openRequest_clearShape_of_held {record : Slot} (not_zero : slot ≠ 0#8)
    (present : s.store.slots[slot.toNat]? = some record) (held : s.SlotHeld slot.toNat record) :
    (s.openRequest kind tag).clearShape state slot = s.replied kind tag .refused .inUse [] := by
  have present' : (s.openRequest kind tag).store.slots[slot.toNat]? = some record := present
  rw [State.clearShape, present']
  exact (if_neg not_zero).trans ((if_pos ((s.held_iff slot.toNat record).mpr held)).trans
    (State.openRequest_refuse ..))

theorem openRequest_clearShape_of_free {record : Slot} (not_zero : slot ≠ 0#8)
    (present : s.store.slots[slot.toNat]? = some record) (free : ¬ s.SlotHeld slot.toNat record) :
    (s.openRequest kind tag).clearShape state slot =
      State.replied kind tag .done .none [slot, record.gen + 1#8] (s.setSlot slot.toNat (record.cleared state)) := by
  have present' : (s.openRequest kind tag).store.slots[slot.toNat]? = some record := present
  rw [State.clearShape, present']
  exact (if_neg not_zero).trans ((if_neg (mt (s.held_iff slot.toNat record).mp free)).trans
    (State.onLink_answer (s := s) (t := s.setSlot slot.toNat (record.cleared state)) rfl ..))

end

theorem exec_shapeOpen {s : State} (listening : s.Listening) (tag slot : Byte) :
    exec (.shapeOpen tag slot) s = .next ((s.openRequest 0x10#8 tag).clearShape .filling slot) :=
  exec_of_listening listening (i := .shapeOpen tag slot) rfl rfl

theorem exec_shapeErase {s : State} (listening : s.Listening) (tag slot : Byte) :
    exec (.shapeErase tag slot) s = .next ((s.openRequest 0x12#8 tag).clearShape .empty slot) :=
  exec_of_listening listening (i := .shapeErase tag slot) rfl rfl

/-- Settles O35: the two requests are one clearing, into two states. -/
theorem openAndEraseClearASlot : Obligations.OpenAndEraseClearASlot := by
  unfold Obligations.OpenAndEraseClearASlot
  intro s tag slot listening
  rw [exec_shapeOpen listening, exec_shapeErase listening]
  refine ⟨fun above => ?_, fun zero => ?_, fun record not_zero present => ⟨fun held => ?_, fun free => ?_⟩⟩
  · simp only [openRequest_clearShape_of_above _ _ _ above, and_self]
  · simp only [openRequest_clearShape_of_zero _ _ _ zero, and_self]
  · simp only [openRequest_clearShape_of_held _ _ _ not_zero present held, and_self]
  · rw [openRequest_clearShape_of_free _ _ _ not_zero present free,
      openRequest_clearShape_of_free _ _ _ not_zero present free]
    exact ⟨rfl, rfl⟩

/-! ## SHAPE_INFO, TEMPLATE_READ and PHRASE_READ (R36, R58, R71) -/

theorem activeNames_iff (s : State) (k : Nat) :
    s.activeNames k = true ↔ ∃ a, s.seq.active = some a ∧ a.copy.content.Names k := by
  rw [State.activeNames]
  cases s.seq.active <;> simp [Template.names_iff]

theorem stagedNames_iff (s : State) (k : Nat) :
    s.stagedNames k = true ↔ ∃ copy, s.expander.slot = .step copy ∧ copy.content.Names k := by
  rw [State.stagedNames]
  cases s.expander.slot <;> simp [Template.names_iff]

theorem cursor_eq {store : Store} {index : Byte} {record : Slot} (present : store.slots[index.toNat]? = some record) :
    store.cursor index.toNat = if index = 0#8 then 1024 else record.points.length := by
  have zero_iff : index.toNat = 0 ↔ index = 0#8 := (byte_eq_iff index 0 (by decide)).symm
  simp only [Store.cursor, present, zero_iff]
  rfl

theorem template?_eq {s : State} {index : Nat} {e : Option TemplateEntry} (at_index : s.library[index]? = some e) :
    s.template? index = e := by
  rw [State.template?, at_index]
  rfl

theorem phrase?_eq {s : State} {index : Nat} {e : Option PhraseEntry} (at_index : s.phrases[index]? = some e) :
    s.phrase? index = e := by
  rw [State.phrase?, at_index]
  rfl

theorem template_index_le {s : State} {index : Nat} {e : Option TemplateEntry}
    (at_index : s.library[index]? = some e) : ¬ 63 < index := by
  have := (Vector.getElem?_eq_some_iff.mp at_index).1
  omega

theorem phrase_index_le {s : State} {index : Nat} {e : Option PhraseEntry}
    (at_index : s.phrases[index]? = some e) : ¬ 127 < index := by
  have := (Vector.getElem?_eq_some_iff.mp at_index).1
  omega

section
variable {s : State} {index : Byte} (kind tag : Byte)

theorem templateRead_of_free (free : s.library[index.toNat]? = some none) :
    (s.openRequest kind tag).takeTemplateRead index = s.replied kind tag .refused .notReady [] := by
  rw [State.takeTemplateRead, if_neg (template_index_le free), template?_eq (s := s.openRequest kind tag) free]
  exact State.openRequest_refuse ..

theorem templateRead_of_defined {e : TemplateEntry} (defined : s.library[index.toNat]? = some (some e)) :
    (s.openRequest kind tag).takeTemplateRead index =
      s.replied kind tag .done .none (templateBytes (e.template.wire index) ++ bytes2 e.refcount) := by
  rw [State.takeTemplateRead, if_neg (template_index_le defined), template?_eq (s := s.openRequest kind tag) defined]
  exact State.openRequest_done ..

theorem phraseRead_of_free (free : s.phrases[index.toNat]? = some none) :
    (s.openRequest kind tag).takePhraseRead index = s.replied kind tag .refused .notReady [] := by
  rw [State.takePhraseRead, if_neg (phrase_index_le free), phrase?_eq (s := s.openRequest kind tag) free]
  exact State.openRequest_refuse ..

theorem phraseRead_of_defined {e : PhraseEntry} (defined : s.phrases[index.toNat]? = some (some e)) :
    (s.openRequest kind tag).takePhraseRead index = s.replied kind tag .done .none
      ([index, byteOf (e.pred.getD 255), byteOf e.template, byteOf e.depth] ++ bytes2 e.refcount
        ++ (s.expansion index.toNat).map byteOf) := by
  rw [State.takePhraseRead, if_neg (phrase_index_le defined), phrase?_eq (s := s.openRequest kind tag) defined]
  refine (State.openRequest_done ..).trans ?_
  cases e.pred <;> rfl

end

theorem exec_templateRead {s : State} (listening : s.Listening) (tag index : Byte) :
    exec (.templateRead tag index) s = .next ((s.openRequest 0x22#8 tag).takeTemplateRead index) :=
  exec_of_listening listening (i := .templateRead tag index) rfl rfl

theorem exec_phraseRead {s : State} (listening : s.Listening) (tag index : Byte) :
    exec (.phraseRead tag index) s = .next ((s.openRequest 0x2A#8 tag).takePhraseRead index) :=
  exec_of_listening listening (i := .phraseRead tag index) rfl rfl

theorem exec_shapeInfo {s : State} (listening : s.Listening) (tag index : Byte) :
    exec (.shapeInfo tag index) s = .next ((s.openRequest 0x13#8 tag).takeShapeInfo index) :=
  exec_of_listening listening (i := .shapeInfo tag index) rfl rfl

/-- Settles O36: each read finds its record or none, and the template read is `Template.wire`. -/
theorem infoAndReadsReportRecords : Obligations.InfoAndReadsReportRecords := by
  unfold Obligations.InfoAndReadsReportRecords
  intro s tag index listening
  simp only [exec_shapeInfo listening, exec_templateRead listening, exec_phraseRead listening]
  refine ⟨fun above => ?_, fun record present => ?_, fun above => ?_, fun absent => ?_, fun e present => ?_,
    fun above => ?_, fun absent => ?_, fun e present => ?_⟩
  · have absent : (s.openRequest 0x13#8 tag).store.slots[index.toNat]? = none := s.noSlot index above
    rw [State.takeShapeInfo, absent]
    exact congrArg Host.Outcome.next (State.openRequest_refuse ..)
  · refine ⟨s.activeNames index.toNat, s.stagedNames index.toNat, activeNames_iff .., stagedNames_iff .., ?_⟩
    have present' : (s.openRequest 0x13#8 tag).store.slots[index.toNat]? = some record := present
    rw [State.takeShapeInfo, present', ← cursor_eq present]
    refine congrArg Host.Outcome.next ((State.openRequest_done ..).trans ?_)
    cases record.state <;> rfl
  · rw [State.takeTemplateRead, if_pos above]
    exact congrArg Host.Outcome.next (State.openRequest_refuse ..)
  · rw [templateRead_of_free _ tag absent]
  · refine ⟨e.template.wire index, rfl, fun start => ?_, fun t start => ?_, fun start => ?_, fun t start => ?_,
      fun v duration => ?_, fun v duration => ?_, rfl, rfl, rfl, fun p => ?_, ?_⟩
    · simp [Template.wire, start, StartCond.code, StartCond.tenths]
    · simp [Template.wire, start, StartCond.code, StartCond.tenths]
    · simp [Template.wire, start, StartCond.code, StartCond.tenths]
    · simp [Template.wire, start, StartCond.code, StartCond.tenths]
    · simp [Template.wire, duration, Duration.code, Duration.value]
    · simp [Template.wire, duration, Duration.code, Duration.value]
    · have carried : (e.template.wire index).phases.get p = (e.template.phases.get p).wire := get_map ..
      rw [carried]
      refine ⟨rfl, rfl, rfl, fun absent => ?_, fun o present => ?_⟩
      · simp [PhaseRecord.wire, absent]
      · simp [PhaseRecord.wire, present, byteOf]
    · rw [templateRead_of_defined _ tag present]
      rfl
  · rw [State.takePhraseRead, if_pos above]
    exact congrArg Host.Outcome.next (State.openRequest_refuse ..)
  · rw [phraseRead_of_free _ tag absent]
  · rw [phraseRead_of_defined _ tag present]
    rfl

/-! ## SHAPE_APPEND, SHAPE_SUM and SHAPE_COMPARE (R33, R38, R40, R41) -/

theorem exec_shapeAppend {s : State} (listening : s.Listening) (tag slot : Byte) {points : List Half}
    (least : 1 ≤ points.length) (most : points.length ≤ 511) :
    exec (.shapeAppend tag slot points) s = .next ((s.openRequest 0x11#8 tag).takeShapeAppend slot points) :=
  exec_of_listening listening (i := .shapeAppend tag slot points) rfl
    (by rw [Instr.lengthOk, Bool.and_eq_true, decide_eq_true_iff, decide_eq_true_iff]; exact ⟨least, most⟩)

theorem exec_shapeSum {s : State} (listening : s.Listening) (tag slot gen : Byte) (start count crc : Half) :
    exec (.shapeSum tag slot gen start count crc) s =
      .next ((s.openRequest 0x14#8 tag).takeShapeSum slot gen start count crc) :=
  exec_of_listening listening (i := .shapeSum tag slot gen start count crc) rfl rfl

theorem exec_shapeCompare {s : State} (listening : s.Listening) (tag slot gen : Byte) (start count pad : Half)
    {points : List Half} (most : points.length ≤ 256) :
    exec (.shapeCompare tag slot gen start count pad points) s =
      .next ((s.openRequest 0x15#8 tag).takeShapeCompare slot gen start count pad points) :=
  exec_of_listening listening (i := .shapeCompare tag slot gen start count pad points) rfl
    (by rw [Instr.lengthOk, decide_eq_true_iff]; exact most)

section
variable {s : State} {slot : Byte} (tag : Byte) (points : List Half)

theorem append_of_above (above : 15 < slot.toNat) :
    (s.openRequest 0x11#8 tag).takeShapeAppend slot points = s.replied 0x11#8 tag .refused .range [] := by
  have absent : (s.openRequest 0x11#8 tag).store.slots[slot.toNat]? = none := s.noSlot slot above
  rw [State.takeShapeAppend, absent]
  exact State.openRequest_refuse ..

theorem append_of_zero (zero : slot = 0#8) :
    (s.openRequest 0x11#8 tag).takeShapeAppend slot points = s.replied 0x11#8 tag .refused .readOnly [] := by
  obtain ⟨record, present⟩ := slot_exists (s.openRequest 0x11#8 tag) (k := slot.toNat) (by rw [zero]; decide)
  rw [State.takeShapeAppend, present]
  exact (if_pos zero).trans (State.openRequest_refuse ..)

theorem append_of_slot {record : Slot} (not_zero : slot ≠ 0#8) (present : s.store.slots[slot.toNat]? = some record) :
    (s.openRequest 0x11#8 tag).takeShapeAppend slot points =
      if record.state = .filling then (s.openRequest 0x11#8 tag).beginWork (.append slot.toNat points)
      else s.replied 0x11#8 tag .refused .notReady [] := by
  have present' : (s.openRequest 0x11#8 tag).store.slots[slot.toNat]? = some record := present
  rw [State.takeShapeAppend, present', ← State.openRequest_refuse]
  exact if_neg not_zero

/-- The checks that a sum and a compare share, by what the slot holds (R40). -/
theorem checkRegion_of_slot {record : Slot} (present : s.store.slots[slot.toNat]? = some record) (gen : Byte)
    (start count : Half) : s.checkRegion slot gen start count =
      if record.state ≠ .loaded then some .notReady else if gen ≠ record.gen then some .stale
      else if 1024 < start.toNat + count.toNat then some .range else none := by
  rw [State.checkRegion, present]
  rfl

theorem checkRegion_of_above (above : 15 < slot.toNat) (gen : Byte) (start count : Half) :
    s.checkRegion slot gen start count = some .range := by
  rw [State.checkRegion, s.noSlot slot above]

end

section
variable {s : State} {slot gen : Byte} {start count : Half} (tag : Byte)

theorem sum_refused {detail : Detail} (refused : s.checkRegion slot gen start count = some detail) (crc : Half) :
    (s.openRequest 0x14#8 tag).takeShapeSum slot gen start count crc = s.replied 0x14#8 tag .refused detail [] := by
  have refused' : (s.openRequest 0x14#8 tag).checkRegion slot gen start count = some detail := refused
  rw [State.takeShapeSum, refused']
  exact State.openRequest_refuse ..

theorem compare_refused {detail : Detail} (refused : s.checkRegion slot gen start count = some detail) (pad : Half)
    (points : List Half) : (s.openRequest 0x15#8 tag).takeShapeCompare slot gen start count pad points =
      s.replied 0x15#8 tag .refused detail [] := by
  have refused' : (s.openRequest 0x15#8 tag).checkRegion slot gen start count = some detail := refused
  rw [State.takeShapeCompare, refused']
  exact State.openRequest_refuse ..

theorem sum_begun (passed : s.checkRegion slot gen start count = none) (crc : Half) :
    (s.openRequest 0x14#8 tag).takeShapeSum slot gen start count crc =
      (s.openRequest 0x14#8 tag).chooseAmount.beginWork (.sum slot.toNat start.toNat count.toNat crc) := by
  have passed' : (s.openRequest 0x14#8 tag).checkRegion slot gen start count = none := passed
  rw [State.takeShapeSum, passed']

theorem compare_begun (passed : s.checkRegion slot gen start count = none) (pad : Half) (points : List Half) :
    (s.openRequest 0x15#8 tag).takeShapeCompare slot gen start count pad points =
      (s.openRequest 0x15#8 tag).chooseAmount.beginWork
        (.compare slot.toNat start.toNat count.toNat pad points) := by
  have passed' : (s.openRequest 0x15#8 tag).checkRegion slot gen start count = none := passed
  rw [State.takeShapeCompare, passed']

end

/-- Settles O37: the checks of an append by its slot, those of a sum and of a compare by `State.checkRegion`. -/
theorem shapeWorkBegins : Obligations.ShapeWorkBegins := by
  unfold Obligations.ShapeWorkBegins
  intro s tag slot gen points start count crc pad listening
  refine ⟨fun least most => ?_, ?_⟩
  · rw [exec_shapeAppend listening tag slot least most]
    refine ⟨fun above => ?_, fun zero => ?_, fun record not_zero present => ?_⟩
    · rw [append_of_above _ _ above]
    · rw [append_of_zero _ _ zero]
    · rw [append_of_slot _ _ not_zero present]
      refine ⟨fun other => ?_, fun filling => ?_⟩
      · rw [if_neg other]
      · rw [if_pos filling]
        rfl
  · intro refused
    have refuses {detail : Detail} (fails : s.checkRegion slot gen start count = some detail) : refused detail := by
      refine ⟨?_, fun most => ?_⟩
      · rw [exec_shapeSum listening, sum_refused tag fails]
      · rw [exec_shapeCompare listening _ _ _ _ _ _ most, compare_refused tag fails]
    refine ⟨fun above => refuses (checkRegion_of_above above ..), fun record present => ?_⟩
    have checks := checkRegion_of_slot present gen start count
    refine ⟨fun other => refuses ?_, fun loaded stale => refuses ?_, fun loaded fresh beyond => refuses ?_,
      fun loaded fresh within => ?_⟩
    · rw [checks, if_pos other]
    · rw [checks, if_neg (not_not_intro loaded), if_pos stale]
    · rw [checks, if_neg (not_not_intro loaded), if_neg (not_not_intro fresh), if_pos beyond]
    · have passed : s.checkRegion slot gen start count = none := by
        rw [checks, if_neg (not_not_intro loaded), if_neg (not_not_intro fresh), if_neg (Nat.not_lt.mpr within)]
      refine ⟨?_, fun most => ?_⟩
      · rw [exec_shapeSum listening, sum_begun tag passed]
        rfl
      · rw [exec_shapeCompare listening _ _ _ _ _ _ most, compare_begun tag passed]
        rfl

/-! ## FAULT_CLEAR and OUTPUT_ENABLE (R104, R133, R148) -/

theorem exec_faultClear {s : State} (listening : s.Listening) (tag : Byte) :
    exec (.faultClear tag) s = .next (s.openRequest 0x3C#8 tag).takeFaultClear :=
  exec_of_listening listening (i := .faultClear tag) (kind := .faultClear) rfl rfl

theorem exec_outputEnable {s : State} (listening : s.Listening) (tag : Byte) :
    exec (.outputEnable tag) s = .next (s.openRequest 0x3D#8 tag).takeOutputEnable :=
  exec_of_listening listening (i := .outputEnable tag) (kind := .outputEnable) rfl rfl

/-- Settles O54: both are the entry to OFF at rest, taken in one state each. -/
theorem faultClearAndOutputEnable : Obligations.FaultClearAndOutputEnable := by
  unfold Obligations.FaultClearAndOutputEnable
  intro s tag listening
  rw [exec_faultClear listening, exec_outputEnable listening]
  refine ⟨fun other => ?_, fun fault => ?_, fun other => ?_, fun disabled => ?_⟩
  · exact congrArg Host.Outcome.next ((if_neg other).trans (State.openRequest_refuse ..))
  · refine ⟨_, congrArg Host.Outcome.next (if_pos fault), ⟨rfl, ?_, rfl⟩, rfl, rfl⟩
    exact (State.enterIdle_rests .off s).of_eq rfl rfl rfl rfl rfl
  · exact congrArg Host.Outcome.next ((if_neg other).trans (State.openRequest_refuse ..))
  · refine ⟨_, congrArg Host.Outcome.next (if_pos disabled), ⟨rfl, ?_, rfl⟩, rfl, rfl⟩
    exact (State.enterIdle_rests .off s).of_eq rfl rfl rfl rfl rfl

end Sys2Proof.Proofs
end

section
/-! STATUS, SETUP_WRITE and the result queue. -/

namespace Sys2Proof.Proofs

open Sys2Proof Sys2Proof.Machine

/-! ## STATUS (R25, R86, R134, R178) -/

/-- The bytes of the status block before those of the active step. -/
def statusHead (s : State) : List Byte :=
  [s.seq.run.code, s.rememberedCode, s.expander.slot.code, s.seq.startPhase.code] ++ bytes4 s.seq.timeoutCount
    ++ bytes2 (pendingCount s.queue.cues) ++ bytes2 (spentCount s.queue.cues)
    ++ [s.queue.trial] ++ le16 s.queue.nextSerial ++ [byteOf s.results.records.length, s.statusFlags]

/-- The bytes of the status block behind those of the active step. -/
def statusTail (s : State) : List Byte :=
  le64 s.synth.sampleIndex ++ bytes2 (angleOf s.synth.theta) ++ bytes4 s.synth.tuning
    ++ levelBytes s.synth.phases.a s.monitor.gains.a ++ levelBytes s.synth.phases.b s.monitor.gains.b
    ++ levelBytes s.synth.phases.c s.monitor.gains.c ++ le64 (s.reportedFault.elim 0#64 FaultRecord.sample)

theorem statusHead_length (s : State) : (statusHead s).length = 17 := rfl

theorem statusTail_length (s : State) : (statusTail s).length = 40 := rfl

theorem activeBytes_length (a : Option ActiveStep) : (activeBytes a).length = 19 := by
  cases a <;> rfl

theorem statusBlock_eq (s : State) :
    s.statusBlock = statusHead s ++ (activeBytes s.seq.active ++ statusTail s) := by
  rw [State.statusBlock, statusHead, statusTail]
  cases s.reportedFault <;> simp only [List.append_assoc, Option.elim]

/-- A field that begins in the head and ends there. -/
theorem statusBlock_head (s : State) {k n : Nat} (inside : k + n ≤ 17) :
    (s.statusBlock.drop k).take n = ((statusHead s).drop k).take n := by
  rw [statusBlock_eq, List.drop_append_of_le_length (by rw [statusHead_length]; omega),
    List.take_append_of_le_length (by rw [List.length_drop, statusHead_length]; omega)]

theorem statusBlock_active (s : State) : (s.statusBlock.drop 17).take 19 = activeBytes s.seq.active := by
  rw [statusBlock_eq, List.drop_left' (statusHead_length s), List.take_left' (activeBytes_length _)]

theorem statusBlock_tail (s : State) (k : Nat) : s.statusBlock.drop (36 + k) = (statusTail s).drop k := by
  rw [statusBlock_eq, show 36 + k = 17 + (19 + k) by omega, ← List.drop_drop, List.drop_left' (statusHead_length s),
    ← List.drop_drop, List.drop_left' (activeBytes_length _)]

theorem statusBlock_length (s : State) : s.statusBlock.length = 76 := by
  rw [statusBlock_eq, List.length_append, List.length_append, statusHead_length, activeBytes_length, statusTail_length]

theorem rememberedCode_eq (s : State) : s.rememberedCode = match s.seq.run, s.seq.remembered with
    | .paused, some .active => 2#8
    | .paused, some .waiting => 3#8
    | .paused, some .starved => 4#8
    | _, _ => 0xFF#8 := by
  rw [State.rememberedCode]
  cases s.seq.run <;> try rfl
  cases s.seq.remembered with
  | none => rfl
  | some r => cases r <;> rfl

theorem statusFlags_of_fault {s : State} {f : FaultRecord} (reported : s.reportedFault = some f) :
    s.statusFlags = (if s.seq.active.isSome then 1#8 else 0#8) ||| 2#8 ||| (if f.phases.a then 4#8 else 0#8) |||
      (if f.phases.b then 8#8 else 0#8) ||| (if f.phases.c then 16#8 else 0#8) := by
  rw [State.statusFlags, reported]
  simp only [BitVec.or_assoc]
  rfl

theorem statusFlags_of_no_fault {s : State} (reported : s.reportedFault = none) :
    s.statusFlags = if s.seq.active.isSome then 1#8 else 0#8 := by
  rw [State.statusFlags, reported]
  exact BitVec.or_zero

theorem exec_status {s : State} (listening : s.Listening) (tag : Byte) :
    exec (.status tag) s = .next (s.replied 0x02#8 tag .done .none s.statusBlock) :=
  (exec_of_listening listening (i := .status tag) (kind := .status) rfl rfl).trans
    (congrArg Host.Outcome.next (State.openRequest_done s 0x02#8 tag .none s.statusBlock))

/-- Settles O29: the block is its head, the active step's 19 bytes and its tail, and each field is read off its part. -/
theorem statusReportsEveryBlock : Obligations.StatusReportsEveryBlock := by
  unfold Obligations.StatusReportsEveryBlock
  intro s tag listening
  refine ⟨s.statusBlock, exec_status listening tag, statusBlock_length s, statusBlock_head s (k := 0) (by decide),
    (statusBlock_head s (by decide)).trans (congrArg (fun code => [code]) (rememberedCode_eq s)),
    statusBlock_head s (by decide), statusBlock_head s (by decide), statusBlock_head s (by decide),
    statusBlock_head s (by decide), statusBlock_head s (by decide), statusBlock_head s (by decide), fun absent => ?_,
    fun a active => ?_, congrArg (List.take 8) (statusBlock_tail s 0), ?_,
    congrArg (List.take 4) (statusBlock_tail s 10), fun q => ?_, fun f fault present => ?_, fun no_fault => ?_⟩
  · rw [statusBlock_active, absent]
    rfl
  · rw [statusBlock_active, active]
    rfl
  · rw [statusBlock_tail s 8, Nat.mul_comm]
    rfl
  · cases q
    · exact congrArg (List.take 6) (statusBlock_tail s 14)
    · exact congrArg (List.take 6) (statusBlock_tail s 20)
    · exact congrArg (List.take 6) (statusBlock_tail s 26)
  · have reported : s.reportedFault = some f := (if_pos fault).trans present
    rw [statusBlock_head s (by decide), statusBlock_tail s 32, ← statusFlags_of_fault reported]
    refine ⟨rfl, ?_⟩
    have same : s.reportedFault.elim 0#64 FaultRecord.sample = f.sample := by rw [reported]; rfl
    rw [← same]
    rfl
  · have reported : s.reportedFault = none := if_neg no_fault
    rw [statusBlock_head s (by decide), statusBlock_tail s 32, ← statusFlags_of_no_fault reported]
    refine ⟨rfl, ?_⟩
    have same : s.reportedFault.elim 0#64 FaultRecord.sample = 0#64 := by rw [reported]; rfl
    rw [← same]
    rfl

/-! ## SETUP_WRITE (R24, R95, R142, R187, R188) -/

theorem pairInRange_eq_false_iff (pair : Byte × Word) : pairInRange pair = false ↔
    ∀ p, Param.ofId pair.1 = some p → p.enumerated = true ∧ p.range.2 < pair.2.toNat := by
  rw [pairInRange]
  cases Param.ofId pair.1 <;> simp

theorem pairInState_eq_false_iff (s : State) (pair : Byte × Word) : s.pairInState pair = false ↔
    (Param.ofId pair.1 = some .nomPeak ∧ ¬ s.seq.run.quiet = true) ∨
    (Param.ofId pair.1 = some .queueMode ∧ (s.seq.run ≠ .off ∨ s.queue.cues ≠ [])) := by
  rw [State.pairInState]
  cases Param.ofId pair.1 with
  | none => simp
  | some p => cases p <;> simp [← Decidable.not_and_iff_or_not]

theorem pairClamped_iff (pair : Byte × Word) : pairClamped pair = true ↔
    ∃ p, Param.ofId pair.1 = some p ∧ (pair.2.toNat < p.range.1 ∨ p.range.2 < pair.2.toNat) := by
  rw [pairClamped]
  cases Param.ofId pair.1 <;> simp

theorem writes_iff (p : Param) (pairs : List (Byte × Word)) :
    writes p pairs = true ↔ ∃ pair ∈ pairs, Param.ofId pair.1 = some p := by
  simp only [writes, List.any_eq_true, beq_iff_eq]

theorem quiet_iff (r : RunState) : r.quiet = true ↔ r = .off ∨ r = .fault ∨ r = .disabled := by
  cases r <;> decide

theorem not_all_iff {α : Type} (p : α → Bool) (l : List α) : (!l.all p) = true ↔ ∃ x ∈ l, p x = false := by
  simp only [Bool.not_eq_true', List.all_eq_false, Bool.not_eq_true]

section
variable {s : State} (tag : Byte) {pairs : List (Byte × Word)}

theorem exec_setupWrite (listening : s.Listening) (some_pair : 1 ≤ pairs.length) (at_most : pairs.length ≤ 32) :
    exec (.setupWrite tag pairs) s = .next ((s.openRequest 0x04#8 tag).takeSetupWrite pairs) :=
  exec_of_listening listening (i := .setupWrite tag pairs) (kind := .setupWrite) rfl
    (by rw [Instr.lengthOk, Bool.and_eq_true, decide_eq_true_iff, decide_eq_true_iff]; exact ⟨some_pair, at_most⟩)

theorem setupWrite_of_range (bad : ∃ pair ∈ pairs, pairInRange pair = false) :
    (s.openRequest 0x04#8 tag).takeSetupWrite pairs = s.replied 0x04#8 tag .refused .range [] := by
  rw [State.takeSetupWrite, if_pos ((not_all_iff ..).mpr bad)]
  exact State.openRequest_refuse ..

theorem setupWrite_of_state (good : ¬ ∃ pair ∈ pairs, pairInRange pair = false)
    (bad : ∃ pair ∈ pairs, s.pairInState pair = false) :
    (s.openRequest 0x04#8 tag).takeSetupWrite pairs = s.replied 0x04#8 tag .refused .state [] := by
  have bad' : ∃ pair ∈ pairs, (s.openRequest 0x04#8 tag).pairInState pair = false := bad
  rw [State.takeSetupWrite, if_neg (mt (not_all_iff ..).mp good), if_pos ((not_all_iff ..).mpr bad')]
  exact State.openRequest_refuse ..

/-- The state in which the pairs are stored and have acted (R24, R142, R188). -/
def setupWritten (pairs : List (Byte × Word)) (s : State) : State :=
  State.applySetup pairs { s with setup := pairs.foldl Setup.write s.setup }

theorem setupWrite_stored (good : ¬ ∃ pair ∈ pairs, pairInRange pair = false)
    (allowed : ¬ ∃ pair ∈ pairs, s.pairInState pair = false) :
    (s.openRequest 0x04#8 tag).takeSetupWrite pairs = State.replied 0x04#8 tag .done
      (if pairs.any pairClamped then .clamped else .none) [] (setupWritten pairs s) := by
  have allowed' : ¬ ∃ pair ∈ pairs, (s.openRequest 0x04#8 tag).pairInState pair = false := allowed
  rw [State.takeSetupWrite, if_neg (mt (not_all_iff ..).mp good), if_neg (mt (not_all_iff ..).mp allowed')]
  exact State.onLink_answer (s := s) (t := setupWritten pairs s) rfl ..

theorem setupWritten_synth_set (named : ∃ pair ∈ pairs, Param.ofId pair.1 = some .nomFreq)
    (quiet : s.seq.run.quiet = true) : (setupWritten pairs s).synth =
      { s.synth with tuning := tuningOf (setupWritten pairs s).setup.nomFreq, freqRamp := none } :=
  if_pos ((Bool.and_eq_true ..).mpr ⟨(writes_iff ..).mpr named, quiet⟩)

theorem setupWritten_synth_kept (kept : (∀ pair ∈ pairs, Param.ofId pair.1 ≠ some .nomFreq) ∨ ¬ s.seq.run.quiet = true) :
    (setupWritten pairs s).synth = s.synth := by
  refine if_neg fun acts => ?_
  obtain ⟨named, quiet⟩ := (Bool.and_eq_true ..).mp acts
  obtain ⟨pair, mem, names⟩ := (writes_iff ..).mp named
  rcases kept with none_named | not_quiet
  · exact none_named pair mem names
  · exact not_quiet quiet

theorem setupWritten_gains (named : ∃ pair ∈ pairs, Param.ofId pair.1 = some .gainFloor) (p : Phase) :
    (setupWritten pairs s).monitor.gains.get p = max (setupWritten pairs s).setup.gainFloor (s.monitor.gains.get p) := by
  have monitor : (setupWritten pairs s).monitor = { s.monitor with
      gains := s.monitor.gains.map (max (setupWritten pairs s).setup.gainFloor) } := if_pos ((writes_iff ..).mpr named)
  rw [monitor]
  exact get_map ..

theorem setupWritten_monitor (none_named : ∀ pair ∈ pairs, Param.ofId pair.1 ≠ some .gainFloor) :
    (setupWritten pairs s).monitor = s.monitor := by
  refine if_neg fun named => ?_
  obtain ⟨pair, mem, names⟩ := (writes_iff ..).mp named
  exact none_named pair mem names

theorem setupWritten_counters : (setupWritten pairs s).monitor.counters = s.monitor.counters ∧
    (setupWritten pairs s).monitor.fault = s.monitor.fault := by
  by_cases named : ∃ pair ∈ pairs, Param.ofId pair.1 = some .gainFloor
  · have monitor : (setupWritten pairs s).monitor = { s.monitor with
        gains := s.monitor.gains.map (max (setupWritten pairs s).setup.gainFloor) } :=
      if_pos ((writes_iff ..).mpr named)
    rw [monitor]
    exact ⟨rfl, rfl⟩
  · rw [setupWritten_monitor fun pair mem names => named ⟨pair, mem, names⟩]
    exact ⟨rfl, rfl⟩

end

/-- Settles O31: the two passes refuse the request as a whole; else the table is the fold of the pairs, and NOM_FREQ and
GAIN_FLOOR act on it once. -/
theorem setupWriteStoresClamped : Obligations.SetupWriteStoresClamped := by
  unfold Obligations.SetupWriteStoresClamped
  intro s tag pairs listening some_pair at_most
  rw [exec_setupWrite tag listening some_pair at_most]
  simp only [← pairInRange_eq_false_iff, ← quiet_iff, ← pairInState_eq_false_iff, ← pairClamped_iff,
    ← List.any_eq_true]
  refine ⟨fun bad => ?_, fun good bad => ?_, fun good allowed => ?_⟩
  · rw [setupWrite_of_range tag bad]
  · rw [setupWrite_of_state tag good bad]
  · have listed (pair) (mem : pair ∈ pairs) : Param.ofId pair.1 ≠ none := fun unlisted =>
      good ⟨pair, mem, (pairInRange_eq_false_iff pair).mpr fun p named => absurd (named.symm.trans unlisted) nofun⟩
    exact ⟨_, congrArg Host.Outcome.next (setupWrite_stored tag good allowed), rfl,
      fun p => Setup.get_writes pairs s.setup p listed, setupWritten_synth_set, setupWritten_synth_kept,
      setupWritten_gains, setupWritten_monitor, setupWritten_counters.1, setupWritten_counters.2, rfl, rfl, rfl, rfl,
      rfl, rfl, rfl, rfl, rfl, rfl⟩

/-! ## Result records (R157, R158, R160, R162, R163) -/

/-- The state with a record stored at the back of the result queue (R157). -/
def recordStored (body : ResultBody) (s : State) : State :=
  { s with results :=
    { records := s.results.records ++
        [{ serial := s.results.nextSerial, body := body,
           gap := if s.results.pendingGap = 0 then none else some s.results.pendingGap }],
      nextSerial := s.results.nextSerial + 1#16, pendingGap := 0 } }

theorem handResult_stored {s : State} (room : s.results.records.length < 64) (body : ResultBody) :
    s.handResult body = State.latchIf (risesTo s.setup.resultNotify s.results.records.length
      (s.results.records.length + 1)) .resultsReady (recordStored body s) := by
  have gap : (if s.results.pendingGap = 0 then none else some s.results.pendingGap) =
      if 0 < s.results.pendingGap then some s.results.pendingGap else none := by
    split_ifs <;> first | rfl | omega
  rw [recordStored, gap]
  exact if_pos room

theorem handResult_dropped {s : State} (full : 64 ≤ s.results.records.length) (body : ResultBody) :
    s.handResult body = State.latch .resultsDropped
      { s with results := { s.results with pendingGap := min 65535 (s.results.pendingGap + 1) } } :=
  if_neg (Nat.not_lt.mpr full)

theorem risesTo_succ (level count : Nat) : risesTo level count (count + 1) = true ↔ count + 1 = level := by
  rw [risesTo, Bool.and_eq_true, decide_eq_true_iff, decide_eq_true_iff]
  omega

theorem latchIf_eq (cause : Bool) (n : Notice) (s : State) :
    s.latchIf cause n = { s with notices := (s.latchIf cause n).notices } := by
  cases cause <;> rfl

/-- The records that a RESULT_READ returns (R160). -/
theorem openRequest_takeResultRead {s : State} {count : Byte} (positive : count ≠ 0#8) (most : count.toNat ≤ 8)
    {read left : List ResultRecord} (split : s.results.records = read ++ left)
    (read_length : read.length = min count.toNat s.results.records.length) (tag : Byte) :
    (s.openRequest 0x40#8 tag).takeResultRead count = State.replied 0x40#8 tag .done .none
      ([byteOf read.length, byteOf left.length] ++ bytes2 s.results.pendingGap ++ le16 s.results.nextSerial
        ++ read.flatMap ResultRecord.bytes) { s with results := { s.results with records := left } } := by
  have in_range : ¬ (count.toNat = 0 ∨ 8 < count.toNat) := by
    rintro (zero | above)
    · exact positive ((byte_eq_iff count 0 (by decide)).mpr zero)
    · omega
  have taken : s.results.records.take count.toNat = read ∧ s.results.records.drop count.toNat = left := by
    have total : s.results.records.length = read.length + left.length := by rw [split, List.length_append]
    rcases Nat.le_total count.toNat s.results.records.length with enough | short
    · have exact_length : read.length = count.toNat := by omega
      rw [split]
      exact ⟨List.take_left' exact_length, List.drop_left' exact_length⟩
    · have none_left : left = [] := List.eq_nil_of_length_eq_zero (by omega)
      have all_read : s.results.records = read := by rw [split, none_left, List.append_nil]
      rw [List.take_of_length_le short, List.drop_of_length_le short]
      exact ⟨all_read, none_left.symm⟩
  rw [State.takeResultRead, if_neg in_range, ← taken.1, ← taken.2]
  exact State.onLink_answer (s := s)
    (t := { s with results := { s.results with records := s.results.records.drop count.toNat } }) rfl ..

theorem exec_resultRead {s : State} (listening : s.Listening) (tag count : Byte) :
    exec (.resultRead tag count) s = .next ((s.openRequest 0x40#8 tag).takeResultRead count) :=
  exec_of_listening listening (i := .resultRead tag count) (kind := .resultRead) rfl rfl

/-- Settles O55: a record handed is stored or dropped by the room there is; a read takes from the front; and the bytes of
a record depend on its shape through the start and the gap alone. -/
theorem resultsAreStoredAndRead : Obligations.ResultsAreStoredAndRead := by
  unfold Obligations.ResultsAreStoredAndRead
  refine ⟨fun s body => ⟨fun room => ⟨_, rfl, ?_, ?_, fun f => ?_⟩, fun full => ⟨_, rfl, ?_, fun f => ?_⟩⟩,
    fun s tag count listening => ⟨fun bad => ?_, fun positive most read left split read_length => ?_⟩, fun r => ?_⟩
  · rw [handResult_stored room, latchIf_eq]
    rfl
  · rw [handResult_stored room, latchIf_eq]
    rfl
  · rw [handResult_stored room, State.latched_latchIf, Bool.or_eq_true, Bool.and_eq_true, decide_eq_true_iff,
      risesTo_succ, and_comm]
    rfl
  · rw [handResult_dropped full]
    rfl
  · rw [handResult_dropped full, State.latched_latch, Bool.or_eq_true, decide_eq_true_iff]
    rfl
  · have refused : count.toNat = 0 ∨ 8 < count.toNat := bad.imp_left fun zero => by rw [zero]; rfl
    rw [exec_resultRead listening]
    exact congrArg Host.Outcome.next ((if_pos refused).trans (State.openRequest_refuse ..))
  · rw [exec_resultRead listening, openRequest_takeResultRead positive most split read_length]
    rfl
  · obtain ⟨serial, ⟨source, trial, reason, start, endSample, capture⟩, gap⟩ := r
    cases start <;> cases gap
    all_goals
      refine ⟨rfl, rfl, rfl, ?_, rfl, fun sample angle started => ?_, rfl, fun p => ?_, fun gap held => ?_,
        fun no_gap => ?_⟩
      · cases reason <;> rfl
      · cases started <;> rfl
      · cases p <;> rfl
      · cases held <;> rfl
      · cases no_gap <;> rfl

end Sys2Proof.Proofs
end

section
/-! Link-side work: the arbiter's account in SAMPLE, and the completions of an append, a sum and a compare. -/

namespace Sys2Proof.Proofs

open Sys2Proof Sys2Proof.Machine

/-! ## When work is served and when it is overdue (R38) -/

/-- The command that completes a kind of work. -/
def completion : ShapeWork → Instr
  | .append _ _ => .shapeAppendComplete
  | .sum _ _ _ _ => .shapeSumComplete
  | .compare _ _ _ _ _ => .shapeCompareComplete

theorem exec_completion {s : State} {job : ShapeJob} (present : s.store.job = some job) :
    exec (completion job.work) s = .next (if s.workServed then s.completeWork else s) := by
  obtain ⟨work, served, periods⟩ := job
  cases work <;>
    simp only [completion, exec, execShapeAppendComplete, execShapeSumComplete, execShapeCompareComplete,
      State.completeWork, present]

theorem workServed_iff {s : State} {job : ShapeJob} (present : s.store.job = some job) :
    s.workServed = true ↔ s.workAccesses job.work ≤ job.served := by
  rw [State.workServed, present, decide_eq_true_iff]

theorem workOverdue_iff {s : State} {job : ShapeJob} (present : s.store.job = some job) :
    s.workOverdue = true ↔ s.workPeriods job.work ≤ job.periods := by
  rw [State.workOverdue, present, decide_eq_true_iff]

/-- Twenty accesses or more are left of every period, so that `n` of them take a twentieth as many, rounded up. -/
theorem periods_le_iff (n periods : Nat) :
    (n + (Config.leftoverAccesses - 1)) / Config.leftoverAccesses ≤ periods ↔ n ≤ 20 * periods := by
  rw [Config.leftoverAccesses]
  omega

theorem spareAfterWork_eq {s : State} {job : ShapeJob} (present : s.store.job = some job) :
    s.spareAfterWork = min s.store.spare (job.served - s.workAccesses job.work) := by
  rw [State.spareAfterWork, present]

theorem answer_of_inProgress {s : State} {kind tag : Byte} (inProgress : s.link.inProgress = some (kind, tag))
    (outcome : ReplyOutcome) (detail : Detail) (payload : List Byte) :
    s.answer outcome detail payload =
      { s with link := { s.link with reply := some ⟨kind, tag, outcome, detail, payload⟩ } } := by
  rw [State.answer, inProgress]

/-! ## Work that is overdue completes before the sample (log entry 11) -/

/-- The state in which so many accesses have gone to the work. -/
def withServed (job : ShapeJob) (n : Nat) (s : State) : State :=
  { s with store := { s.store with job := some { job with served := n } } }

theorem pointBits_congr {a b : Store} (slots : a.slots = b.slots) : a.pointBits = b.pointBits := by
  funext slot k
  unfold Store.pointBits Store.point
  rw [slots]

theorem sumPoints_congr {a b : Store} (slots : a.slots = b.slots) (slot start count : Nat) (crc : Half) :
    a.sumPoints slot start count crc = b.sumPoints slot start count crc := by
  induction count generalizing start crc with
  | zero => rfl
  | succ count ih => rw [Store.sumPoints, Store.sumPoints, ih, pointBits_congr slots]

theorem storedValue_congr {a b : Store} (slots : a.slots = b.slots) : a.storedValue = b.storedValue := by
  funext slot start count pad j
  rw [Store.storedValue, Store.storedValue, pointBits_congr slots]

theorem workAccesses_withServed (job : ShapeJob) (n : Nat) (s : State) (work : ShapeWork) :
    (withServed job n s).workAccesses work = s.workAccesses work := by
  cases work with
  | append => rfl
  | sum => rfl
  | compare =>
    rw [State.workAccesses, State.workAccesses, storedValue_congr (a := (withServed job n s).store) (b := s.store) rfl]
    rfl

theorem endWork_withServed {s : State} {job : ShapeJob} (present : s.store.job = some job) {n : Nat}
    (same : n - s.workAccesses job.work = job.served - s.workAccesses job.work) :
    (withServed job n s).endWork = s.endWork := by
  have spare : (withServed job n s).spareAfterWork = s.spareAfterWork := by
    rw [spareAfterWork_eq present, spareAfterWork_eq (s := withServed job n s) rfl, workAccesses_withServed, same]
    rfl
  rw [State.endWork, State.endWork, spare]
  rfl

/-- The accesses that the work has had decide only how many of them it leaves. -/
theorem completeWork_withServed {s : State} {job : ShapeJob} (present : s.store.job = some job) {n : Nat}
    (same : n - s.workAccesses job.work = job.served - s.workAccesses job.work) :
    (withServed job n s).completeWork = s.completeWork := by
  have ended := endWork_withServed present same
  have slots : (withServed job n s).store.slots = s.store.slots := rfl
  have with_job : (withServed job n s).store.job = some { job with served := n } := rfl
  simp only [State.completeWork, present, with_job]
  cases job.work with
  | append slot points =>
    dsimp only
    rw [State.completeAppend, State.completeAppend, ended, slots]
  | sum slot start count crc =>
    dsimp only
    rw [State.completeSum, State.completeSum, ended, sumPoints_congr slots]
    rfl
  | compare slot start count pad points =>
    dsimp only
    rw [State.completeCompare, State.completeCompare, ended, storedValue_congr slots]
    rfl

/-- Whatever the work, its completion ends it and answers the request in progress. -/
theorem completeWork_answers {s : State} {job : ShapeJob} (present : s.store.job = some job) :
    ∃ (u : State) (outcome : ReplyOutcome) (detail : Detail) (payload : List Byte),
      s.completeWork = u.answer outcome detail payload ∧ u.link = s.link ∧ u.store.job = none := by
  obtain ⟨work, served, periods⟩ := job
  simp only [State.completeWork, present]
  cases work with
  | append slot points =>
    dsimp only
    unfold State.completeAppend
    split
    · exact ⟨s.endWork, _, _, _, rfl, rfl, rfl⟩
    · exact ⟨s.endWork.setSlot slot _, _, _, _, rfl, rfl, rfl⟩
  | sum => exact ⟨s.endWork, _, _, _, rfl, rfl, rfl⟩
  | compare =>
    dsimp only
    unfold State.completeCompare
    dsimp only
    split
    · exact ⟨s.endWork, _, _, _, rfl, rfl, rfl⟩
    · split <;> exact ⟨s.endWork, _, _, _, rfl, rfl, rfl⟩

theorem completeWork_job {s : State} {job : ShapeJob} (present : s.store.job = some job) :
    s.completeWork.store.job = none := by
  obtain ⟨u, outcome, detail, payload, completed, _, ended⟩ := completeWork_answers present
  rw [completed, (State.answer_frame ..).2.2.1, ended]

theorem completeWork_inReset {s : State} {job : ShapeJob} (present : s.store.job = some job) :
    s.completeWork.link.inReset = s.link.inReset := by
  obtain ⟨u, outcome, detail, payload, completed, link, _⟩ := completeWork_answers present
  rw [completed, ← link, State.answer]
  split <;> rfl

/-! ## SAMPLE and the work in progress -/

theorem settle_of_none_due {s : State} (none_due : ∀ m, s.due m = false) (no_ramp : s.synth.finishRamps = s.synth) :
    s.settle = s := by
  have one : s.settleOne = s := by
    have none_left : Moment.all.filter s.due = [] := by simp [none_due]
    simp [State.settleOne, none_left]
  have all (fuel : Nat) : State.settleMoments fuel s = s := by
    induction fuel with
    | zero => rfl
    | succ fuel ih => rw [State.settleMoments, one, ih]
  simp [State.settle, no_ramp, all]

theorem exec_sample_of_none_due {s : State} (out_of_reset : s.link.inReset = false) (none_due : ∀ m, s.due m = false)
    (no_ramp : s.synth.finishRamps = s.synth) (trig : Bool) (iA iB iC : Half) :
    exec (.sample trig iA iB iC) s = .next (s.completeOverdue.produce trig (magnitudes iA iB iC)) := by
  rw [exec_sample out_of_reset, settle_of_none_due none_due no_ramp]

theorem ramped_overlay (y : Synth) (ramps : Bool) (p : Phase) :
    ((y.advance ramps).phases.get p).overlay = (y.phases.get p).overlay := by
  cases ramps with
  | false => rfl
  | true =>
    have ramped : (y.advance true).phases = y.phases.map SynthPhase.ramped := rfl
    rw [ramped, get_map]
    rfl

/-- Two accesses for each lookup: three for the primary levels, and one for each overlay (R10, R38). -/
theorem leftover_eq (y : Synth) :
    y.leftover = 26 - 2 * (y.phases.toList.filter fun p => p.overlay.isSome).length := by
  simp only [Synth.leftover, Synth.reads, Config.accessesPerSample, PerPhase.toList]
  rw [← List.countP_eq_length_filter, List.countP_cons, List.countP_cons, List.countP_singleton]
  split_ifs <;> rfl

theorem leftover_advance (y : Synth) (ramps : Bool) : (y.advance ramps).leftover = y.leftover := by
  have a := ramped_overlay y ramps .a
  have b := ramped_overlay y ramps .b
  have c := ramped_overlay y ramps .c
  simp only [PerPhase.get] at a b c
  simp only [Synth.leftover, Synth.reads, a, b, c]

theorem produce_store (trig : Bool) (currents : PerPhase Nat) (s : State) : (s.produce trig currents).store =
    { s.store with job := s.store.job.map (ShapeJob.serve s.synth.leftover), spare := s.synth.leftover } := by
  rw [← leftover_advance s.synth s.seq.run.ramps]
  simp [State.produce]

/-- Overdue work ends in the state that its completion command leaves once it is served (R38, log entry 11). -/
theorem sample_of_overdue {s : State} {job : ShapeJob} (present : s.store.job = some job)
    (out_of_reset : s.link.inReset = false) (none_due : ∀ m, s.due m = false) (no_ramp : s.synth.finishRamps = s.synth)
    (overdue : s.workOverdue = true) (trig : Bool) (iA iB iC : Half) :
    ∃ served t u, job.served ≤ served ∧ exec (completion job.work) (withServed job served s) = .next u ∧
      exec (.sample trig iA iB iC) s = .next t ∧ exec (.sample trig iA iB iC) u = .next t ∧ t.store.job = none := by
  let served := max job.served (s.workAccesses job.work)
  have served_all : (withServed job served s).workServed = true := by
    rw [workServed_iff (job := { job with served := served }) rfl, workAccesses_withServed]
    exact Nat.le_max_right ..
  have completed : (withServed job served s).completeWork = s.completeWork :=
    completeWork_withServed present (by omega)
  have over_none : s.completeWork.store.job = none := completeWork_job present
  have before : s.completeOverdue = s.completeWork := if_pos overdue
  have after : s.completeWork.completeOverdue = s.completeWork := by
    have not_overdue : ¬ s.completeWork.workOverdue = true := by rw [State.workOverdue, over_none]; exact nofun
    exact if_neg not_overdue
  have none_due_after (m : Moment) : s.completeWork.due m = false := by
    rw [← none_due m]
    cases m <;> simp [State.due, State.edgeDue, State.timeoutDue, State.stepEndDue, State.tripDue, State.stopDue,
      State.startDue, State.handoverDue, State.startMet, State.prospectTheta, State.prospectTuning]
  refine ⟨served, _, s.completeWork, Nat.le_max_left .., ?_, exec_sample_of_none_due out_of_reset none_due no_ramp ..,
    ?_, ?_⟩
  · rw [exec_completion (job := { job with served := served }) rfl, if_pos served_all, completed]
  · rw [exec_sample_of_none_due ((completeWork_inReset present).trans out_of_reset) none_due_after (by simpa using no_ramp),
      before, after]
  · rw [before, produce_store, over_none]
    rfl

/-! ## Completions (R34, R43 to R46) -/

theorem exec_appendComplete_of_none {s : State}
    (none_append : ∀ job slot points, s.store.job = some job → job.work ≠ .append slot points) :
    exec .shapeAppendComplete s = .next s := by
  simp only [exec, execShapeAppendComplete]
  split
  · rename_i present
    exact absurd rfl (none_append _ _ _ present)
  · rfl

theorem exec_sumComplete_of_none {s : State}
    (none_sum : ∀ job slot start count crc, s.store.job = some job → job.work ≠ .sum slot start count crc) :
    exec .shapeSumComplete s = .next s := by
  simp only [exec, execShapeSumComplete]
  split
  · rename_i present
    exact absurd rfl (none_sum _ _ _ _ _ present)
  · rfl

theorem exec_compareComplete_of_none {s : State} (none_compare : ∀ job slot start count pad points,
      s.store.job = some job → job.work ≠ .compare slot start count pad points) :
    exec .shapeCompareComplete s = .next s := by
  simp only [exec, execShapeCompareComplete]
  split
  · rename_i present
    exact absurd rfl (none_compare _ _ _ _ _ _ present)
  · rfl

theorem appended_eq (record : Slot) (points : List Half) :
    record.appended points =
      { record with
        points := record.points ++ points.take (min points.length (1024 - record.points.length)),
        state := if record.points.length + min points.length (1024 - record.points.length) = 1024 then .loaded
          else record.state } := by
  have total : (record.points ++ points.take (min points.length (1024 - record.points.length))).length =
      record.points.length + min points.length (1024 - record.points.length) := by
    rw [List.length_append, List.length_take]
    omega
  rw [← total]
  rfl

theorem exec_completion_served {s : State} {job : ShapeJob} (present : s.store.job = some job) {t : State}
    (completes : s.completeWork = t) :
    (job.served < s.workAccesses job.work → exec (completion job.work) s = .next s) ∧
    (s.workAccesses job.work ≤ job.served → exec (completion job.work) s = .next t) := by
  rw [exec_completion present, ← completes]
  refine ⟨fun short => ?_, fun enough => ?_⟩
  · rw [if_neg (mt (workServed_iff present).mp (Nat.not_le.mpr short))]
  · rw [if_pos ((workServed_iff present).mpr enough)]

theorem completeAppend_eq {s : State} {job : ShapeJob} (present : s.store.job = some job) {slot : Nat}
    {points : List Half} {record : Slot} (exists_slot : s.store.slots[slot]? = some record) {kind tag : Byte}
    (inProgress : s.link.inProgress = some (kind, tag)) :
    s.completeAppend slot points =
      { s with
        store := { slots := s.store.slots.setIfInBounds slot (record.appended points), job := none,
                   spare := min s.store.spare (job.served - s.workAccesses job.work) },
        link := { s.link with reply := some ⟨kind, tag, .done,
          if min points.length (1024 - record.points.length) < points.length then .truncated else .none,
          [BitVec.ofNat 8 slot] ++ le16 (BitVec.ofNat 16 (min points.length (1024 - record.points.length)))
            ++ le16 (BitVec.ofNat 16
                (record.points.length + min points.length (1024 - record.points.length)))⟩ } } := by
  have detail : (if min points.length (1024 - record.points.length) = points.length then Detail.none else .truncated) =
      if min points.length (1024 - record.points.length) < points.length then .truncated else .none := by
    split_ifs <;> first | rfl | omega
  rw [← detail, ← spareAfterWork_eq present, State.completeAppend, exists_slot]
  exact answer_of_inProgress (s := s.endWork.setSlot slot (record.appended points)) inProgress ..

/-- Settles O38: SAMPLE serves the work or completes it; an append completes once its accesses are there. -/
theorem appendCompletes : Obligations.AppendCompletes := by
  unfold Obligations.AppendCompletes
  refine ⟨fun s trig iA iB iC out_of_reset none_due no_ramp => ?_, fun s => ?_,
    fun s slot served periods points record kind tag present not_sine exists_slot inProgress => ?_⟩
  · intro overlays
    have sampled := exec_sample_of_none_due out_of_reset none_due no_ramp trig iA iB iC
    have synth : s.completeOverdue.synth = s.synth := by simp
    have leftover : s.synth.leftover = 26 - 2 * overlays := leftover_eq s.synth
    have at_most : overlays ≤ 3 := List.length_filter_le ..
    refine ⟨by omega, ⟨_, sampled, ?_⟩, fun no_job => ⟨_, sampled, ?_⟩, fun job present => ?_⟩
    · rw [produce_store, synth, leftover]
    · have not_overdue : s.workOverdue = false := by rw [State.workOverdue, no_job]
      have before : s.completeOverdue = s := if_neg (by rw [not_overdue]; exact Bool.false_ne_true)
      rw [before, produce_store, no_job]
      rfl
    · intro done
      have same_command : done = completion job.work := by cases h : job.work <;> simp only [done, h, completion]
      refine ⟨fun slot points append => ?_, fun not_overdue => ⟨_, sampled, ?_⟩, fun overdue => ?_⟩
      · rw [workOverdue_iff present, append]
        exact periods_le_iff ..
      · have before : s.completeOverdue = s := if_neg (by rw [not_overdue]; exact Bool.false_ne_true)
        rw [before, produce_store, present, leftover]
        exact ⟨rfl, (State.produce_frame ..).2.2.2.2.2.2.1⟩
      · rw [same_command]
        exact sample_of_overdue present out_of_reset none_due no_ramp overdue trig iA iB iC
  · exact ⟨fun no_job => by rw [State.workOverdue, no_job], exec_appendComplete_of_none, exec_sumComplete_of_none,
      exec_compareComplete_of_none⟩
  · have cursor : s.store.cursor slot = record.points.length := by
      rw [Store.cursor, if_neg not_sine, exists_slot]
    have accesses : s.workAccesses (.append slot points) = min points.length (1024 - record.points.length) := by
      rw [State.workAccesses, cursor]
      rfl
    have completes : s.completeWork = s.completeAppend slot points := by rw [State.completeWork, present]
    have ends := exec_completion_served present (completes.trans (completeAppend_eq present exists_slot inProgress))
    rw [accesses, appended_eq] at ends
    exact ends

/-! ## The check engine's completions -/

theorem engineAmount_range (n : Nat) : 32 ≤ Config.engineAmount n ∧ Config.engineAmount n ≤ 256 := by
  rw [Config.engineAmount]
  omega

theorem engineItems_eq (n remaining : Nat) : engineItems n remaining = min (Config.engineAmount n) remaining := by
  have range := engineAmount_range n
  unfold engineItems
  split <;> omega

/-- What the engine's completion leaves, for work whose accesses are so many (R38). -/
theorem exec_engine_completion {s : State} {work : ShapeWork} {served periods need : Nat}
    (present : s.store.job = some ⟨work, served, periods⟩) {kind tag : Byte}
    (inProgress : s.link.inProgress = some (kind, tag)) (accesses : s.workAccesses work = need)
    {outcome : ReplyOutcome} {detail : Detail} {payload : List Byte}
    (completes : s.completeWork = s.endWork.answer outcome detail payload) :
    (served < need → exec (completion work) s = .next s) ∧
    (need ≤ served → exec (completion work) s = .next
      { s with store := { s.store with job := none, spare := min s.store.spare (served - need) },
               link := { s.link with reply := some ⟨kind, tag, outcome, detail, payload⟩ } }) := by
  have answered : s.endWork.answer outcome detail payload =
      { s with store := { s.store with job := none, spare := min s.store.spare (served - need) },
               link := { s.link with reply := some ⟨kind, tag, outcome, detail, payload⟩ } } := by
    have spare : s.spareAfterWork = min s.store.spare (served - need) := by
      rw [spareAfterWork_eq present, accesses]
    rw [answer_of_inProgress (s := s.endWork) inProgress, ← spare]
    rfl
  have ends := exec_completion_served present (completes.trans answered)
  rw [accesses] at ends
  exact ends

/-- Settles O39: the engine processes the smaller of its amount and the count. -/
theorem sumCompletes : Obligations.SumCompletes := by
  unfold Obligations.SumCompletes
  intro s slot start count served periods crc kind tag present inProgress c p reply
  obtain ⟨least, most⟩ := engineAmount_range s.moments.engine
  have processed : engineItems s.moments.engine count = p := engineItems_eq ..
  have accesses : s.workAccesses (.sum slot start count crc) = p := processed
  have over_iff : count - p = 0 ↔ p = count := by omega
  have completes : s.completeWork = s.endWork.answer (if p = count then .done else .partly)
      (if p = count then .none else .more) (le16 (BitVec.ofNat 16 p) ++ le16 (BitVec.ofNat 16 (start + p)) ++
        le16 (BitVec.ofNat 16 (count - p)) ++ le16 (s.store.sumPoints slot start p crc)) := by
    simp only [State.completeWork, present, State.completeSum, processed, over_iff]
    rfl
  obtain ⟨short, enough⟩ := exec_engine_completion present inProgress accesses completes
  refine ⟨least, most, ?_, short, fun served_all => enough (by omega)⟩
  rw [workOverdue_iff present]
  exact (accesses ▸ periods_le_iff (s.workAccesses (.sum slot start count crc)) periods)

theorem firstDifference_of_equal {stored controller : Nat → Half} {n : Nat}
    (equal : ∀ j < n, stored j = controller j) : firstDifference stored controller n = none := by
  cases found : firstDifference stored controller n with
  | none => rfl
  | some j =>
    obtain ⟨within, differs, _⟩ := (firstDifference_some ..).mp found
    exact absurd (equal j within) differs

section
variable {s : State} {slot start count served periods : Nat} {pad : Half} {points : List Half}

/-- The pairs that a compare may examine: as many as the engine's amount. -/
abbrev comparedPairs (s : State) (count : Nat) (points : List Half) : Nat :=
  min (Config.engineAmount s.moments.engine) (max count points.length)

theorem compareAccesses_eq {read : Nat}
    (examined : pairsExamined (s.store.storedValue slot start count pad) (points.getD · pad)
      (comparedPairs s count points) = read) :
    s.workAccesses (.compare slot start count pad points) = min read count := by
  rw [← examined, comparedPairs, ← engineItems_eq]
  rfl

theorem compareOverdue_iff (present : s.store.job = some ⟨.compare slot start count pad points, served, periods⟩)
    {need : Nat} (accesses : s.workAccesses (.compare slot start count pad points) = need) :
    s.workOverdue = true ↔ need ≤ 20 * periods := by
  rw [workOverdue_iff present, ← accesses]
  exact periods_le_iff ..

theorem compare_completes_at (present : s.store.job = some ⟨.compare slot start count pad points, served, periods⟩)
    {j : Nat} (found : firstDifference (s.store.storedValue slot start count pad) (points.getD · pad)
      (comparedPairs s count points) = some j) :
    s.completeWork = s.endWork.answer .done .none
      (compareBlock (if (s.store.storedValue slot start count pad j).toInt < (points.getD j pad).toInt then 1#8 else 2#8)
        j (s.store.storedValue slot start count pad j) (points.getD j pad) start count points.length j) := by
  rw [comparedPairs, ← engineItems_eq] at found
  simp only [State.completeWork, present, State.completeCompare, found]
  rfl

theorem compare_completes_equal (present : s.store.job = some ⟨.compare slot start count pad points, served, periods⟩)
    (found : firstDifference (s.store.storedValue slot start count pad) (points.getD · pad)
      (comparedPairs s count points) = none) :
    s.completeWork = if comparedPairs s count points = max count points.length then
        s.endWork.answer .done .none
          (compareBlock 0#8 0 0#16 0#16 start count points.length (max count points.length))
      else s.endWork.answer .partly .more
        (compareBlock 3#8 0 0#16 0#16 start count points.length (comparedPairs s count points)) := by
  rw [comparedPairs, ← engineItems_eq] at found ⊢
  simp only [State.completeWork, present, State.completeCompare, found]
  rfl

end

/-- Settles O40: the first unequal pair among those the engine examines decides the answer and the accesses. -/
theorem compareCompletes : Obligations.CompareCompletes := by
  unfold Obligations.CompareCompletes
  intro s slot start count served periods pad points kind tag present inProgress
  obtain ⟨least, most⟩ := engineAmount_range s.moments.engine
  dsimp only
  refine ⟨least, most, fun j within differs equal_before => ?_, fun equal whole => ?_, fun equal more => ?_⟩
  · have found : firstDifference (s.store.storedValue slot start count pad) (points.getD · pad)
        (comparedPairs s count points) = some j := (firstDifference_some ..).mpr ⟨within, differs, equal_before⟩
    have accesses := compareAccesses_eq (read := j + 1) (by rw [pairsExamined, found])
    obtain ⟨short, enough⟩ := exec_engine_completion present inProgress accesses (compare_completes_at present found)
    exact ⟨compareOverdue_iff present accesses, short, fun served_all => enough (by omega)⟩
  · have found := firstDifference_of_equal (stored := s.store.storedValue slot start count pad)
      (controller := (points.getD · pad)) equal
    have accesses := compareAccesses_eq (read := max count points.length) (by
      rw [pairsExamined, found]
      exact whole)
    obtain ⟨short, enough⟩ := exec_engine_completion present inProgress accesses
      ((compare_completes_equal present found).trans (if_pos whole))
    exact ⟨compareOverdue_iff present accesses, short, fun served_all => enough (by omega)⟩
  · have found := firstDifference_of_equal (stored := s.store.storedValue slot start count pad)
      (controller := (points.getD · pad)) equal
    have accesses := compareAccesses_eq (read := comparedPairs s count points) (by rw [pairsExamined, found])
    obtain ⟨short, enough⟩ := exec_engine_completion present inProgress accesses
      ((compare_completes_equal present found).trans (if_neg (Nat.ne_of_lt more)))
    have bound : comparedPairs s count points ≤ 256 := (Nat.min_le_left ..).trans most
    exact ⟨compareOverdue_iff present accesses, short, fun served_all => enough (served_all.elim (fun all => by omega) id)⟩

end Sys2Proof.Proofs
end

section
/-! Templates and phrases: TEMPLATE_DEFINE, TEMPLATE_DELETE, the reading back of a template, PHRASE_DEFINE, PHRASE_DELETE,
and the expansion of a phrase. -/

namespace Sys2Proof.Proofs

open Sys2Proof Sys2Proof.Machine

/-! ## Slots that a template names (R30, R51) -/

theorem namesSlot_iff (t : Option Template) (k : Nat) :
    namesSlot t k = true ↔ ∃ content, t = some content ∧ content.Names k := by
  cases t <;> simp [namesSlot, Template.names_iff]

theorem slotsLoaded_iff (s : State) (t : Template) : s.slotsLoaded t = true ↔
    ∀ k slot, t.Names k → s.store.slots[k]? = some slot → slot.state = .loaded := by
  simp only [State.slotsLoaded, List.all_eq_true, List.mem_range, Bool.or_eq_true, Bool.not_eq_true',
    ← Bool.not_eq_true, t.names_iff]
  constructor
  · intro loaded k slot named present
    have low : k < 16 := (Vector.getElem?_eq_some_iff.mp present).1
    have state := (loaded k low).resolve_left (not_not_intro named)
    rw [present] at state
    exact beq_iff_eq.mp state
  · intro loaded k low
    by_cases named : t.Names k
    · obtain ⟨slot, present⟩ := slot_exists s low
      rw [present]
      exact .inr (beq_iff_eq.mpr (loaded k slot named present))
    · exact .inl named

/-- A slot's refcount after the set of slots that an entry names has changed (R30). -/
def movedCount (old new : Option Template) (k count : Nat) : Nat :=
  if namesSlot new k && !namesSlot old k then count + 1
  else if namesSlot old k && !namesSlot new k then count - 1
  else count

theorem moveSlotCounts_slot {s : State} (old new : Option Template) {k : Nat} {slot : Slot}
    (present : s.store.slots[k]? = some slot) : (s.moveSlotCounts old new).store.slots[k]? =
      some { slot with refcount := movedCount old new k slot.refcount } := by
  simp only [State.moveSlotCounts, Vector.getElem?_mapIdx, present, Option.map_some]
  rfl

theorem movedCount_up {old new : Option Template} {k : Nat} (names : namesSlot new k = true)
    (not_named : ¬ namesSlot old k = true) (count : Nat) : movedCount old new k count = count + 1 := by
  rw [movedCount, names, Bool.not_eq_true _ |>.mp not_named]
  rfl

theorem movedCount_down {old new : Option Template} {k : Nat} (not_names : ¬ namesSlot new k = true)
    (named : namesSlot old k = true) (count : Nat) : movedCount old new k count = count - 1 := by
  rw [movedCount, named, Bool.not_eq_true _ |>.mp not_names]
  rfl

theorem movedCount_same {old new : Option Template} {k : Nat} (same : namesSlot new k = true ↔ namesSlot old k = true)
    (count : Nat) : movedCount old new k count = count := by
  rw [movedCount, Bool.eq_iff_iff.mpr same]
  cases namesSlot old k <;> rfl

/-! ## TEMPLATE_DEFINE (R30, R49 to R56) -/

theorem exec_templateDefine {s : State} (listening : s.Listening) (tag : Byte) (w : TemplateWire) :
    exec (.templateDefine tag w) s = .next ((s.openRequest 0x20#8 tag).takeTemplateDefine w) :=
  exec_of_listening listening (i := .templateDefine tag w) (kind := .templateDefine) rfl rfl

section
variable {s : State} {w : TemplateWire} (tag : Byte)

theorem templateDefine_of_range (bad : TemplateOutOfRange w) :
    (s.openRequest 0x20#8 tag).takeTemplateDefine w = s.replied 0x20#8 tag .refused .range [] := by
  rw [State.takeTemplateDefine]
  by_cases above : 63 < w.index.toNat
  · exact (if_pos above).trans (State.openRequest_refuse ..)
  · rw [if_neg above, (storedTemplate_iff w (Nat.le_of_not_lt above)).1 bad]
    exact State.openRequest_refuse ..

theorem templateDefine_of_slots {content : Template} (low : ¬ 63 < w.index.toNat)
    (stored : storedTemplate w = some content) (unloaded : ¬ s.slotsLoaded content = true) :
    (s.openRequest 0x20#8 tag).takeTemplateDefine w = s.replied 0x20#8 tag .refused .notReady [] := by
  rw [State.takeTemplateDefine, if_neg low, stored]
  exact (if_neg unloaded).trans (State.openRequest_refuse ..)

/-- The state with an entry's template replaced and the slots' refcounts moved with it (R30, R56). -/
def templateStored (index : Nat) (old new : Option TemplateEntry) (s : State) : State :=
  { s.moveSlotCounts (old.map TemplateEntry.template) (new.map TemplateEntry.template) with
    library := s.library.setIfInBounds index new }

theorem templateDefine_stored {content : Template} {old : Option TemplateEntry} (low : ¬ 63 < w.index.toNat)
    (at_index : s.library[w.index.toNat]? = some old) (stored : storedTemplate w = some content)
    (loaded : s.slotsLoaded content = true) :
    (s.openRequest 0x20#8 tag).takeTemplateDefine w =
      State.replied 0x20#8 tag .done (if templateClamped w then .clamped else .none)
        ([w.index, if old = none then 0#8 else 1#8] ++ bytes2 ((old.map TemplateEntry.refcount).getD 0))
        (templateStored w.index.toNat old
          (some { template := content, refcount := (old.map TemplateEntry.refcount).getD 0 }) s) := by
  have loaded' : (s.openRequest 0x20#8 tag).slotsLoaded content = true := loaded
  have defined : (if old = none then 0#8 else 1#8) = if old.isSome then 1#8 else 0#8 := by cases old <;> rfl
  rw [State.takeTemplateDefine, if_neg low, stored, defined]
  dsimp only
  rw [if_pos loaded', template?_eq (s := s.openRequest 0x20#8 tag) at_index]
  exact State.onLink_answer (s := s) (t := templateStored w.index.toNat old
    (some { template := content, refcount := (old.map TemplateEntry.refcount).getD 0 }) s) rfl ..

end

/-- Settles O41: the stored fields are `storedTemplate`'s, and the refcounts move by `movedCount`. -/
theorem templateDefineStores : Obligations.TemplateDefineStores := by
  unfold Obligations.TemplateDefineStores
  intro s tag w listening
  rw [exec_templateDefine listening]
  refine ⟨fun bad => by rw [templateDefine_of_range tag bad], fun good => ?_⟩
  have low : ¬ 63 < w.index.toNat := fun above => good (.inl above)
  obtain ⟨content, stored, stored_from⟩ := (storedTemplate_iff w (Nat.le_of_not_lt low)).2 good
  refine ⟨content, stored_from, fun ⟨k, slot, named, present, unloaded⟩ => ?_, fun loaded => ?_⟩
  · rw [templateDefine_of_slots tag low stored fun loaded =>
      unloaded ((slotsLoaded_iff s content).mp loaded k slot named present)]
  · have at_index : s.library[w.index.toNat]? = some s.library[w.index.toNat] :=
      Vector.getElem?_eq_getElem (by omega)
    refine ⟨_, _, s.library[w.index.toNat], at_index, fun clamped => ?_, fun unclamped => ?_,
      congrArg Host.Outcome.next
        (templateDefine_stored tag low at_index stored ((slotsLoaded_iff s content).mpr loaded)), rfl, ?_⟩
    · exact if_pos ((templateClamped_iff w).mpr clamped)
    · exact if_neg (mt (templateClamped_iff w).mp unclamped)
    · intro k slot present
      have named_iff : namesSlot (s.library[w.index.toNat].map TemplateEntry.template) k = true ↔
          ∃ e, s.library[w.index.toNat] = some e ∧ e.template.Names k := by
        rw [namesSlot_iff]
        cases s.library[w.index.toNat] <;> simp
      have names_iff : namesSlot (some content) k = true ↔ content.Names k := by simp [namesSlot_iff]
      refine ⟨_, moveSlotCounts_slot _ _ present, fun names not_named => ?_, fun not_names named => ?_, fun same => ?_⟩
      · exact movedCount_up (names_iff.mpr names) (mt named_iff.mp not_named) _
      · exact movedCount_down (mt names_iff.mp not_names) (named_iff.mpr named) _
      · exact movedCount_same (names_iff.trans (same.trans named_iff.symm)) _

/-! ## A template read back (R55, R58) -/

theorem start_reads_back {c : StartCond} (bound : c.tenths < 3600) :
    c = if c.code = 0#8 then .follow
      else if c.code = 1#8 then .angle ((BitVec.ofNat 16 c.tenths).toNat % 3600)
      else if c.code = 2#8 then .trigger
      else .triggerAngle ((BitVec.ofNat 16 c.tenths).toNat % 3600) := by
  have same : (BitVec.ofNat 16 c.tenths).toNat % 3600 = c.tenths := by
    rw [BitVec.toNat_ofNat]
    omega
  rw [same]
  cases c <;> rfl

theorem duration_reads_back {d : Duration} (samples : ∀ v, d = .samples v → v < 2 ^ 32)
    (degrees : ∀ v, d = .degrees v → v ≤ 3600000) :
    d = if d.code = 0#8 then .samples (BitVec.ofNat 32 d.value).toNat
      else .degrees (min 3600000 (BitVec.ofNat 32 d.value).toNat) := by
  cases d with
  | samples v =>
    have bound := samples v rfl
    have same : (BitVec.ofNat 32 v).toNat = v := by rw [BitVec.toNat_ofNat]; omega
    exact congrArg Duration.samples same.symm
  | degrees v =>
    have bound := degrees v rfl
    have same : min 3600000 (BitVec.ofNat 32 v).toNat = v := by rw [BitVec.toNat_ofNat]; omega
    exact congrArg Duration.degrees same.symm

/-- A phase record with every field in the range in which it is stored (R51, R53, R54). -/
structure PhaseStored (r : PhaseRecord) : Prop where
  amplitude : r.amplitude ≤ 15000
  offset    : r.offset < 3600
  slot      : r.slot ≤ 15
  overlay   : ∀ o, r.overlay = some o →
                o.slot ≤ 15 ∧ 1 ≤ o.harmonic ∧ o.harmonic ≤ 50 ∧ o.amplitude ≤ 3000 ∧ o.phase < 3600

theorem toNat_byteOf {n : Nat} (bound : n < 256) : (byteOf n).toNat = n := by
  rw [byteOf, BitVec.toNat_ofNat]
  omega

theorem toNat_half {n : Nat} (bound : n < 65536) : (BitVec.ofNat 16 n).toNat = n := by
  rw [BitVec.toNat_ofNat]
  omega

/-- The stored phase record of a carried one, by the rule of `Template.StoredFrom`. -/
def storedPhaseOf (w : PhaseWire) : PhaseRecord :=
  { amplitude := min 15000 w.amplitude.toNat, offset := w.offset.toNat % 3600, slot := w.slot.toNat,
    overlay := if w.overlaySlot = 255#8 then none
      else some { slot := w.overlaySlot.toNat, harmonic := w.harmonic.toNat,
                  amplitude := min 3000 w.overlayAmp.toNat, phase := w.overlayPhase.toNat % 3600 } }

theorem phaseStored_of_carried {w : PhaseWire} (good : ¬ PhaseOutOfRange w) : PhaseStored (storedPhaseOf w) := by
  simp only [PhaseOutOfRange, not_or, not_and, Decidable.not_not] at good
  obtain ⟨slot, overlay_slot, harmonic⟩ := good
  refine ⟨Nat.min_le_left .., Nat.mod_lt _ (by decide), Nat.le_of_not_lt slot, fun o present => ?_⟩
  by_cases absent : w.overlaySlot = 255#8
  · rw [storedPhaseOf, if_pos absent] at present
    exact absurd present nofun
  · rw [storedPhaseOf, if_neg absent] at present
    obtain rfl := Option.some.inj present
    obtain ⟨not_zero, at_most⟩ := harmonic absent
    have positive : w.harmonic.toNat ≠ 0 := fun zero => not_zero ((byte_eq_iff w.harmonic 0 (by decide)).mpr zero)
    have low : ¬ 15 < w.overlaySlot.toNat := fun above => absent (overlay_slot above)
    exact ⟨Nat.le_of_not_lt low, Nat.pos_of_ne_zero positive, Nat.le_of_not_lt at_most, Nat.min_le_left ..,
      Nat.mod_lt _ (by decide)⟩

/-- A phase record as TEMPLATE_READ returns it passes the checks, is stored as itself, and is not clamped. -/
theorem phase_reads_back {r : PhaseRecord} (stored : PhaseStored r) : ¬ PhaseOutOfRange r.wire ∧
    r = storedPhaseOf r.wire ∧ ¬ (15000 < r.wire.amplitude.toNat ∨
      r.wire.overlaySlot ≠ 255#8 ∧ 3000 < r.wire.overlayAmp.toNat) := by
  obtain ⟨amplitude, offset, slot, overlay⟩ := stored
  have amplitude_back : r.wire.amplitude.toNat = r.amplitude := toNat_half (by omega)
  have offset_back : r.wire.offset.toNat = r.offset := toNat_half (by omega)
  have slot_back : r.wire.slot.toNat = r.slot := toNat_byteOf (by omega)
  cases present : r.overlay with
  | none =>
    have absent : r.wire.overlaySlot = 255#8 := by rw [PhaseRecord.wire, present]
    refine ⟨?_, ?_, ?_⟩
    · rw [PhaseOutOfRange, slot_back, absent]
      rintro (above | ⟨_, not_absent⟩ | ⟨not_absent, _⟩)
      · omega
      · exact not_absent rfl
      · exact not_absent rfl
    · rw [storedPhaseOf, if_pos absent, amplitude_back, offset_back, slot_back, Nat.min_eq_right amplitude,
        Nat.mod_eq_of_lt offset, ← present]
    · rw [amplitude_back]
      rintro (above | ⟨not_absent, _⟩)
      · omega
      · exact not_absent absent
  | some o =>
    obtain ⟨overlay_slot, least, most, overlay_amp, phase⟩ := overlay o present
    have overlay_slot_back : r.wire.overlaySlot.toNat = o.slot := by
      simp only [PhaseRecord.wire, present]
      exact toNat_byteOf (by omega)
    have harmonic_back : r.wire.harmonic.toNat = o.harmonic := by
      simp only [PhaseRecord.wire, present]
      exact toNat_byteOf (by omega)
    have amp_back : r.wire.overlayAmp.toNat = o.amplitude := by
      simp only [PhaseRecord.wire, present]
      exact toNat_half (by omega)
    have phase_back : r.wire.overlayPhase.toNat = o.phase := by
      simp only [PhaseRecord.wire, present]
      exact toNat_half (by omega)
    have not_absent : r.wire.overlaySlot ≠ 255#8 := fun absent => by
      have as_nat := (byte_eq_iff r.wire.overlaySlot 255 (by decide)).mp absent
      omega
    refine ⟨?_, ?_, ?_⟩
    · rw [PhaseOutOfRange, slot_back, overlay_slot_back, byte_eq_iff r.wire.harmonic 0 (by decide), harmonic_back]
      omega
    · rw [storedPhaseOf, if_neg not_absent, amplitude_back, offset_back, slot_back, overlay_slot_back, harmonic_back,
        amp_back, phase_back, Nat.min_eq_right amplitude, Nat.mod_eq_of_lt offset, Nat.min_eq_right overlay_amp,
        Nat.mod_eq_of_lt phase, ← present]
    · rw [amplitude_back, amp_back]
      omega

section
variable {content : Template} {w : TemplateWire} (stored : content.StoredFrom w)
include stored

theorem stored_tenths_lt : content.start.tenths < 3600 := by
  rw [stored.start]
  split_ifs <;> simp [StartCond.tenths, Nat.mod_lt]

theorem stored_duration_bound :
    (∀ v, content.duration = .samples v → v < 2 ^ 32) ∧ ∀ v, content.duration = .degrees v → v ≤ 3600000 := by
  rw [stored.duration]
  have carried := w.durValue.isLt
  split_ifs
  · exact ⟨fun v samples => Duration.samples.inj samples ▸ carried, nofun⟩
  · exact ⟨nofun, fun v degrees => Duration.degrees.inj degrees ▸ Nat.min_le_left ..⟩

theorem frequency_reads_back : (BitVec.ofNat 16 content.frequency).toNat = content.frequency ∧
    4000 ≤ content.frequency ∧ content.frequency ≤ 45000 := by
  have range := stored.frequency
  exact ⟨toNat_half (by omega), by omega, by omega⟩

variable (good : ¬ TemplateOutOfRange w)
include good

theorem stored_phase (p : Phase) : PhaseStored (content.phases.get p) := by
  have in_range : ¬ PhaseOutOfRange (w.phases.get p) := fun bad => good (.inr (.inr (.inr ⟨p, bad⟩)))
  have same : content.phases.get p = storedPhaseOf (w.phases.get p) := stored.phases p
  rw [same]
  exact phaseStored_of_carried in_range

theorem wire_in_range {index : Byte} (low : index.toNat ≤ 63) : ¬ TemplateOutOfRange (content.wire index) := by
  rintro (above | start | duration | ⟨p, bad⟩)
  · exact absurd above (Nat.not_lt.mpr low)
  · exact absurd start (by cases h : content.start <;> simp [Template.wire, h, StartCond.code])
  · exact absurd duration (by cases h : content.duration <;> simp [Template.wire, h, Duration.code])
  · have carried : (content.wire index).phases.get p = (content.phases.get p).wire := get_map ..
    rw [carried] at bad
    exact (phase_reads_back (stored_phase stored good p)).1 bad

theorem wire_stores_itself (index : Byte) : content.StoredFrom (content.wire index) := by
  obtain ⟨frequency, least, most⟩ := frequency_reads_back stored
  have level := stored.levelRamp
  have freq := stored.freqRamp
  have level_lt := w.levelRamp.isLt
  have freq_lt := w.freqRamp.isLt
  refine ⟨start_reads_back (stored_tenths_lt stored),
    duration_reads_back (stored_duration_bound stored).1 (stored_duration_bound stored).2, ?_,
    (toNat_half (by omega)).symm, (toNat_half (by omega)).symm, fun p => ?_⟩
  · have same : (content.wire index).frequency.toNat = content.frequency := frequency
    rw [same]
    omega
  · have carried : (content.wire index).phases.get p = (content.phases.get p).wire := get_map ..
    rw [carried]
    exact (phase_reads_back (stored_phase stored good p)).2.1

theorem wire_not_clamped (index : Byte) : ¬ TemplateClamped (content.wire index) := by
  obtain ⟨frequency, least, most⟩ := frequency_reads_back stored
  have same : (content.wire index).frequency.toNat = content.frequency := frequency
  rintro (⟨degrees, above⟩ | below | above | ⟨p, clamped⟩)
  · cases duration : content.duration with
    | samples v => simp [Template.wire, duration, Duration.code] at degrees
    | degrees v =>
      have bound := (stored_duration_bound stored).2 v duration
      simp only [Template.wire, duration, Duration.value, BitVec.toNat_ofNat] at above
      omega
  · omega
  · omega
  · have carried : (content.wire index).phases.get p = (content.phases.get p).wire := get_map ..
    rw [carried] at clamped
    exact (phase_reads_back (stored_phase stored good p)).2.2 clamped

end

/-- Settles O42: what TEMPLATE_READ returns is `Template.wire`, whose fields are all in range. -/
theorem templateReadsBackAsDefined : Obligations.TemplateReadsBackAsDefined := by
  unfold Obligations.TemplateReadsBackAsDefined
  intro w content tag tag' index good stored low
  refine ⟨content.wire index, rfl, wire_in_range stored good low, wire_stores_itself stored good index,
    wire_not_clamped stored good index, fun s count listening defined => ⟨?_, ?_⟩⟩
  · rw [exec_templateRead listening, templateRead_of_defined _ tag defined]
    rfl
  · simp only [parseRequest, Parsed.ofUnits, readTemplate_bytes]
    rfl

/-! ## Reference counts that move (R59, R60, R69, R72) -/

theorem onLink_countTemplate (l : Link) (f : Nat → Nat) (k : Nat) (s : State) :
    (s.onLink l).countTemplate f k = (s.countTemplate f k).onLink l :=
  State.onLink_countCue l f (.template k 0 none none) s

theorem onLink_countPhrase (l : Link) (f : Nat → Nat) (k : Nat) (s : State) :
    (s.onLink l).countPhrase f k = (s.countPhrase f k).onLink l :=
  State.onLink_countCue l f (.phrase k 0) s

theorem onLink_countAt {count : Nat → State → State} {l : Link}
    (free : ∀ k s, count k (s.onLink l) = (count k s).onLink l) (place : Option Nat) (s : State) :
    countAt count place (s.onLink l) = (countAt count place s).onLink l := by
  cases place with
  | none => rfl
  | some k => exact free k s

theorem onLink_moveCount {count : (Nat → Nat) → Nat → State → State} {l : Link}
    (free : ∀ f k s, count f k (s.onLink l) = (count f k s).onLink l) (old new : Option Nat) (s : State) :
    moveCount count old new (s.onLink l) = (moveCount count old new s).onLink l := by
  unfold moveCount
  split
  · rfl
  · rw [onLink_countAt (free down), onLink_countAt (free up)]

theorem countAt_phrases (f : Nat → Nat) (place : Option Nat) (s : State) (i : Nat) :
    (countAt (State.countPhrase f) place s).phrases[i]? = (s.phrases[i]?).map (Option.map
      (PhraseEntry.counted fun n => if place = some i then f n else n)) := by
  cases place with
  | none => exact (PhraseEntry.counted_id _).symm
  | some k => simp only [countAt, State.countPhrase_phrases, Option.some.injEq]

theorem countAt_library (f : Nat → Nat) (place : Option Nat) (s : State) (i : Nat) :
    (countAt (State.countTemplate f) place s).library[i]? = (s.library[i]?).map (Option.map
      (TemplateEntry.counted fun n => if place = some i then f n else n)) := by
  cases place with
  | none => exact (TemplateEntry.counted_id _).symm
  | some k => simp only [countAt, State.countTemplate_library, Option.some.injEq]

theorem countAt_countPhrase_eq (f : Nat → Nat) (place : Option Nat) (s : State) :
    countAt (State.countPhrase f) place s =
      { s with phrases := (countAt (State.countPhrase f) place s).phrases } := by
  cases place with
  | none => rfl
  | some k => exact s.countPhrase_eq f k

theorem countAt_countTemplate_eq (f : Nat → Nat) (place : Option Nat) (s : State) :
    countAt (State.countTemplate f) place s =
      { s with library := (countAt (State.countTemplate f) place s).library } := by
  cases place with
  | none => rfl
  | some k => exact s.countTemplate_eq f k

/-- A refcount after a reference has moved from one place to another (R69). -/
def movedRef (old new : Option Nat) (i n : Nat) : Nat :=
  if new = some i ∧ old ≠ some i then n + 1 else if old = some i ∧ new ≠ some i then n - 1 else n

theorem movedRef_self (place : Option Nat) (i n : Nat) : movedRef place place i n = n := by
  simp [movedRef]

theorem movedRef_to (old : Option Nat) (k i : Nat) : movedRef old (some k) i =
    fun n => if k = i ∧ old ≠ some i then n + 1 else if old = some i ∧ k ≠ i then n - 1 else n := by
  funext n
  simp only [movedRef, Option.some.injEq, ne_eq]

theorem movedRef_of_ne {old new : Option Nat} (differ : old ≠ new) (i n : Nat) :
    (if new = some i then up (if old = some i then down n else n) else if old = some i then down n else n) =
      movedRef old new i n := by
  by_cases arrives : new = some i
  · have not_from : old ≠ some i := fun from_i => differ (from_i.trans arrives.symm)
    simp [movedRef, arrives, not_from, up]
  · simp [movedRef, arrives, down]

theorem moveCount_phrases (old new : Option Nat) (s : State) (i : Nat) :
    (moveCount State.countPhrase old new s).phrases[i]? =
      (s.phrases[i]?).map (Option.map (PhraseEntry.counted (movedRef old new i))) := by
  unfold moveCount
  split
  · rename_i same
    rw [same, funext (movedRef_self new i), PhraseEntry.counted_id]
  · rename_i differ
    rw [countAt_phrases, countAt_phrases, ← funext (movedRef_of_ne differ i)]
    rcases s.phrases[i]? with _ | _ | e <;> simp only [Option.map_none, Option.map_some, PhraseEntry.counted]

theorem moveCount_library (old new : Option Nat) (s : State) (i : Nat) :
    (moveCount State.countTemplate old new s).library[i]? =
      (s.library[i]?).map (Option.map (TemplateEntry.counted (movedRef old new i))) := by
  unfold moveCount
  split
  · rename_i same
    rw [same, funext (movedRef_self new i), TemplateEntry.counted_id]
  · rename_i differ
    rw [countAt_library, countAt_library, ← funext (movedRef_of_ne differ i)]
    rcases s.library[i]? with _ | _ | e <;> simp only [Option.map_none, Option.map_some, TemplateEntry.counted]

theorem moveCount_countPhrase_eq (old new : Option Nat) (s : State) :
    moveCount State.countPhrase old new s =
      { s with phrases := (moveCount State.countPhrase old new s).phrases } := by
  unfold moveCount
  split
  · rfl
  · rw [countAt_countPhrase_eq, countAt_countPhrase_eq]

theorem moveCount_countTemplate_eq (old new : Option Nat) (s : State) :
    moveCount State.countTemplate old new s =
      { s with library := (moveCount State.countTemplate old new s).library } := by
  unfold moveCount
  split
  · rfl
  · rw [countAt_countTemplate_eq, countAt_countTemplate_eq]

/-! ## TEMPLATE_DELETE and PHRASE_DELETE (R30, R57, R70) -/

theorem exec_templateDelete {s : State} (listening : s.Listening) (tag index : Byte) :
    exec (.templateDelete tag index) s = .next ((s.openRequest 0x21#8 tag).takeTemplateDelete index) :=
  exec_of_listening listening (i := .templateDelete tag index) (kind := .templateDelete) rfl rfl

theorem exec_phraseDelete {s : State} (listening : s.Listening) (tag index : Byte) :
    exec (.phraseDelete tag index) s = .next ((s.openRequest 0x29#8 tag).takePhraseDelete index) :=
  exec_of_listening listening (i := .phraseDelete tag index) (kind := .phraseDelete) rfl rfl

/-- The state with a phrase's entry freed and its template and predecessor released (R70). -/
def phraseFreed (index : Nat) (e : PhraseEntry) (s : State) : State :=
  { countAt (State.countPhrase down) e.pred (s.countTemplate down e.template) with
    phrases := (countAt (State.countPhrase down) e.pred (s.countTemplate down e.template)).phrases.setIfInBounds index
      none }

section
variable {s : State} {index : Byte} (tag : Byte)

theorem templateDelete_of_free (free : s.library[index.toNat]? = some none) :
    (s.openRequest 0x21#8 tag).takeTemplateDelete index = s.replied 0x21#8 tag .refused .notReady [] := by
  rw [State.takeTemplateDelete, if_neg (template_index_le free), template?_eq (s := s.openRequest 0x21#8 tag) free]
  exact State.openRequest_refuse ..

theorem templateDelete_of_used {e : TemplateEntry} (defined : s.library[index.toNat]? = some (some e))
    (used : 0 < e.refcount) :
    (s.openRequest 0x21#8 tag).takeTemplateDelete index = s.replied 0x21#8 tag .refused .inUse [] := by
  rw [State.takeTemplateDelete, if_neg (template_index_le defined),
    template?_eq (s := s.openRequest 0x21#8 tag) defined]
  exact (if_pos used).trans (State.openRequest_refuse ..)

theorem templateDelete_of_unused {e : TemplateEntry} (defined : s.library[index.toNat]? = some (some e))
    (unused : ¬ 0 < e.refcount) : (s.openRequest 0x21#8 tag).takeTemplateDelete index =
      State.replied 0x21#8 tag .done .none [index] (templateStored index.toNat (some e) none s) := by
  rw [State.takeTemplateDelete, if_neg (template_index_le defined),
    template?_eq (s := s.openRequest 0x21#8 tag) defined]
  exact (if_neg unused).trans
    (State.onLink_answer (s := s) (t := templateStored index.toNat (some e) none s) rfl ..)

theorem phraseDelete_of_free (free : s.phrases[index.toNat]? = some none) :
    (s.openRequest 0x29#8 tag).takePhraseDelete index = s.replied 0x29#8 tag .refused .notReady [] := by
  rw [State.takePhraseDelete, if_neg (phrase_index_le free), phrase?_eq (s := s.openRequest 0x29#8 tag) free]
  exact State.openRequest_refuse ..

theorem phraseDelete_of_used {e : PhraseEntry} (defined : s.phrases[index.toNat]? = some (some e))
    (used : 0 < e.refcount) :
    (s.openRequest 0x29#8 tag).takePhraseDelete index = s.replied 0x29#8 tag .refused .inUse [] := by
  rw [State.takePhraseDelete, if_neg (phrase_index_le defined), phrase?_eq (s := s.openRequest 0x29#8 tag) defined]
  exact (if_pos used).trans (State.openRequest_refuse ..)

theorem onLink_phraseFreed (l : Link) (index : Nat) (e : PhraseEntry) (s : State) :
    phraseFreed index e (s.onLink l) = (phraseFreed index e s).onLink l := by
  rw [phraseFreed, onLink_countTemplate, onLink_countAt (onLink_countPhrase l down)]
  rfl

theorem phraseFreed_eq (index : Nat) (e : PhraseEntry) (s : State) : phraseFreed index e s =
    { s with library := (phraseFreed index e s).library, phrases := (phraseFreed index e s).phrases } := by
  rw [phraseFreed, countAt_countPhrase_eq, s.countTemplate_eq]

theorem phraseDelete_of_unused {e : PhraseEntry} (defined : s.phrases[index.toNat]? = some (some e))
    (unused : ¬ 0 < e.refcount) : (s.openRequest 0x29#8 tag).takePhraseDelete index =
      State.replied 0x29#8 tag .done .none [index] (phraseFreed index.toNat e s) := by
  have link : (phraseFreed index.toNat e s).link = s.link := by rw [phraseFreed_eq]
  rw [State.takePhraseDelete, if_neg (phrase_index_le defined), phrase?_eq (s := s.openRequest 0x29#8 tag) defined,
    ← State.onLink_answer link, ← onLink_phraseFreed]
  exact if_neg unused

end

theorem phraseFreed_library (index : Nat) (e : PhraseEntry) (s : State) (i : Nat) :
    (phraseFreed index e s).library[i]? =
      (s.library[i]?).map (Option.map (TemplateEntry.counted fun n => if e.template = i then n - 1 else n)) := by
  have same : (phraseFreed index e s).library = (s.countTemplate down e.template).library := by
    rw [phraseFreed, countAt_countPhrase_eq]
  rw [same, State.countTemplate_library]
  rfl

theorem phraseFreed_phrases (index : Nat) (e : PhraseEntry) (s : State) (i : Nat) :
    (phraseFreed index e s).phrases[i]? = if index = i then (s.phrases[i]?).map fun _ => none
      else (s.phrases[i]?).map (Option.map (PhraseEntry.counted fun n => if e.pred = some i then n - 1 else n)) := by
  simp only [phraseFreed, getElem?_set, countAt_phrases, State.countTemplate_frame, Option.map_map]
  rfl

/-- Settles O43: a template's deletion moves its slots' counts, a phrase's the counts of what it names. -/
theorem deletesReleaseReferences : Obligations.DeletesReleaseReferences := by
  unfold Obligations.DeletesReleaseReferences
  intro s tag index listening
  rw [exec_templateDelete listening, exec_phraseDelete listening]
  refine ⟨fun above => ?_, fun free => by rw [templateDelete_of_free tag free], fun e defined => ⟨fun used => ?_,
    fun unused => ⟨_, congrArg Host.Outcome.next (templateDelete_of_unused tag defined (by omega)), rfl, ?_⟩⟩,
    fun above => ?_, fun free => by rw [phraseDelete_of_free tag free], fun e defined => ⟨fun used => ?_, fun unused =>
      ⟨_, congrArg Host.Outcome.next (phraseDelete_of_unused tag defined (by omega)), ?_, ?_, ?_, ?_⟩⟩⟩
  · exact congrArg Host.Outcome.next ((if_pos above).trans (State.openRequest_refuse ..))
  · rw [templateDelete_of_used tag defined used]
  · intro k slot present
    have named_iff : namesSlot (some e.template) k = true ↔ e.template.Names k := by simp [namesSlot_iff]
    have names_none : ¬ namesSlot none k = true := Bool.false_ne_true
    refine ⟨_, moveSlotCounts_slot (some e.template) none present, fun named => ?_, fun not_named => ?_⟩
    · exact movedCount_down names_none (named_iff.mpr named) _
    · exact movedCount_same (iff_of_false names_none (mt named_iff.mp not_named)) _
  · exact congrArg Host.Outcome.next ((if_pos above).trans (State.openRequest_refuse ..))
  · rw [phraseDelete_of_used tag defined used]
  · exact congrArg (State.replied 0x29#8 tag .done .none [index]) (phraseFreed_eq index.toNat e s)
  · refine (phraseFreed_phrases index.toNat e s index.toNat).trans ?_
    rw [if_pos rfl, defined]
    rfl
  · exact fun i other => (phraseFreed_phrases index.toNat e s i).trans (if_neg other.symm)
  · exact fun i => phraseFreed_library index.toNat e s i

/-! ## PHRASE_DEFINE (R67, R68, R69) -/

theorem carriedPred_isSome (pred : Byte) : (carriedPred pred).isSome = true ↔ pred ≠ 255#8 := by
  rw [carriedPred]
  split_ifs with absent <;> simp [absent]

theorem carried_out_of_range_iff (pred : Byte) :
    128 ≤ pred.toNat ∧ pred.toNat ≤ 254 ↔ 127 < pred.toNat ∧ pred ≠ 255#8 := by
  rw [ne_eq, byte_eq_iff pred 255 (by decide)]
  have bound := pred.isLt
  omega

/-- The state with a phrase's entry stored and the references of the old entry moved to the new one's (R69). -/
def phraseStored (index : Nat) (old : Option PhraseEntry) (entry : PhraseEntry) (s : State) : State :=
  let moved := moveCount State.countPhrase (old.bind PhraseEntry.pred) entry.pred
    (moveCount State.countTemplate (old.map PhraseEntry.template) (some entry.template) s)
  { moved with phrases := moved.phrases.setIfInBounds index (some entry) }

/-- PHRASE_DEFINE with its eight checks in the order of R67. -/
theorem takePhraseDefine_eq (index pred template : Byte) (s : State) :
    s.takePhraseDefine index pred template =
      let before := (carriedPred pred).bind s.phrase?
      let old := s.phrase? index.toNat
      if 127 < index.toNat ∨ 127 < pred.toNat ∧ pred ≠ 255#8 ∨ 63 < template.toNat then s.refuse .range
      else if pred ≠ 255#8 ∧ index.toNat ≤ pred.toNat then s.refuse .order
      else if 0 < (old.map PhraseEntry.refcount).getD 0 then s.refuse .inUse
      else if pred ≠ 255#8 ∧ before = none ∨ s.template? template.toNat = none then s.refuse .notReady
      else if (before.map PhraseEntry.depth).getD 0 = 32 then s.refuse .depth
      else (phraseStored index.toNat old ⟨carriedPred pred, template.toNat, depthOver before, 0⟩ s).done .none
        [index, if old.isSome then 1#8 else 0#8, byteOf (depthOver before)] := by
  unfold State.takePhraseDefine
  simp only [Bool.and_eq_true, decide_eq_true_iff, carriedPred_isSome, Option.isNone_iff_eq_none,
    carried_out_of_range_iff, ite_or]
  rfl

theorem onLink_phraseStored (l : Link) (index : Nat) (old : Option PhraseEntry) (entry : PhraseEntry) (s : State) :
    phraseStored index old entry (s.onLink l) = (phraseStored index old entry s).onLink l := by
  simp only [phraseStored, onLink_moveCount (count := State.countTemplate) fun f k s => onLink_countTemplate l f k s,
    onLink_moveCount (count := State.countPhrase) fun f k s => onLink_countPhrase l f k s]
  rfl

theorem phraseStored_eq (index : Nat) (old : Option PhraseEntry) (entry : PhraseEntry) (s : State) :
    phraseStored index old entry s = { s with library := (phraseStored index old entry s).library,
                                              phrases := (phraseStored index old entry s).phrases } := by
  rw [phraseStored, moveCount_countPhrase_eq, moveCount_countTemplate_eq]

theorem phraseStored_library (index : Nat) (old : Option PhraseEntry) (entry : PhraseEntry) (s : State) (i : Nat) :
    (phraseStored index old entry s).library[i]? = (s.library[i]?).map (Option.map
      (TemplateEntry.counted (movedRef (old.map PhraseEntry.template) (some entry.template) i))) := by
  have same : (phraseStored index old entry s).library =
      (moveCount State.countTemplate (old.map PhraseEntry.template) (some entry.template) s).library := by
    rw [phraseStored, moveCount_countPhrase_eq]
  rw [same, moveCount_library]

theorem phraseStored_phrases (index : Nat) (old : Option PhraseEntry) (entry : PhraseEntry) (s : State) (i : Nat) :
    (phraseStored index old entry s).phrases[i]? = if index = i then (s.phrases[i]?).map fun _ => some entry
      else (s.phrases[i]?).map (Option.map
        (PhraseEntry.counted (movedRef (old.bind PhraseEntry.pred) entry.pred i))) := by
  have kept : (moveCount State.countTemplate (old.map PhraseEntry.template) (some entry.template) s).phrases =
      s.phrases := by rw [moveCount_countTemplate_eq]
  simp only [phraseStored, getElem?_set, moveCount_phrases, kept, Option.map_map]
  rfl

theorem exec_phraseDefine {s : State} (listening : s.Listening) (tag index pred template : Byte) :
    exec (.phraseDefine tag index pred template) s =
      .next ((s.openRequest 0x28#8 tag).takePhraseDefine index pred template) :=
  exec_of_listening listening (i := .phraseDefine tag index pred template) (kind := .phraseDefine) rfl rfl

theorem carriedEntry_eq {s : State} {pred : Byte} {before : Option PhraseEntry} (absent : pred = 255#8 → before = none)
    (present : pred ≠ 255#8 → s.phrases[pred.toNat]? = some before) : (carriedPred pred).bind s.phrase? = before := by
  rw [carriedPred]
  by_cases none_carried : pred = 255#8
  · rw [if_pos none_carried, absent none_carried]
    rfl
  · rw [if_neg none_carried]
    exact phrase?_eq (present none_carried)

theorem counted_refcount_zero {old : Option PhraseEntry} :
    ¬ 0 < (old.map PhraseEntry.refcount).getD 0 ↔ ∀ e, old = some e → e.refcount = 0 := by
  cases old <;> simp

theorem depth_full_iff {before : Option PhraseEntry} :
    (before.map PhraseEntry.depth).getD 0 = 32 ↔ ∃ q, before = some q ∧ q.depth = 32 := by
  cases before <;> simp

/-- Settles O44: the checks are those of `takePhraseDefine_eq`, and the references move by `movedRef`. -/
theorem phraseDefineStores : Obligations.PhraseDefineStores := by
  unfold Obligations.PhraseDefineStores
  intro s tag index pred template listening
  rw [exec_phraseDefine listening, takePhraseDefine_eq]
  dsimp only
  refine ⟨fun bad => ?_, fun good carried late => ?_, fun good ordered old content before at_index at_template absent
    present => ?_⟩
  · exact congrArg Host.Outcome.next ((if_pos bad).trans (State.openRequest_refuse ..))
  · exact congrArg Host.Outcome.next
      ((if_neg good).trans ((if_pos ⟨carried, late⟩).trans (State.openRequest_refuse ..)))
  have in_order : ¬ (pred ≠ 255#8 ∧ index.toNat ≤ pred.toNat) := fun ⟨carried, late⟩ =>
    ordered.elim carried fun early => absurd late (Nat.not_le.mpr early)
  rw [if_neg good, if_neg in_order, carriedEntry_eq (s := s.openRequest 0x28#8 tag) absent present,
    phrase?_eq (s := s.openRequest 0x28#8 tag) at_index, template?_eq (s := s.openRequest 0x28#8 tag) at_template]
  refine ⟨fun ⟨e, defined, used⟩ => ?_, fun unused => ?_⟩
  · have positive : 0 < (old.map PhraseEntry.refcount).getD 0 := by rw [defined]; exact used
    exact congrArg Host.Outcome.next ((if_pos positive).trans (State.openRequest_refuse ..))
  rw [if_neg (counted_refcount_zero.mpr unused)]
  refine ⟨fun missing => ?_, fun has_pred has_template => ⟨fun full => ?_, fun not_full => ?_⟩⟩
  · exact congrArg Host.Outcome.next ((if_pos missing).trans (State.openRequest_refuse ..))
  all_goals
    have not_missing : ¬ (pred ≠ 255#8 ∧ before = none ∨ content = none) := by
      rintro (⟨carried, missing⟩ | missing)
      · exact has_pred.elim carried fun found => found missing
      · exact has_template missing
    rw [if_neg not_missing]
  · exact congrArg Host.Outcome.next ((if_pos (depth_full_iff.mpr full)).trans (State.openRequest_refuse ..))
  · have shallow : ¬ (before.map PhraseEntry.depth).getD 0 = 32 := fun full => by
      obtain ⟨q, found, depth⟩ := depth_full_iff.mp full
      exact not_full q found depth
    have defined : (if old = none then 0#8 else 1#8) = if old.isSome then 1#8 else 0#8 := by cases old <;> rfl
    have link (entry : PhraseEntry) : (phraseStored index.toNat old entry s).link = s.link := by rw [phraseStored_eq]
    refine ⟨_, congrArg Host.Outcome.next ((if_neg shallow).trans ?_),
      congrArg (State.replied 0x28#8 tag .done .none _) (phraseStored_eq index.toNat old
        ⟨carriedPred pred, template.toNat, depthOver before, 0⟩ s), ?_, fun i other => ?_, fun i => ?_⟩
    · rw [defined, ← State.onLink_answer (link _), ← onLink_phraseStored]
      rfl
    · refine (phraseStored_phrases ..).trans ?_
      rw [if_pos rfl, at_index]
      rfl
    · refine ((phraseStored_phrases ..).trans (if_neg other.symm)).trans ?_
      rfl
    · refine (phraseStored_library index.toNat ..).trans ?_
      rw [movedRef_to]

/-! ## The expansion of a phrase (R66, R78) -/

/-- The templates found before a walk begins stand behind those it finds. -/
theorem walkChain_append (phrases : Vector (Option PhraseEntry) 128) (fuel i : Nat) (found : List Nat) :
    walkChain phrases fuel i found = walkChain phrases fuel i [] ++ found := by
  induction fuel generalizing i found with
  | zero => rfl
  | succ fuel ih =>
    unfold walkChain
    cases phrases[i]?.join with
    | none => rfl
    | some p =>
      cases chained : p.pred with
      | none => simp only [chained, List.cons_append, List.nil_append]
      | some q =>
        simp only [chained]
        rw [ih q (p.template :: found), ih q [p.template], List.append_assoc]
        rfl

/-- Every predecessor lies below its phrase (R66). -/
def ChainsDescend (s : State) : Prop :=
  ∀ (i : Nat) (e : PhraseEntry) (q : Nat), s.phrases[i]? = some (some e) → e.pred = some q → q < i

/-- Predecessors lie below their phrase, so that a walk from `i` takes no more than `i + 1` steps. -/
theorem walkChain_fuel {s : State} (descend : ChainsDescend s) {fuel i : Nat} (enough : i < fuel) (found : List Nat) :
    walkChain s.phrases (fuel + 1) i found = walkChain s.phrases fuel i found := by
  induction fuel generalizing i found with
  | zero => omega
  | succ fuel ih =>
    unfold walkChain
    cases at_i : s.phrases[i]? with
    | none => rfl
    | some o =>
      cases o with
      | none => rfl
      | some p =>
        cases chained : p.pred with
        | none => simp only [Option.join_some, chained]
        | some q =>
          have below := descend i p q at_i chained
          simp only [Option.join_some, chained]
          exact ih (by omega) _

theorem walkChain_root {s : State} {i : Nat} {e : PhraseEntry} (defined : s.phrases[i]? = some (some e))
    (root : e.pred = none) (fuel : Nat) : walkChain s.phrases (fuel + 1) i [] = [e.template] := by
  simp only [walkChain, defined, Option.join_some, root]

theorem walkChain_chained {s : State} {i q : Nat} {e : PhraseEntry} (defined : s.phrases[i]? = some (some e))
    (chained : e.pred = some q) (fuel : Nat) :
    walkChain s.phrases (fuel + 1) i [] = walkChain s.phrases fuel q [] ++ [e.template] := by
  rw [← walkChain_append]
  simp only [walkChain, defined, Option.join_some, chained]

theorem expansion_of_chained {s : State} (descend : ChainsDescend s) {i q : Nat} {e : PhraseEntry}
    (defined : s.phrases[i]? = some (some e)) (chained : e.pred = some q) :
    s.expansion i = s.expansion q ++ [e.template] := by
  have below : q < i := descend i e q defined chained
  have bound : i < 128 := (Vector.getElem?_eq_some_iff.mp defined).1
  rw [State.expansion, State.expansion, walkChain_chained defined chained 127,
    walkChain_fuel descend (fuel := 127) (by omega)]

/-- Settles O45: a walk takes one phrase at a time, and the depths count them. -/
theorem expansionFollowsChain : Obligations.ExpansionFollowsChain := by
  unfold Obligations.ExpansionFollowsChain
  intro s descend
  refine ⟨fun i e defined root => walkChain_root defined root 127, fun i e q => expansion_of_chained descend,
    fun root_depth chained_depth => ?_⟩
  intro i
  induction i using Nat.strong_induction_on with
  | _ i ih =>
    intro e defined
    cases chained : e.pred with
    | none =>
      rw [root_depth i e defined chained, State.expansion, walkChain_root defined chained 127]
      rfl
    | some q =>
      obtain ⟨before, at_q, depth⟩ := chained_depth i e q defined chained
      rw [expansion_of_chained descend defined chained, List.length_append,
        ih q (descend i e q defined chained) before at_q, depth]
      rfl

end Sys2Proof.Proofs
end

section
/-! The cue queue and the expander: CUE_ADD, a staging and what the run does with it, CUE_REWIND and RUN_CLEAR. -/

namespace Sys2Proof.Proofs

open Sys2Proof Sys2Proof.Machine

/-! ## CUE_ADD (R84, R85, R87, R90, R91, R92, R97, R102) -/

/-- The state with the accepted cues in the queue, before the staging that may follow (R91, R98). -/
def cuesJoined (bodies : List CueBody) (s : State) : State :=
  let counted := (s.setCues (s.queue.cues ++ numberCues s.queue.nextSerial bodies)).countCues up bodies
  { counted with queue :=
    { counted.queue with nextSerial := counted.queue.nextSerial + BitVec.ofNat 16 bodies.length } }

theorem joinCues_eq (bodies : List CueBody) (s : State) : s.joinCues bodies = (cuesJoined bodies s).stage := rfl

section
variable (s : State) (bodies : List CueBody)

/-- HIGH_WATER is judged on the rise of the count (R97). -/
def risen : State :=
  s.latchIf (decide (s.queue.cues.length < s.setup.highWater ∧
    s.setup.highWater ≤ s.queue.cues.length + bodies.length)) .highWater

theorem setCues_joined : s.setCues (s.queue.cues ++ numberCues s.queue.nextSerial bodies) =
    { risen s bodies with
      queue := { s.queue with cues := s.queue.cues ++ numberCues s.queue.nextSerial bodies } } := by
  have count := (numberCues_get bodies s.queue.nextSerial).1
  rw [State.setCues_grow s _ (by rw [numberCues_pending, count]), count]
  rfl

theorem risen_eq : risen s bodies = { s with notices := (risen s bodies).notices } := latchIf_eq ..

theorem cuesJoined_eq : cuesJoined bodies s =
    { s with
      queue := { s.queue with cues := s.queue.cues ++ numberCues s.queue.nextSerial bodies,
                              nextSerial := s.queue.nextSerial + BitVec.ofNat 16 bodies.length },
      library := (cuesJoined bodies s).library, phrases := (cuesJoined bodies s).phrases,
      notices := (risen s bodies).notices } := by
  rw [cuesJoined, setCues_joined, State.countCues_eq, risen_eq]

theorem cuesJoined_library (i : Nat) : (cuesJoined bodies s).library[i]? =
    (s.library[i]?).map (Option.map (TemplateEntry.counted fun n => n + bodies.countP (CueBody.onTemplate i))) := by
  have same : (cuesJoined bodies s).library =
      ((s.setCues (s.queue.cues ++ numberCues s.queue.nextSerial bodies)).countCues up bodies).library := rfl
  rw [same, State.countCues_up_library, (State.setCues_frame ..).2.2.2.1]

theorem cuesJoined_phrases (i : Nat) : (cuesJoined bodies s).phrases[i]? =
    (s.phrases[i]?).map (Option.map (PhraseEntry.counted fun n => n + bodies.countP (CueBody.onPhrase i))) := by
  have same : (cuesJoined bodies s).phrases =
      ((s.setCues (s.queue.cues ++ numberCues s.queue.nextSerial bodies)).countCues up bodies).phrases := rfl
  rw [same, State.countCues_up_phrases, (State.setCues_frame ..).2.2.2.2.1]

theorem cuesJoined_latched (f : Notice) : (cuesJoined bodies s).latched f = true ↔ s.latched f = true ∨
    f = .highWater ∧ s.queue.cues.length < s.setup.highWater ∧
      s.setup.highWater ≤ s.queue.cues.length + bodies.length := by
  have notices : (cuesJoined bodies s).notices = (risen s bodies).notices := by rw [cuesJoined_eq]
  rw [State.latched_of_eq notices, risen, State.latched_latchIf, Bool.or_eq_true, Bool.and_eq_true, decide_eq_true_iff,
    decide_eq_true_iff, and_comm]

end

theorem latchIf_masks (cause : Bool) (n : Notice) (s : State) :
    (s.latchIf cause n).notices.masks = s.notices.masks ∧ (s.latchIf cause n).notices.enable = s.notices.enable := by
  cases cause <;> exact ⟨rfl, rfl⟩

theorem exec_cueAdd {s : State} (listening : s.Listening) (tag : Byte) {cues : List CueWire} (some_cue : 1 ≤ cues.length)
    (at_most : cues.length ≤ 32) :
    exec (.cueAdd tag cues) s = .next ((s.openRequest 0x30#8 tag).takeCueAdd cues) :=
  exec_of_listening listening (i := .cueAdd tag cues) (kind := .cueAdd) rfl
    (by rw [Instr.lengthOk, Bool.and_eq_true, decide_eq_true_iff, decide_eq_true_iff]; exact ⟨some_cue, at_most⟩)

theorem any_clamped_iff {good : List CueWire} :
    (good.map overrideClamped).any id = true ↔ ∃ w ∈ good, ∃ v, w.duration = some (1#8, v) ∧ 3600000 < v.toNat := by
  simp only [List.any_map, List.any_eq_true, Function.comp, id, overrideClamped_iff]

section
variable {s : State} {cues : List CueWire} {bodies : List CueBody} {clamps : List Bool} {failure : Option Detail}
  (tag : Byte)

theorem openRequest_acceptCues (accepted : s.acceptCues s.queue.cues.length cues = (bodies.zip clamps, failure)) :
    (s.openRequest 0x30#8 tag).acceptCues (s.openRequest 0x30#8 tag).queue.cues.length cues =
      (bodies.zip clamps, failure) := by
  rw [State.openRequest_onLink, State.onLink_acceptCues]
  exact accepted

theorem takeCueAdd_of_none {detail : Detail}
    (accepted : s.acceptCues s.queue.cues.length cues = ([], some detail)) :
    (s.openRequest 0x30#8 tag).takeCueAdd cues =
      s.replied 0x30#8 tag .refused detail (s.cueAddPayload 0 s.queue.nextSerial) := by
  have opened := openRequest_acceptCues (bodies := []) (clamps := []) tag accepted
  rw [State.takeCueAdd, opened]
  exact State.openRequest_answer ..

theorem takeCueAdd_of_some (accepted : s.acceptCues s.queue.cues.length cues = (bodies.zip clamps, failure))
    (same_length : bodies.length = clamps.length) (some_accepted : bodies ≠ []) :
    (s.openRequest 0x30#8 tag).takeCueAdd cues =
      (s.joinCues bodies).replied 0x30#8 tag (if failure = none then .done else .partly)
        (failure.getD (if clamps.any id then .clamped else .none))
        ((s.joinCues bodies).cueAddPayload bodies.length s.queue.nextSerial) := by
  have firsts : (bodies.zip clamps).map Prod.fst = bodies := List.map_fst_zip same_length.le
  have seconds : (bodies.zip clamps).any Prod.snd = clamps.any id := by
    calc (bodies.zip clamps).any Prod.snd = ((bodies.zip clamps).map Prod.snd).any id :=
          (List.any_map (f := Prod.snd) (p := id)).symm
      _ = clamps.any id := by rw [List.map_snd_zip same_length.ge]
  have count : (bodies.zip clamps).length = bodies.length := by rw [List.length_zip, same_length, Nat.min_self]
  have not_empty : ¬ (bodies.zip clamps).isEmpty = true := by
    rw [List.isEmpty_iff, ← List.length_eq_zero_iff, count, List.length_eq_zero_iff]
    exact some_accepted
  have link : (s.joinCues bodies).link = s.link := by simp
  rw [State.takeCueAdd, openRequest_acceptCues tag accepted]
  dsimp only
  rw [if_neg not_empty, firsts, seconds, count, State.openRequest_onLink, State.onLink_joinCues]
  cases failure with
  | none => exact State.onLink_answer link ..
  | some detail => exact State.onLink_answer link ..

end

/-- Settles O46: the accepted cues are `State.acceptCues`', and they join in one step before the staging. -/
theorem cueAddJoins : Obligations.CueAddJoins := by
  unfold Obligations.CueAddJoins
  intro s tag good rest bodies failure listening some_cue at_most passes same_length stored_from no_failure fails
  have accepted := State.acceptCues_eq s good rest bodies failure s.queue.cues.length passes same_length stored_from
    no_failure fails
  rw [exec_cueAdd listening tag some_cue at_most]
  refine ⟨fun none_good detail failed => ?_, fun some_good => ?_⟩
  · subst none_good failed
    obtain rfl : bodies = [] := List.length_eq_zero_iff.mp same_length
    rw [takeCueAdd_of_none tag accepted]
    rfl
  · have some_accepted : bodies ≠ [] := fun none_accepted =>
      some_good (List.length_eq_zero_iff.mp (by rw [← same_length, none_accepted]; rfl))
    obtain ⟨count, numbered⟩ := numberCues_get bodies s.queue.nextSerial
    have joined_eq := cuesJoined_eq s bodies
    have notices : (cuesJoined bodies s).notices = (risen s bodies).notices := by rw [joined_eq]
    have taken := takeCueAdd_of_some tag accepted (by rw [List.length_map, same_length]) some_accepted
    refine ⟨cuesJoined bodies s, numberCues s.queue.nextSerial bodies,
      failure.getD (if (good.map overrideClamped).any id then .clamped else .none), ?_, count, numbered,
      cuesJoined_library s bodies, cuesJoined_phrases s bodies, ?_, ?_, ?_, fun d failed => ?_, fun none_failed clamped =>
      ?_, fun none_failed unclamped => ?_, congrArg Host.Outcome.next (taken.trans ?_)⟩
    · rw [← same_length, notices]
      exact joined_eq
    · rw [← same_length]
      exact cuesJoined_latched s bodies
    · rw [notices]
      exact (latchIf_masks ..).1
    · rw [notices]
      exact (latchIf_masks ..).2
    · rw [failed]
      rfl
    · rw [none_failed]
      exact if_pos (any_clamped_iff.mpr clamped)
    · rw [none_failed]
      refine if_neg fun any_clamped => ?_
      obtain ⟨w, mem, v, degrees, above⟩ := any_clamped_iff.mp any_clamped
      exact Nat.not_lt.mpr (unclamped w mem v degrees) above
    · rw [← same_length]
      rfl

/-! ## A staging (R62, R75 to R79, R107) -/

theorem stages_iff (r : RunState) : r.stages = true ↔ r ∈ [RunState.armed, RunState.active, RunState.waiting,
    RunState.starved, RunState.paused, RunState.parked] := by
  cases r <;> decide

theorem not_stages_of_mem {r : RunState}
    (idle : r ∈ [RunState.off, RunState.stopping, RunState.fault, RunState.disabled]) : ¬ r.stages = true := by
  revert idle
  cases r <;> decide

/-- A staging can take place: the run state stages, and the slot is empty (R75). -/
structure CanStage (s : State) : Prop where
  stages : s.seq.run.stages = true
  empty  : s.expander.slot = .empty

theorem fillSlot_of_not {s : State} (not_can : ¬ CanStage s) : s.fillSlot = s := by
  refine if_neg fun can => ?_
  rw [Bool.and_eq_true, beq_iff_eq] at can
  exact not_can ⟨can.1, can.2⟩

theorem stage_of_not {s : State} (not_can : ¬ CanStage s) : s.stage = s := by
  unfold State.stage
  split
  · rename_i empty
    rw [fillSlot_of_not not_can, State.actOnStaged, empty]
  · rfl

section
variable {s : State} (can : CanStage s)
include can

theorem CanStage.condition : (s.seq.run.stages && s.expander.slot == .empty) = true := by
  rw [Bool.and_eq_true, beq_iff_eq]
  exact ⟨can.stages, can.empty⟩

theorem fillSlot_of_all_spent (idle : s.expander.context = none) (spent : ∀ c ∈ s.queue.cues, c.status = .spent) :
    s.fillSlot = s := by
  rw [State.fillSlot, if_pos can.condition, idle, oldestLive_none spent]

variable {before : List Cue} {c : Cue} {after : List Cue} (split : s.queue.cues = before ++ c :: after)
  (spent : ∀ x ∈ before, x.status = .spent) (live : c.status ≠ .spent)
include split spent live

theorem fillSlot_of_marker {option : EndOption} (idle : s.expander.context = none) (body : c.body = .endRun option) :
    s.fillSlot = (s.stageMarker option).spendLive := by
  rw [State.fillSlot, if_pos can.condition, idle, split, oldestLive_split spent live]
  dsimp only
  rw [body]

/-- The element that is staged next: the context's, or the first of the oldest cue (R76, R77). -/
theorem fillSlot_of_element {context : Context} (next : s.expander.context = some context ∨
      s.expander.context = none ∧ context = { serial := c.serial, body := c.body, rep := 0, element := 0 })
    (not_marker : ∀ option, context.body ≠ .endRun option) : s.fillSlot = s.stageElement context := by
  rw [State.fillSlot, if_pos can.condition]
  rcases next with present | ⟨idle, rfl⟩
  · rw [present]
  · rw [idle, split, oldestLive_split spent live]
    dsimp only
    split
    · rename_i option body
      exact absurd body (not_marker option)
    · rfl
    · rfl

end

theorem stageElement_template {s : State} {context : Context} {index rep : Nat} {duration : Option Duration}
    {start : Option StartCond} {e : TemplateEntry} (body : context.body = .template index rep duration start)
    (defined : s.library[index]? = some (some e)) :
    s.stageElement context = (s.stageStep
      { content := e.template.withOverrides duration start,
        source := { serial := context.serial, rep := context.rep, element := 0, template := index } }).endRepetition
        context rep := by
  simp only [State.stageElement, body, template?_eq defined]

theorem stageElement_phrase {s : State} {context : Context} {index rep template : Nat} {left : List Nat}
    {e : TemplateEntry} (body : context.body = .phrase index rep)
    (walk : s.expander.stack = [] ∧ context.element = 0 ∧ s.expansion index = template :: left ∨
      s.expander.stack = template :: left) (defined : s.library[template]? = some (some e)) :
    s.stageElement context =
      let staged := s.stageStep
        { content := e.template,
          source := { serial := context.serial, rep := context.rep, element := context.element,
                      template := template } }
      if left.isEmpty then staged.endRepetition context rep
      else (staged.setContext (some { context with element := context.element + 1 }) left).expandLive := by
  have elements : (if s.expander.stack.isEmpty && context.element == 0 then s.expansion index
      else s.expander.stack) = template :: left := by
    rcases walk with ⟨empty, first, expansion⟩ | stack
    · rw [empty, first, expansion]
      rfl
    · rw [stack]
      rfl
  simp only [State.stageElement, body, elements, template?_eq defined]

/-- Settles O47: what fills the slot is a marker of the oldest cue or the next element, and the end of a repetition
decides what becomes of the cue. -/
theorem stagingFillsTheSlot : Obligations.StagingFillsTheSlot := by
  unfold Obligations.StagingFillsTheSlot
  intro s
  refine ⟨fun blocked => ?_, fun empty stages => ?_⟩
  · have not_can : ¬ CanStage s := fun can =>
      blocked.elim (fun filled => filled can.empty) fun idle => not_stages_of_mem idle can.stages
    exact ⟨fillSlot_of_not not_can, stage_of_not not_can⟩
  have can : CanStage s := ⟨(stages_iff _).mpr stages, empty⟩
  refine ⟨fillSlot_of_all_spent can, fun before c after split spent live => ?_⟩
  refine ⟨fun option idle body => ?_, fun index rep duration start context e next body defined => ?_,
    fun index rep context template left e next body walk defined => ?_⟩
  · rw [fillSlot_of_marker can split spent live idle body]
    obtain ⟨spends, unchanged⟩ := State.spendLive_spends (s := s.stageMarker option) split spent live
    refine ⟨Spends.of_eq spends rfl rfl rfl rfl rfl, ?_⟩
    rw [unchanged]
    exact ⟨rfl, rfl, rfl, rfl, rfl, rfl, rfl, rfl, rfl⟩
  · rw [fillSlot_of_element can split spent live next (by rw [body]; exact nofun), stageElement_template body defined]
    obtain ⟨again, last, slot, stack, unchanged⟩ := State.endRepetition_leaves s (s.stageStep
      { content := e.template.withOverrides duration start,
        source := { serial := context.serial, rep := context.rep, element := 0, template := index } }) context rep rfl
      split spent live
    refine ⟨_, rfl, ?_, slot, stack, again, last⟩
    rw [unchanged]
    exact ⟨rfl, rfl, rfl, rfl, rfl, rfl, rfl, rfl⟩
  · rw [fillSlot_of_element can split spent live next (by rw [body]; exact nofun),
      stageElement_phrase body walk defined]
    dsimp only
    cases left with
    | nil =>
      obtain ⟨again, last, slot, stack, unchanged⟩ := State.endRepetition_leaves s (s.stageStep
        { content := e.template,
          source := { serial := context.serial, rep := context.rep, element := context.element,
                      template := template } }) context rep rfl split spent live
      rw [if_pos List.isEmpty_nil]
      refine ⟨?_, slot, stack, fun more => absurd rfl more, fun _ => again, fun _ => last⟩
      rw [unchanged]
      exact ⟨rfl, rfl, rfl, rfl, rfl, rfl, rfl, rfl⟩
    | cons next_template rest =>
      have expanded := State.expandLive_eq (s := State.setContext
        (some { context with element := context.element + 1 }) (next_template :: rest) (s.stageStep
          { content := e.template,
            source := { serial := context.serial, rep := context.rep, element := context.element,
                        template := template } })) split spent live
      rw [if_neg (by exact nofun), expanded]
      exact ⟨⟨rfl, rfl, rfl, rfl, rfl, rfl, rfl, rfl⟩, rfl, rfl, fun _ => ⟨⟨rfl, rfl, rfl, rfl⟩, rfl⟩, nofun, nofun⟩

/-! ## What the run does with a staged item (R106, R107, R120, R121) -/

section
variable {u : State}

theorem actOnStaged_empty (empty : u.expander.slot = .empty) : u.actOnStaged = u := by
  rw [State.actOnStaged, empty]

/-- A step acted on takes its initial phase, in the run state or in WAITING, or is left HELD. -/
theorem actOnStaged_step {copy : StepCopy} (staged : u.expander.slot = .step copy) :
    u.actOnStaged =
      if u.seq.run = .armed ∨ (u.seq.run = .active ∨ u.seq.run = .paused) ∧ u.seq.openBegun = true then
        u.beginEvaluation copy
      else if u.seq.run = .starved then (u.enterRun .waiting).beginEvaluation copy
      else u := by
  rw [State.actOnStaged, staged]
  cases run : u.seq.run <;> cases u.seq.openBegun <;> simp

theorem actOnStaged_marker {option : EndOption} (staged : u.expander.slot = .marker option) :
    u.actOnStaged = if u.seq.run = .armed ∨ u.seq.run = .starved ∨ u.seq.run = .waiting then u.takeMarker option
      else u := by
  rw [State.actOnStaged, staged]
  cases run : u.seq.run <;> simp

/-- A step acted on changes the sequencer's evaluation alone. -/
theorem actOnStaged_step_frame {copy : StepCopy} (staged : u.expander.slot = .step copy) :
    u.actOnStaged.expander = u.expander ∧ u.actOnStaged.queue = u.queue ∧ u.actOnStaged.synth = u.synth ∧
    u.actOnStaged.results = u.results ∧ u.actOnStaged.notices = u.notices ∧
    u.actOnStaged.seq.active = u.seq.active := by
  rw [actOnStaged_step staged]
  split_ifs <;> exact ⟨rfl, rfl, rfl, rfl, rfl, rfl⟩

theorem takeMarker_armed (armed : u.seq.run = .armed) (option : EndOption) :
    u.takeMarker option = (u.clearSlot.enterIdle .off).latch .runEnded := if_pos armed

end

/-- Settles O48: a staging fills the slot, and `State.actOnStaged` acts on the item by the run state. -/
theorem stagedItemIsActedOn : Obligations.StagedItemIsActedOn := by
  unfold Obligations.StagedItemIsActedOn
  intro s empty
  have staged_eq : s.stage = s.fillSlot.actOnStaged := if_pos empty
  refine ⟨staged_eq, fun u filled => ?_⟩
  subst filled
  rw [staged_eq]
  refine ⟨actOnStaged_empty, fun copy staged => ?_, fun option staged => ?_⟩
  · obtain ⟨expander, queue, synth, results, notices, active⟩ := actOnStaged_step_frame staged
    refine ⟨expander, queue, synth, results, notices, active, ?_⟩
    rw [actOnStaged_step staged, ← Sequencer.openBegun_iff]
    refine ⟨fun armed => ?_, fun starved => ?_, fun behind opened => ?_, fun behind not_opened => ?_, fun waits => ?_⟩
    · rw [if_pos (.inl armed)]
      exact ⟨State.beginEvaluation_begins _ copy, armed⟩
    · rw [if_neg (by simp [starved]), if_pos starved]
      exact ⟨State.beginEvaluation_begins _ copy, rfl⟩
    · rw [if_pos (.inr ⟨behind, opened⟩)]
      exact ⟨State.beginEvaluation_begins _ copy, rfl⟩
    · rw [if_neg (by rcases behind with run | run <;> simp [run, not_opened]),
        if_neg (by rcases behind with run | run <;> simp [run])]
    · rw [if_neg (by rcases waits with run | run <;> simp [run]),
        if_neg (by rcases waits with run | run <;> simp [run])]
  · rw [actOnStaged_marker staged]
    refine ⟨fun armed => ?_, fun waits is_off => ?_, fun waits is_hold => ?_, fun not_armed not_waiting not_starved => ?_⟩
    · rw [if_pos (.inl armed), takeMarker_armed armed]
      exact ⟨rfl, latched_latch_self .., rfl, (State.enterIdle_rests .off _).of_eq rfl rfl rfl rfl rfl, rfl⟩
    all_goals try
      have not_armed : s.fillSlot.seq.run ≠ .armed := by rcases waits with run | run <;> simp [run]
      have taken := State.takeMarker_cases option s.fillSlot not_armed
      rw [if_pos (.inr waits.symm)]
    · exact taken.1 is_off
    · subst is_hold
      obtain ⟨parked, ended, synth⟩ := taken.2.1 rfl
      exact ⟨parked, ended, synth, State.takeMarker_parks _ not_armed⟩
    · rw [if_neg (by simp [not_armed, not_waiting, not_starved])]

/-! ## CUE_REWIND and RUN_CLEAR (R82, R96, R99, R101, R164) -/

theorem exec_cueRewind {s : State} (listening : s.Listening) (tag : Byte) :
    exec (.cueRewind tag) s = .next (s.openRequest 0x31#8 tag).takeCueRewind :=
  exec_of_listening listening (i := .cueRewind tag) (kind := .cueRewind) rfl rfl

theorem exec_runClear {s : State} (listening : s.Listening) (tag : Byte) :
    exec (.runClear tag) s = .next (s.openRequest 0x32#8 tag).takeRunClear :=
  exec_of_listening listening (i := .runClear tag) (kind := .runClear) rfl rfl

/-- The queue with every cue PENDING again (R99). -/
def pendingAgain (cues : List Cue) : List Cue := cues.map fun c => { c with status := .pending }

theorem pendingCount_again (cues : List Cue) : pendingCount (pendingAgain cues) = cues.length := by
  have all_pending : ∀ c ∈ pendingAgain cues, (c.status != CueStatus.spent) = true := by
    simp [pendingAgain]
  rw [pendingCount, List.countP_eq_length.mpr all_pending, pendingAgain, List.length_map]

/-- Cues that are PENDING again are as many and no fewer pending, so neither water mark is passed (R96, R97). -/
theorem setCues_again (s : State) :
    s.setCues (pendingAgain s.queue.cues) = { s with queue := { s.queue with cues := pendingAgain s.queue.cues } } := by
  have no_fall : fallsTo s.setup.lowWater (pendingCount s.queue.cues) (pendingCount (pendingAgain s.queue.cues)) =
      false := by
    have most : pendingCount s.queue.cues ≤ s.queue.cues.length := List.countP_le_length
    rw [pendingCount_again, fallsTo, Bool.and_eq_false_iff, decide_eq_false_iff_not, decide_eq_false_iff_not]
    omega
  have no_rise : risesTo s.setup.highWater s.queue.cues.length (pendingAgain s.queue.cues).length = false := by
    rw [pendingAgain, List.length_map, risesTo, Bool.and_eq_false_iff, decide_eq_false_iff_not,
      decide_eq_false_iff_not]
    omega
  rw [State.setCues, no_fall, no_rise]
  rfl

/-- The state of a rewind before the staging (R82, R99). -/
def rewound (s : State) : State :=
  { s.resetExpander with queue := { s.queue with cues := pendingAgain s.queue.cues, trial := s.queue.trial + 1#8 } }

/-- The reply of a rewind, after its staging (R99). -/
def rewindReply (t : State) : State := t.done .none ([t.queue.trial] ++ bytes2 (pendingCount t.queue.cues))

/-- A rewind's work does not depend on the link. -/
theorem rewound_onLink (l : Link) (s : State) :
    let fresh := (s.onLink l).resetExpander.setCues (pendingAgain s.queue.cues)
    State.stage { fresh with queue := { fresh.queue with trial := fresh.queue.trial + 1#8 } } =
      (rewound s).stage.onLink l := by
  have again := setCues_again (s.onLink l).resetExpander
  have same : (s.onLink l).resetExpander.queue = s.queue := rfl
  rw [same] at again
  dsimp only
  rw [again, ← State.onLink_stage]
  rfl

theorem takeCueRewind_retain {s : State} (run : s.seq.run = .off ∨ s.seq.run = .parked)
    (retain : s.setup.queueMode = .retain) (tag : Byte) : (s.openRequest 0x31#8 tag).takeCueRewind =
      (rewound s).stage.replied 0x31#8 tag .done .none
        ([s.queue.trial + 1#8] ++ bytes2 (pendingCount (rewound s).stage.queue.cues)) := by
  have allowed : ¬ (s.seq.run ≠ .off ∧ s.seq.run ≠ .parked) := fun ⟨not_off, not_parked⟩ =>
    run.elim not_off not_parked
  have not_stream : ¬ s.setup.queueMode = .stream := by rw [retain]; exact nofun
  have trial : (rewound s).stage.queue.trial = s.queue.trial + 1#8 := State.stage_trial (rewound s)
  have link : (rewound s).stage.link = (rewound s).link := by simp
  calc (s.openRequest 0x31#8 tag).takeCueRewind
    _ = rewindReply ((rewound s).stage.onLink (s.openRequest 0x31#8 tag).link) :=
        ((if_neg allowed).trans (if_neg not_stream)).trans (congrArg rewindReply (rewound_onLink (s.openRequest 0x31#8 tag).link s))
    _ = (rewound s).stage.replied 0x31#8 tag .done .none
          ([(rewound s).stage.queue.trial] ++ bytes2 (pendingCount (rewound s).stage.queue.cues)) :=
        State.onLink_answer (s := s) link ..
    _ = _ := by rw [trial]

/-- The state of a clear before its reply (R82, R101, R164). -/
def runCleared (s : State) : State :=
  { (s.resetExpander.setCues []).countCues down (s.queue.cues.map Cue.body) with
    queue := CueQueue.reset, results := ResultQueue.reset }

/-- LOW_WATER is judged on the fall to no cue at all (R96). -/
def emptiedQueue (s : State) : State :=
  State.latchIf (fallsTo s.setup.lowWater (pendingCount s.queue.cues) 0) .lowWater s.resetExpander

theorem setCues_nil (s : State) :
    s.resetExpander.setCues [] = { emptiedQueue s with queue := { s.queue with cues := [] } } := by
  have no_rise : risesTo s.setup.highWater s.queue.cues.length 0 = false := by
    rw [risesTo, Bool.and_eq_false_iff, decide_eq_false_iff_not, decide_eq_false_iff_not]
    omega
  unfold State.setCues
  rw [show risesTo s.resetExpander.setup.highWater s.resetExpander.queue.cues.length ([] : List Cue).length = false
    from no_rise]
  unfold emptiedQueue
  show State.latchIf (fallsTo s.setup.lowWater (pendingCount s.queue.cues) 0) _ _ = _
  cases fallsTo s.setup.lowWater (pendingCount s.queue.cues) 0 <;> rfl

theorem emptiedQueue_eq (s : State) :
    emptiedQueue s = { s.resetExpander with notices := (emptiedQueue s).notices } := latchIf_eq ..

theorem runCleared_eq (s : State) : runCleared s =
    { s.resetExpander with queue := CueQueue.reset, results := ResultQueue.reset, library := (runCleared s).library,
                           phrases := (runCleared s).phrases, notices := (emptiedQueue s).notices } := by
  rw [runCleared, setCues_nil, State.countCues_eq, emptiedQueue_eq]

theorem runCleared_library (s : State) (i : Nat) : (runCleared s).library[i]? = (s.library[i]?).map (Option.map
    (TemplateEntry.counted fun n => n - s.queue.cues.countP fun c => c.body.onTemplate i)) := by
  have same : (runCleared s).library =
      ((s.resetExpander.setCues []).countCues down (s.queue.cues.map Cue.body)).library := rfl
  rw [same, State.countCues_down_library, List.countP_map, (State.setCues_frame ..).2.2.2.1]
  rfl

theorem runCleared_phrases (s : State) (i : Nat) : (runCleared s).phrases[i]? = (s.phrases[i]?).map (Option.map
    (PhraseEntry.counted fun n => n - s.queue.cues.countP fun c => c.body.onPhrase i)) := by
  have same : (runCleared s).phrases =
      ((s.resetExpander.setCues []).countCues down (s.queue.cues.map Cue.body)).phrases := rfl
  rw [same, State.countCues_down_phrases, List.countP_map, (State.setCues_frame ..).2.2.2.2.1]
  rfl

theorem emptiedQueue_latched (s : State) (f : Notice) : (emptiedQueue s).latched f = true ↔
    s.latched f = true ∨ f = .lowWater ∧ s.setup.lowWater < pendingCount s.queue.cues := by
  have falls : fallsTo s.setup.lowWater (pendingCount s.queue.cues) 0 = true ↔
      s.setup.lowWater < pendingCount s.queue.cues := by
    rw [fallsTo, Bool.and_eq_true, decide_eq_true_iff, decide_eq_true_iff]
    omega
  rw [emptiedQueue, State.latched_latchIf, Bool.or_eq_true, Bool.and_eq_true, decide_eq_true_iff, falls, and_comm]
  rfl

theorem clears_iff (r : RunState) : r ∈ [RunState.off, RunState.fault, RunState.disabled] ↔
    r = .off ∨ r = .fault ∨ r = .disabled := by
  cases r <;> decide

theorem takeRunClear_taken {s : State} (run : s.seq.run = .off ∨ s.seq.run = .fault ∨ s.seq.run = .disabled)
    (tag : Byte) :
    (s.openRequest 0x32#8 tag).takeRunClear = State.replied 0x32#8 tag .done .none [] (runCleared s) := by
  have link : (runCleared s).link = s.link := by rw [runCleared_eq]; rfl
  refine (if_pos run).trans ?_
  show State.done .none [] { State.countCues down (s.queue.cues.map Cue.body)
    ((s.resetExpander.onLink (s.openRequest 0x32#8 tag).link).setCues []) with
      queue := CueQueue.reset, results := ResultQueue.reset } = _
  rw [State.onLink_setCues, State.onLink_countCues]
  exact State.onLink_answer link ..

/-- Settles O49: a rewind is `rewound` and a staging, a clear is `runCleared`. -/
theorem rewindAndClear : Obligations.RewindAndClear := by
  unfold Obligations.RewindAndClear
  intro s tag listening
  rw [exec_cueRewind listening, exec_runClear listening]
  refine ⟨fun not_off not_parked => ?_, fun run stream => ?_, fun run retain => ⟨?_, fun off => ?_⟩, fun busy => ?_,
    fun idle => ?_⟩
  · exact congrArg Host.Outcome.next ((if_pos ⟨not_off, not_parked⟩).trans (State.openRequest_refuse ..))
  · have allowed : ¬ (s.seq.run ≠ .off ∧ s.seq.run ≠ .parked) := fun ⟨not_off, not_parked⟩ =>
      run.elim not_off not_parked
    exact congrArg Host.Outcome.next
      ((if_neg allowed).trans ((if_pos stream).trans (State.openRequest_refuse ..)))
  · exact congrArg Host.Outcome.next (takeCueRewind_retain run retain tag)
  · have still_off : (rewound s).seq.run = .off := off
    exact stage_of_not (s := rewound s) fun can => not_stages_of_mem (by rw [still_off]; simp) can.stages
  · exact congrArg Host.Outcome.next ((if_neg (mt (clears_iff _).mpr busy)).trans (State.openRequest_refuse ..))
  · have taken := takeRunClear_taken ((clears_iff _).mp idle) tag
    have notices : (runCleared s).notices = (emptiedQueue s).notices := by rw [runCleared_eq]
    refine ⟨_, congrArg Host.Outcome.next taken, ?_, runCleared_library s, runCleared_phrases s, fun f => ?_, ?_, ?_⟩
    · refine congrArg (State.replied 0x32#8 tag .done .none []) ((runCleared_eq s).trans ?_)
      rw [← notices]
      rfl
    · rw [← emptiedQueue_latched, ← State.latched_of_eq notices]
      rfl
    · exact (congrArg Notices.masks notices).trans (latchIf_masks ..).1
    · exact (congrArg Notices.enable notices).trans (latchIf_masks ..).2

end Sys2Proof.Proofs
end

section
/-! The requests of the run sequencer: RUN_START, RUN_PAUSE, RUN_RESUME and the three actions of RUN_FORCE. -/

namespace Sys2Proof.Proofs

open Sys2Proof Sys2Proof.Machine

/-! ## RUN_START (R105, R106, R122) -/

theorem exec_runStart {s : State} (listening : s.Listening) (tag : Byte) :
    exec (.runStart tag) s = .next (s.openRequest 0x38#8 tag).takeRunStart :=
  exec_of_listening listening (i := .runStart tag) (kind := .runStart) rfl rfl

section
variable {s : State} (tag : Byte)

theorem runStart_elsewhere (elsewhere : s.seq.run ∉ [RunState.off, RunState.parked]) :
    (s.openRequest 0x38#8 tag).takeRunStart = s.replied 0x38#8 tag .refused .state [] := by
  have same : (s.openRequest 0x38#8 tag).seq.run = s.seq.run := rfl
  rw [State.takeRunStart, same]
  cases run : s.seq.run
  case off => exact absurd (by rw [run]; decide) elsewhere
  case parked => exact absurd (by rw [run]; decide) elsewhere
  all_goals exact State.openRequest_refuse ..

theorem runStart_off (off : s.seq.run = .off) : (s.openRequest 0x38#8 tag).takeRunStart =
    if pendingCount s.queue.cues = 0 then s.replied 0x38#8 tag .refused .empty []
    else s.armRun.replied 0x38#8 tag .done .none [s.armRun.seq.run.code] := by
  have run : (s.openRequest 0x38#8 tag).seq.run = .off := off
  have link : s.armRun.link = s.link := by simp [State.armRun]
  rw [State.takeRunStart, run, ← State.onLink_doneWithState link, ← State.onLink_armRun, ← State.openRequest_refuse]
  rfl

theorem runStart_parked (parked : s.seq.run = .parked) : (s.openRequest 0x38#8 tag).takeRunStart =
    if s.expander.slot = .empty then s.replied 0x38#8 tag .refused .empty []
    else s.leaveParked.replied 0x38#8 tag .done .none [s.leaveParked.seq.run.code] := by
  have run : (s.openRequest 0x38#8 tag).seq.run = .parked := parked
  have link : s.leaveParked.link = s.link := by simp
  rw [State.takeRunStart, run, ← State.onLink_doneWithState link, ← State.onLink_leaveParked,
    ← State.openRequest_refuse]
  rfl

end

theorem leaveParked_step {s : State} {copy : StepCopy} (staged : s.expander.slot = .step copy) :
    s.leaveParked = (s.enterRun .waiting).beginEvaluation copy := by
  rw [State.leaveParked, staged]

theorem leaveParked_marker {s : State} {option : EndOption} (staged : s.expander.slot = .marker option) :
    s.leaveParked = (s.enterRun .waiting).takeMarker option := by
  rw [State.leaveParked, staged]

theorem takeMarker_off {s : State} (not_armed : s.seq.run ≠ .armed) :
    s.takeMarker .off = s.clearSlot.enterStopping := if_neg not_armed

/-- Settles O50: in OFF the run is armed and staged, in PARKED the staged item is released. -/
theorem runStartArmsOrReleases : Obligations.RunStartArmsOrReleases := by
  unfold Obligations.RunStartArmsOrReleases
  intro s tag listening
  dsimp only
  rw [exec_runStart listening]
  refine ⟨fun elsewhere => ?_, fun off none_pending => ?_, fun off some_pending => ?_, fun parked empty => ?_,
    fun parked copy staged => ?_, fun parked option staged => ?_⟩
  · rw [runStart_elsewhere tag elsewhere]
  · rw [runStart_off tag off, if_pos none_pending]
  · rw [runStart_off tag off, if_neg (Nat.pos_iff_ne_zero.mp some_pending)]
    rfl
  · rw [runStart_parked tag parked, if_pos empty]
  · refine ⟨s.leaveParked, ?_, ?_⟩
    · rw [runStart_parked tag parked, if_neg (by rw [staged]; exact nofun)]
    · rw [leaveParked_step staged]
      exact ⟨rfl, State.beginEvaluation_begins .., rfl, rfl, rfl, rfl⟩
  · have not_armed : (s.enterRun .waiting).seq.run ≠ .armed := by simp
    obtain ⟨off, hold, monitor, _⟩ := State.takeMarker_cases option (s.enterRun .waiting) not_armed
    refine ⟨s.leaveParked, ?_, ?_⟩
    · rw [runStart_parked tag parked, if_neg (by rw [staged]; exact nofun)]
    · rw [leaveParked_marker staged]
      refine ⟨fun is_off => ?_, fun is_hold => ?_, by simp, by simp, monitor, by simp⟩
      · obtain ⟨stopping, slot, stops⟩ := off is_off
        refine ⟨stopping, slot, stops.of_eq rfl rfl rfl, ?_⟩
        rw [is_off, takeMarker_off not_armed]
        exact ⟨rfl, rfl⟩
      · obtain ⟨parked, ended, synth⟩ := hold is_hold
        subst is_hold
        exact ⟨parked, ended, synth, (State.takeMarker_parks _ not_armed).of_eq rfl rfl rfl rfl rfl rfl rfl rfl rfl rfl
          rfl⟩

/-! ## RUN_PAUSE and RUN_RESUME (R124, R126) -/

theorem exec_runPause {s : State} (listening : s.Listening) (tag : Byte) :
    exec (.runPause tag) s = .next (s.openRequest 0x39#8 tag).takeRunPause :=
  exec_of_listening listening (i := .runPause tag) (kind := .runPause) rfl rfl

theorem exec_runResume {s : State} (listening : s.Listening) (tag : Byte) :
    exec (.runResume tag) s = .next (s.openRequest 0x3A#8 tag).takeRunResume :=
  exec_of_listening listening (i := .runResume tag) (kind := .runResume) rfl rfl

theorem pausable_run (m : Remembered) : m.run.pausable = some m := by
  cases m <;> rfl

theorem pausable_eq_none {r : RunState} (other : r ∉ [RunState.active, RunState.waiting, RunState.starved]) :
    r.pausable = none := by
  revert other
  cases r <;> decide

/-- The run back in the state that its pause remembers (R126). -/
def runBack (m : Remembered) (s : State) : State := { s with seq := { s.seq with run := m.run, remembered := none } }

theorem takeRunResume_paused {s : State} {m : Remembered} (paused : s.seq.run = .paused)
    (remembered : s.seq.remembered = some m) (tag : Byte) : (s.openRequest 0x3A#8 tag).takeRunResume =
      (runBack m s).afterResume.replied 0x3A#8 tag .done .none [(runBack m s).afterResume.seq.run.code] := by
  have resumed : s.seq.resumed = m.run := by rw [Sequencer.resumed, remembered]
  have back : s.enterRun s.seq.resumed = runBack m s := by rw [resumed]; rfl
  have link : (runBack m s).afterResume.link = s.link := by simp [runBack]
  rw [← State.onLink_doneWithState link, ← State.onLink_afterResume, ← back]
  exact if_pos paused

theorem run_active_iff (m : Remembered) : m.run = .active ↔ m = .active := by
  cases m <;> decide

theorem run_starved_iff (m : Remembered) : m.run = .starved ↔ m = .starved := by
  cases m <;> decide

section
variable {s : State}

theorem afterResume_of_met (met : s.due .stepEnd = true) : s.afterResume = s.completeStep := by
  refine if_pos ?_
  rw [Bool.and_eq_true, decide_eq_true_iff, ← beq_iff_eq, ← Bool.and_eq_true]
  exact met

theorem afterResume_of_expiry (not_met : ¬ s.due .stepEnd = true) (expiry : s.moments.timeout = true) :
    s.afterResume = s.expire := by
  refine (if_neg ?_).trans (if_pos expiry)
  rw [Bool.and_eq_true, decide_eq_true_iff, ← beq_iff_eq, ← Bool.and_eq_true]
  exact not_met

theorem afterResume_of_neither (not_met : ¬ s.due .stepEnd = true) (no_expiry : s.moments.timeout = false) :
    s.afterResume = if s.seq.run = .starved then s.actOnStaged else s.releaseHeld := by
  refine (if_neg ?_).trans (if_neg (by rw [no_expiry]; exact Bool.false_ne_true))
  rw [Bool.and_eq_true, decide_eq_true_iff, ← beq_iff_eq, ← Bool.and_eq_true]
  exact not_met

theorem release_iff : (decide (s.seq.run = .active) && s.seq.openBegun && s.seq.startPhase == .held) = true ↔
    s.seq.run = .active ∧ s.seq.startPhase = .held ∧ ∃ a, s.seq.active = some a ∧ a.begun = true ∧
      (a.copy.content.duration = .samples 0 ∨ a.copy.content.duration = .degrees 0) := by
  rw [Bool.and_eq_true, Bool.and_eq_true, decide_eq_true_iff, beq_iff_eq, Sequencer.openBegun_iff, and_assoc,
    and_comm (b := s.seq.startPhase = .held)]

end

/-- Settles O51: a resume is `State.afterResume` in the remembered state. -/
theorem pauseAndResume : Obligations.PauseAndResume := by
  unfold Obligations.PauseAndResume
  intro s tag listening
  rw [exec_runPause listening, exec_runResume listening]
  refine ⟨fun elsewhere => ?_, fun m run => ?_, fun not_paused => ?_, fun m paused remembered => ?_⟩
  · have none_remembered : (s.openRequest 0x39#8 tag).seq.run.pausable = none := pausable_eq_none elsewhere
    rw [State.takeRunPause, none_remembered]
    exact congrArg Host.Outcome.next (State.openRequest_refuse ..)
  · have remembers : (s.openRequest 0x39#8 tag).seq.run.pausable = some m :=
      (congrArg RunState.pausable run).trans (pausable_run m)
    rw [State.takeRunPause, remembers]
    exact congrArg Host.Outcome.next (State.onLink_answer (s := s)
      (t := { s with seq := { s.seq with run := .paused, remembered := some m } }) rfl ..)
  · exact congrArg Host.Outcome.next ((if_neg not_paused).trans (State.openRequest_refuse ..))
  · rw [takeRunResume_paused paused remembered]
    intro back met behindOpen taken
    have due_iff : (runBack m s).due .stepEnd = true ↔ met :=
      (stepEnd_due_iff (runBack m s)).trans (and_congr_left' (run_active_iff m))
    have released_iff := (release_iff (s := runBack m s)).trans (and_congr_left' (run_active_iff m))
    have takes {t : State} (same : (runBack m s).afterResume = t) : taken t := by rw [← same]
    refine ⟨fun is_met => ?_, fun not_met expiry => ?_, fun not_met no_expiry starved => ?_,
      fun not_met no_expiry not_starved not_behind => ?_, fun no_expiry behind copy staged => ?_⟩
    · have due := due_iff.mpr is_met
      exact ⟨_, Moment.exec_command .stepEnd back due, takes (afterResume_of_met due)⟩
    · have due : back.due .timeout = true := (timeout_due_iff back).mpr ⟨expiry, by cases m <;> exact nofun⟩
      exact ⟨_, Moment.exec_command .timeout back due,
        takes (afterResume_of_expiry (mt due_iff.mp not_met) expiry)⟩
    · refine takes ((afterResume_of_neither (mt due_iff.mp not_met) no_expiry).trans (if_pos ?_))
      exact (run_starved_iff m).mpr starved
    · refine takes ((afterResume_of_neither (mt due_iff.mp not_met) no_expiry).trans ((if_neg ?_).trans (if_neg ?_)))
      · exact mt (run_starved_iff m).mp not_starved
      · exact mt released_iff.mp not_behind
    · have is_open := behind.2.2
      have not_met : ¬ (runBack m s).due .stepEnd = true := fun due => by
        obtain ⟨_, a, present, reached⟩ := due_iff.mp due
        obtain ⟨b, same, _, opened⟩ := is_open
        obtain rfl := Option.some.inj (same.symm.trans present)
        rcases reached with ⟨n, positive, closed, _⟩ | ⟨v, positive, closed, _⟩
        all_goals rcases opened with zero | zero
        all_goals
          rw [closed] at zero
          cases zero <;> exact absurd positive (by decide)
      have not_starved : ¬ (runBack m s).seq.run = .starved := fun starved => by
        rw [show m = .active from behind.1] at starved
        exact nomatch starved
      have released : (runBack m s).releaseHeld = (runBack m s).beginEvaluation copy := by
        refine (if_pos (released_iff.mpr behind)).trans ?_
        rw [show (runBack m s).expander.slot = .step copy from staged]
      refine ⟨_, takes ((afterResume_of_neither not_met no_expiry).trans ((if_neg not_starved).trans released)),
        (run_active_iff m).mpr behind.1, State.beginEvaluation_begins .., rfl⟩

/-! ## RUN_FORCE with DISABLE and with ABORT (R127, R128, R129) -/

theorem exec_forceDisable {s : State} (listening : s.Listening) (tag : Byte) (abortToo skipToo : Bool) :
    exec (.runForceDisable tag abortToo skipToo) s =
      .next (s.forceDisable.replied 0x3B#8 tag .done .none [0#8, s.forceDisable.seq.run.code]) :=
  (exec_of_listening listening (i := .runForceDisable tag abortToo skipToo) (kind := .runForce) rfl rfl).trans
    (congrArg Host.Outcome.next (State.openRequest_takeForce .disable s tag))

theorem exec_forceAbort {s : State} (listening : s.Listening) (tag : Byte) (skipToo : Bool) :
    exec (.runForceAbort tag skipToo) s = .next (if Action.abort.valid s.seq.run
      then s.forceAbort.replied 0x3B#8 tag .done .none [1#8, s.forceAbort.seq.run.code]
      else s.replied 0x3B#8 tag .refused .state [1#8, s.seq.run.code]) :=
  (exec_of_listening listening (i := .runForceAbort tag skipToo) (kind := .runForce) rfl rfl).trans
    (congrArg Host.Outcome.next (State.openRequest_takeForce .abort s tag))

/-- What an early leave with this reason leaves of the run, the cues and the results (R81, R131, R153). -/
def LeftEarly (reason : EndReason) (s t : State) : Prop :=
  t.RunLeft ∧ t.results = (s.handActive reason).results ∧ t.seq.timeoutCount = 0 ∧
  (s.expander.context = none → t.queue = s.queue ∧ t.library = s.library ∧ t.phrases = s.phrases) ∧
  (∀ context before c after, s.expander.context = some context → s.queue.cues = before ++ c :: after →
    (∀ x ∈ before, x.status = .spent) → c.status ≠ .spent → s.Spends t before c after)

/-- The blocks no forced action touches. -/
def KeptByForce (s t : State) : Prop :=
  t.ports = s.ports ∧ t.store = s.store ∧ t.setup = s.setup ∧ t.pending = s.pending ∧
  t.seq.debounce = s.seq.debounce

theorem leftEarly_leaveEarly (reason : EndReason) (run : RunState) (s : State) :
    LeftEarly reason s (s.leaveEarly reason run) ∧ KeptByForce s (s.leaveEarly reason run) := by
  obtain ⟨left, _, results, count, no_context, spends, _, ports, store, setup, pending, debounce, _⟩ :=
    State.leaveEarly_leaves reason run s
  exact ⟨⟨left, results, count, no_context, spends⟩, ports, store, setup, pending, debounce⟩

theorem leftEarly_replied {reason : EndReason} {s u : State} (left : LeftEarly reason s u) (kind tag : Byte)
    (outcome : ReplyOutcome) (detail : Detail) (payload : List Byte) :
    LeftEarly reason s (u.replied kind tag outcome detail payload) := by
  obtain ⟨⟨remembered, active, phase, slot, context, stack⟩, results, count, no_context, spends⟩ := left
  refine ⟨⟨remembered, active, phase, slot, context, stack⟩, results, count, no_context,
    fun context before c after h1 h2 h3 h4 => ?_⟩
  obtain ⟨stream, retain, serial, trial, low_water⟩ := spends context before c after h1 h2 h3 h4
  exact ⟨stream, retain, serial, trial, low_water⟩

theorem leftEarly_latch {reason : EndReason} {s u : State} (left : LeftEarly reason s u) {n : Notice}
    (other : n ≠ .lowWater) : LeftEarly reason s (u.latch n) := by
  obtain ⟨run_left, results, count, no_context, spends⟩ := left
  exact ⟨runLeft_latch n run_left, results, count, no_context,
    fun context before c after h1 h2 h3 h4 => (spends context before c after h1 h2 h3 h4).latch n other⟩

/-- The states a run in progress is left early from (R131). -/
def leftFrom : List RunState := [.armed, .active, .waiting, .starved, .paused, .parked]

section
variable {s : State}

theorem forceDisable_of_leftFrom (early : s.seq.run ∈ leftFrom) :
    s.forceDisable = s.leaveEarly .disabled .disabled := by
  rw [State.forceDisable]
  cases run : s.seq.run <;> rw [run] at early <;> first | rfl | exact absurd early (by decide)

theorem forceDisable_of_idle (not_disabled : s.seq.run ≠ .disabled) (not_early : s.seq.run ∉ leftFrom)
    (not_fault : s.seq.run ≠ .fault) : s.forceDisable = s.enterIdle .disabled := by
  rw [State.forceDisable]
  cases run : s.seq.run <;> rw [run] at not_disabled not_early not_fault <;>
    first | rfl | exact absurd rfl not_disabled | exact absurd rfl not_fault | exact absurd (by decide) not_early

theorem forceDisable_of_fault (fault : s.seq.run = .fault) :
    s.forceDisable = State.enterIdle .disabled { s with monitor := { s.monitor with fault := none } } := by
  rw [State.forceDisable, fault]

theorem forceAbort_of_armed (armed : s.seq.run = .armed) :
    s.forceAbort = (s.leaveEarly .aborted .off).latch .runEnded := by
  rw [State.forceAbort, armed]

theorem forceAbort_of_leftFrom (early : s.seq.run ∈ leftFrom) (not_armed : s.seq.run ≠ .armed) :
    s.forceAbort = s.leaveEarly .aborted .stopping := by
  rw [State.forceAbort]
  cases run : s.seq.run <;> rw [run] at early not_armed <;>
    first | rfl | exact absurd rfl not_armed | exact absurd early (by decide)

theorem abort_valid_of_leftFrom (early : s.seq.run ∈ leftFrom) : Action.abort.valid s.seq.run = true := by
  revert early
  cases s.seq.run <;> decide

theorem abort_not_valid (other : s.seq.run ∈ [RunState.off, RunState.fault, RunState.disabled]) :
    ¬ Action.abort.valid s.seq.run = true := by
  revert other
  cases s.seq.run <;> decide

end

theorem rests_replied {s u : State} (rests : s.Rests u) (kind tag : Byte) (outcome : ReplyOutcome) (detail : Detail)
    (payload : List Byte) : s.Rests (u.replied kind tag outcome detail payload) :=
  rests.of_eq rfl rfl rfl rfl rfl

theorem replied_link {s u : State} (same : u.link = s.link) (kind tag : Byte) (outcome : ReplyOutcome)
    (detail : Detail) (payload : List Byte) :
    (u.replied kind tag outcome detail payload).link = (s.replied kind tag outcome detail payload).link := by
  rw [State.replied, State.replied, same]

/-- Settles O52: a forced disable leaves the run early, or is the entry to DISABLED at rest; a forced abort leaves it
early, to OFF from ARMED and to STOPPING else. -/
theorem forcedDisableAndAbort : Obligations.ForcedDisableAndAbort := by
  unfold Obligations.ForcedDisableAndAbort
  intro s tag abortToo skipToo listening
  dsimp only
  rw [exec_forceDisable listening, exec_forceAbort listening]
  refine ⟨fun disabled => ?_, fun not_disabled => ?_, fun other => ?_, fun stopping => ?_, fun early => ?_⟩
  · have same : s.forceDisable = s := by rw [State.forceDisable, disabled]
    rw [same, disabled]
    rfl
  · refine ⟨_, rfl, ?_⟩
    by_cases early : s.seq.run ∈ leftFrom
    · rw [forceDisable_of_leftFrom early]
      obtain ⟨left, kept⟩ := leftEarly_leaveEarly .disabled .disabled s
      obtain ⟨_, run, _, _, _, _, ended, _, _, _, _, _, rests, _, fault, link⟩ :=
        State.leaveEarly_leaves .disabled .disabled s
      have not_fault : s.seq.run ≠ .fault := fun h => absurd (h ▸ early) (by decide)
      rw [run]
      exact ⟨replied_link link .., run, rests_replied (rests (by decide)) .., kept, ended,
        fun h => absurd h not_fault, fun _ => fault, fun _ => leftEarly_replied left .., fun h => absurd early h⟩
    · by_cases fault : s.seq.run = .fault
      · rw [forceDisable_of_fault fault]
        exact ⟨rfl, rfl, (State.enterIdle_rests .disabled _).of_eq rfl rfl rfl rfl rfl, ⟨rfl, rfl, rfl, rfl, rfl⟩, rfl,
          fun _ => rfl, fun h => absurd fault h, fun h => absurd h early, fun _ => ⟨rfl, rfl, rfl, rfl, rfl, rfl⟩⟩
      · rw [forceDisable_of_idle not_disabled early fault]
        exact ⟨rfl, rfl, (State.enterIdle_rests .disabled s).of_eq rfl rfl rfl rfl rfl, ⟨rfl, rfl, rfl, rfl, rfl⟩, rfl,
          fun h => absurd h fault, fun _ => rfl, fun h => absurd h early, fun _ => ⟨rfl, rfl, rfl, rfl, rfl, rfl⟩⟩
  · rw [if_neg (abort_not_valid other)]
  · have same : s.forceAbort = s := by rw [State.forceAbort, stopping]
    rw [same, stopping]
    rfl
  · rw [if_pos (abort_valid_of_leftFrom early)]
    refine ⟨_, rfl, ?_⟩
    by_cases armed : s.seq.run = .armed
    · rw [forceAbort_of_armed armed]
      obtain ⟨left, kept⟩ := leftEarly_leaveEarly .aborted .off s
      obtain ⟨_, run, _, _, _, _, _, _, _, _, _, _, rests, _, _, link⟩ := State.leaveEarly_leaves .aborted .off s
      have code : ((s.leaveEarly .aborted .off).latch .runEnded).seq.run.code = 0#8 := congrArg RunState.code run
      rw [code]
      exact ⟨kept, leftEarly_replied (leftEarly_latch left (by decide)) .., fun _ => ⟨run,
        (rests (by decide)).of_eq rfl rfl rfl rfl rfl, latched_latch_self .., replied_link link ..⟩,
        fun h => absurd armed h⟩
    · rw [forceAbort_of_leftFrom early armed]
      obtain ⟨left, kept⟩ := leftEarly_leaveEarly .aborted .stopping s
      obtain ⟨_, run, _, _, _, _, ended, _, _, _, _, _, _, stops, _, link⟩ :=
        State.leaveEarly_leaves .aborted .stopping s
      obtain ⟨stops, monitor⟩ := stops rfl
      rw [run]
      exact ⟨kept, leftEarly_replied left .., fun h => absurd h armed, fun _ => ⟨run, stops.of_eq rfl rfl rfl, ended,
        monitor, replied_link link ..⟩⟩

/-! ## RUN_FORCE with SKIP (R130) -/

theorem exec_forceSkip {s : State} (listening : s.Listening) (tag : Byte) :
    exec (.runForceSkip tag) s = .next (if Action.skip.valid s.seq.run
      then s.forceSkip.replied 0x3B#8 tag .done .none [2#8, s.forceSkip.seq.run.code]
      else s.replied 0x3B#8 tag .refused .state [2#8, s.seq.run.code]) :=
  (exec_of_listening listening (i := .runForceSkip tag) (kind := .runForce) rfl rfl).trans
    (congrArg Host.Outcome.next (State.openRequest_takeForce .skip s tag))

theorem skip_valid_iff (r : RunState) : Action.skip.valid r = true ↔ r = .active ∨ r = .waiting := by
  cases r <;> decide

section
variable {s : State} {a : ActiveStep}

theorem stagedReleased_step {copy : StepCopy} (staged : s.expander.slot = .step copy) :
    s.stagedReleased = true ↔ s.seq.startPhase ≠ .held := by
  rw [State.stagedReleased, staged]
  exact bne_iff_ne

theorem stagedReleased_of_no_step (no_step : ∀ copy, s.expander.slot ≠ .step copy) : s.stagedReleased = false := by
  rw [State.stagedReleased]
  cases staged : s.expander.slot with
  | step copy => exact absurd staged (no_step copy)
  | empty => rfl
  | marker _ => rfl

theorem isOpen_content_iff (d : Duration) : d.isOpen = true ↔ d = .samples 0 ∨ d = .degrees 0 := by
  cases d <;> simp only [Duration.isOpen, decide_eq_true_iff, Duration.samples.injEq, Duration.degrees.injEq,
    reduceCtorEq, or_false, false_or] <;> rfl

theorem skipActive_waits (present : s.seq.active = some a) (is_open : a.copy.content.duration.isOpen = true)
    (released : s.stagedReleased = true) : s.skipActive =
      if s.seq.startPhase = .due then s.endActive .skipped else (s.endActive .skipped).enterRun .waiting := by
  rw [State.skipActive, present]
  exact if_pos (by rw [is_open, released]; rfl)

theorem skipActive_ends (present : s.seq.active = some a)
    (ends : ¬ (a.copy.content.duration.isOpen = true ∧ s.stagedReleased = true)) :
    s.skipActive = (s.endActive .skipped).afterEnd := by
  rw [State.skipActive, present]
  exact if_neg (by rw [Bool.and_eq_true]; exact ends)

end

/-- What a forced skip of an active step always leaves: the record is handed and the blocks stay. -/
theorem skipActive_hands {s : State} {a : ActiveStep} (run : s.seq.run = .active) (present : s.seq.active = some a) :
    s.skipActive.seq.active = none ∧ s.skipActive.results = (s.handActive .skipped).results ∧
    s.skipActive.monitor = s.monitor := by
  have results := State.endActive_results .skipped s
  have ended : (s.endActive .skipped).seq.active = none := endActive_active ..
  have monitor : (s.endActive .skipped).monitor = s.monitor := by simp
  rw [State.skipActive, present]
  dsimp only
  split
  · split
    · exact ⟨ended, results, monitor⟩
    · exact ⟨ended, results, monitor⟩
  · have active : (s.endActive .skipped).seq.run = .active := by simp [run]
    obtain ⟨kept, still⟩ := afterEnd_keeps active
    exact ⟨still.trans ended, (State.afterEnd_frame _).2.2.1.trans results, kept.trans monitor⟩

/-- A staging does not see the reply that goes out with it. -/
theorem parks_replied {s u : State} (parks : s.Parks u) (kind tag : Byte) (outcome : ReplyOutcome) (detail : Detail)
    (payload : List Byte) : s.Parks (u.replied kind tag outcome detail payload) := by
  obtain ⟨v, same, facts⟩ := parks
  have link : (v.replied kind tag outcome detail payload).link = (u.replied kind tag outcome detail payload).link :=
    replied_link (by rw [same]; simp) ..
  refine ⟨v.replied kind tag outcome detail payload, ?_, facts⟩
  calc u.replied kind tag outcome detail payload
      = u.onLink (u.replied kind tag outcome detail payload).link := rfl
    _ = v.fillSlot.onLink (v.replied kind tag outcome detail payload).link := by rw [link, same]
    _ = (v.onLink (v.replied kind tag outcome detail payload).link).fillSlot := (State.onLink_fillSlot ..).symm

/-- Settles O53: a skip in ACTIVE ends the step, and the slot is treated by `State.afterEnd` unless a released step waits
behind an open one. -/
theorem forcedSkip : Obligations.ForcedSkip := by
  unfold Obligations.ForcedSkip
  intro s tag listening
  rw [exec_forceSkip listening]
  refine ⟨fun not_active not_waiting => ?_, fun waiting => ?_, fun active no_step => ?_, fun a active present => ?_⟩
  · rw [if_neg (mt (skip_valid_iff _).mp (not_or.mpr ⟨not_active, not_waiting⟩))]
  · have skipped : s.forceSkip = s.skipWaiting := if_neg (by rw [waiting]; decide)
    have run : s.skipWaiting.seq.run = .waiting := waiting
    rw [if_pos ((skip_valid_iff _).mpr (.inr waiting)), skipped, run]
    rfl
  · have skipped : s.forceSkip = s := by rw [State.forceSkip, if_pos active, State.skipActive, no_step]
    rw [if_pos ((skip_valid_iff _).mpr (.inl active)), skipped, active]
    rfl
  · rw [if_pos ((skip_valid_iff _).mpr (.inl active))]
    have skipped : s.forceSkip = s.skipActive := if_pos active
    rw [skipped]
    obtain ⟨no_active, results, monitor⟩ := skipActive_hands active present
    obtain ⟨ports, store, setup, link, pending⟩ := s.skipActive_frame
    have ended_run : (s.endActive .skipped).seq.run = .active := by simp [active]
    have ended_slot : (s.endActive .skipped).expander.slot = s.expander.slot := by simp
    have not_armed : (s.endActive .skipped).seq.run ≠ .armed := by rw [ended_run]; decide
    have ends_of_no_step (no_step : ∀ copy, s.expander.slot ≠ .step copy) :
        s.skipActive = (s.endActive .skipped).afterEnd := by
      refine skipActive_ends present fun ⟨_, released⟩ => ?_
      rw [stagedReleased_of_no_step no_step] at released
      exact Bool.false_ne_true released
    refine ⟨_, rfl, replied_link link .., no_active, results, ports, store, monitor, setup, fun copy staged => ?_,
      fun staged => ?_, fun staged => ?_, fun staged => ?_⟩
    · by_cases waits : a.copy.content.duration.isOpen = true ∧ s.stagedReleased = true
      · have is_open := (isOpen_content_iff _).mp waits.1
        have not_held := (stagedReleased_step staged).mp waits.2
        have eq := skipActive_waits present waits.1 waits.2
        have never : ¬ (¬ (a.copy.content.duration = .samples 0 ∨ a.copy.content.duration = .degrees 0) ∨
            s.seq.startPhase = .held) := not_or.mpr ⟨not_not.mpr is_open, not_held⟩
        rw [eq]
        by_cases due : s.seq.startPhase = .due
        · rw [if_pos due]
          exact ⟨by simp [State.replied], by simp [State.replied], by simp [State.replied], fun h => absurd h never,
            fun _ _ => ⟨by simp [State.replied], by simp [State.replied], by simp [State.replied], fun _ => ended_run,
              fun h => absurd due h⟩⟩
        · rw [if_neg due]
          exact ⟨by simp [State.replied], by simp [State.replied], by simp [State.replied], fun h => absurd h never,
            fun _ _ => ⟨by simp [State.replied], by simp [State.replied], by simp [State.replied],
              fun h => absurd h due, fun _ => rfl⟩⟩
      · have never : ¬ ((a.copy.content.duration = .samples 0 ∨ a.copy.content.duration = .degrees 0) ∧
            s.seq.startPhase ≠ .held) := by
          rwa [← isOpen_content_iff, ← stagedReleased_step staged]
        rw [skipActive_ends present waits, afterEnd_step (ended_slot.trans staged)]
        split
        · rename_i follow
          exact ⟨by simp [State.replied], by simp [State.replied], by simp [State.replied],
            fun _ => ⟨State.beginEvaluation_begins _ copy, fun _ => ended_run, fun other => absurd follow other⟩,
            fun h1 h2 => absurd ⟨h1, h2⟩ never⟩
        · rename_i other
          exact ⟨by simp [State.replied], by simp [State.replied], by simp [State.replied],
            fun _ => ⟨State.beginEvaluation_begins _ copy, fun follow => absurd follow other, fun _ => rfl⟩,
            fun h1 h2 => absurd ⟨h1, h2⟩ never⟩
    · rw [ends_of_no_step (by rw [staged]; exact nofun), afterEnd_marker (ended_slot.trans staged)]
      obtain ⟨stopping, slot, stops⟩ := (State.takeMarker_cases .off _ not_armed).1 rfl
      exact ⟨stopping, slot, stops.of_eq (by simp) (by simp) rfl⟩
    · rw [ends_of_no_step (by rw [staged]; exact nofun), afterEnd_marker (ended_slot.trans staged)]
      obtain ⟨parked, ended, synth⟩ := (State.takeMarker_cases .hold _ not_armed).2.1 rfl
      exact ⟨parked, ended, synth.trans (by simp),
        parks_replied (State.endActive_parks .skipped s (by rw [active]; decide)) ..⟩
    · rw [ends_of_no_step (by rw [staged]; exact nofun), afterEnd_empty (ended_slot.trans staged)]
      exact ⟨rfl, latched_latch_self _ _, by simp [State.replied], by simp [State.replied]⟩

end Sys2Proof.Proofs
end

section
/-! The payloads of the requests, written and read back (spec 09, section 9.6). -/

namespace Sys2Proof.Proofs

open Sys2Proof Sys2Proof.Machine

/-! ## Reading back (R170) -/

/-- Units that read back are judged by their number. -/
theorem ofUnits_some {α : Type} (make : α → Instr) {units : Option α} {x : α} (read : units = some x) :
    Parsed.ofUnits make units = if (make x).lengthOk then .request (make x) else .badLength := by
  rw [read, Parsed.ofUnits]

theorem ofActionSet_actionSet (tag : Byte) (abort skip : Bool) :
    Parsed.ofActionSet tag (actionSet true abort skip) = .request (.runForceDisable tag abort skip) ∧
    Parsed.ofActionSet tag (actionSet false true skip) = .request (.runForceAbort tag skip) ∧
    Parsed.ofActionSet tag (actionSet false false true) = .request (.runForceSkip tag) := by
  cases abort <;> cases skip <;> exact ⟨rfl, rfl, rfl⟩

/-- The payload of a request reads back as that request, or its units are miscounted. -/
theorem parseRequest_payload {i : Instr} {kind : Kind} {tag : Byte} {payload : List Byte}
    (carries : i.request? = some (kind, tag, payload)) :
    parseRequest kind tag payload = if i.lengthOk then .request i else .badLength := by
  cases i <;> cases carries
  case setupWrite pairs => exact ofUnits_some _ (readPairs_flatMap pairs)
  case setupRead => exact ofUnits_some _ rfl
  case shapeAppend slot points => exact ofUnits_some (Instr.shapeAppend tag slot) (readPoints_flatMap points)
  case shapeCompare slot gen start count pad points =>
    simp only [parseRequest, Parsed.ofCompare, le16, List.cons_append, List.nil_append, half_le16]
    exact ofUnits_some (Instr.shapeCompare tag slot gen start count pad) (readPoints_flatMap points)
  case templateDefine t => exact ofUnits_some (Instr.templateDefine tag) (readTemplate_bytes t)
  case cueAdd cues => exact ofUnits_some _ (readCues_flatMap cues _ (cueBytes_length_le cues))
  case noticeClear flags => exact congrArg (fun h => Parsed.request (.noticeClear tag h)) (half_le16 flags)
  case noticeMask masks enable =>
    exact congrArg (fun h => Parsed.request (.noticeMask tag h enable)) (half_le16 masks)
  case shapeSum slot gen start count crc =>
    simp only [parseRequest, Parsed.ofSum, le16, List.cons_append, List.nil_append, half_le16]
    rfl
  case runForceDisable abortToo skipToo => exact (ofActionSet_actionSet tag abortToo skipToo).1
  case runForceAbort skipToo => exact (ofActionSet_actionSet tag true skipToo).2.1
  all_goals rfl

/-! ## Byte order and flags -/

/-- A byte of a word that is itself cut out of a longer field. -/
theorem byte_of_word (l : Long) (m n : Nat) (inside : n + 8 ≤ 32) :
    ((l >>> m).setWidth 32 >>> n).setWidth 8 = (l >>> (m + n)).setWidth 8 := by
  ext i in_byte
  simp only [BitVec.getElem_setWidth, BitVec.getLsbD_ushiftRight, BitVec.getLsbD_setWidth, Nat.add_assoc,
    decide_eq_true (show n + i < 32 by omega), Bool.true_and]

theorem le64_bytes (l : Long) (k : Nat) (inside : k < 8) : (le64 l)[k]? = some ((l >>> (8 * k)).setWidth 8) := by
  have low (n : Nat) (h : n + 8 ≤ 32) : (l.setWidth 32 >>> n).setWidth 8 = (l >>> n).setWidth 8 := by
    simpa using byte_of_word l 0 n h
  interval_cases k
  · exact congrArg some (low 0 (by decide))
  · exact congrArg some (low 8 (by decide))
  · exact congrArg some (low 16 (by decide))
  · exact congrArg some (low 24 (by decide))
  · exact congrArg some (byte_of_word l 32 0 (by decide))
  · exact congrArg some (byte_of_word l 32 8 (by decide))
  · exact congrArg some (byte_of_word l 32 16 (by decide))
  · exact congrArg some (byte_of_word l 32 24 (by decide))

theorem cueFlags_getLsbD (c : CueWire) (n : Nat) :
    (cueFlags c).getLsbD n = (n == 0 && c.duration.isSome || n == 1 && c.start.isSome) := by
  have one : (1#8).getLsbD n = (n == 0) := by
    rw [Bool.eq_iff_iff, BitVec.getLsbD_one, beq_iff_eq]
    simp
  have two : (2#8).getLsbD n = (n == 1) := by
    rw [show (2#8 : Byte) = BitVec.twoPow 8 1 from rfl, BitVec.getLsbD_twoPow, Bool.eq_iff_iff, beq_iff_eq]
    simp [eq_comm]
  rw [cueFlags, BitVec.getLsbD_or]
  cases c.duration <;> cases c.start <;> simp [one, two]

/-- Settles O24: the layouts are those of the writers, and `parseRequest_payload` reads them back. -/
theorem payloadsReadBack : Obligations.PayloadsReadBack := by
  unfold Obligations.PayloadsReadBack
  refine ⟨fun _ _ _ _ carries => parseRequest_payload carries, fun h w l => ⟨rfl, rfl, rfl, le64_bytes l⟩,
    fun tag w => ?_, fun tag cues => rfl, fun c => ⟨cueFlags c, cueFlags_getLsbD c, ?_⟩, ?_⟩
  · refine ⟨templateBytes w, rfl, rfl, rfl, rfl, rfl, rfl, rfl, rfl, rfl, rfl, fun phase => ?_⟩
    cases phase <;> exact ⟨rfl, rfl, rfl, rfl, rfl⟩
  · obtain ⟨kind, index, rep, duration, start⟩ := c
    refine ⟨fun no_d no_s => ?_, fun d d_carried no_s => ?_, fun t no_d s_carried => ?_, fun d t d_carried s_carried => ?_⟩
    · cases no_d; cases no_s; rfl
    · cases d_carried; cases no_s; rfl
    · cases no_d; cases s_carried; rfl
    · cases d_carried; cases s_carried; rfl
  · intro tag slot gen index pred template enable count start number crc pad flagSet points pairs ids abortToo skipToo
    refine ⟨rfl, rfl, rfl, rfl, rfl, rfl, rfl, rfl, rfl, rfl, rfl, rfl, rfl, rfl, rfl, ?_, ?_, rfl, rfl, rfl, rfl, rfl,
      rfl, rfl, rfl, rfl, rfl, rfl, rfl, rfl⟩
    · cases abortToo <;> cases skipToo <;> rfl
    · cases skipToo <;> rfl

end Sys2Proof.Proofs
end

section
/-! The link: bytes, whole frames, and the frames that reach no block (spec 09, 9.1 and 9.2). -/

namespace Sys2Proof.Proofs

open Sys2Proof Sys2Proof.Machine

/-! ## Frames as they are taken (R169, R170) -/

/-- A request that is not of its block is refused for its length, or handed over: either way by its parsed payload. -/
theorem takeParsed_takeRequest (i : Instr) (s : State) :
    s.takeParsed (if i.lengthOk then .request i else .badLength) = s.takeRequest i := by
  rw [State.takeRequest]
  split <;> rfl

theorem takeFrame_listed (kind : Kind) (tag : Byte) (payload : List Byte) (s : State) :
    s.takeFrame kind.code tag payload true = (s.openRequest kind.code tag).takeParsed (parseRequest kind tag payload) := by
  rw [State.takeFrame, Laws.kind_ofCode]
  exact if_pos rfl

theorem takeFrame_request {i : Instr} {kind : Kind} {tag : Byte} {payload : List Byte}
    (carries : i.request? = some (kind, tag, payload)) (s : State) :
    s.takeFrame kind.code tag payload true = (s.openRequest kind.code tag).takeRequest i := by
  rw [takeFrame_listed, parseRequest_payload carries, takeParsed_takeRequest]

theorem takeFrame_bad (kind tag : Byte) (payload : List Byte) (s : State) :
    s.takeFrame kind tag payload false = s.replied kind tag .badframe .none [] :=
  State.openRequest_answer ..

theorem takeFrame_unlisted {kind : Byte} (unlisted : Kind.ofCode kind = none) (tag : Byte) (payload : List Byte)
    (s : State) : s.takeFrame kind tag payload true = s.replied kind tag .unknown .none [] := by
  rw [State.takeFrame, unlisted]
  exact (if_pos rfl).trans (State.openRequest_answer ..)

theorem ofCode_eq_none_iff (code : Byte) : Kind.ofCode code = none ↔ ∀ k : Kind, k.code ≠ code := by
  refine ⟨fun unlisted k same => ?_, fun unlisted => ?_⟩
  · rw [← same, Laws.kind_ofCode] at unlisted
    exact Option.some_ne_none k unlisted
  · rw [Kind.ofCode, List.find?_eq_none]
    exact fun k _ => by simpa using unlisted k

theorem frameFits_of_hunting {s : State} {payload : List Byte} (hunting : s.link.rx = Receiver.idle)
    (fits : payload.length ≤ 1024) : s.frameFits payload = true := by
  simp [State.frameFits, fitsFrame, Config.maxPayload, hunting, fits]

section
variable {s : State} (out_of_reset : s.link.inReset = false) (hunting : s.link.rx = Receiver.idle)
include out_of_reset hunting

/-- A request that arrives whole in HUNT (R166, R171, R172). -/
theorem exec_in_hunt {i : Instr} {kind : Kind} {tag : Byte} {payload : List Byte}
    (carries : i.request? = some (kind, tag, payload)) (fits : payload.length ≤ 1024) :
    exec i s = .next (if s.link.ready then (s.openRequest kind.code tag).takeRequest i else s.latch .linkOverrun) := by
  rw [exec_request (by rw [carries]; rfl)]
  simp [State.requestFrame, out_of_reset, carries, frameFits_of_hunting hunting fits, State.wholeFrame]

theorem exec_badframe_in_hunt (kind tag : Byte) {payload : List Byte} {crcError : Half}
    (fits : payload.length ≤ 1024) (wrong : crcError ≠ 0#16) :
    exec (.badframe kind tag payload crcError) s =
      .next (if s.link.ready then s.replied kind tag .badframe .none [] else s.latch .linkOverrun) := by
  rw [← takeFrame_bad kind tag payload]
  simp [exec, execBadframe, out_of_reset, frameFits_of_hunting hunting fits, wrong, State.wholeFrame]

theorem exec_unknownKind_in_hunt {kind : Byte} (tag : Byte) {payload : List Byte} (fits : payload.length ≤ 1024)
    (unlisted : Kind.ofCode kind = none) :
    exec (.unknownKind kind tag payload) s =
      .next (if s.link.ready then s.replied kind tag .unknown .none [] else s.latch .linkOverrun) := by
  rw [← takeFrame_unlisted unlisted tag payload]
  simp [exec, execUnknownKind, out_of_reset, frameFits_of_hunting hunting fits, unlisted,
    State.wholeFrame]

/-- The bytes of a frame from HUNT (R166 to R172). -/
theorem execAll_frame (kind tag : Byte) {payload : List Byte} (crcError : Half) (fits : payload.length ≤ 1024) :
    execAll ((frameBytes kind tag payload crcError).map fun b => .byteReceived b false) s =
      .next (if s.link.ready then s.takeFrame kind tag payload (crcError == 0#16) else s.latch .linkOverrun) := by
  rw [execAll_bytes, State.feed_frameBytes s kind tag payload crcError out_of_reset hunting fits]

end

/-! ## Cues with spare flag bits (R89, R179) -/

/-- The bytes of a cue with further bits of `spare` set in its flags byte. -/
def cueBytesSpare (cue : CueWire × Byte) : List Byte :=
  (cueBytes cue.1).take 3 ++ (((cueBytes cue.1).drop 3).take 1).map (· ||| (cue.2 &&& 0xFC#8)) ++
    (cueBytes cue.1).drop 4

/-- The bytes of a cue after its flags. -/
def overrideBytes (c : CueWire) : List Byte := (cueBytes c).drop 4

theorem cueBytesSpare_eq (c : CueWire) (spare : Byte) : cueBytesSpare (c, spare) =
    c.kind :: c.index :: c.rep :: (cueFlags c ||| (spare &&& 0xFC#8)) :: overrideBytes c := rfl

theorem spare_bit (flags spare : Byte) {n : Nat} (low : n < 2) :
    (flags ||| (spare &&& 0xFC#8)).getLsbD n = flags.getLsbD n := by
  have clear : (0xFC#8).getLsbD n = false := by interval_cases n <;> rfl
  rw [BitVec.getLsbD_or, BitVec.getLsbD_and, clear, Bool.and_false, Bool.or_false]

/-- The overrides that follow depend on the two named flags alone. -/
theorem readOverrides_spare (flags spare : Byte) (rest : List Byte) :
    readOverrides (flags ||| (spare &&& 0xFC#8)) rest = readOverrides flags rest := by
  unfold readOverrides
  rw [spare_bit flags spare (by decide), spare_bit flags spare (by decide)]

theorem readOverrides_overrideBytes (c : CueWire) (rest : List Byte) :
    readOverrides (cueFlags c) (overrideBytes c ++ rest) = some (c.duration, c.start, rest) :=
  readOverrides_bytes c rest

theorem readCues_spare (cues : List (CueWire × Byte)) (fuel : Nat) (enough : cues.length ≤ fuel) :
    readCues fuel (cues.map cueBytesSpare).flatten = some (cues.map Prod.fst) := by
  induction cues generalizing fuel with
  | nil => cases fuel <;> rfl
  | cons cue cues ih =>
    obtain ⟨c, spare⟩ := cue
    obtain ⟨fuel, rfl⟩ : ∃ n, fuel = n + 1 := ⟨fuel - 1, by simp at enough; omega⟩
    rw [List.map_cons, List.flatten_cons, cueBytesSpare_eq]
    simp only [List.cons_append, readCues, readOverrides_spare, readOverrides_overrideBytes,
      ih fuel (by simpa using enough)]
    rfl

theorem cueBytesSpare_length (cue : CueWire × Byte) : (cueBytesSpare cue).length = (cueBytes cue.1).length := by
  obtain ⟨c, spare⟩ := cue
  rfl

/-- The spare bits change neither the number of bytes nor the cues that are read. -/
theorem spare_flatten_length (cues : List (CueWire × Byte)) :
    (cues.map cueBytesSpare).flatten.length = ((cues.map Prod.fst).flatMap cueBytes).length := by
  induction cues with
  | nil => rfl
  | cons cue cues ih =>
    simp only [List.map_cons, List.flatten_cons, List.flatMap_cons, List.length_append, ih, cueBytesSpare_length]

theorem parseRequest_spare (tag : Byte) (cues : List (CueWire × Byte)) :
    parseRequest .cueAdd tag (cues.map cueBytesSpare).flatten =
      if (Instr.cueAdd tag (cues.map Prod.fst)).lengthOk then .request (.cueAdd tag (cues.map Prod.fst))
      else .badLength := by
  refine ofUnits_some _ (readCues_spare cues _ ?_)
  rw [spare_flatten_length]
  simpa using cueBytes_length_le (cues.map Prod.fst)

/-- Settles O25: fed byte by byte, the frame completes with its kind, tag, payload and CRC, and is taken as the command
takes it. -/
theorem bytesMakeFrames : Obligations.BytesMakeFrames := by
  unfold Obligations.BytesMakeFrames
  intro s out_of_reset hunting
  refine ⟨fun i kind tag payload carries fits => ?_, fun kind tag payload crcError fits wrong => ?_,
    fun kind tag payload fits unlisted => ?_, fun tag cues fits => ?_⟩
  · rw [execAll_frame out_of_reset hunting kind.code tag 0#16 fits, exec_in_hunt out_of_reset hunting carries fits,
      ← takeFrame_request carries]
    rfl
  · rw [execAll_frame out_of_reset hunting kind tag crcError fits, beq_eq_false_iff_ne.mpr wrong, takeFrame_bad,
      exec_badframe_in_hunt out_of_reset hunting kind tag fits wrong]
  · rw [exec_unknownKind_in_hunt out_of_reset hunting tag fits unlisted, ← takeFrame_unlisted unlisted tag payload]
    exact execAll_frame out_of_reset hunting kind tag 0#16 fits
  · have fits_clear : ((cues.map Prod.fst).flatMap cueBytes).length ≤ 1024 := by
      rw [← spare_flatten_length]
      exact fits
    rw [exec_in_hunt out_of_reset hunting (i := .cueAdd tag (cues.map Prod.fst)) rfl fits_clear,
      ← takeParsed_takeRequest, ← parseRequest_spare, ← takeFrame_listed]
    exact execAll_frame out_of_reset hunting 0x30#8 tag 0#16 fits

/-! ## The receiver (R166, R167, R168) -/

theorem half_toNat (lo hi : Byte) : (half lo hi).toNat = hi.toNat * 256 + lo.toNat := by
  have low : lo.toNat < 2 ^ 8 := lo.isLt
  have high : hi.toNat < 2 ^ 8 := hi.isLt
  have shifted : (hi.setWidth 16 <<< 8).toNat = hi.toNat <<< 8 := by
    rw [BitVec.toNat_shiftLeft, BitVec.toNat_setWidth, Nat.shiftLeft_eq, Nat.mod_eq_of_lt (by omega),
      Nat.mod_eq_of_lt (by omega), Nat.shiftLeft_eq]
  rw [half, BitVec.toNat_or, shifted, BitVec.toNat_setWidth, Nat.mod_eq_of_lt (by omega),
    ← Nat.shiftLeft_add_eq_or_of_lt low, Nat.shiftLeft_eq]

section
variable {s : State} (out_of_reset : s.link.inReset = false)
include out_of_reset

theorem exec_good_byte (byte : Byte) : exec (.byteReceived byte false) s = .next (s.goodByte byte) := by
  simp [exec, execByteReceived, State.receiveByte, out_of_reset]

theorem exec_broken_byte (byte : Byte) : exec (.byteReceived byte true) s = .next s.brokenByte := by
  simp [exec, execByteReceived, State.receiveByte, out_of_reset]

end

theorem headerByte_fourth {s : State} {kind tag lo : Byte} (stored : s.link.rx.header = [kind, tag, lo]) (byte : Byte) :
    s.headerByte byte = if 1024 < (half lo byte).toNat then s.discardFrame
      else s.setRx { s.link.rx with header := [kind, tag, lo, byte],
                                    state := if (half lo byte).toNat = 0 then .check else .payload } := by
  rw [State.headerByte, stored]
  rfl

theorem headerByte_early {s : State} (early : s.link.rx.header.length < 3) (byte : Byte) :
    s.headerByte byte = s.setRx { s.link.rx with header := s.link.rx.header ++ [byte] } := by
  rw [State.headerByte]
  split
  · rename_i stored
    simp [stored] at early
  · rfl

theorem discardFrame_discards (s : State) :
    s.discardFrame.link = { s.link with rx := Receiver.idle } ∧ s.discardFrame.latched .linkError = true :=
  ⟨rfl, latched_latch_self ..⟩

theorem beginFrame_begins (s : State) :
    s.beginFrame.link = { s.link with rx := { state := .header, header := [], payload := [], check := [],
                                              gapRunning := true, marked := !s.link.ready } } ∧
    (s.link.ready = true → s.beginFrame.notices = s.notices) ∧
    (s.link.ready = false → s.beginFrame.latched .linkOverrun = true) := by
  rw [State.beginFrame]
  cases ready : s.link.ready with
  | true => exact ⟨rfl, fun _ => rfl, nofun⟩
  | false => exact ⟨rfl, nofun, fun _ => latched_latch_self ..⟩

/-- A complete frame without the overrun mark is taken from HUNT, its CRC judged good or not (R169). -/
theorem completeFrame_unmarked {s : State} {kind tag lo hi first byte : Byte} {good : Bool}
    (unmarked : s.link.rx.marked = false) (stored : s.link.rx.header = [kind, tag, lo, hi])
    (judged : (crcBytes crcStart ([kind, tag, lo, hi] ++ s.link.rx.payload) == half first byte) = good) :
    s.completeFrame first byte = (s.setRx Receiver.idle).takeFrame kind tag s.link.rx.payload good := by
  simp only [State.completeFrame, unmarked, Bool.false_eq_true, if_false, stored, judged]

theorem crc_matches_iff (crc : Half) (first byte : Byte) :
    (crc == half first byte) = true ↔ byte.toNat * 256 + first.toNat = crc.toNat := by
  rw [beq_iff_eq, ← half_toNat, eq_comm, BitVec.toNat_inj]

/-- Settles O26: one clause per state of the receiver. -/
theorem bytesAreAssembled : Obligations.BytesAreAssembled := by
  unfold Obligations.BytesAreAssembled
  intro s byte out_of_reset
  rw [exec_good_byte out_of_reset, exec_broken_byte out_of_reset]
  refine ⟨fun hunting sync => ?_, fun hunting other => ?_, fun hunting => ?_, fun assembling => ?_,
    fun header early => ?_, fun kind tag lo header stored long => ?_, fun kind tag lo header stored fits => ?_,
    fun kind tag lo hi payload stored => ?_, fun check none_stored => ?_, fun first check stored => ?_⟩
  · have begins : s.goodByte byte = s.beginFrame := by
      rw [State.goodByte, hunting]
      exact if_pos sync
    exact ⟨_, rfl, begins ▸ beginFrame_begins s⟩
  · rw [State.goodByte, hunting]
    exact congrArg Host.Outcome.next (if_neg other)
  · rw [State.brokenByte, hunting]
  · have discards : s.brokenByte = s.discardFrame := by
      rw [State.brokenByte]
      cases state : s.link.rx.state with
      | hunt => exact absurd state assembling
      | header | payload | check => rfl
    exact ⟨_, rfl, discards ▸ discardFrame_discards s⟩
  · rw [State.goodByte, header]
    exact congrArg Host.Outcome.next (headerByte_early early byte)
  · have discards : s.goodByte byte = s.discardFrame := by
      rw [State.goodByte, header]
      exact (headerByte_fourth stored byte).trans (if_pos (by rw [half_toNat]; exact long))
    exact ⟨_, rfl, discards ▸ discardFrame_discards s⟩
  · have empty_iff : (half lo byte).toNat = 0 ↔ byte = 0#8 ∧ lo = 0#8 := by
      rw [half_toNat, ← BitVec.toNat_inj, ← BitVec.toNat_inj]
      change _ ↔ byte.toNat = 0 ∧ lo.toNat = 0
      omega
    rw [State.goodByte, header]
    dsimp only
    rw [headerByte_fourth stored, if_neg (by rw [half_toNat]; omega)]
    simp only [empty_iff]
    rfl
  · have declared : s.link.rx.declared = hi.toNat * 256 + lo.toNat := by
      rw [Receiver.declared, stored]
      exact half_toNat lo hi
    rw [State.goodByte, payload]
    dsimp only
    rw [State.payloadByte, declared]
    rfl
  · rw [State.goodByte, check]
    dsimp only
    rw [State.checkByte, none_stored]
    rfl
  · have completes : s.goodByte byte = s.completeFrame first byte := by
      rw [State.goodByte, check]
      dsimp only
      rw [State.checkByte, stored]
    rw [completes]
    intro idle
    refine ⟨fun marked => ?_, fun unmarked ready kind tag lo hi header => ?_⟩
    · exact congrArg Host.Outcome.next (if_pos marked)
    · intro crc matched
      have matched_iff : (crc == half first byte) = true ↔ matched := crc_matches_iff crc first byte
      refine ⟨fun wrong => ?_, fun good unlisted => ?_, fun i k good listed carries fits => ?_⟩
      · rw [completeFrame_unmarked unmarked header (Bool.eq_false_iff.mpr (mt matched_iff.mp wrong))]
        exact congrArg Host.Outcome.next (takeFrame_bad kind tag _ idle)
      · rw [completeFrame_unmarked unmarked header (matched_iff.mpr good)]
        exact congrArg Host.Outcome.next (takeFrame_unlisted ((ofCode_eq_none_iff kind).mpr unlisted) tag _ idle)
      · subst listed
        rw [exec_in_hunt (s := idle) out_of_reset rfl carries fits, ← takeFrame_request carries,
          completeFrame_unmarked unmarked header (matched_iff.mpr good)]
        exact congrArg Host.Outcome.next (if_pos ready).symm

end Sys2Proof.Proofs
end

section
/-! The frames that reach no block: late, broken, unknown, or of a length their kind does not allow (R167 to R172). -/

namespace Sys2Proof.Proofs

open Sys2Proof Sys2Proof.Machine

/-! ## The lengths that are read (R170) -/

theorem readPairs_length : ∀ {payload : List Byte} {pairs : List (Byte × Word)},
    readPairs payload = some pairs → payload.length = 5 * pairs.length
  | [], pairs, read => by cases read; rfl
  | _ :: _ :: _ :: _ :: _ :: rest, pairs, read => by
    obtain ⟨tail, read_tail, rfl⟩ := Option.map_eq_some_iff.mp read
    simp only [List.length_cons, readPairs_length read_tail]
    omega
  | [_], _, read | [_, _], _, read | [_, _, _], _, read | [_, _, _, _], _, read => nomatch read

theorem readPoints_length : ∀ {payload : List Byte} {points : List Half},
    readPoints payload = some points → payload.length = 2 * points.length
  | [], points, read => by cases read; rfl
  | _ :: _ :: rest, points, read => by
    obtain ⟨tail, read_tail, rfl⟩ := Option.map_eq_some_iff.mp read
    simp only [List.length_cons, readPoints_length read_tail]
    omega
  | [_], _, read => nomatch read

theorem readPhase_length {bytes rest : List Byte} {p : PhaseWire} (read : readPhase bytes = some (p, rest)) :
    bytes.length = rest.length + 11 := by
  unfold readPhase at read
  split at read
  · cases read
    rfl
  · exact nomatch read

theorem readPhases_length {bytes : List Byte} {phases : PerPhase PhaseWire} (read : readPhases bytes = some phases) :
    bytes.length = 33 := by
  unfold readPhases at read
  split at read
  · exact nomatch read
  · rename_i a
    split at read
    · exact nomatch read
    · rename_i b
      split at read
      · rename_i c
        rw [readPhase_length a, readPhase_length b, readPhase_length c]
        rfl
      · exact nomatch read

theorem readTemplate_length {bytes : List Byte} {t : TemplateWire} (read : readTemplate bytes = some t) :
    bytes.length = 48 := by
  unfold readTemplate at read
  split at read
  · obtain ⟨phases, read_phases, -⟩ := Option.map_eq_some_iff.mp read
    simp only [List.length_cons, readPhases_length read_phases]
  · exact nomatch read

/-- The overrides a cue's flags declare are as long as its layout says (R89). -/
theorem readOverrides_length {flags : Byte} {rest after : List Byte} {duration : Option (Byte × Word)}
    {start : Option (Byte × Half)} (read : readOverrides flags rest = some (duration, start, after)) :
    ∃ overrides : List Byte, rest = overrides ++ after ∧
      overrides.length = (if flags.getLsbD 0 then 5 else 0) + (if flags.getLsbD 1 then 3 else 0) := by
  unfold readOverrides at read
  dsimp only at read
  cases declares_duration : flags.getLsbD 0 <;> cases declares_start : flags.getLsbD 1 <;>
    simp only [declares_duration, declares_start, Bool.false_eq_true, if_true, if_false] at read
  · cases read
    exact ⟨[], rfl, rfl⟩
  · split at read
    · rename_i k lo hi _
      cases read
      exact ⟨[k, lo, hi], rfl, rfl⟩
    · exact nomatch read
  · split at read
    · rename_i k b0 b1 b2 b3 _
      cases read
      exact ⟨[k, b0, b1, b2, b3], rfl, rfl⟩
    · exact nomatch read
  · split at read
    · rename_i k b0 b1 b2 b3 _
      split at read
      · rename_i k' lo hi _
        cases read
        exact ⟨[k, b0, b1, b2, b3, k', lo, hi], rfl, rfl⟩
      · exact nomatch read
    · exact nomatch read

/-- The bytes of one whole cue: its four bytes and the overrides its flags declare (R89). -/
def WholeCue (cue : List Byte) : Prop :=
  ∃ (k index rep flags : Byte) (overrides : List Byte), cue = k :: index :: rep :: flags :: overrides ∧
    overrides.length = (if flags.getLsbD 0 then 5 else 0) + (if flags.getLsbD 1 then 3 else 0)

theorem readCues_whole {fuel : Nat} {payload : List Byte} {cues : List CueWire}
    (read : readCues fuel payload = some cues) :
    ∃ parts : List (List Byte), payload = parts.flatten ∧ parts.length = cues.length ∧ ∀ part ∈ parts, WholeCue part := by
  induction fuel generalizing payload cues with
  | zero =>
    cases payload with
    | nil => cases read; exact ⟨[], rfl, rfl, nofun⟩
    | cons => exact nomatch read
  | succ fuel ih =>
    unfold readCues at read
    split at read
    · cases read; exact ⟨[], rfl, rfl, nofun⟩
    · rename_i same
      exact nomatch same
    · rename_i k index rep flags rest _
      split at read
      · exact nomatch read
      · rename_i duration start after overrides_read
        rename_i same _
        cases same
        obtain ⟨tail, read_tail, rfl⟩ := Option.map_eq_some_iff.mp read
        obtain ⟨overrides, rfl, length⟩ := readOverrides_length overrides_read
        obtain ⟨parts, rfl, count, whole⟩ := ih read_tail
        refine ⟨(k :: index :: rep :: flags :: overrides) :: parts, rfl, by simp [count], ?_⟩
        exact List.forall_mem_cons.mpr ⟨⟨k, index, rep, flags, overrides, rfl, length⟩, whole⟩
    · exact nomatch read

/-! ## What a kind admits (R170) -/

/-- Read by its kind, a payload of another length than `n` is refused. -/
theorem fixed_length (tag : Byte) (payload : List Byte) :
    (∀ i, payload.length = 0 ∨ Parsed.ofNone i payload = .badLength) ∧
    (∀ make, payload.length = 1 ∨ Parsed.ofOne make payload = .badLength) ∧
    (∀ make, payload.length = 2 ∨ Parsed.ofTwo make payload = .badLength) ∧
    (∀ make, payload.length = 3 ∨ Parsed.ofThree make payload = .badLength) ∧
    (payload.length = 8 ∨ Parsed.ofSum tag payload = .badLength) := by
  refine ⟨fun i => ?_, fun make => ?_, fun make => ?_, fun make => ?_, ?_⟩
  · unfold Parsed.ofNone
    split
    · exact .inl rfl
    · exact .inr rfl
  · unfold Parsed.ofOne
    split
    · exact .inl rfl
    · exact .inr rfl
  · unfold Parsed.ofTwo
    split
    · exact .inl rfl
    · exact .inr rfl
  · unfold Parsed.ofThree
    split
    · exact .inl rfl
    · exact .inr rfl
  · unfold Parsed.ofSum
    split
    · exact .inl rfl
    · exact .inr rfl

/-- Units are refused unless they can be read and their number is allowed. -/
theorem ofUnits_admits {α : Type} {make : α → Instr} {units : Option α} {admitted : Prop}
    (admits : ∀ x, units = some x → (make x).lengthOk = true → admitted) :
    admitted ∨ Parsed.ofUnits make units = .badLength := by
  cases read : units with
  | none => exact .inr rfl
  | some x =>
    by_cases counted : (make x).lengthOk = true
    · exact .inl (admits x read counted)
    · exact .inr (if_neg counted)

theorem counted_iff {low high n : Nat} : (decide (low ≤ n) && decide (n ≤ high)) = true ↔ low ≤ n ∧ n ≤ high := by
  rw [Bool.and_eq_true, decide_eq_true_iff, decide_eq_true_iff]

theorem append_admits (tag : Byte) (payload : List Byte) :
    Kind.shapeAppend.Admits payload ∨ Parsed.ofAppend tag payload = .badLength := by
  cases payload with
  | nil => exact .inr rfl
  | cons slot bytes =>
    refine ofUnits_admits fun points read counted => ?_
    have length := readPoints_length read
    obtain ⟨low, high⟩ := counted_iff.mp counted
    simp only [Kind.Admits, List.length_cons, length]
    omega

theorem compare_admits (tag : Byte) (payload : List Byte) :
    Kind.shapeCompare.Admits payload ∨ Parsed.ofCompare tag payload = .badLength := by
  unfold Parsed.ofCompare
  split
  · refine ofUnits_admits fun points read counted => ?_
    have length := readPoints_length read
    have high : points.length ≤ 256 := of_decide_eq_true counted
    simp only [Kind.Admits, List.length_cons, length]
    omega
  · exact .inr rfl

/-- A payload that its kind does not allow is refused for its length. -/
theorem admits_or_badLength (kind : Kind) (tag : Byte) (payload : List Byte) :
    kind.Admits payload ∨ parseRequest kind tag payload = .badLength := by
  obtain ⟨none_carried, one_byte, two_bytes, three_bytes, eight_bytes⟩ := fixed_length tag payload
  cases kind
  case identify | status | reset | noticeRead | cueRewind | runClear | runStart | runPause | runResume | faultClear |
      outputEnable => exact none_carried _
  case shapeOpen | shapeErase | shapeInfo | templateDelete | templateRead | phraseDelete | phraseRead | runForce |
      resultRead => exact one_byte _
  case noticeClear => exact two_bytes _
  case noticeMask | phraseDefine => exact three_bytes _
  case shapeSum => exact eight_bytes
  case templateDefine => exact ofUnits_admits fun t read _ => readTemplate_length read
  case setupWrite =>
    refine ofUnits_admits fun pairs read counted => ?_
    have length := readPairs_length read
    obtain ⟨low, high⟩ := counted_iff.mp counted
    simp only [Kind.Admits, length]
    omega
  case setupRead =>
    refine ofUnits_admits (units := some payload) fun ids read counted => ?_
    cases read
    exact counted_iff.mp counted
  case shapeAppend => exact append_admits tag payload
  case shapeCompare => exact compare_admits tag payload
  case cueAdd =>
    refine ofUnits_admits fun cues read counted => ?_
    obtain ⟨parts, same, count, whole⟩ := readCues_whole read
    obtain ⟨low, high⟩ := counted_iff.mp counted
    exact ⟨parts, same, by omega, by omega, whole⟩

/-! ## The frames -/

theorem exec_gapTimeout {s : State} (running : s.link.rx.gapRunning = true) :
    exec .gapTimeout s = .next s.discardFrame := congrArg Host.Outcome.next (if_pos running)

/-- A frame of a listed kind that finds the part listening. -/
theorem execAll_listed {s : State} (listening : s.Listening) (kind : Kind) (tag : Byte) {payload : List Byte}
    (fits : payload.length ≤ 1024) :
    execAll ((frameBytes kind.code tag payload 0#16).map fun b => .byteReceived b false) s =
      .next ((s.openRequest kind.code tag).takeParsed (parseRequest kind tag payload)) := by
  rw [execAll_frame listening.outOfReset listening.hunting kind.code tag 0#16 fits, if_pos listening.ready,
    ← takeFrame_listed]
  rfl

/-- A RUN_FORCE frame does what the request its action set reads as does (R127). -/
theorem execAll_runForce {s : State} (listening : s.Listening) (tag actions : Byte) :
    execAll ((frameBytes Kind.runForce.code tag [actions] 0#16).map fun b => .byteReceived b false) s =
      .next ((s.openRequest 0x3B#8 tag).takeParsed (Parsed.ofActionSet tag actions)) :=
  execAll_listed listening .runForce tag (payload := [actions]) (by simp)

/-- Settles O27: each of these frames is discarded, answered by the link alone, or read by its action set. -/
theorem framesTurnedAway : Obligations.FramesTurnedAway := by
  unfold Obligations.FramesTurnedAway
  refine ⟨fun s running => ?_, fun s kind tag payload crcError listening fits wrong => ?_,
    fun s kind tag payload listening fits unlisted => ?_, fun s i kind tag payload carries fits =>
      ⟨fun out_of_reset busy hunting => ?_, fun listening miscounted => ?_⟩, fun s tag listening => ?_⟩
  · exact ⟨_, exec_gapTimeout running, rfl, latched_latch_self .., rfl⟩
  · rw [exec_badframe_in_hunt listening.outOfReset listening.hunting kind tag fits wrong, if_pos listening.ready]
  · rw [exec_unknownKind_in_hunt listening.outOfReset listening.hunting tag fits ((ofCode_eq_none_iff kind).mpr unlisted),
      if_pos listening.ready]
  · rw [exec_in_hunt out_of_reset hunting carries fits, busy, if_neg Bool.false_ne_true]
  · rw [exec_request (by rw [carries]; rfl), requestFrame_of_lengthOk_eq_false listening carries fits miscounted]
  · intro frame
    refine ⟨fun kind payload fits refused => ?_, fun actions => ⟨fun disable => ?_, fun no_disable abort => ?_,
      fun no_disable no_abort skip => ?_, fun no_disable no_abort no_skip => ?_⟩⟩
    · have bad := (admits_or_badLength kind tag payload).resolve_left refused
      exact (execAll_listed listening kind tag fits).trans (by rw [bad]; exact congrArg _ (State.openRequest_refuse ..))
    · rw [exec_of_listening listening (i := .runForceDisable tag (actions.getLsbD 1) (actions.getLsbD 2))
        (kind := .runForce) rfl rfl]
      refine (execAll_runForce listening tag actions).trans ?_
      rw [Parsed.ofActionSet, disable]
      rfl
    · rw [exec_of_listening listening (i := .runForceAbort tag (actions.getLsbD 2)) (kind := .runForce) rfl rfl]
      refine (execAll_runForce listening tag actions).trans ?_
      rw [Parsed.ofActionSet, no_disable, abort]
      rfl
    · rw [exec_of_listening listening (i := .runForceSkip tag) (kind := .runForce) rfl rfl]
      refine (execAll_runForce listening tag actions).trans ?_
      rw [Parsed.ofActionSet, no_disable, no_abort, skip]
      rfl
    · refine (execAll_runForce listening tag actions).trans ?_
      rw [Parsed.ofActionSet, no_disable, no_abort, no_skip]
      exact congrArg _ (State.openRequest_refuse ..)

end Sys2Proof.Proofs
end
